-- ==== Sys2Proof/Word.lean ====
section
/-! DEFINITION. The byte and the small named sets that the syntax and the state are made of. -/

namespace Sys2Proof

/-- A byte of the input stream or of the output history (R10: a byte is 8 bits). -/
abbrev Byte := BitVec 8

/-- The reader's bit order, the register MODE: `lsb` is 0, `msb` is 1 (R34, R85, R86). -/
inductive BitOrder where
  | lsb
  | msb
deriving DecidableEq, Repr, Inhabited

/-- The three Huffman table stores (R50). -/
inductive TableId where
  | cl  -- T_CL, the code-length alphabet
  | ll  -- T_LL, the literal/length alphabet
  | d   -- T_D, the distance alphabet
deriving DecidableEq, Repr, Inhabited

/-- The sequencer states of R37, in the order of their codes 0 to 17. -/
inductive Phase where
  | magic | cm | flg | mtime | xfl | os | fname | fcomment | fhcrc
  | blkhdr | storedHdr | storedData | dynHdr | dynLens | symbol | trailer
  | done | error
deriving DecidableEq, Repr, Inhabited

/-- The kinds of diagnostic event (R496). -/
inductive DiagKind where
  | blockStart | blockEnd | tableBuilt | symbolMatch
deriving DecidableEq, Repr, Inhabited

/-- One entry of a Huffman table, the source's HuffmanSymbol (R50): `code` is the alphabet value, `bits` the code
length, `symbol` the canonical code value, `rev` its bit reversal over `bits` bits. -/
structure Entry where
  code   : Nat
  bits   : Nat
  symbol : Nat
  rev    : Nat
deriving DecidableEq, Repr, Inhabited

end Sys2Proof
end

