-- ==== Sys2Proof/Config.lean ====
section
/-! DEFINITION. What an implementation fixes: the parameters of R9, and the free values of 93_implementation_defined.md. -/

namespace Sys2Proof

/-- The stored-block length test, the parameter NLEN_CHECK of R9 (90_conflicts.md C1, R296). -/
inductive NlenCheck where
  | andZero          -- AND_ZERO, the default
  | exactComplement  -- EXACT_COMPLEMENT
deriving DecidableEq, Repr, Inhabited

/-- The parameters of R9 that change behaviour; fixed from one reset to the next (R525). -/
structure Params where
  nlenCheck   : NlenCheck
  diagPresent : Bool
deriving DecidableEq, Repr, Inhabited

/-- The defaults that R9 and 95_test_vectors.md section 9 give: AND_ZERO, sink present (notes/assumptions/7). -/
def Params.default : Params := { nlenCheck := .andZero, diagPresent := true }

namespace Config

/-- MAX_READ_BITS: the widest read or peek (R9, R162). -/
def maxReadBits : Nat := 32

/-- MAX_CODE_BITS: the longest Huffman code (R9), of every table; CL_CODE_BITS, 7, is what the 3-bit fields of R302 give,
and bounds no build by itself (notes/assumptions/32). -/
def maxCodeBits : Nat := 15

/-- CL_TABLE_SLOTS, LL_TABLE_SLOTS and D_TABLE_SLOTS: each table's capacity (R9, R50). -/
def tableSlots : TableId → Nat
  | .cl => 19
  | .ll => 288
  | .d => 32

/-- The text of a diagnostic event: implementation-defined, any value (R495, R496; notes/assumptions/8). FREE VALUE. -/
opaque diagMessage : DiagKind → String

/-- What the table view shows in place of an entry of a MALFORMED table: any value
(93_implementation_defined.md, R206; notes/assumptions/9). FREE VALUE. -/
opaque malformedView : Entry → Entry

end Config

end Sys2Proof
end

