-- ==== Sys2Proof/Syntax.lean ====
section
/-! DEFINITION. The instructions: one constructor per row of spec/opcode_table.json (R3, R133). -/

namespace Sys2Proof

/-- The instruction set of the block: the elements of its input stream (R3), their continuations and symbols, and the
internal micro-operations. An element's operand FIELDS are not arguments here: its meaning reads them from the stream
in the order of its rule's pseudocode (R110). A symbol that is one of many in a row is an argument. -/
inductive Instr where
  -- gzip container (42_gzip_container.md)
  | gzMagic          -- GZ_MAGIC, R251
  | gzCm             -- GZ_CM, R253
  | gzFlg            -- GZ_FLG, R254
  | gzMtime          -- GZ_MTIME, R256
  | gzXfl            -- GZ_XFL, R257
  | gzOs             -- GZ_OS, R258
  | gzFextra         -- GZ_FEXTRA, the check of R259
  | gzFnameByte      -- GZ_FNAME_BYTE, R260
  | gzFcommentByte   -- GZ_FCOMMENT_BYTE, R261
  | gzFhcrc          -- GZ_FHCRC, R262
  -- blocks (43_block_state_machine.md)
  | blkhdr           -- BLKHDR, R291
  | blkStored        -- BLK_STORED, R292
  | blkFixed         -- BLK_FIXED, R293
  | blkDynamic       -- BLK_DYNAMIC, R294
  | blkReserved      -- BLK_RESERVED, R295
  | storedHdr        -- STORED_HDR, R296
  | storedByte       -- STORED_BYTE, R297
  | dynHdr           -- DYN_HDR, R300
  -- code-length symbols (43_block_state_machine.md)
  | clLenLit (s : BitVec 4)  -- CL_LEN_LIT, R304
  | clRepeatPrev     -- CL_REPEAT_PREV, R305
  | clZeroShort      -- CL_ZERO_SHORT, R306
  | clZeroLong       -- CL_ZERO_LONG, R307
  -- literal/length symbols (44_literal_length_distance.md)
  | lit (s : Byte)   -- LIT, R341
  | eob              -- EOB, R342
  | len257           -- LEN_257, R344
  | len258           -- LEN_258, R345
  | len259           -- LEN_259, R346
  | len260           -- LEN_260, R347
  | len261           -- LEN_261, R348
  | len262           -- LEN_262, R349
  | len263           -- LEN_263, R350
  | len264           -- LEN_264, R351
  | len265           -- LEN_265, R352
  | len266           -- LEN_266, R353
  | len267           -- LEN_267, R354
  | len268           -- LEN_268, R355
  | len269           -- LEN_269, R356
  | len270           -- LEN_270, R357
  | len271           -- LEN_271, R358
  | len272           -- LEN_272, R359
  | len273           -- LEN_273, R360
  | len274           -- LEN_274, R361
  | len275           -- LEN_275, R362
  | len276           -- LEN_276, R363
  | len277           -- LEN_277, R364
  | len278           -- LEN_278, R365
  | len279           -- LEN_279, R366
  | len280           -- LEN_280, R367
  | len281           -- LEN_281, R368
  | len282           -- LEN_282, R369
  | len283           -- LEN_283, R370
  | len284           -- LEN_284, R371
  | len285           -- LEN_285, R372
  | len286           -- LEN_286, R373
  | len287           -- LEN_287, R374
  -- distance symbols (44_literal_length_distance.md)
  | dist0            -- DIST_0, R376
  | dist1            -- DIST_1, R377
  | dist2            -- DIST_2, R378
  | dist3            -- DIST_3, R379
  | dist4            -- DIST_4, R380
  | dist5            -- DIST_5, R381
  | dist6            -- DIST_6, R382
  | dist7            -- DIST_7, R383
  | dist8            -- DIST_8, R384
  | dist9            -- DIST_9, R385
  | dist10           -- DIST_10, R386
  | dist11           -- DIST_11, R387
  | dist12           -- DIST_12, R388
  | dist13           -- DIST_13, R389
  | dist14           -- DIST_14, R390
  | dist15           -- DIST_15, R391
  | dist16           -- DIST_16, R392
  | dist17           -- DIST_17, R393
  | dist18           -- DIST_18, R394
  | dist19           -- DIST_19, R395
  | dist20           -- DIST_20, R396
  | dist21           -- DIST_21, R397
  | dist22           -- DIST_22, R398
  | dist23           -- DIST_23, R399
  | dist24           -- DIST_24, R400
  | dist25           -- DIST_25, R401
  | dist26           -- DIST_26, R402
  | dist27           -- DIST_27, R403
  | dist28           -- DIST_28, R404
  | dist29           -- DIST_29, R405
  | dist30           -- DIST_30, R406
  | dist31           -- DIST_31, R407
  -- gzip trailer (42_gzip_container.md)
  | gzTrailer        -- GZ_TRAILER, R270
  -- micro-operations (40_bit_reader.md, 41_huffman.md, 45_lz77_expander.md)
  | rb (n : Nat)                                       -- RB, ReadBits(n), R165
  | pb (n : Nat)                                       -- PB, PeekBits(n), R166
  | align                                              -- ALIGN, AlignToByte(), R167
  | bitpos                                             -- BITPOS, BitPos(), R168
  | setmode (m : BitOrder)                             -- SETMODE, SetMode(m), R169
  | buildRanges (t : TableId) (pairs : List (Nat × Int))  -- BUILD_RANGES, R201
  | buildLengths (t : TableId) (lens : List Nat)       -- BUILD_LENGTHS, R202
  | find (t : TableId)                                 -- FIND, FindNextSymbol(t), R210
  | append (v : Byte)                                  -- APPEND, OutAppend(v), R440
  | copy (dist n : Nat)                                -- COPY, Copy(dist, n), R441
deriving DecidableEq, Repr

end Sys2Proof
end

