-- ==== Sys2Proof/WellFormed.lean ====
section
/-! DEFINITION. Which instructions are well formed: each operand in the range its rule gives it. -/

namespace Sys2Proof

/-- A bootstrap list as BUILD_RANGES takes it from its second pair on: starts rise, each length before the last pair
is 0 to 15, and the last length, and no other, is -1 (R201). `at` is the start before. -/
def rangesRise (at_ : Nat) : List (Nat × Int) → Bool
  | [] => false
  | [(s, b)] => decide (at_ < s) && b == -1
  | (s, b) :: rest => decide (at_ < s) && decide (0 ≤ b) && decide (b ≤ 15) && rangesRise s rest

/-- The operand of BuildFromRanges (R201): the first start is 0, the starts ascend, the last length is -1. The list of
the terminal pair alone is one of them, an alphabet of no codes: R201 does not say that `n` is 1 or more, and its
pseudocode gives that list an empty table (the model's choice: notes/assumptions/25). -/
def rangesOk : List (Nat × Int) → Bool
  | [(0, b)] => b == -1
  | (0, b) :: rest => decide (0 ≤ b) && decide (b ≤ 15) && rangesRise 0 rest
  | _ => false

/-- The alphabet size a bootstrap list gives: the start of its terminal pair (R201). -/
def rangesSize : List (Nat × Int) → Nat
  | [] => 0
  | [(s, _)] => s
  | _ :: rest => rangesSize rest

/-- The operand of BuildFromLengths: at most the store's capacity of lengths, each 0 to 15 (R202). R202 gives the number
of lengths as that of its callers, 19 for T_CL, HLIT for T_LL and HDIST for T_D, or the range list's; that a build by
itself takes any number the store has room for is the model's choice (notes/assumptions/31), and so is that one into T_CL
takes lengths up to 15, as R202 has them, where R9 fixes CL_CODE_BITS at 7 (notes/assumptions/32). -/
def lengthsOk (t : TableId) (lens : List Nat) : Bool :=
  decide (lens.length ≤ Config.tableSlots t) && lens.all (fun b => decide (b ≤ Config.maxCodeBits))

/-- Every operand in the range its rule states. -/
def Instr.wf : Instr → Bool
  | .rb n => decide (n ≤ Config.maxReadBits)                 -- R162
  | .pb n => decide (n ≤ Config.maxReadBits)                 -- R162
  | .buildRanges t pairs => rangesOk pairs && decide (rangesSize pairs ≤ Config.tableSlots t)  -- R201
  | .buildLengths t lens => lengthsOk t lens                 -- R202
  | .copy dist n => decide (1 ≤ dist) && decide (dist ≤ 32768) && decide (3 ≤ n) && decide (n ≤ 258)  -- R441
  | _ => true

end Sys2Proof
end

