-- ==== Sys2Proof/Decode.lean ====
section
/-! DEFINITION. The decoder: which instruction a selecting value stands for (R126, R127, R316, R340, R291), the encoder
written from the same tables, the fixed Huffman codes of R123 and R124, and the bits of an element on the wire. -/

namespace Sys2Proof

/-- Where a selecting value stands: what the spec's decode map is keyed by (R126, R127, R133). -/
inductive Slot where
  | phase (p : Phase)  -- the element of a phase (R126); the field's value selects nothing
  | flags              -- the flag byte, for the check of R259
  | header             -- the 3-bit block header, BFINAL + 2*BTYPE (R115)
  | codeLength         -- a symbol of T_CL (R119)
  | litLen             -- a symbol of T_LL (R120)
  | distance           -- a symbol of T_D (R127)
deriving DecidableEq, Repr

/-- Why a value is no instruction, by name. -/
inductive DecodeError where
  | noElement (p : Phase)     -- the phase executes no element by itself (R126): done, error, or one that needs a symbol
  | noFlagCheck (v : Nat)     -- the flag byte has FEXTRA 0, so no check applies (R259)
  | notHeader (v : Nat)       -- wider than the 3-bit header (R115)
  | notCodeLength (v : Nat)   -- above 18 (R308)
  | notLitLen (v : Nat)       -- above 287 (R340)
  | notDistance (v : Nat)     -- above 31 (R127)
deriving DecidableEq, Repr

/-- The element a phase executes (R126). -/
def decodePhase : Phase → Except DecodeError Instr
  | .magic => .ok .gzMagic
  | .cm => .ok .gzCm
  | .flg => .ok .gzFlg
  | .mtime => .ok .gzMtime
  | .xfl => .ok .gzXfl
  | .os => .ok .gzOs
  | .fname => .ok .gzFnameByte
  | .fcomment => .ok .gzFcommentByte
  | .fhcrc => .ok .gzFhcrc
  | .blkhdr => .ok .blkhdr
  | .storedHdr => .ok .storedHdr
  | .storedData => .ok .storedByte
  | .dynHdr => .ok .dynHdr
  | .trailer => .ok .gzTrailer
  | .dynLens => .error (.noElement .dynLens)
  | .symbol => .error (.noElement .symbol)
  | .done => .error (.noElement .done)
  | .error => .error (.noElement .error)

/-- The continuation a block header selects by its BTYPE field, bits 2 and 1 (R115, R291). -/
def decodeHeader (h : Nat) : Except DecodeError Instr :=
  if 8 ≤ h then .error (.notHeader h)
  else match h / 2 with
    | 0 => .ok .blkStored
    | 1 => .ok .blkFixed
    | 2 => .ok .blkDynamic
    | _ => .ok .blkReserved

/-- The code-length symbol's instruction (R119, R316). -/
def decodeCodeLength (v : Nat) : Except DecodeError Instr :=
  if v ≤ 15 then .ok (.clLenLit (BitVec.ofNat 4 v))
  else match v with
    | 16 => .ok .clRepeatPrev
    | 17 => .ok .clZeroShort
    | 18 => .ok .clZeroLong
    | _ => .error (.notCodeLength v)

/-- The literal/length symbol's instruction (R120, R340). -/
def decodeLitLen (v : Nat) : Except DecodeError Instr :=
  if v ≤ 255 then .ok (.lit (BitVec.ofNat 8 v))
  else match v with
    | 256 => .ok .eob
    | 257 => .ok .len257
    | 258 => .ok .len258
    | 259 => .ok .len259
    | 260 => .ok .len260
    | 261 => .ok .len261
    | 262 => .ok .len262
    | 263 => .ok .len263
    | 264 => .ok .len264
    | 265 => .ok .len265
    | 266 => .ok .len266
    | 267 => .ok .len267
    | 268 => .ok .len268
    | 269 => .ok .len269
    | 270 => .ok .len270
    | 271 => .ok .len271
    | 272 => .ok .len272
    | 273 => .ok .len273
    | 274 => .ok .len274
    | 275 => .ok .len275
    | 276 => .ok .len276
    | 277 => .ok .len277
    | 278 => .ok .len278
    | 279 => .ok .len279
    | 280 => .ok .len280
    | 281 => .ok .len281
    | 282 => .ok .len282
    | 283 => .ok .len283
    | 284 => .ok .len284
    | 285 => .ok .len285
    | 286 => .ok .len286
    | 287 => .ok .len287
    | _ => .error (.notLitLen v)

/-- The distance symbol's instruction (R127). -/
def decodeDistance (v : Nat) : Except DecodeError Instr :=
  match v with
  | 0 => .ok .dist0
  | 1 => .ok .dist1
  | 2 => .ok .dist2
  | 3 => .ok .dist3
  | 4 => .ok .dist4
  | 5 => .ok .dist5
  | 6 => .ok .dist6
  | 7 => .ok .dist7
  | 8 => .ok .dist8
  | 9 => .ok .dist9
  | 10 => .ok .dist10
  | 11 => .ok .dist11
  | 12 => .ok .dist12
  | 13 => .ok .dist13
  | 14 => .ok .dist14
  | 15 => .ok .dist15
  | 16 => .ok .dist16
  | 17 => .ok .dist17
  | 18 => .ok .dist18
  | 19 => .ok .dist19
  | 20 => .ok .dist20
  | 21 => .ok .dist21
  | 22 => .ok .dist22
  | 23 => .ok .dist23
  | 24 => .ok .dist24
  | 25 => .ok .dist25
  | 26 => .ok .dist26
  | 27 => .ok .dist27
  | 28 => .ok .dist28
  | 29 => .ok .dist29
  | 30 => .ok .dist30
  | 31 => .ok .dist31
  | _ => .error (.notDistance v)

/-- The decoder: the instruction a value stands for in a slot, or the name of what is wrong. Total. -/
def decode : Slot → Nat → Except DecodeError Instr
  | .phase p, _ => decodePhase p
  | .flags, v => if v.testBit 2 then .ok .gzFextra else .error (.noFlagCheck v)
  | .header, v => decodeHeader v
  | .codeLength, v => decodeCodeLength v
  | .litLen, v => decodeLitLen v
  | .distance, v => decodeDistance v

/-- The encoder: the slot and the value by which the stream selects an instruction, each value the row's `match` in
spec/opcode_table.json; none for a micro-operation, which has no stream encoding (R133). -/
def encode : Instr → Option (Slot × Nat)
  | .gzMagic => some (.phase .magic, 0x1F8B)
  | .gzCm => some (.phase .cm, 0x08)
  | .gzFlg => some (.phase .flg, 0)
  | .gzMtime => some (.phase .mtime, 0)
  | .gzXfl => some (.phase .xfl, 0)
  | .gzOs => some (.phase .os, 0)
  | .gzFextra => some (.flags, 0x04)
  | .gzFnameByte => some (.phase .fname, 0)
  | .gzFcommentByte => some (.phase .fcomment, 0)
  | .gzFhcrc => some (.phase .fhcrc, 0)
  | .blkhdr => some (.phase .blkhdr, 0)
  | .blkStored => some (.header, 0b000)
  | .blkFixed => some (.header, 0b010)
  | .blkDynamic => some (.header, 0b100)
  | .blkReserved => some (.header, 0b110)
  | .storedHdr => some (.phase .storedHdr, 0)
  | .storedByte => some (.phase .storedData, 0)
  | .dynHdr => some (.phase .dynHdr, 0)
  | .clLenLit s => some (.codeLength, s.toNat)
  | .clRepeatPrev => some (.codeLength, 0x10)
  | .clZeroShort => some (.codeLength, 0x11)
  | .clZeroLong => some (.codeLength, 0x12)
  | .lit s => some (.litLen, s.toNat)
  | .eob => some (.litLen, 0x100)
  | .len257 => some (.litLen, 0x101)
  | .len258 => some (.litLen, 0x102)
  | .len259 => some (.litLen, 0x103)
  | .len260 => some (.litLen, 0x104)
  | .len261 => some (.litLen, 0x105)
  | .len262 => some (.litLen, 0x106)
  | .len263 => some (.litLen, 0x107)
  | .len264 => some (.litLen, 0x108)
  | .len265 => some (.litLen, 0x109)
  | .len266 => some (.litLen, 0x10A)
  | .len267 => some (.litLen, 0x10B)
  | .len268 => some (.litLen, 0x10C)
  | .len269 => some (.litLen, 0x10D)
  | .len270 => some (.litLen, 0x10E)
  | .len271 => some (.litLen, 0x10F)
  | .len272 => some (.litLen, 0x110)
  | .len273 => some (.litLen, 0x111)
  | .len274 => some (.litLen, 0x112)
  | .len275 => some (.litLen, 0x113)
  | .len276 => some (.litLen, 0x114)
  | .len277 => some (.litLen, 0x115)
  | .len278 => some (.litLen, 0x116)
  | .len279 => some (.litLen, 0x117)
  | .len280 => some (.litLen, 0x118)
  | .len281 => some (.litLen, 0x119)
  | .len282 => some (.litLen, 0x11A)
  | .len283 => some (.litLen, 0x11B)
  | .len284 => some (.litLen, 0x11C)
  | .len285 => some (.litLen, 0x11D)
  | .len286 => some (.litLen, 0x11E)
  | .len287 => some (.litLen, 0x11F)
  | .dist0 => some (.distance, 0x00)
  | .dist1 => some (.distance, 0x01)
  | .dist2 => some (.distance, 0x02)
  | .dist3 => some (.distance, 0x03)
  | .dist4 => some (.distance, 0x04)
  | .dist5 => some (.distance, 0x05)
  | .dist6 => some (.distance, 0x06)
  | .dist7 => some (.distance, 0x07)
  | .dist8 => some (.distance, 0x08)
  | .dist9 => some (.distance, 0x09)
  | .dist10 => some (.distance, 0x0A)
  | .dist11 => some (.distance, 0x0B)
  | .dist12 => some (.distance, 0x0C)
  | .dist13 => some (.distance, 0x0D)
  | .dist14 => some (.distance, 0x0E)
  | .dist15 => some (.distance, 0x0F)
  | .dist16 => some (.distance, 0x10)
  | .dist17 => some (.distance, 0x11)
  | .dist18 => some (.distance, 0x12)
  | .dist19 => some (.distance, 0x13)
  | .dist20 => some (.distance, 0x14)
  | .dist21 => some (.distance, 0x15)
  | .dist22 => some (.distance, 0x16)
  | .dist23 => some (.distance, 0x17)
  | .dist24 => some (.distance, 0x18)
  | .dist25 => some (.distance, 0x19)
  | .dist26 => some (.distance, 0x1A)
  | .dist27 => some (.distance, 0x1B)
  | .dist28 => some (.distance, 0x1C)
  | .dist29 => some (.distance, 0x1D)
  | .dist30 => some (.distance, 0x1E)
  | .dist31 => some (.distance, 0x1F)
  | .gzTrailer => some (.phase .trailer, 0)
  | .rb _ => none
  | .pb _ => none
  | .align => none
  | .bitpos => none
  | .setmode _ => none
  | .buildRanges _ _ => none
  | .buildLengths _ _ => none
  | .find _ => none
  | .append _ => none
  | .copy _ _ => none

/-- The `n` bits of `v`, least significant bit first: an LSB-first field on the wire (R85). -/
def lsbBits : Nat → Nat → List Bool
  | 0, _ => []
  | n + 1, v => v.testBit 0 :: lsbBits n (v / 2)

/-- The `n` bits of `v`, most significant bit first: an MSB-first field (R86), or a Huffman code (R89, R121). -/
def msbBits : Nat → Nat → List Bool
  | 0, _ => []
  | n + 1, v => v.testBit n :: msbBits n v

/-- The fixed code of literal/length symbol `v`: its length and its canonical value (R123). -/
def fixedLitLenCode (v : Nat) : Nat × Nat :=
  if v < 144 then (8, v + 0x30)
  else if v < 256 then (9, v - 144 + 0x190)
  else if v < 280 then (7, v - 256)
  else (8, v - 280 + 0xC0)

/-- The fixed code of distance symbol `d`: five bits, value `d` (R124). -/
def fixedDistanceCode (d : Nat) : Nat × Nat := (5, d)

/-- The bits of literal/length symbol `v` in a fixed block, in wire order. -/
def fixedLitLenBits (v : Nat) : List Bool := msbBits (fixedLitLenCode v).1 (fixedLitLenCode v).2

/-- The bits of distance symbol `d` in a fixed block, in wire order. -/
def fixedDistanceBits (d : Nat) : List Bool := msbBits (fixedDistanceCode d).1 (fixedDistanceCode d).2

/-- The bits that put an instruction on the wire, its field holding the table word `w` (R111 to R117, numbered as
spec/opcode_table.json numbers them). Literal/length and distance symbols take their fixed code; a code-length symbol
takes its code in the table in which all nineteen symbols have five bits (symbol value = code, as R204 assigns it);
a distance symbol stands behind LEN_257, which reads no extra bits. -/
def wireBits (i : Instr) (w : Nat) : List Bool :=
  match encode i with
  | some (.phase .magic, _) => msbBits 16 w
  | some (.phase .mtime, _) => lsbBits 32 w
  | some (.phase .fhcrc, _) => lsbBits 16 w
  | some (.phase .blkhdr, _) => lsbBits 3 w
  | some (.phase .storedHdr, _) => lsbBits 32 w
  | some (.phase .dynHdr, _) => lsbBits 14 w
  | some (.phase .trailer, _) => lsbBits 64 w
  | some (.phase _, _) => lsbBits 8 w
  | some (.flags, _) => lsbBits 8 0
  | some (.header, _) => lsbBits 3 w
  | some (.codeLength, v) => msbBits 5 v
  | some (.litLen, v) => fixedLitLenBits v
  | some (.distance, v) => fixedLitLenBits 257 ++ fixedDistanceBits v
  | none => []

/-- One row of spec/opcode_table.json that has a stream encoding: how many bits select it, its mask and match, and
the slot its value stands in. -/
structure TableRow where
  width : Nat
  value : Nat
  mask  : Nat
  slot  : Slot
deriving DecidableEq, Repr

/-- The rows with a stream encoding, in the table's order (GZ_FEXTRA has width 0: it is no element, R259). -/
def tableRows : List TableRow :=
  [⟨16, 0x1F8B, 0xFFFF, .phase .magic⟩, ⟨8, 0x08, 0xFF, .phase .cm⟩, ⟨8, 0, 0, .phase .flg⟩,
   ⟨32, 0, 0, .phase .mtime⟩, ⟨8, 0, 0, .phase .xfl⟩, ⟨8, 0, 0, .phase .os⟩, ⟨0, 0x04, 0x04, .flags⟩,
   ⟨8, 0, 0, .phase .fname⟩, ⟨8, 0, 0, .phase .fcomment⟩, ⟨16, 0, 0, .phase .fhcrc⟩,
   ⟨3, 0, 0, .phase .blkhdr⟩, ⟨3, 0b000, 0b110, .header⟩, ⟨3, 0b010, 0b110, .header⟩,
   ⟨3, 0b100, 0b110, .header⟩, ⟨3, 0b110, 0b110, .header⟩, ⟨32, 0, 0, .phase .storedHdr⟩,
   ⟨8, 0, 0, .phase .storedData⟩, ⟨14, 0, 0, .phase .dynHdr⟩]
  ++ [⟨5, 0x00, 0x10, .codeLength⟩, ⟨5, 0x10, 0x1F, .codeLength⟩, ⟨5, 0x11, 0x1F, .codeLength⟩,
   ⟨5, 0x12, 0x1F, .codeLength⟩, ⟨9, 0x000, 0x100, .litLen⟩]
  ++ (List.range 32).map (fun k => ⟨9, 0x100 + k, 0x1FF, .litLen⟩)
  ++ (List.range 32).map (fun k => ⟨5, k, 0x1F, .distance⟩)
  ++ [⟨64, 0, 0, .phase .trailer⟩]

/-- The row a table word is read by. The table's words do not say which phase they are met in, so several rows can
admit one word: the first row, in the table's order, whose whole match it is; else the first that its mask admits;
else the first that fixes no bit (notes/assumptions/10, DESIGN CHOICE). -/
def rowOfWord (nbits w : Nat) : Option TableRow :=
  let rows := tableRows.filter fun r =>
    (r.width == nbits || (r.width + 7) / 8 * 8 == nbits) && decide (0 < r.width) && decide (w < 2 ^ r.width)
  (rows.find? fun r => r.mask != 0 && r.value == w) <|>
  (rows.find? fun r => r.mask != 0 && w &&& r.mask == r.value) <|>
  (rows.find? fun r => r.mask == 0)

/-- The instruction the decoder reads from a word numbered as spec/opcode_table.json numbers it (`nbits`: the row's
width, exact or in whole bytes): the word stands in its row's slot. -/
def decodeTableWord (nbits w : Nat) : Option Instr :=
  match rowOfWord nbits w with
  | none => none
  | some r => match decode r.slot w with
    | .ok i => some i
    | .error _ => none

end Sys2Proof
end

