-- ==== Sys2Proof/Machine/State.lean ====
section
/-! DEFINITION. The state of the block (10_state.md), the host's side of its ports, the reasons a step can stop, and
the state after reset (R60). -/

namespace Sys2Proof.Machine

open Sys2Proof

/-- The byte-addressed store HIST as cells (address, byte), addresses strictly rising (R83; notes/assumptions/6).
An unlisted address holds no byte. -/
abbrev Memory := List Host.Cell

/-- The error kinds of R470, `none` for no error. -/
inductive ErrKind where
  | none | unexpectedEof | badMagic | unsupportedMethod | unsupportedFeature | invalidBlockType | lengthMismatch
  | invalidCodeLengthSymbol | invalidDistanceSymbol | invalidLengthSymbol | symbolNotFound | distanceTooFar
deriving DecidableEq, Repr, Inhabited

/-- Why the machine stops with a fault. Both are for states that no run from reset reaches. -/
inductive Fault where
  /-- Raised by a history read (`COPY`, `LEN_257` to `LEN_285`) at an index that holds no byte: R83 gives the store no
  such address. Safe: the machine stops. -/
  | histUnwritten (index : Nat)
  /-- Raised by `Append` of R316 (`CL_LEN_LIT`, `CL_REPEAT_PREV`, `CL_ZERO_SHORT`, `CL_ZERO_LONG`) for a use of `LENS`
  outside `LENS[0..319]` (R46), which needs counts outside R44's ranges. Safe: the machine stops. -/
  | lensOutOfRange (index : Nat)
deriving DecidableEq, Repr

/-- Why there is no meaning. Apart from `notModelled`, each is a precondition the spec says a model rejects
(93_implementation_defined.md, treatment `refuse`) or an operand outside the range its rule states. -/
inductive Refusal where
  /-- Raised by exec's arm of an instruction that has no meaning yet (none is left). Safe. -/
  | notModelled (mnemonic : String)
  /-- Raised by `RB` and `PB` with n above 32 (R162). Safe. -/
  | readTooWide (n : Nat)
  /-- Raised by `SETMODE` with buffered bits (R169). Safe. -/
  | setModeBuffered (cnt : Nat)
  /-- Raised by `BUILD_RANGES` on a list whose first start is not 0, whose starts do not ascend, or whose lengths are
  out of range or do not end with -1 (R201; notes/assumptions/14 and 25). Safe. -/
  | badRangeList
  /-- Raised by `BUILD_LENGTHS` (and by `BUILD_RANGES` through it) on more lengths than the store holds or a length
  above 15 (the operand range of R202; notes/assumptions/14). Safe. -/
  | badLengthList (t : TableId)
  /-- Raised by `COPY` with distance 0 or above OUT_COUNT (R441). Safe. -/
  | badCopyDistance (dist : Nat)
  /-- Raised by the sequencer when a table of a state no run reaches yields a symbol outside its alphabet (R340, R127;
  notes/assumptions/15). Safe. -/
  | noSuchSymbol (symbol : Nat)
  /-- Raised by the sequencer in a phase that the decoder gives no element; the running phases all have one. Safe. -/
  | noElement
  /-- Raised by the host's act of changing a parameter between two resets (R525). Safe. -/
  | parameterChanged
  /-- Raised by the host's act of presenting input after it has ended it (R80; notes/assumptions/17). Safe. -/
  | inputAfterEnd
deriving DecidableEq, Repr

/-- The bit reader's registers (R163). -/
structure Reader where
  acc    : Nat        -- ACC, R31
  cnt    : Nat        -- CNT, R32
  nfetch : Nat        -- NFETCH, R33
  mode   : BitOrder   -- MODE, R34
  inWait : Bool       -- IN_WAIT, R54
deriving DecidableEq, Repr

/-- The sequencer's registers (R37 to R46). -/
structure Sequencer where
  phase     : Phase                   -- PHASE, R37
  bfinal    : Bool                    -- BFINAL, R39
  btype     : BitVec 2                -- BTYPE, R40
  flg       : BitVec 8                -- FLG, R41
  storedRem : BitVec 16               -- STORED_REM, R43
  hlit      : BitVec 9                -- HLIT, R44
  hdist     : BitVec 6                -- HDIST, R44
  hclen     : BitVec 5                -- HCLEN, R44
  clLen     : Vector (BitVec 3) 19    -- CL_LEN, R45
  lens      : Vector (BitVec 4) 320   -- LENS, R46
  lensN     : Nat                     -- LENS_N, R46
deriving DecidableEq, Repr

/-- The output history (R47). -/
structure History where
  hist     : Memory   -- HIST
  outCount : Nat      -- OUT_COUNT
deriving DecidableEq, Repr

/-- One Huffman table store (R50): `t.E` and `t.MALFORMED`; `t.N` is the length of `t.E`. -/
structure Table where
  entries   : List Entry
  malformed : Bool
deriving DecidableEq, Repr

/-- `t.N` (R50). -/
abbrev Table.size (t : Table) : Nat := t.entries.length

/-- The three table stores (R50). -/
structure Tables where
  cl : Table   -- T_CL
  ll : Table   -- T_LL
  d  : Table   -- T_D
deriving DecidableEq, Repr

/-- The port and status registers (R48, R49, R53). -/
structure Ports where
  outPend      : Bool        -- OUT_PEND
  outChunk     : List Byte   -- OUT_CHUNK
  done         : Bool        -- DONE
  error        : Bool        -- ERROR
  errKind      : ErrKind     -- ERR_KIND
  errBitpos    : Nat         -- ERR_BITPOS
  trailerCrc32 : BitVec 32   -- TRAILER_CRC32
  trailerIsize : BitVec 32   -- TRAILER_ISIZE
deriving DecidableEq, Repr

/-- One event on the diagnostic port: its bit offset and kind, the part of it that is normative (R495, R496). -/
structure DiagEvent where
  pos  : Nat
  kind : DiagKind
deriving DecidableEq, Repr

/-- The block: the five register groups of R30, and two fields of the model's own (notes/assumptions/4 and 8): what
the last micro-operation instruction returned, and the diagnostic events sent since reset, oldest first. -/
structure Block where
  reader  : Reader
  seq     : Sequencer
  history : History
  tables  : Tables
  ports   : Ports
  result  : Nat
  diag    : List DiagEvent
deriving DecidableEq, Repr

/-- What the host can do (R493, R520, R524): its acts are data of the state (notes/assumptions/1). -/
inductive HostAct where
  | reset (p : Params)          -- assert reset, with the parameters of the new decode (R520, R525)
  | present (bytes : List Byte) -- make these next bytes of the input available at the port (R80)
  | finish                      -- let the port answer End after the bytes presented so far (R80)
  | accept                      -- accept the pending chunk (R82)
  | pass                        -- leave the block alone for one step
  | setParams (p : Params)      -- change a parameter between resets, which R525 excludes
deriving DecidableEq, Repr

/-- The state of the machine: the block, and beside it the parameters (R9) and the host's side of the ports, which R30
says is no state of the block (notes/assumptions/1, 3 and 7). -/
structure State extends Block where
  params     : Params            -- NLEN_CHECK and DIAG_PRESENT, fixed between resets
  input      : List Byte         -- IN: the bytes presented since reset, first byte first
  inputEnd   : Bool              -- the source is exhausted after `input`
  host       : List HostAct      -- the host's acts still to come, next one first
  autoAccept : Bool              -- the consumer accepts every chunk as soon as it is offered
  accepted   : List (List Byte)  -- the chunks accepted since reset, oldest first
  suspended  : Option Block      -- the block as it was when the element that waits for input began
deriving DecidableEq, Repr

/-- The answer of an operation of the block. `raise` carries the error's bit position and the registers as the failing
operation leaves them (R16, R486); `wait` the registers while the input port has not answered (R521). -/
inductive Res (α : Type) where
  | ok (a : α) (s : State)
  | raise (k : ErrKind) (pos : Nat) (s : State)
  | wait (s : State)
  | fault (f : Fault)
  | refused (r : Refusal)
deriving Repr

/-- The block's registers after reset (R60). -/
def Block.reset : Block :=
  { reader  := { acc := 0, cnt := 0, nfetch := 0, mode := .msb, inWait := false }
    seq     := { phase := .magic, bfinal := false, btype := 0, flg := 0, storedRem := 0, hlit := 0, hdist := 0,
                 hclen := 0, clLen := Vector.replicate 19 0, lens := Vector.replicate 320 0, lensN := 0 }
    history := { hist := [], outCount := 0 }
    tables  := { cl := ⟨[], false⟩, ll := ⟨[], false⟩, d := ⟨[], false⟩ }
    ports   := { outPend := false, outChunk := [], done := false, error := false, errKind := .none, errBitpos := 0,
                 trailerCrc32 := 0, trailerIsize := 0 }
    result  := 0
    diag    := [] }

/-- The machine right after reset, with nothing presented at the input port (R520, R60; the fields that are the
model's own: notes/assumptions/21). -/
def State.reset : State :=
  { toBlock := Block.reset, params := Params.default, input := [], inputEnd := false, host := [], autoAccept := true,
    accepted := [], suspended := none }

end Sys2Proof.Machine
end

