-- ==== Sys2Proof/Machine/Ops.lean ====
section
/-! DEFINITION. The shared operations over the registers and the history store: register-group writes, the bit reader's
primitives (40_bit_reader.md), diagnostics, the history's reads and writes, chunk offers, error entry (R485), reset
(R520), and how an operation's answer becomes the outcome of a step. -/

namespace Sys2Proof.Machine

open Sys2Proof

/-! ## Sequencing -/

/-- Run `f` on what the operation before it answered; anything but `ok` ends the element (R16: a raise stops the
pseudocode). -/
def Res.bind {α β : Type} (r : Res α) (f : α → State → Res β) : Res β :=
  match r with
  | .ok a s => f a s
  | .raise k q s => .raise k q s
  | .wait s => .wait s
  | .fault e => .fault e
  | .refused e => .refused e

/-! ## Register-group writes (R11: a write is seen by the next primitive) -/

def State.withReader (s : State) (r : Reader) : State := { s with reader := r }
def State.withSeq (s : State) (q : Sequencer) : State := { s with seq := q }
def State.withHistory (s : State) (h : History) : State := { s with history := h }
def State.withTables (s : State) (t : Tables) : State := { s with tables := t }
def State.withPorts (s : State) (p : Ports) : State := { s with ports := p }
def State.withResult (s : State) (v : Nat) : State := { s with result := v }
def State.withDiag (s : State) (d : List DiagEvent) : State := { s with diag := d }

/-- `PHASE <- p`, the control transfer of this block (R16). -/
def State.setPhase (s : State) (p : Phase) : State := s.withSeq { s.seq with phase := p }

/-! ## The bit reader (40_bit_reader.md) -/

/-- `BitPos()` (R168): the bit position, this block's program counter (R36). -/
def Reader.bitPos (r : Reader) : Nat := 8 * r.nfetch - r.cnt

/-- `BitPos()` of the state. -/
def State.bitPos (s : State) : Nat := s.reader.bitPos

/-- `raise k` at the current bit position (R16, R486). -/
def raiseHere {α : Type} (k : ErrKind) (s : State) : Res α := .raise k s.bitPos s

/-- The answers of the input port to one request (R12, R80, R521). -/
def inByte (s : State) : Option (Option Byte) :=
  match s.input[s.reader.nfetch]? with
  | some b => some (some b)                          -- Byte(b)
  | none => if s.inputEnd then some none else none   -- End, or no answer yet

/-- The reader with one fetched byte added to ACC in the current bit order (the loop body of R164). -/
def Reader.takeByte (r : Reader) (b : Byte) : Reader :=
  { r with
    acc := match r.mode with
      | .lsb => r.acc ||| (b.toNat <<< r.cnt)
      | .msb => (r.acc <<< 8) ||| b.toNat
    cnt := r.cnt + 8
    nfetch := r.nfetch + 1
    inWait := false }

/-- The loop of `Refill(n, p0)` (R164); `fuel` bounds its turns, and `n` turns always suffice, since each adds 8 bits. -/
def refillLoop : Nat → Nat → Nat → State → Res Unit
  | 0, _, _, s => .ok () s
  | fuel + 1, n, p0, s =>
    if s.reader.cnt < n then
      match inByte s with
      | some (some b) => refillLoop fuel n p0 (s.withReader (s.reader.takeByte b))
      | some none => .raise .unexpectedEof p0 (s.withReader { s.reader with inWait := false })
      | none => .wait (s.withReader { s.reader with inWait := true })
    else .ok () s

/-- `Refill(n, p0)`: bring at least `n` bits into ACC, one requested byte at a time (R164, R170). -/
def refill (n p0 : Nat) (s : State) : Res Unit := refillLoop n n p0 s

/-- The `n`-bit field of `v` whose lowest bit is bit `lo`: `v[lo+n-1:lo]` (R10). -/
def field (v lo n : Nat) : Nat := (v >>> lo) % 2 ^ n

/-- The next `n` buffered bits as a value: `ACC[n-1:0]`, or `ACC[CNT-1:CNT-n]` in MSB-first mode (R165, R166). -/
def Reader.front (r : Reader) (n : Nat) : Nat :=
  match r.mode with
  | .lsb => field r.acc 0 n
  | .msb => field r.acc (r.cnt - n) n

/-- The reader after the next `n` buffered bits are consumed (R165). -/
def Reader.drop (r : Reader) (n : Nat) : Reader :=
  { r with
    acc := match r.mode with
      | .lsb => r.acc >>> n
      | .msb => field r.acc 0 (r.cnt - n)
    cnt := r.cnt - n }

/-- `ReadBits(n)` (R165); `n` above 32 is refused (R162). -/
def readBits (n : Nat) (s : State) : Res Nat :=
  if Config.maxReadBits < n then .refused (.readTooWide n)
  else (refill n s.bitPos s).bind fun _ t => .ok (t.reader.front n) (t.withReader (t.reader.drop n))

/-- `PeekBits(n)` (R166): as a read, without the advance. -/
def peekBits (n : Nat) (s : State) : Res Nat :=
  if Config.maxReadBits < n then .refused (.readTooWide n)
  else (refill n s.bitPos s).bind fun _ t => .ok (t.reader.front n) t

/-- `AlignToByte()` (R167): discard the rest of the current byte, and return how many bits that was. -/
def alignToByte (s : State) : Res Nat :=
  (readBits (s.reader.cnt % 8) s).bind fun _ t => .ok (s.reader.cnt % 8) t

/-- `SetMode(m)` (R169), refused while bits are buffered. It returns no value (notes/assumptions/29). -/
def setMode (m : BitOrder) (s : State) : Res Unit :=
  if s.reader.cnt = 0 then .ok () (s.withReader { s.reader with mode := m, acc := 0 })
  else .refused (.setModeBuffered s.reader.cnt)

/-! ## Diagnostics (R494 to R497) -/

/-- `Diag(k)` (R495): one event with the current bit position, if the sink is present. -/
def sendDiag (k : DiagKind) (s : State) : State :=
  if s.params.diagPresent then s.withDiag (s.diag ++ [⟨s.bitPos, k⟩]) else s

/-! ## The history store (R14, R83, R440) -/

/-- The byte at an address of the store, none where no byte was written. -/
def Memory.read : Memory → Nat → Option Byte
  | [], _ => none
  | (b, v) :: m, a => if a = b then some v else Memory.read m a

/-- The store with byte `v` at address `a`, its addresses still strictly rising. -/
def Memory.write : Memory → Nat → Byte → Memory
  | [], a, v => [(a, v)]
  | (b, w) :: m, a, v =>
    if a < b then (a, v) :: (b, w) :: m
    else if a = b then (a, v) :: m
    else (b, w) :: Memory.write m a v

/-- Every address of the store is above `lo`, and they rise strictly. -/
def Memory.risesFrom (lo : Nat) : Memory → Bool
  | [] => true
  | (b, _) :: m => decide (lo < b) && Memory.risesFrom b m

/-- The canonical form of a store: addresses strictly rising. An unlisted address holds no byte, so no entry can equal
what an unlisted address reads as. -/
def Memory.wf : Memory → Bool
  | [] => true
  | (b, _) :: m => Memory.risesFrom b m

/-- `MemRead(a, 1)` (R14): the history byte at absolute index `a`; an index with no byte is a fault (R83). -/
def memRead (a : Nat) (s : State) : Res Byte :=
  match s.history.hist.read a with
  | some v => .ok v s
  | none => .fault (.histUnwritten a)

/-- `OutAppend(v)` (R440): the store of this block, at index OUT_COUNT only. -/
def outAppend (v : Byte) (s : State) : State :=
  s.withHistory { hist := s.history.hist.write s.history.outCount v, outCount := s.history.outCount + 1 }

/-- The `n` history bytes from index `p` on: the run that a chunk offers (R343). -/
def histSlice : Nat → Nat → State → Res (List Byte)
  | _, 0, s => .ok [] s
  | p, n + 1, s => (memRead p s).bind fun v t => (histSlice (p + 1) n t).bind fun vs u => .ok (v :: vs) u

/-- `Emit(c)` (R14, R53): offer the chunk `c` on the output port. -/
def emit (c : List Byte) (s : State) : State := s.withPorts { s.ports with outChunk := c, outPend := true }

/-! ## Error entry and reset -/

/-- `ErrorEntry(k, q)` (R485): the one entry into the error state. It writes ERROR, ERR_KIND, ERR_BITPOS and PHASE and
nothing else. There is no return from it but reset (R489). -/
def errorEntry (k : ErrKind) (q : Nat) (s : State) : State :=
  (s.withPorts { s.ports with error := true, errKind := k, errBitpos := q }).setPhase .error

/-- `Reset()` (R520), by which alone a terminal phase is left (R489): every register at its value of R60, the input
port restarted, the parameters those of the new decode (R525). The host's later acts and its policy stay. -/
def resetState (p : Params) (s : State) : State :=
  { State.reset with params := p, host := s.host, autoAccept := s.autoAccept }

/-! ## From an operation's answer to the outcome of a step -/

/-- The waiting state `t` of an element that began in `s`: the registers as the wait finds them (R521), and beside
them the block as the element found it, from which it will run on (notes/assumptions/3). After an instruction run by itself,
by `exec` and not by a step, the next step runs the element of PHASE from that block, not the rest of that instruction:
the spec has no lone micro-operation (the model's choice: notes/assumptions/30). -/
def suspend (s t : State) : State := { t with suspended := some s.toBlock }

/-- The outcome of an element that began in `s`: completed, raised (R485), or waiting for input (R521). -/
def finish (s : State) : Res Unit → Host.Outcome State Fault Refusal
  | .ok _ t => .next t
  | .raise k q t => .next (errorEntry k q t)
  | .wait t => .next (suspend s t)
  | .fault f => .fault f
  | .refused r => .refused r

/-- As `finish`, for an operation that returns a value to its caller: it is left in `result` (notes/assumptions/4). -/
def finishValue (s : State) (r : Res Nat) : Host.Outcome State Fault Refusal :=
  finish s (r.bind fun v t => .ok () (t.withResult v))

end Sys2Proof.Machine
end

