-- ==== Sys2Proof/Machine/Flags.lean ====
section
/-! DEFINITION. Flags and codes: the gzip flag bits and the phase they select (R255, R263), the block's two terminal
flags and their end conditions (R272, R313), and the codes and fields of the status file (R37, R56, R470). -/

namespace Sys2Proof.Machine

open Sys2Proof

/-! ## The FLG byte (R255: the bit values are general knowledge, notes/assumptions/11) -/

def flgFhcrc (f : BitVec 8) : Bool := f.getLsbD 1
def flgFextra (f : BitVec 8) : Bool := f.getLsbD 2
def flgFname (f : BitVec 8) : Bool := f.getLsbD 3
def flgFcomment (f : BitVec 8) : Bool := f.getLsbD 4

/-- `NextHdrPhase(after)` (R263): the phase of the next optional header field that is present. -/
def nextHdrPhase (after : Phase) (f : BitVec 8) : Phase :=
  if after = .os ∧ flgFname f = true then .fname
  else if (after = .os ∨ after = .fname) ∧ flgFcomment f = true then .fcomment
  else if (after = .os ∨ after = .fname ∨ after = .fcomment) ∧ flgFhcrc f = true then .fhcrc
  else .blkhdr

/-! ## Block end and completion -/

/-- `BlockEnd` (R313): on to the trailer after the final block, else to the next block's header. -/
def blockEnd (s : State) : State :=
  let t := sendDiag .blockEnd s
  t.setPhase (if t.seq.bfinal then .trailer else .blkhdr)

/-- Completion (R270, R272): the trailer's fields captured (R271), DONE set. -/
def complete (crc isize : Nat) (s : State) : State :=
  (s.withPorts { s.ports with
    trailerCrc32 := BitVec.ofNat 32 crc, trailerIsize := BitVec.ofNat 32 isize, done := true }).setPhase .done

/-- The phases in which the block executes no element (R126, R272, R488). -/
def terminal : Phase → Bool
  | .done => true
  | .error => true
  | _ => false

/-! ## Codes (R34, R37, R470) -/

def modeCode : BitOrder → BitVec 1
  | .lsb => 0
  | .msb => 1

def phaseCode : Phase → BitVec 5
  | .magic => 0
  | .cm => 1
  | .flg => 2
  | .mtime => 3
  | .xfl => 4
  | .os => 5
  | .fname => 6
  | .fcomment => 7
  | .fhcrc => 8
  | .blkhdr => 9
  | .storedHdr => 10
  | .storedData => 11
  | .dynHdr => 12
  | .dynLens => 13
  | .symbol => 14
  | .trailer => 15
  | .done => 16
  | .error => 17

def errCode : ErrKind → BitVec 4
  | .none => 0
  | .unexpectedEof => 1
  | .badMagic => 2
  | .unsupportedMethod => 3
  | .unsupportedFeature => 4
  | .invalidBlockType => 5
  | .lengthMismatch => 6
  | .invalidCodeLengthSymbol => 7
  | .invalidDistanceSymbol => 8
  | .invalidLengthSymbol => 9
  | .symbolNotFound => 10
  | .distanceTooFar => 11

/-- The 32-bit STATUS word (R56): DONE, ERROR, OUT_PEND, IN_WAIT, PHASE, BFINAL, BTYPE, and bits 31 to 12 zero. -/
def statusWord (s : State) : BitVec 32 :=
  (0 : BitVec 20) ++ s.seq.btype ++ BitVec.ofBool s.seq.bfinal ++ phaseCode s.seq.phase
    ++ BitVec.ofBool s.reader.inWait ++ BitVec.ofBool s.ports.outPend ++ BitVec.ofBool s.ports.error
    ++ BitVec.ofBool s.ports.done

end Sys2Proof.Machine
end

