-- ==== Sys2Proof/Machine/Huffman.lean ====
section
/-! DEFINITION. The Huffman table builder and decoder (41_huffman.md): R201 to R206 and R210. -/

namespace Sys2Proof.Machine

open Sys2Proof

/-! ## The builder -/

/-- `Rev(x, b)` (R205): bit k of `x` becomes bit `b-1-k`, for the low `b` bits. -/
def rev (x : Nat) : Nat → Nat
  | 0 => 0
  | b + 1 => (x % 2) * 2 ^ b + rev (x / 2) b

/-- The lengths with their codes: `(i, L[i])` in ascending code order (R202). -/
def codedLengths (lens : List Nat) : List (Nat × Nat) := (List.range lens.length).zip lens

/-- The used codes sorted by (bits ascending, code ascending) (R203): length by length, each in code order. Entries of
length 0 are not stored. -/
def sortedLengths (lens : List Nat) : List (Nat × Nat) :=
  (List.range Config.maxCodeBits).flatMap fun b => (codedLengths lens).filter fun e => e.2 == b + 1

/-- A table entry with its reversed symbol (R205). -/
def mkEntry (code bits symbol : Nat) : Entry := { code := code, bits := bits, symbol := symbol, rev := rev symbol bits }

/-- The symbols of the entries after one of length `prev` and symbol `sym`: the running value is incremented, then
shifted by the difference in lengths (R204; the order is derived: notes/assumptions/13). -/
def assignAfter (prev sym : Nat) : List (Nat × Nat) → List Entry
  | [] => []
  | (c, b) :: rest => mkEntry c b ((sym + 1) <<< (b - prev)) :: assignAfter b ((sym + 1) <<< (b - prev)) rest

/-- The canonical assignment (R204): the first entry gets symbol 0. -/
def assignSymbols : List (Nat × Nat) → List Entry
  | [] => []
  | (c, b) :: rest => mkEntry c b 0 :: assignAfter b 0 rest

/-- The table that a length list gives (R202 to R206): MALFORMED when some symbol does not fit its length. -/
def tableOf (lens : List Nat) : Table :=
  let es := assignSymbols (sortedLengths lens)
  { entries := es, malformed := es.any fun e => decide (2 ^ e.bits ≤ e.symbol) }

/-- A table store by its name (R50). -/
def Tables.get (ts : Tables) : TableId → Table
  | .cl => ts.cl
  | .ll => ts.ll
  | .d => ts.d

/-- The stores with one of them replaced (R200). -/
def Tables.set (ts : Tables) : TableId → Table → Tables
  | .cl, t => { ts with cl := t }
  | .ll, t => { ts with ll := t }
  | .d, t => { ts with d := t }

/-- `BuildFromLengths(t, L)` (R202): replace the whole store and send TABLE_BUILT; no input is read (R209). It runs for
any number of lengths that the store has room for, not for its callers' `K` only (notes/assumptions/31). -/
def buildFromLengths (t : TableId) (lens : List Nat) (s : State) : Res Unit :=
  if lengthsOk t lens then
    .ok () (sendDiag .tableBuilt (s.withTables (s.tables.set t (tableOf lens))))
  else .refused (.badLengthList t)

/-- The length list of a bootstrap list: every code from one start to the next gets the pair's length; the pair of
length -1 ends it (R201). -/
def expandRanges : List (Nat × Int) → List Nat
  | (s, b) :: (s', b') :: rest => List.replicate (s' - s) b.toNat ++ expandRanges ((s', b') :: rest)
  | _ => []

/-- `BuildFromRanges(t, pairs)` (R201). -/
def buildFromRanges (t : TableId) (pairs : List (Nat × Int)) (s : State) : Res Unit :=
  if rangesOk pairs then buildFromLengths t (expandRanges pairs) s else .refused .badRangeList

/-- FIXED_LL, the bootstrap list of the fixed literal/length table (R207). -/
def fixedLL : List (Nat × Int) := [(0, 8), (144, 9), (256, 7), (280, 8), (288, -1)]

/-- FIXED_D, the bootstrap list of the fixed distance table (R208). -/
def fixedD : List (Nat × Int) := [(0, 5), (32, -1)]

/-! ## The decoder -/

/-- The peek of the search loop: the cached value where the length is the cached one, else a new peek (R211). -/
def cachedPeek (cache : Option (Nat × Nat)) (bits : Nat) (s : State) : Res Nat :=
  match cache with
  | some (cl, cv) => if bits = cl then .ok cv s else peekBits bits s
  | none => peekBits bits s

/-- The search loop of R210 over the entries still to compare; `cache` is the hidden pair (cl, cv) of R52. -/
def findLoop (p0 : Nat) : List Entry → Option (Nat × Nat) → State → Res Nat
  | [], _, s => .raise .symbolNotFound p0 s
  | e :: es, cache, s =>
    (cachedPeek cache e.bits s).bind fun cv t =>
      if cv = e.rev then
        (readBits e.bits t).bind fun _ u => .ok e.code (sendDiag .symbolMatch u)
      else findLoop p0 es (some (e.bits, cv)) t

/-- `FindNextSymbol(t)` (R210): a malformed table raises before any peek (R213). -/
def findNextSymbol (t : TableId) (s : State) : Res Nat :=
  if (s.tables.get t).malformed then .raise .symbolNotFound s.bitPos s
  else findLoop s.bitPos (s.tables.get t).entries none s

end Sys2Proof.Machine
end

