-- ==== Sys2Proof/Machine/Operands.lean ====
section
/-! DEFINITION. Operand assembly (R125): the code-length permutation, the length and distance bases and extra-bit
widths, the repeat counts, the block counts and the stored-length check. -/

namespace Sys2Proof.Machine

open Sys2Proof

/-- ORDER, the slot of the i-th code-length length (R118, R301). -/
def clOrder : List Nat := [16, 17, 18, 0, 8, 7, 9, 6, 10, 5, 11, 4, 12, 3, 13, 2, 14, 1, 15]

/-- LEN_BASE, indexed by the length code less 257 (R409). -/
def lenBaseTable : List Nat :=
  [3, 4, 5, 6, 7, 8, 9, 10, 11, 13, 15, 17, 19, 23, 27, 31, 35, 43, 51, 59, 67, 83, 99, 115, 131, 163, 195, 227, 258]

/-- LEN_EXTRA of a length code, the source's formula (R408). -/
def lenExtra (c : Nat) : Nat := if c ≤ 260 then 0 else if c = 285 then 0 else ((c - 257) >>> 2) - 1

/-- DIST_EXTRA of a distance code (R410). R410 contradicts itself on codes 2 and 3: its formula gives them no extra bit,
its gloss says one. The model follows the formula, with which R378, R379 and the table of R411 agree
(notes/assumptions/26). -/
def distExtra (d : Nat) : Nat := if d ≤ 1 then 0 else (d >>> 1) - 1

/-- DIST_BASE of a distance code, by the recurrence of R411 (the elided entries are recovered: notes/assumptions/12). -/
def distBase : Nat → Nat
  | 0 => 1
  | d + 1 => distBase d + 2 ^ distExtra d

/-- A length element's length: `LEN_BASE[c - 257]` plus the extra bits read (R125, R343). -/
def lengthValue (base extraBits : Nat) (s : State) : Res Nat :=
  (readBits extraBits s).bind fun e t => .ok (base + e) t

/-- A distance symbol's distance: `DIST_BASE[d]` plus the extra bits read (R125, R375). -/
def distanceValue (base extraBits : Nat) (s : State) : Res Nat :=
  (readBits extraBits s).bind fun f t => .ok (base + f) t

/-- A repeat count: a base plus the extra bits read (R125, R305 to R307). -/
def repeatCount (base extraBits : Nat) (s : State) : Res Nat :=
  (readBits extraBits s).bind fun e t => .ok (base + e) t

/-- The stored-length test that NLEN_CHECK selects (R296; 90_conflicts.md C1). -/
def nlenOk (check : NlenCheck) (len nlen : Nat) : Bool :=
  match check with
  | .andZero => len &&& nlen == 0
  | .exactComplement => nlen == 0xFFFF - len

end Sys2Proof.Machine
end

