-- ==== Sys2Proof/Machine/Block.lean ====
section
/-! DEFINITION. The block header, the stored block and the dynamic-block header (43_block_state_machine.md). -/

namespace Sys2Proof.Machine

open Sys2Proof

/-- `BLK_STORED` (R292). -/
def blkStored (s : State) : Res Unit := .ok () (s.setPhase .storedHdr)

/-- `BLK_FIXED` (R293): both fixed tables, then the first symbol. -/
def blkFixed (s : State) : Res Unit :=
  (buildFromRanges .ll fixedLL s).bind fun _ t =>
    (buildFromRanges .d fixedD t).bind fun _ u => .ok () (u.setPhase .symbol)

/-- `BLK_DYNAMIC` (R294). -/
def blkDynamic (s : State) : Res Unit := .ok () (s.setPhase .dynHdr)

/-- `BLK_RESERVED` (R295). -/
def blkReserved (s : State) : Res Unit := raiseHere .invalidBlockType s

/-- `BLKHDR` (R291): the header, and in the same step the continuation its type selects. -/
def blkhdr (s : State) : Res Unit :=
  (readBits 1 (sendDiag .blockStart s)).bind fun f t =>
    (readBits 2 t).bind fun ty u =>
      let v := u.withSeq { u.seq with bfinal := f == 1, btype := BitVec.ofNat 2 ty }
      match ty with
      | 0 => blkStored v
      | 1 => blkFixed v
      | 2 => blkDynamic v
      | _ => blkReserved v

/-- `STORED_HDR` (R296): align, read LEN and NLEN, check them, and end an empty block at once (R298). -/
def storedHdr (s : State) : Res Unit :=
  (alignToByte s).bind fun _ t =>
    (readBits 16 t).bind fun len u =>
      (readBits 16 u).bind fun nlen v =>
        if nlenOk v.params.nlenCheck len nlen then
          let w := v.withSeq { v.seq with storedRem := BitVec.ofNat 16 len }
          .ok () (if len = 0 then blockEnd w else w.setPhase .storedData)
        else raiseHere .lengthMismatch v

/-- `STORED_BYTE` (R297): append one byte, count it, end the block after the last, and offer it as a chunk. -/
def storedByte (s : State) : Res Unit :=
  (readBits 8 s).bind fun b t =>
    let v : Byte := BitVec.ofNat 8 b
    let u := outAppend v t
    let w := u.withSeq { u.seq with storedRem := u.seq.storedRem - 1 }
    .ok () (emit [v] (if w.seq.storedRem = 0 then blockEnd w else w))

/-- The loop of `CodeLengthLengths` (R302): a 3-bit length for each slot of the permutation that is sent (R301). -/
def readClLens : List Nat → State → Res Unit
  | [], s => .ok () s
  | slot :: slots, s =>
    (readBits 3 s).bind fun v t =>
      readClLens slots (t.withSeq { t.seq with clLen := t.seq.clLen.setIfInBounds slot (BitVec.ofNat 3 v) })

/-- `CodeLengthLengths` (R302): clear the slots, fill the HCLEN sent ones, build T_CL. -/
def codeLengthLengths (s : State) : Res Unit :=
  (readClLens (clOrder.take s.seq.hclen.toNat)
      (s.withSeq { s.seq with clLen := Vector.replicate 19 0 })).bind fun _ t =>
    buildFromLengths .cl (t.seq.clLen.toList.map BitVec.toNat) t

/-- `DYN_HDR` (R300): the three counts, each written as it is read, the code-length lengths (R302), and an empty
LENS (R303). -/
def dynHdr (s : State) : Res Unit :=
  (readBits 5 s).bind fun a t =>
    (readBits 5 (t.withSeq { t.seq with hlit := BitVec.ofNat 9 (a + 257) })).bind fun b u =>
      (readBits 4 (u.withSeq { u.seq with hdist := BitVec.ofNat 6 (b + 1) })).bind fun c v =>
        (codeLengthLengths (v.withSeq { v.seq with hclen := BitVec.ofNat 5 (c + 4) })).bind fun _ w =>
          .ok () ((w.withSeq { w.seq with lensN := 0 }).setPhase .dynLens)

/-! ## The meanings -/

def execBlkhdr (s : State) : Host.Outcome State Fault Refusal := finish s (blkhdr s)
def execBlkStored (s : State) : Host.Outcome State Fault Refusal := finish s (blkStored s)
def execBlkFixed (s : State) : Host.Outcome State Fault Refusal := finish s (blkFixed s)
def execBlkDynamic (s : State) : Host.Outcome State Fault Refusal := finish s (blkDynamic s)
def execBlkReserved (s : State) : Host.Outcome State Fault Refusal := finish s (blkReserved s)
def execStoredHdr (s : State) : Host.Outcome State Fault Refusal := finish s (storedHdr s)
def execStoredByte (s : State) : Host.Outcome State Fault Refusal := finish s (storedByte s)
def execDynHdr (s : State) : Host.Outcome State Fault Refusal := finish s (dynHdr s)

end Sys2Proof.Machine
end

