-- ==== Sys2Proof/Machine/CodeLength.lean ====
section
/-! DEFINITION. The code-length symbols of a dynamic block (43_block_state_machine.md section 5). -/

namespace Sys2Proof.Machine

open Sys2Proof

/-- HLIT + HDIST, the length of the concatenated list (R303). -/
def lensTotal (q : Sequencer) : Nat := q.hlit.toNat + q.hdist.toNat

/-- `LENS[at .. at+r-1] <- v` (R316). -/
def fillLens (lens : Vector (BitVec 4) 320) (v : BitVec 4) (at_ : Nat) : Nat → Vector (BitVec 4) 320
  | 0 => lens
  | r + 1 => (fillLens lens v at_ r).setIfInBounds (at_ + r) v

/-- `LensComplete` (R310): split the list at HLIT and build both block tables. -/
def lensComplete (s : State) : Res Unit :=
  let all := s.seq.lens.toList.map BitVec.toNat
  (buildFromLengths .ll (all.take s.seq.hlit.toNat) s).bind fun _ t =>
    (buildFromLengths .d ((all.drop s.seq.hlit.toNat).take s.seq.hdist.toNat) t).bind fun _ u =>
      .ok () (u.setPhase .symbol)

/-- `Append(v, r)` (R316): an overrun of HLIT + HDIST is an error (R309), and reaching it completes the list (R310).
A write past `LENS[319]` does not exist (notes/assumptions/20). -/
def appendLens (v : BitVec 4) (r : Nat) (s : State) : Res Unit :=
  if lensTotal s.seq < s.seq.lensN + r then raiseHere .invalidCodeLengthSymbol s
  else if 320 < s.seq.lensN + r then .fault (.lensOutOfRange (s.seq.lensN + r))
  else
    let t := s.withSeq { s.seq with lens := fillLens s.seq.lens v s.seq.lensN r, lensN := s.seq.lensN + r }
    if t.seq.lensN = lensTotal t.seq then lensComplete t else .ok () t

/-- `CL_LEN_LIT` (R304). -/
def clLenLit (v : BitVec 4) (s : State) : Res Unit := appendLens v 1 s

/-- `CL_REPEAT_PREV` (R305): without a previous length it raises before its extra bits are read. -/
def clRepeatPrev (s : State) : Res Unit :=
  if s.seq.lensN = 0 then raiseHere .invalidCodeLengthSymbol s
  else
    (repeatCount 3 2 s).bind fun r t =>
      match t.seq.lens[t.seq.lensN - 1]? with
      | some v => appendLens v r t
      | none => .fault (.lensOutOfRange (t.seq.lensN - 1))

/-- `CL_ZERO_SHORT` (R306). -/
def clZeroShort (s : State) : Res Unit := (repeatCount 3 3 s).bind fun r t => appendLens 0 r t

/-- `CL_ZERO_LONG` (R307). -/
def clZeroLong (s : State) : Res Unit := (repeatCount 11 7 s).bind fun r t => appendLens 0 r t

/-! ## The meanings -/

def execClLenLit (v : BitVec 4) (s : State) : Host.Outcome State Fault Refusal := finish s (clLenLit v s)
def execClRepeatPrev (s : State) : Host.Outcome State Fault Refusal := finish s (clRepeatPrev s)
def execClZeroShort (s : State) : Host.Outcome State Fault Refusal := finish s (clZeroShort s)
def execClZeroLong (s : State) : Host.Outcome State Fault Refusal := finish s (clZeroLong s)

end Sys2Proof.Machine
end

