-- ==== Sys2Proof/Machine/Gzip.lean ====
section
/-! DEFINITION. The gzip container elements (42_gzip_container.md). -/

namespace Sys2Proof.Machine

open Sys2Proof

/-- A header field that is read and discarded (R256, R257, R262). -/
def skipField (bits : Nat) (next : Phase) (s : State) : Res Unit :=
  (readBits bits s).bind fun _ t => .ok () (t.setPhase next)

/-- One byte of a zero-terminated header string (R260, R261). -/
def stringByte (here : Phase) (s : State) : Res Unit :=
  (readBits 8 s).bind fun b t =>
    .ok () (if b = 0 then t.setPhase (nextHdrPhase here t.seq.flg) else t)

/-- `GZ_MAGIC` (R251): the magic, then the switch to LSB-first order (R252). -/
def gzMagic (s : State) : Res Unit :=
  (readBits 16 s).bind fun v t =>
    if v ≠ 0x1F8B then raiseHere .badMagic t
    else (setMode .lsb t).bind fun _ u => .ok () (u.setPhase .cm)

/-- `GZ_CM` (R253). -/
def gzCm (s : State) : Res Unit :=
  (readBits 8 s).bind fun v t =>
    if v ≠ 8 then raiseHere .unsupportedMethod t else .ok () (t.setPhase .flg)

/-- `GZ_FLG` (R254). -/
def gzFlg (s : State) : Res Unit :=
  (readBits 8 s).bind fun v t =>
    .ok () ((t.withSeq { t.seq with flg := BitVec.ofNat 8 v }).setPhase .mtime)

/-- `GZ_FEXTRA` (R259): the check that GZ_OS applies to FLG; without FEXTRA it does nothing. -/
def gzFextra (s : State) : Res Unit :=
  if flgFextra s.seq.flg then raiseHere .unsupportedFeature s else .ok () s

/-- `GZ_OS` (R258). -/
def gzOs (s : State) : Res Unit :=
  (readBits 8 s).bind fun _ t =>
    (gzFextra t).bind fun _ u => .ok () (u.setPhase (nextHdrPhase .os u.seq.flg))

/-- `GZ_TRAILER` (R270): align, read both fields, then capture them (R271) and complete (R272). -/
def gzTrailer (s : State) : Res Unit :=
  (alignToByte s).bind fun _ t =>
    (readBits 32 t).bind fun crc u =>
      (readBits 32 u).bind fun isize v => .ok () (complete crc isize v)

/-! ## The meanings -/

def execGzMagic (s : State) : Host.Outcome State Fault Refusal := finish s (gzMagic s)
def execGzCm (s : State) : Host.Outcome State Fault Refusal := finish s (gzCm s)
def execGzFlg (s : State) : Host.Outcome State Fault Refusal := finish s (gzFlg s)

/-- `GZ_MTIME` (R256): a 32-bit field, discarded. -/
def execGzMtime (s : State) : Host.Outcome State Fault Refusal := finish s (skipField 32 .xfl s)

/-- `GZ_XFL` (R257): an 8-bit field, discarded. -/
def execGzXfl (s : State) : Host.Outcome State Fault Refusal := finish s (skipField 8 .os s)

def execGzOs (s : State) : Host.Outcome State Fault Refusal := finish s (gzOs s)
def execGzFextra (s : State) : Host.Outcome State Fault Refusal := finish s (gzFextra s)

/-- `GZ_FNAME_BYTE` (R260). -/
def execGzFnameByte (s : State) : Host.Outcome State Fault Refusal := finish s (stringByte .fname s)

/-- `GZ_FCOMMENT_BYTE` (R261). -/
def execGzFcommentByte (s : State) : Host.Outcome State Fault Refusal := finish s (stringByte .fcomment s)

/-- `GZ_FHCRC` (R262): a 16-bit field, discarded unchecked. -/
def execGzFhcrc (s : State) : Host.Outcome State Fault Refusal := finish s (skipField 16 .blkhdr s)

def execGzTrailer (s : State) : Host.Outcome State Fault Refusal := finish s (gzTrailer s)

end Sys2Proof.Machine
end

