-- ==== Sys2Proof/Machine/Expander.lean ====
section
/-! DEFINITION. The LZ77 back-reference expander (45_lz77_expander.md). -/

namespace Sys2Proof.Machine

open Sys2Proof

/-- The copy loop of R441: `n` times, append the byte `dist` before the one being written, in increasing order, so that
bytes written by the copy are sources of later ones (R443, R527). -/
def copyLoop (dist : Nat) : Nat → State → Res Unit
  | 0, s => .ok () s
  | n + 1, s => (memRead (s.history.outCount - dist) s).bind fun v t => copyLoop dist n (outAppend v t)

/-- `Copy(dist, n)` (R441), refused without its precondition `1 <= dist <= OUT_COUNT` (93_implementation_defined.md). By
itself it also runs for a distance above 32768 that OUT_COUNT admits, and for every `n`, though the operand ranges of
R441 end at 32768 and at 258 (the model's choice: notes/assumptions/14). -/
def copyRun (dist n : Nat) (s : State) : Res Unit :=
  if dist = 0 ∨ s.history.outCount < dist then .refused (.badCopyDistance dist)
  else copyLoop dist n s

end Sys2Proof.Machine
end

