-- ==== Sys2Proof/Machine/Micro.lean ====
section
/-! DEFINITION. The micro-operations as instructions (R3, R133): each runs its primitive; what the primitive returns to
its caller is left in `result` (notes/assumptions/4). What follows where one of them, run by itself, waits for a byte is
the model's choice (notes/assumptions/30). -/

namespace Sys2Proof.Machine

open Sys2Proof

/-- `RB`: ReadBits(n) (R165). -/
def execRb (n : Nat) (s : State) : Host.Outcome State Fault Refusal := finishValue s (readBits n s)

/-- `PB`: PeekBits(n) (R166). -/
def execPb (n : Nat) (s : State) : Host.Outcome State Fault Refusal := finishValue s (peekBits n s)

/-- `ALIGN`: AlignToByte() (R167). -/
def execAlign (s : State) : Host.Outcome State Fault Refusal := finishValue s (alignToByte s)

/-- `BITPOS`: BitPos() (R168). -/
def execBitpos (s : State) : Host.Outcome State Fault Refusal := finishValue s (.ok s.bitPos s)

/-- `SETMODE`: SetMode(m) (R169). R13 says that each of the five primitives returns an unsigned integer, and R169's
pseudocode returns none; the model follows R169 and leaves `result` as it is (the model's choice:
notes/assumptions/29). -/
def execSetmode (m : BitOrder) (s : State) : Host.Outcome State Fault Refusal := finish s (setMode m s)

/-- `BUILD_RANGES`: BuildFromRanges(t, pairs) (R201). -/
def execBuildRanges (t : TableId) (pairs : List (Nat × Int)) (s : State) : Host.Outcome State Fault Refusal :=
  finish s (buildFromRanges t pairs s)

/-- `BUILD_LENGTHS`: BuildFromLengths(t, L) (R202). -/
def execBuildLengths (t : TableId) (lens : List Nat) (s : State) : Host.Outcome State Fault Refusal :=
  finish s (buildFromLengths t lens s)

/-- `FIND`: FindNextSymbol(t) (R210). -/
def execFind (t : TableId) (s : State) : Host.Outcome State Fault Refusal := finishValue s (findNextSymbol t s)

/-- `APPEND`: OutAppend(v) (R440). -/
def execAppend (v : Byte) (s : State) : Host.Outcome State Fault Refusal := finish s (.ok () (outAppend v s))

/-- `COPY`: Copy(dist, n) (R441). -/
def execCopy (dist n : Nat) (s : State) : Host.Outcome State Fault Refusal := finish s (copyRun dist n s)

end Sys2Proof.Machine
end

