-- ==== Sys2Proof/Machine/Distance.lean ====
section
/-! DEFINITION. The distance symbols (44_literal_length_distance.md section 3): each yields the distance of the length
element it stands in, or raises. -/

namespace Sys2Proof.Machine

open Sys2Proof

/-- `DIST_0` (R376): base 1, 0 extra bits. -/
def dist0 (s : State) : Res Nat := distanceValue 1 0 s

/-- `DIST_1` (R377): base 2, 0 extra bits. -/
def dist1 (s : State) : Res Nat := distanceValue 2 0 s

/-- `DIST_2` (R378): base 3, 0 extra bits. -/
def dist2 (s : State) : Res Nat := distanceValue 3 0 s

/-- `DIST_3` (R379): base 4, 0 extra bits. -/
def dist3 (s : State) : Res Nat := distanceValue 4 0 s

/-- `DIST_4` (R380): base 5, 1 extra bit. -/
def dist4 (s : State) : Res Nat := distanceValue 5 1 s

/-- `DIST_5` (R381): base 7, 1 extra bit. -/
def dist5 (s : State) : Res Nat := distanceValue 7 1 s

/-- `DIST_6` (R382): base 9, 2 extra bits. -/
def dist6 (s : State) : Res Nat := distanceValue 9 2 s

/-- `DIST_7` (R383): base 13, 2 extra bits. -/
def dist7 (s : State) : Res Nat := distanceValue 13 2 s

/-- `DIST_8` (R384): base 17, 3 extra bits. -/
def dist8 (s : State) : Res Nat := distanceValue 17 3 s

/-- `DIST_9` (R385): base 25, 3 extra bits. -/
def dist9 (s : State) : Res Nat := distanceValue 25 3 s

/-- `DIST_10` (R386): base 33, 4 extra bits. -/
def dist10 (s : State) : Res Nat := distanceValue 33 4 s

/-- `DIST_11` (R387): base 49, 4 extra bits. -/
def dist11 (s : State) : Res Nat := distanceValue 49 4 s

/-- `DIST_12` (R388): base 65, 5 extra bits. -/
def dist12 (s : State) : Res Nat := distanceValue 65 5 s

/-- `DIST_13` (R389): base 97, 5 extra bits. -/
def dist13 (s : State) : Res Nat := distanceValue 97 5 s

/-- `DIST_14` (R390): base 129, 6 extra bits. -/
def dist14 (s : State) : Res Nat := distanceValue 129 6 s

/-- `DIST_15` (R391): base 193, 6 extra bits. -/
def dist15 (s : State) : Res Nat := distanceValue 193 6 s

/-- `DIST_16` (R392): base 257, 7 extra bits. -/
def dist16 (s : State) : Res Nat := distanceValue 257 7 s

/-- `DIST_17` (R393): base 385, 7 extra bits. -/
def dist17 (s : State) : Res Nat := distanceValue 385 7 s

/-- `DIST_18` (R394): base 513, 8 extra bits. -/
def dist18 (s : State) : Res Nat := distanceValue 513 8 s

/-- `DIST_19` (R395): base 769, 8 extra bits. -/
def dist19 (s : State) : Res Nat := distanceValue 769 8 s

/-- `DIST_20` (R396): base 1025, 9 extra bits. -/
def dist20 (s : State) : Res Nat := distanceValue 1025 9 s

/-- `DIST_21` (R397): base 1537, 9 extra bits. -/
def dist21 (s : State) : Res Nat := distanceValue 1537 9 s

/-- `DIST_22` (R398): base 2049, 10 extra bits. -/
def dist22 (s : State) : Res Nat := distanceValue 2049 10 s

/-- `DIST_23` (R399): base 3073, 10 extra bits. -/
def dist23 (s : State) : Res Nat := distanceValue 3073 10 s

/-- `DIST_24` (R400): base 4097, 11 extra bits. -/
def dist24 (s : State) : Res Nat := distanceValue 4097 11 s

/-- `DIST_25` (R401): base 6145, 11 extra bits. -/
def dist25 (s : State) : Res Nat := distanceValue 6145 11 s

/-- `DIST_26` (R402): base 8193, 12 extra bits. -/
def dist26 (s : State) : Res Nat := distanceValue 8193 12 s

/-- `DIST_27` (R403): base 12289, 12 extra bits. -/
def dist27 (s : State) : Res Nat := distanceValue 12289 12 s

/-- `DIST_28` (R404): base 16385, 13 extra bits. -/
def dist28 (s : State) : Res Nat := distanceValue 16385 13 s

/-- `DIST_29` (R405): base 24577, 13 extra bits. -/
def dist29 (s : State) : Res Nat := distanceValue 24577 13 s

/-- `DIST_30` (R406): illegal. -/
def dist30 (s : State) : Res Nat := raiseHere .invalidDistanceSymbol s

/-- `DIST_31` (R407): illegal. -/
def dist31 (s : State) : Res Nat := raiseHere .invalidDistanceSymbol s

/-- The distance dispatch inside a length element (R127, R375). T_D gives no symbol above 31 (notes/assumptions/15). -/
def distanceOf (d : Nat) (s : State) : Res Nat :=
  match d with
  | 0 => dist0 s
  | 1 => dist1 s
  | 2 => dist2 s
  | 3 => dist3 s
  | 4 => dist4 s
  | 5 => dist5 s
  | 6 => dist6 s
  | 7 => dist7 s
  | 8 => dist8 s
  | 9 => dist9 s
  | 10 => dist10 s
  | 11 => dist11 s
  | 12 => dist12 s
  | 13 => dist13 s
  | 14 => dist14 s
  | 15 => dist15 s
  | 16 => dist16 s
  | 17 => dist17 s
  | 18 => dist18 s
  | 19 => dist19 s
  | 20 => dist20 s
  | 21 => dist21 s
  | 22 => dist22 s
  | 23 => dist23 s
  | 24 => dist24 s
  | 25 => dist25 s
  | 26 => dist26 s
  | 27 => dist27 s
  | 28 => dist28 s
  | 29 => dist29 s
  | 30 => dist30 s
  | 31 => dist31 s
  | _ => .refused (.noSuchSymbol d)

/-! ## The meanings: the distance is left in `result` (notes/assumptions/4) -/

def execDist0 (s : State) : Host.Outcome State Fault Refusal := finishValue s (dist0 s)
def execDist1 (s : State) : Host.Outcome State Fault Refusal := finishValue s (dist1 s)
def execDist2 (s : State) : Host.Outcome State Fault Refusal := finishValue s (dist2 s)
def execDist3 (s : State) : Host.Outcome State Fault Refusal := finishValue s (dist3 s)
def execDist4 (s : State) : Host.Outcome State Fault Refusal := finishValue s (dist4 s)
def execDist5 (s : State) : Host.Outcome State Fault Refusal := finishValue s (dist5 s)
def execDist6 (s : State) : Host.Outcome State Fault Refusal := finishValue s (dist6 s)
def execDist7 (s : State) : Host.Outcome State Fault Refusal := finishValue s (dist7 s)
def execDist8 (s : State) : Host.Outcome State Fault Refusal := finishValue s (dist8 s)
def execDist9 (s : State) : Host.Outcome State Fault Refusal := finishValue s (dist9 s)
def execDist10 (s : State) : Host.Outcome State Fault Refusal := finishValue s (dist10 s)
def execDist11 (s : State) : Host.Outcome State Fault Refusal := finishValue s (dist11 s)
def execDist12 (s : State) : Host.Outcome State Fault Refusal := finishValue s (dist12 s)
def execDist13 (s : State) : Host.Outcome State Fault Refusal := finishValue s (dist13 s)
def execDist14 (s : State) : Host.Outcome State Fault Refusal := finishValue s (dist14 s)
def execDist15 (s : State) : Host.Outcome State Fault Refusal := finishValue s (dist15 s)
def execDist16 (s : State) : Host.Outcome State Fault Refusal := finishValue s (dist16 s)
def execDist17 (s : State) : Host.Outcome State Fault Refusal := finishValue s (dist17 s)
def execDist18 (s : State) : Host.Outcome State Fault Refusal := finishValue s (dist18 s)
def execDist19 (s : State) : Host.Outcome State Fault Refusal := finishValue s (dist19 s)
def execDist20 (s : State) : Host.Outcome State Fault Refusal := finishValue s (dist20 s)
def execDist21 (s : State) : Host.Outcome State Fault Refusal := finishValue s (dist21 s)
def execDist22 (s : State) : Host.Outcome State Fault Refusal := finishValue s (dist22 s)
def execDist23 (s : State) : Host.Outcome State Fault Refusal := finishValue s (dist23 s)
def execDist24 (s : State) : Host.Outcome State Fault Refusal := finishValue s (dist24 s)
def execDist25 (s : State) : Host.Outcome State Fault Refusal := finishValue s (dist25 s)
def execDist26 (s : State) : Host.Outcome State Fault Refusal := finishValue s (dist26 s)
def execDist27 (s : State) : Host.Outcome State Fault Refusal := finishValue s (dist27 s)
def execDist28 (s : State) : Host.Outcome State Fault Refusal := finishValue s (dist28 s)
def execDist29 (s : State) : Host.Outcome State Fault Refusal := finishValue s (dist29 s)
def execDist30 (s : State) : Host.Outcome State Fault Refusal := finishValue s (dist30 s)
def execDist31 (s : State) : Host.Outcome State Fault Refusal := finishValue s (dist31 s)

end Sys2Proof.Machine
end

