-- ==== Sys2Proof/Machine/Symbol.lean ====
section
/-! DEFINITION. The literal/length symbols (44_literal_length_distance.md sections 1 and 2). -/

namespace Sys2Proof.Machine

open Sys2Proof

/-- `LIT` (R341): append the byte and offer it as a chunk. -/
def litSymbol (v : Byte) (s : State) : Res Unit := .ok () (emit [v] (outAppend v s))

/-- `EOB` (R342). -/
def eobSymbol (s : State) : Res Unit := .ok () (blockEnd s)

/-- The length-code template (R343): the length, the distance symbol and its distance, the check against OUT_COUNT
(R444), the copy (R441), and the whole run as one chunk (R445). -/
def lengthElement (base extraBits : Nat) (s : State) : Res Unit :=
  (lengthValue base extraBits s).bind fun n t =>
    (findNextSymbol .d t).bind fun d u =>
      (distanceOf d u).bind fun dist v =>
        if v.history.outCount < dist then raiseHere .distanceTooFar v
        else
          (copyRun dist n v).bind fun _ w =>
            (histSlice (w.history.outCount - n) n w).bind fun run x => .ok () (emit run x)

/-- An illegal length symbol (R373, R374): no extra bits are read. -/
def illegalLength (s : State) : Res Unit := raiseHere .invalidLengthSymbol s

/-! ## The meanings -/

def execLit (v : Byte) (s : State) : Host.Outcome State Fault Refusal := finish s (litSymbol v s)
def execEob (s : State) : Host.Outcome State Fault Refusal := finish s (eobSymbol s)

/-- `LEN_257` (R344): base 3, 0 extra bits. -/
def execLen257 (s : State) : Host.Outcome State Fault Refusal := finish s (lengthElement 3 0 s)

/-- `LEN_258` (R345): base 4, 0 extra bits. -/
def execLen258 (s : State) : Host.Outcome State Fault Refusal := finish s (lengthElement 4 0 s)

/-- `LEN_259` (R346): base 5, 0 extra bits. -/
def execLen259 (s : State) : Host.Outcome State Fault Refusal := finish s (lengthElement 5 0 s)

/-- `LEN_260` (R347): base 6, 0 extra bits. -/
def execLen260 (s : State) : Host.Outcome State Fault Refusal := finish s (lengthElement 6 0 s)

/-- `LEN_261` (R348): base 7, 0 extra bits. -/
def execLen261 (s : State) : Host.Outcome State Fault Refusal := finish s (lengthElement 7 0 s)

/-- `LEN_262` (R349): base 8, 0 extra bits. -/
def execLen262 (s : State) : Host.Outcome State Fault Refusal := finish s (lengthElement 8 0 s)

/-- `LEN_263` (R350): base 9, 0 extra bits. -/
def execLen263 (s : State) : Host.Outcome State Fault Refusal := finish s (lengthElement 9 0 s)

/-- `LEN_264` (R351): base 10, 0 extra bits. -/
def execLen264 (s : State) : Host.Outcome State Fault Refusal := finish s (lengthElement 10 0 s)

/-- `LEN_265` (R352): base 11, 1 extra bit. -/
def execLen265 (s : State) : Host.Outcome State Fault Refusal := finish s (lengthElement 11 1 s)

/-- `LEN_266` (R353): base 13, 1 extra bit. -/
def execLen266 (s : State) : Host.Outcome State Fault Refusal := finish s (lengthElement 13 1 s)

/-- `LEN_267` (R354): base 15, 1 extra bit. -/
def execLen267 (s : State) : Host.Outcome State Fault Refusal := finish s (lengthElement 15 1 s)

/-- `LEN_268` (R355): base 17, 1 extra bit. -/
def execLen268 (s : State) : Host.Outcome State Fault Refusal := finish s (lengthElement 17 1 s)

/-- `LEN_269` (R356): base 19, 2 extra bits. -/
def execLen269 (s : State) : Host.Outcome State Fault Refusal := finish s (lengthElement 19 2 s)

/-- `LEN_270` (R357): base 23, 2 extra bits. -/
def execLen270 (s : State) : Host.Outcome State Fault Refusal := finish s (lengthElement 23 2 s)

/-- `LEN_271` (R358): base 27, 2 extra bits. -/
def execLen271 (s : State) : Host.Outcome State Fault Refusal := finish s (lengthElement 27 2 s)

/-- `LEN_272` (R359): base 31, 2 extra bits. -/
def execLen272 (s : State) : Host.Outcome State Fault Refusal := finish s (lengthElement 31 2 s)

/-- `LEN_273` (R360): base 35, 3 extra bits. -/
def execLen273 (s : State) : Host.Outcome State Fault Refusal := finish s (lengthElement 35 3 s)

/-- `LEN_274` (R361): base 43, 3 extra bits. -/
def execLen274 (s : State) : Host.Outcome State Fault Refusal := finish s (lengthElement 43 3 s)

/-- `LEN_275` (R362): base 51, 3 extra bits. -/
def execLen275 (s : State) : Host.Outcome State Fault Refusal := finish s (lengthElement 51 3 s)

/-- `LEN_276` (R363): base 59, 3 extra bits. -/
def execLen276 (s : State) : Host.Outcome State Fault Refusal := finish s (lengthElement 59 3 s)

/-- `LEN_277` (R364): base 67, 4 extra bits. -/
def execLen277 (s : State) : Host.Outcome State Fault Refusal := finish s (lengthElement 67 4 s)

/-- `LEN_278` (R365): base 83, 4 extra bits. -/
def execLen278 (s : State) : Host.Outcome State Fault Refusal := finish s (lengthElement 83 4 s)

/-- `LEN_279` (R366): base 99, 4 extra bits. -/
def execLen279 (s : State) : Host.Outcome State Fault Refusal := finish s (lengthElement 99 4 s)

/-- `LEN_280` (R367): base 115, 4 extra bits. -/
def execLen280 (s : State) : Host.Outcome State Fault Refusal := finish s (lengthElement 115 4 s)

/-- `LEN_281` (R368): base 131, 5 extra bits. -/
def execLen281 (s : State) : Host.Outcome State Fault Refusal := finish s (lengthElement 131 5 s)

/-- `LEN_282` (R369): base 163, 5 extra bits. -/
def execLen282 (s : State) : Host.Outcome State Fault Refusal := finish s (lengthElement 163 5 s)

/-- `LEN_283` (R370): base 195, 5 extra bits. -/
def execLen283 (s : State) : Host.Outcome State Fault Refusal := finish s (lengthElement 195 5 s)

/-- `LEN_284` (R371): base 227, 5 extra bits. -/
def execLen284 (s : State) : Host.Outcome State Fault Refusal := finish s (lengthElement 227 5 s)

/-- `LEN_285` (R372): base 258, 0 extra bits. -/
def execLen285 (s : State) : Host.Outcome State Fault Refusal := finish s (lengthElement 258 0 s)

/-- `LEN_286` (R373): illegal. -/
def execLen286 (s : State) : Host.Outcome State Fault Refusal := finish s (illegalLength s)

/-- `LEN_287` (R374): illegal. -/
def execLen287 (s : State) : Host.Outcome State Fault Refusal := finish s (illegalLength s)

end Sys2Proof.Machine
end

