-- ==== Sys2Proof/Machine/HostPort.lean ====
section
/-! DEFINITION. The host's side of the block: its acts at the ports (R80, R82, R493, R520), and what it can read: the
status file (R55), the table view (R498) and the diagnostic port (R495). -/

namespace Sys2Proof.Machine

open Sys2Proof

/-! ## The host's acts -/

/-- The consumer accepts the pending chunk, which clears OUT_PEND (R82); with none pending there is no handshake
(notes/assumptions/17). OUT_CHUNK keeps its bytes (notes/assumptions/19). -/
def acceptChunk (s : State) : State :=
  if s.ports.outPend then
    { s.withPorts { s.ports with outPend := false } with accepted := s.accepted ++ [s.ports.outChunk] }
  else s

/-- One act of the host. -/
def hostAct (a : HostAct) (s : State) : Host.Outcome State Fault Refusal :=
  match a with
  | .reset p => .next (resetState p s)                       -- R520, R523
  | .present bytes =>                                        -- R80
    if s.inputEnd then .refused .inputAfterEnd else .next { s with input := s.input ++ bytes }
  | .finish => .next { s with inputEnd := true }             -- R80
  | .accept => .next (acceptChunk s)                         -- R82
  | .pass => .next s
  | .setParams _ => .refused .parameterChanged               -- R525

/-! ## What the host can read, with no side effect -/

/-- The status register file (R55): the value read at an index, none above 6 where there is no register. -/
def readStatus (s : State) (index : Nat) : Option Nat :=
  match index with
  | 0 => some (statusWord s).toNat
  | 1 => some (errCode s.ports.errKind).toNat
  | 2 => some s.ports.errBitpos
  | 3 => some s.bitPos
  | 4 => some s.history.outCount
  | 5 => some s.ports.trailerCrc32.toNat
  | 6 => some s.ports.trailerIsize.toNat
  | _ => none

/-- What the table-view port returns (R498). -/
structure TableView where
  size      : Nat
  malformed : Bool
  entry     : Entry
deriving DecidableEq, Repr

/-- What the table-view port shows of a table (R498): past the last entry all entry fields read 0; the entries of a malformed table read as
the implementation has them (R206; notes/assumptions/9). -/
def viewTable (s : State) (id : TableId) (index : Nat) : TableView :=
  let t := s.tables.get id
  { size := t.size
    malformed := t.malformed
    entry := match t.entries[index]? with
      | none => { code := 0, bits := 0, symbol := 0, rev := 0 }
      | some e => if t.malformed then Config.malformedView e else e }

/-- The table that a table id of the port names (R498); R498 gives the ids 0 to 2 and says nothing of any other, which
names no table here (the model's choice: notes/assumptions/27). -/
def tableOfCode : Nat → Option TableId
  | 0 => some .cl
  | 1 => some .ll
  | 2 => some .d
  | _ => none

/-- A read at the table-view port by table id and index (R498); no answer where the id names no table. -/
def readTable (s : State) (code index : Nat) : Option TableView :=
  (tableOfCode code).map fun id => viewTable s id index

/-- What has been sent on the diagnostic port since reset: bit offset, kind and message (R495; the message is a free
value, notes/assumptions/8). -/
def diagPort (s : State) : List (Nat × DiagKind × String) :=
  s.diag.map fun e => (e.pos, e.kind, Config.diagMessage e.kind)

end Sys2Proof.Machine
end

