-- ==== Sys2Proof/Machine/Sequencer.lean ====
section
/-! DEFINITION. The sequencer: fetching an element's instruction by phase and symbol (R126, R316, R340), one step of the
block (R7, R521, R533), one step of the machine with the host's acts, and placing an instruction for the next step. -/

namespace Sys2Proof.Machine

open Sys2Proof

/-- The instruction of the next element (R126): in P_DYN_LENS and P_SYMBOL a symbol is decoded from the stream first
(R316, R340), so the reader may have advanced past its code. -/
def fetch (s : State) : Res Instr :=
  match s.seq.phase with
  | .dynLens =>
    (findNextSymbol .cl s).bind fun v t =>
      match decode .codeLength v with
      | .ok i => .ok i t
      | .error _ => raiseHere .invalidCodeLengthSymbol t       -- R308
  | .symbol =>
    (findNextSymbol .ll s).bind fun v t =>
      match decode .litLen v with
      | .ok i => .ok i t
      | .error _ => .refused (.noSuchSymbol v)                 -- notes/assumptions/15
  | p =>
    match decode (.phase p) 0 with
    | .ok i => .ok i s
    | .error _ => .refused .noElement

/-- The state an element starts from: where the last one waits for input, the block as that element found it
(R521: it goes on as if the wait had taken no time; notes/assumptions/3). -/
def State.start (s : State) : State :=
  match s.suspended with
  | some b => { s with toBlock := b, suspended := none }
  | none => s

/-- An instruction's outcome inside the element that began in `s`: where it waits, the element goes on from `s`. -/
def resumeFrom (s : State) (o : Host.Outcome State Fault Refusal) : Host.Outcome State Fault Refusal :=
  match o with
  | .next t => if t.suspended.isSome then .next (suspend s t) else .next t
  | .fault f => .fault f
  | .refused r => .refused r

/-- One element, fetched and run to its end (R3, R7). -/
def runElement (s : State) : Host.Outcome State Fault Refusal :=
  match fetch s with
  | .ok i t => resumeFrom s (exec i t)
  | .raise k q t => .next (errorEntry k q t)
  | .wait t => .next (suspend s t)
  | .fault f => .fault f
  | .refused r => .refused r

/-- One step of the block by itself: while a chunk is pending no element runs (R533), and the chunk is accepted at once
if that is the consumer's policy (R82); in P_DONE and P_ERROR it is idle (R272, R488); else one element runs. -/
def blockStep (s : State) : Host.Outcome State Fault Refusal :=
  if s.start.ports.outPend then .next (if s.start.autoAccept then acceptChunk s.start else s.start)
  else if terminal s.start.seq.phase then .next s.start
  else runElement s.start

/-- One step of the machine: the host's next act if it has one (an act of its own, or letting the block move), else the
block's step (R7: one element, or one handshake on a port). -/
def machineStep (s : State) : Host.Outcome State Fault Refusal :=
  match s.host with
  | [] => blockStep s
  | .pass :: acts => blockStep { s with host := acts }
  | act :: acts => hostAct act { s with host := acts }

/-! ## Placing an instruction (withFetchWord; notes/assumptions/2) -/

/-- Bits in wire order packed into bytes, the last byte filled up with zeros. `n` bounds the bytes. -/
def packBits (order : BitOrder) : Nat → List Bool → List Byte
  | 0, _ => []
  | n + 1, bits =>
    let eight := (bits ++ List.replicate 8 false).take 8
    let value := match order with
      | .lsb => eight.foldr (fun b v => 2 * v + b.toNat) 0
      | .msb => eight.foldl (fun v b => 2 * v + b.toNat) 0
    BitVec.ofNat 8 value :: packBits order n (bits.drop 8)

/-- The phase in which a slot's value is read, and so in which its instruction runs (R126). -/
def slotPhase : Slot → Phase
  | .phase p => p
  | .flags => .os
  | .header => .blkhdr
  | .codeLength => .dynLens
  | .litLen => .symbol
  | .distance => .symbol

/-- The tables a slot's symbol is decoded with: the fixed tables (R207, R208), and for a code-length symbol the table in
which all nineteen symbols have five bits. -/
def slotTables (ts : Tables) : Slot → Tables
  | .codeLength => { ts with cl := tableOf (List.replicate 19 5) }
  | .litLen => { ts with ll := tableOf (expandRanges fixedLL), d := tableOf (expandRanges fixedD) }
  | .distance => { ts with ll := tableOf (expandRanges fixedLL), d := tableOf (expandRanges fixedD) }
  | _ => ts

/-- The state in which the very next step fetches and runs instruction `i`, its field holding the table word `w`: the
bits stand at the reader's position in the input, zeros behind them; the phase, the bit order and the tables are those
the fetch needs, nothing waits or is pending, and the host lets the block move. -/
def placeWord (i : Instr) (w : Nat) (s : State) : State :=
  match encode i with
  | none => s
  | some (slot, _) =>
    let order : BitOrder := if slot = .phase .magic then .msb else .lsb
    let before := (s.input ++ List.replicate s.reader.nfetch 0).take s.reader.nfetch
    { s with
      reader := { s.reader with acc := 0, cnt := 0, mode := order, inWait := false }
      seq := { s.seq with
        phase := slotPhase slot
        flg := if slot = .flags then BitVec.ofNat 8 w else s.seq.flg
        hlit := if slot = .codeLength then 257 else s.seq.hlit
        hdist := if slot = .codeLength then 1 else s.seq.hdist
        storedRem := if slot = .phase .storedData then 1 else s.seq.storedRem }
      tables := slotTables s.tables slot
      ports := { s.ports with outPend := false }
      input := before ++ packBits order 16 (wireBits i w)
      host := []
      suspended := none }

end Sys2Proof.Machine
end

