-- ==== Sys2Proof/Machine/Step.lean ====
section
/-! DEFINITION. One step of the machine, and an instruction word placed where it fetches. -/

namespace Sys2Proof.Machine

open Sys2Proof

/-- One step of the machine (R7): one element of the stream, or one handshake on a port, or one act of the host. -/
def step (s : State) : Host.Outcome State Fault Refusal := machineStep s

/-- `s` with the instruction that the decoder reads from the table word `w` placed where `step` fetches its next
instruction (notes/assumptions/2); `s` itself where the word is no instruction. -/
def State.withFetchWord (s : State) (nbits w : Nat) : State :=
  match decodeTableWord nbits w with
  | some i => placeWord i w s
  | none => s

end Sys2Proof.Machine
end

