-- ==== Sys2Proof/Machine/Run.lean ====
section
/-! DEFINITION. The run of a decode (R530): steps up to the end of the decode, or up to a wait that the host's acts and
its policy do not end. -/

namespace Sys2Proof.Machine

open Sys2Proof

/-- How a run ends (R530), with the state it ends in. -/
inductive RunEnd where
  | done (s : State)      -- DONE = 1, in P_DONE
  | error (s : State)     -- ERROR = 1, in P_ERROR
  | waits (s : State)     -- a wait of R521, the input and accept schedule exhausted
  | goesOn (s : State)    -- the bound on the steps was reached first
  | fault (f : Fault)
  | refused (r : Refusal)
deriving DecidableEq, Repr

/-- The block stands at a port (R521): an element waits for a byte, or a chunk waits for a consumer who does not accept
by itself. -/
def State.atPort (s : State) : Bool := s.suspended.isSome || (s.ports.outPend && !s.autoAccept)

/-- A run of at most so many steps (R530): DONE and ERROR end it; so does a step that leaves the block at a port when
the host has no act left. -/
def run : Nat → State → RunEnd
  | 0, s => .goesOn s
  | n + 1, s =>
    if s.ports.done then .done s
    else if s.ports.error then .error s
    else
      match step s with
      | .next t => if s.host.isEmpty && t.atPort then .waits t else run n t
      | .fault f => .fault f
      | .refused r => .refused r

/-- The bytes that the host's acts still to come present. -/
def presentedBytes : List HostAct → Nat
  | [] => 0
  | .present bytes :: acts => bytes.length + presentedBytes acts
  | _ :: acts => presentedBytes acts

/-- More steps than a decode can take (R534): one for each act of the host, and an element and a handshake for each bit
of the input. -/
def State.runLimit (s : State) : Nat := s.host.length + 16 * (s.input.length + presentedBytes s.host) + 3

/-- The run function of R530: the decode from `s` to its end. -/
def State.runToEnd (s : State) : RunEnd := run s.runLimit s

end Sys2Proof.Machine
end

