-- ==== Sys2Proof/Safety.lean ====
section
/-! DEFINITION. The terms that claims are stated in: the input as a sequence of bits (R85, R86), what a completed read
leaves (R164, R165), the history as a list of bytes, and the invariant of the machine. Nothing here is run by `step`. -/

namespace Sys2Proof.Machine

open Sys2Proof

/-! ## The input as bits -/

/-- The bits of one input byte in the order the reader takes them (R85, R86). -/
def byteBits (m : BitOrder) (b : Byte) : List Bool :=
  match m with
  | .lsb => lsbBits 8 b.toNat
  | .msb => msbBits 8 b.toNat

/-- The value of a field whose bits are these, first bit first: the sum of R85, or that of R86. -/
def fieldValue (m : BitOrder) : List Bool → Nat
  | [] => 0
  | b :: bs => match m with
    | .lsb => b.toNat + 2 * fieldValue m bs
    | .msb => b.toNat * 2 ^ bs.length + fieldValue m bs

/-- The buffered bits of ACC, next one first (R31). -/
def Reader.buffered (r : Reader) : List Bool :=
  match r.mode with
  | .lsb => lsbBits r.cnt r.acc
  | .msb => msbBits r.cnt r.acc

/-- The whole input bit sequence, in the reader's bit order (R85, R86). -/
def State.inputBits (s : State) : List Bool := s.input.flatMap (byteBits s.reader.mode)

/-- The bits the reader has still to hand out: those buffered, then those of the bytes not yet requested. -/
def State.upcoming (s : State) : List Bool :=
  s.reader.buffered ++ (s.input.drop s.reader.nfetch).flatMap (byteBits s.reader.mode)

/-- The value of the next `n` bits as one field (R85, R86). -/
def State.nextField (n : Nat) (s : State) : Nat := fieldValue s.reader.mode (s.upcoming.take n)

/-- R31 and R36: the bits of ACC from CNT on are 0, and no more bits are buffered than were fetched. -/
def Reader.ok (r : Reader) : Prop := r.acc < 2 ^ r.cnt ∧ r.cnt ≤ 8 * r.nfetch

/-- The bytes that a refill to `n` bits requests: `ceil((n - CNT) / 8)`, none with `CNT >= n` (R164). -/
def Reader.bytesFor (n : Nat) (r : Reader) : Nat := (n - r.cnt + 7) / 8

/-- The state after a refill to `n` bits that gets its bytes (R164): the same upcoming bits, more of them buffered. -/
def State.afterRefill (n : Nat) (s : State) : State :=
  s.withReader { s.reader with
    acc := fieldValue s.reader.mode (s.upcoming.take (s.reader.cnt + 8 * s.reader.bytesFor n))
    cnt := s.reader.cnt + 8 * s.reader.bytesFor n
    nfetch := s.reader.nfetch + s.reader.bytesFor n
    inWait := s.reader.inWait && s.reader.bytesFor n == 0 }

/-- The state after a read of `n` bits that gets its bytes (R165): the upcoming bits without the first `n`. -/
def State.afterRead (n : Nat) (s : State) : State :=
  s.withReader { s.reader with
    acc := fieldValue s.reader.mode ((s.upcoming.drop n).take (s.reader.cnt + 8 * s.reader.bytesFor n - n))
    cnt := s.reader.cnt + 8 * s.reader.bytesFor n - n
    nfetch := s.reader.nfetch + s.reader.bytesFor n
    inWait := s.reader.inWait && s.reader.bytesFor n == 0 }

/-- The state after a read or peek that needs more bits than the input has (R164): every byte is fetched, none
consumed; the request behind the last one is unanswered, or answered `End`. -/
def State.afterShort (s : State) : State :=
  s.withReader { s.reader with
    acc := fieldValue s.reader.mode s.upcoming
    cnt := s.reader.cnt + 8 * (s.input.length - s.reader.nfetch)
    nfetch := s.reader.nfetch + (s.input.length - s.reader.nfetch)
    inWait := !s.inputEnd }

/-- What an element that began in `s` answers where a read or peek that starts in `t` runs short of input: the error of
R471 at that read's start if the port answers `End`, else the wait of R521 (notes/assumptions/3; what follows the wait of an instruction run by itself:
notes/assumptions/30). -/
def shortOf (s t : State) : Host.Outcome State Fault Refusal :=
  if t.inputEnd then .next (errorEntry .unexpectedEof t.bitPos t.afterShort) else .next (suspend s t.afterShort)

/-! ## The history -/

/-- HIST as R47 has it: a byte for each index below OUT_COUNT, in canonical form, and for no other. -/
def History.dense (h : History) : Prop := h.hist.map Prod.fst = List.range h.outCount

/-- The bytes of HIST in index order. -/
def History.bytes (h : History) : List Byte := h.hist.map Prod.snd

/-- The `i`-th byte that a copy at distance `dist` appends to `h`, `i` from 0: the last `dist` bytes, over and over
(R441, corner cases). -/
def History.copied (h : History) (dist i : Nat) : Option Byte := h.hist.read (h.outCount - dist + i % dist)

/-- A length element, `LEN_257` to `LEN_285` (R343). -/
def isLength (i : Instr) : Bool :=
  match encode i with
  | some (.litLen, v) => decide (257 ≤ v) && decide (v ≤ 285)
  | _ => false

/-- How many bytes an instruction stores in HIST, from index OUT_COUNT on, when it completes (R297, R341, R343, R440,
R441). -/
def storeCount (i : Instr) (s : State) : Nat :=
  match i with
  | .storedByte => 1
  | .lit _ => 1
  | .append _ => 1
  | .copy _ n => n
  | i => match encode i with
    | some (.litLen, v) => if 257 ≤ v ∧ v ≤ 285 then lenBaseTable.getD (v - 257) 0 + s.nextField (lenExtra v) else 0
    | _ => 0

/-! ## Who writes what (R58): the instructions that run a rule the table of R58 names -/

/-- MODE: R169, R252. -/
def writesMode : Instr → Bool
  | .gzMagic => true
  | .setmode _ => true
  | _ => false

/-- BFINAL and BTYPE: R291. -/
def writesHeader : Instr → Bool
  | .blkhdr => true
  | _ => false

/-- FLG: R254. -/
def writesFlg : Instr → Bool
  | .gzFlg => true
  | _ => false

/-- STORED_REM: R296, R297. -/
def writesStoredRem : Instr → Bool
  | .storedHdr => true
  | .storedByte => true
  | _ => false

/-- HLIT, HDIST, HCLEN and CL_LEN: R300, R302. -/
def writesCounts : Instr → Bool
  | .dynHdr => true
  | _ => false

/-- LENS: R304 to R307, through Append of R316. -/
def writesLens : Instr → Bool
  | .clLenLit _ => true
  | .clRepeatPrev => true
  | .clZeroShort => true
  | .clZeroLong => true
  | _ => false

/-- HIST and OUT_COUNT: R440, called by R297, R341 and R441. -/
def writesHistory (i : Instr) : Bool :=
  match i with
  | .storedByte => true
  | .lit _ => true
  | .append _ => true
  | .copy _ _ => true
  | i => isLength i

/-- A table store: R202, called by R201, R302 and R310; R293 calls R201, and R291 and R300 go through these. -/
def writesTable (id : TableId) : Instr → Bool
  | .buildRanges t _ => t == id
  | .buildLengths t _ => t == id
  | .dynHdr => id == .cl
  | .blkhdr => id != .cl
  | .blkFixed => id != .cl
  | i => writesLens i && id != .cl

/-- OUT_PEND and OUT_CHUNK: Emit (R14), called by R297, R341 and R343. -/
def offersChunk (i : Instr) : Bool :=
  match i with
  | .storedByte => true
  | .lit _ => true
  | i => isLength i

/-- DONE and the trailer registers: R270, R272. -/
def writesDone : Instr → Bool
  | .gzTrailer => true
  | _ => false

/-! ## Tables -/

/-- A table store as a build leaves it: the table of some length list that fits the store (R202). -/
def Table.built (id : TableId) (t : Table) : Prop := ∃ lens, lengthsOk id lens = true ∧ t = tableOf lens

/-- The bits of a table entry's code on the wire: its symbol, most significant bit first (R89, R121). -/
def entryBits (e : Entry) : List Bool := msbBits e.bits e.symbol

/-- `LENS[at .. at+r-1] <- v` (R316), entry by entry. -/
def lensWith (lens : Vector (BitVec 4) 320) (v : BitVec 4) (at_ r : Nat) : Vector (BitVec 4) 320 :=
  Vector.ofFn fun j => if at_ ≤ j.val ∧ j.val < at_ + r then v else lens[j]

/-- What `Append(v, r)` (R316) leaves where the list does not overrun: the appended lengths, and where they complete it
both block tables and the phase of the symbols (R310). -/
def lensAppended (v : BitVec 4) (r : Nat) (s : State) : State :=
  let t := s.withSeq { s.seq with lens := lensWith s.seq.lens v s.seq.lensN r, lensN := s.seq.lensN + r }
  if s.seq.lensN + r = lensTotal s.seq then
    let all := t.seq.lens.toList.map BitVec.toNat
    let ll := all.take s.seq.hlit.toNat
    let d := (all.drop s.seq.hlit.toNat).take s.seq.hdist.toNat
    let u := sendDiag .tableBuilt (t.withTables { t.tables with ll := tableOf ll })
    (sendDiag .tableBuilt (u.withTables { u.tables with d := tableOf d })).setPhase .symbol
  else t

/-! ## What a symbol stands for -/

/-- Distance symbol `d` with the extra bits `bits` gives the distance `dist` (R375): whatever follows those bits, its
instruction returns `dist` and consumes exactly them. -/
def givesDistance (d : Nat) (bits : List Bool) (dist : Nat) : Prop :=
  ∃ i, decode .distance d = .ok i ∧ ∀ (s : State) (rest : List Bool), s.reader.ok → s.reader.mode = .lsb →
    s.upcoming = bits ++ rest → ∃ t : State, exec i s = .next t ∧ t.result = dist ∧ t.upcoming = rest

/-- Literal/length symbol `c` with the extra bits `bits` gives the length `n` (R343): followed by the code of distance
symbol 0 in a well-formed T_D, which needs no more than one byte of output, its instruction appends `n` bytes and
consumes exactly those bits. -/
def givesLength (c : Nat) (bits : List Bool) (n : Nat) : Prop :=
  ∃ i, decode .litLen c = .ok i ∧ ∀ (s : State) (lens : List Nat) (e : Entry) (rest : List Bool),
    s.reader.ok → s.reader.mode = .lsb → s.history.dense → 1 ≤ s.history.outCount →
    s.tables.d = tableOf lens → (tableOf lens).malformed = false → e ∈ (tableOf lens).entries → e.code = 0 →
    s.upcoming = bits ++ entryBits e ++ rest →
    ∃ t : State, exec i s = .next t ∧ t.history.outCount = s.history.outCount + n ∧ t.upcoming = rest

/-! ## The invariant -/

/-- The bit position at which a header element starts (R250, R472 to R474), none for the phases without a fixed one. -/
def headerPos : Phase → Option Nat
  | .magic => some 0
  | .cm => some 16
  | .flg => some 24
  | .mtime => some 32
  | .xfl => some 64
  | .os => some 72
  | _ => none

/-- The phases whose element starts at a byte boundary (R91, R250, R297). -/
def byteAligned : Phase → Bool
  | .fname => true
  | .fcomment => true
  | .fhcrc => true
  | .storedData => true
  | p => (headerPos p).isSome

/-- What holds of the block between two elements: `s` has no element suspended. -/
structure Sound (s : State) : Prop where
  readerOk : s.reader.ok
  inputLeft : s.reader.nfetch ≤ s.input.length
  buffered : s.upcoming = s.inputBits.drop s.bitPos                       -- R85, R86
  fewBits : s.ports.error = false → s.reader.cnt ≤ 7                       -- R35, R174
  notWaiting : s.reader.inWait = false                                     -- R54
  order : s.ports.error = false → (s.reader.mode = .msb ↔ s.seq.phase = .magic)  -- R90, R252
  header : ∀ p, headerPos s.seq.phase = some p → s.bitPos = p              -- R250
  aligned : byteAligned s.seq.phase = true → s.bitPos % 8 = 0              -- R91, R250
  oneFlag : ¬ (s.ports.done = true ∧ s.ports.error = true)                 -- R49, R57
  kindLegal : s.ports.errKind = .none ↔ s.ports.error = false              -- R57
  positionLegal : s.ports.error = false → s.ports.errBitpos = 0            -- R57
  positionNow : s.ports.error = true → s.ports.errBitpos = s.bitPos        -- R486
  trailerLegal : s.ports.done = false → s.ports.trailerCrc32 = 0 ∧ s.ports.trailerIsize = 0  -- R57
  donePhase : s.ports.done = true ↔ s.seq.phase = .done                    -- R272
  errorPhase : s.ports.error = true ↔ s.seq.phase = .error                 -- R485
  terminalFree : terminal s.seq.phase = true → s.ports.outPend = false     -- R533
  chunkSize : s.ports.outPend = true → 1 ≤ s.ports.outChunk.length ∧ s.ports.outChunk.length ≤ 258  -- R53
  offered : s.accepted.flatten ++ (if s.ports.outPend then s.ports.outChunk else []) = s.history.bytes  -- R82
  dense : s.history.dense                                                  -- R47, R83
  outputBound : s.history.outCount ≤ 129 * s.bitPos                        -- R446
  builtCl : s.tables.cl.built .cl                                          -- R50, R84
  builtLl : s.tables.ll.built .ll
  builtD : s.tables.d.built .d
  storedLeft : s.seq.phase = .storedData → s.seq.storedRem ≠ 0             -- R290
  counts : s.seq.phase = .dynLens →
    257 ≤ s.seq.hlit.toNat ∧ s.seq.hlit.toNat ≤ 288 ∧ 1 ≤ s.seq.hdist.toNat ∧ s.seq.hdist.toNat ≤ 32 ∧
    4 ≤ s.seq.hclen.toNat ∧ s.seq.hclen.toNat ≤ 19 ∧ s.seq.lensN < lensTotal s.seq  -- R44, R310
  finalBlock : s.seq.phase = .trailer ∨ s.seq.phase = .done → s.seq.bfinal = true   -- R290, R313

/-- What ties a waiting state to the block it will go on from: the wait shows in IN_WAIT, and neither the ports, the
history, the tables nor the phase differ (R521, R94). -/
def waitsFor (s : State) (b : Block) : Prop :=
  s.reader.inWait = true ∧ b.ports.outPend = false ∧ s.ports = b.ports ∧ s.history = b.history ∧ s.tables = b.tables ∧
    s.seq.phase = b.seq.phase

/-- The invariant of the machine: the block an element starts from is sound, and a suspended element shows as one. -/
structure Inv (s : State) : Prop where
  sound : Sound s.start
  waiting : ∀ b, s.suspended = some b → waitsFor s b

/-! ## The diagnostic sink taken away (R497) -/

/-- The block with no diagnostic event recorded. -/
def Block.silent (b : Block) : Block := { b with diag := [] }

/-- The machine with no diagnostic sink and no event recorded. -/
def State.silent (s : State) : State :=
  { s with
    toBlock := s.toBlock.silent
    params := { s.params with diagPresent := false }
    suspended := s.suspended.map Block.silent }

/-- An outcome with every state in it silenced. -/
def silentOutcome : Host.Outcome State Fault Refusal → Host.Outcome State Fault Refusal
  | .next t => .next t.silent
  | .fault f => .fault f
  | .refused r => .refused r

/-! ## Other input (R170) -/

/-- The machine with another input at its port. -/
def State.withInput (s : State) (bytes : List Byte) (ended : Bool) : State :=
  { s with input := bytes, inputEnd := ended }

end Sys2Proof.Machine
end

