-- ==== Sys2Proof/Certificates/Slice0/Obligations.lean ====
section
/-! DEFINITION. The statements for the provers: what spec/'s numbered rules say the instructions and the machine do. -/

open Sys2Proof Sys2Proof.Machine

/-! ## Encoding -/

/-- Words written out from the spec's encodings decode to the instructions they stand for: the phases of R126, the
block header of R115, the symbols of R119, R120 and R127, the fixed codes of R123 and R124. That a bare table word
0x1F8B is read as GZ_MAGIC, whose whole match it is, is the model's choice (notes/assumptions/10); that FLG bit 2 is
FEXTRA rests on R255, which the spec marks as general knowledge (notes/assumptions/11). -/
def Obligations.SpecWordsDecode : Prop :=
  decode (.phase .magic) 0x1F8B = .ok .gzMagic ∧ decode (.phase .storedData) 0xDE = .ok .storedByte ∧
  decode .flags 0b00000100 = .ok .gzFextra ∧
  decode .header 0b001 = .ok .blkStored ∧ decode .header 0b011 = .ok .blkFixed ∧
  decode .header 0b100 = .ok .blkDynamic ∧ decode .header 0b111 = .ok .blkReserved ∧
  decode .codeLength 7 = .ok (.clLenLit 7) ∧ decode .codeLength 16 = .ok .clRepeatPrev ∧
  decode .codeLength 17 = .ok .clZeroShort ∧ decode .codeLength 18 = .ok .clZeroLong ∧
  decode .litLen 0x61 = .ok (.lit 0x61) ∧ decode .litLen 256 = .ok .eob ∧ decode .litLen 259 = .ok .len259 ∧
  decode .litLen 285 = .ok .len285 ∧ decode .litLen 287 = .ok .len287 ∧
  decode .distance 0 = .ok .dist0 ∧ decode .distance 29 = .ok .dist29 ∧ decode .distance 30 = .ok .dist30 ∧
  decodeTableWord 16 0x1F8B = some .gzMagic ∧ decodeTableWord 9 0b100000000 = some .eob ∧
  fixedLitLenBits 0x61 = [true, false, false, true, false, false, false, true] ∧
  fixedLitLenBits 257 = [false, false, false, false, false, false, true] ∧
  fixedDistanceBits 30 = [true, true, true, true, false]

/-- For every well-formed instruction that has a stream encoding, the decoder gives back what the encoder wrote. -/
def Obligations.DecodeOfEncode : Prop :=
  ∀ (i : Instr) (slot : Slot) (v : Nat), i.wf = true → encode i = some (slot, v) → decode slot v = .ok i

/-- The other direction, for the slots in which each value has one meaning: a symbol value that decodes is the one its
instruction encodes to; the values that decode are 0 to 18, 0 to 287 and 0 to 31, and a header's are 0 to 7, its
instruction chosen by its BTYPE bits alone (R115, R119, R120, R127, R340). -/
def Obligations.EncodeOfDecode : Prop :=
  (∀ (v : Nat) (i : Instr), decode .codeLength v = .ok i → encode i = some (.codeLength, v)) ∧
  (∀ (v : Nat) (i : Instr), decode .litLen v = .ok i → encode i = some (.litLen, v)) ∧
  (∀ (v : Nat) (i : Instr), decode .distance v = .ok i → encode i = some (.distance, v)) ∧
  (∀ v : Nat, (∃ i, decode .codeLength v = .ok i) ↔ v ≤ 18) ∧
  (∀ v : Nat, (∃ i, decode .litLen v = .ok i) ↔ v ≤ 287) ∧
  (∀ v : Nat, (∃ i, decode .distance v = .ok i) ↔ v ≤ 31) ∧
  (∀ v : Nat, (∃ i, decode .header v = .ok i) ↔ v < 8) ∧
  (∀ f t : Nat, f < 2 → t < 4 → decode .header (f + 2 * t) = decode .header (2 * t))

/-! ## The bit reader -/

/-- RB (R165): the next `n` bits come back as one number and the bit position moves by `n`; with too few bits it raises
at its own start, or waits; above 32 it is refused (R162). The value is left in `result` (notes/assumptions/4). -/
def Obligations.ReadBitsTakesNextField : Prop :=
  ∀ (n : Nat) (s : State), s.reader.ok →
    (n ≤ 32 → n ≤ s.upcoming.length →
      exec (.rb n) s = .next ((s.afterRead n).withResult (s.nextField n)) ∧
      (s.afterRead n).upcoming = s.upcoming.drop n ∧ (s.afterRead n).bitPos = s.bitPos + n ∧ s.nextField n < 2 ^ n) ∧
    (n ≤ 32 → s.upcoming.length < n → exec (.rb n) s = shortOf s s) ∧
    (32 < n → exec (.rb n) s = .refused (.readTooWide n))

/-- PB (R166): the value a read would return, and the bit position and the upcoming bits as they were. The value is left
in `result` (notes/assumptions/4). -/
def Obligations.PeekBitsConsumesNothing : Prop :=
  ∀ (n : Nat) (s : State), s.reader.ok →
    (n ≤ 32 → n ≤ s.upcoming.length →
      exec (.pb n) s = .next ((s.afterRefill n).withResult (s.nextField n)) ∧
      (s.afterRefill n).upcoming = s.upcoming ∧ (s.afterRefill n).bitPos = s.bitPos) ∧
    (n ≤ 32 → s.upcoming.length < n → exec (.pb n) s = shortOf s s) ∧
    (32 < n → exec (.pb n) s = .refused (.readTooWide n))

/-- ALIGN (R167): it discards the 0 to 7 bits up to the next byte boundary and returns how many they were, without
asking for input. -/
def Obligations.AlignReachesByteBoundary : Prop :=
  ∀ s : State, s.reader.ok → ∃ t : State, exec .align s = .next t ∧
    t = (s.afterRead (s.reader.cnt % 8)).withResult (s.reader.cnt % 8) ∧
    t.bitPos % 8 = 0 ∧ s.bitPos ≤ t.bitPos ∧ t.bitPos < s.bitPos + 8 ∧
    t.bitPos = s.bitPos + t.result ∧ t.reader.nfetch = s.reader.nfetch

/-- BITPOS (R168): `8 * NFETCH - CNT`, with nothing else changed. The field `result` is where the model leaves an
instruction's value (notes/assumptions/4). -/
def Obligations.BitPosReadsPosition : Prop :=
  ∀ s : State, exec .bitpos s = .next (s.withResult (8 * s.reader.nfetch - s.reader.cnt))

/-- SETMODE (R169): with no bits buffered it sets MODE and clears ACC and the bit position stays; with bits buffered it
is refused. That it leaves `result` as it is, where R13 says that each primitive returns a number, is the model's choice
(notes/assumptions/29). -/
def Obligations.SetModeNeedsEmptyReader : Prop :=
  ∀ (m : BitOrder) (s : State),
    (s.reader.cnt = 0 → ∃ t : State, exec (.setmode m) s = .next t ∧
      t = s.withReader { s.reader with mode := m, acc := 0 } ∧ t.bitPos = s.bitPos) ∧
    (s.reader.cnt ≠ 0 → exec (.setmode m) s = .refused (.setModeBuffered s.reader.cnt))

/-- The split law (R171): reads of `n` and then `m` bits give the two parts of one read of `n + m` bits, by the bit
order, and leave the same reader. -/
def Obligations.ReadsSplit : Prop :=
  ∀ (n m : Nat) (s : State), s.reader.ok → n + m ≤ 32 → n + m ≤ s.upcoming.length →
    ∃ t u v : State, exec (.rb n) s = .next t ∧ exec (.rb m) t = .next u ∧ exec (.rb (n + m)) s = .next v ∧
      u.reader = v.reader ∧
      (s.reader.mode = .lsb → v.result = t.result ||| (u.result <<< n)) ∧
      (s.reader.mode = .msb → v.result = (t.result <<< m) ||| u.result)

/-- Byte order (R87, R88): with no bits buffered, a field of whole bytes is little-endian in LSB-first mode and
big-endian in MSB-first mode. -/
def Obligations.ByteFieldsHaveByteOrder : Prop :=
  ∀ (s : State) (b₀ b₁ b₂ b₃ : Byte) (rest : List Byte), s.reader.ok → s.reader.cnt = 0 →
    s.input.drop s.reader.nfetch = b₀ :: b₁ :: b₂ :: b₃ :: rest →
    (s.reader.mode = .lsb →
      exec (.rb 32) s = .next ((s.afterRead 32).withResult
        (b₀.toNat + 256 * b₁.toNat + 65536 * b₂.toNat + 16777216 * b₃.toNat)) ∧
      exec (.rb 16) s = .next ((s.afterRead 16).withResult (b₀.toNat + 256 * b₁.toNat))) ∧
    (s.reader.mode = .msb →
      exec (.rb 16) s = .next ((s.afterRead 16).withResult (256 * b₀.toNat + b₁.toNat)))

/-! ## The gzip header and trailer -/

/-- GZ_MAGIC (R251) and the bit-order switch (R252): the whole 16-bit value is compared; `0x1F8B` leads to the method
byte in LSB-first order. With whole bytes left over in ACC, which no run has here, the switch is refused (R169). -/
def Obligations.MagicSelectsLsbFirst : Prop :=
  ∀ s : State, s.reader.ok →
    (16 ≤ s.upcoming.length → s.nextField 16 = 0x1F8B → (s.afterRead 16).reader.cnt = 0 →
      exec .gzMagic s = .next (((s.afterRead 16).withReader
        { (s.afterRead 16).reader with mode := .lsb, acc := 0 }).setPhase .cm)) ∧
    (16 ≤ s.upcoming.length → s.nextField 16 = 0x1F8B → (s.afterRead 16).reader.cnt ≠ 0 →
      exec .gzMagic s = .refused (.setModeBuffered (s.afterRead 16).reader.cnt)) ∧
    (16 ≤ s.upcoming.length → s.nextField 16 ≠ 0x1F8B →
      exec .gzMagic s = .next (errorEntry .badMagic (s.bitPos + 16) (s.afterRead 16))) ∧
    (s.upcoming.length < 16 → exec .gzMagic s = shortOf s s)

/-- GZ_CM (R253): only method 8 goes on; every other value raises after the byte. -/
def Obligations.MethodMustBeEight : Prop :=
  ∀ s : State, s.reader.ok →
    (8 ≤ s.upcoming.length → s.nextField 8 = 8 → exec .gzCm s = .next ((s.afterRead 8).setPhase .flg)) ∧
    (8 ≤ s.upcoming.length → s.nextField 8 ≠ 8 →
      exec .gzCm s = .next (errorEntry .unsupportedMethod (s.bitPos + 8) (s.afterRead 8))) ∧
    (s.upcoming.length < 8 → exec .gzCm s = shortOf s s)

/-- GZ_FLG (R254): FLG takes the byte, unchecked. -/
def Obligations.FlagByteIsKept : Prop :=
  ∀ s : State, s.reader.ok →
    (8 ≤ s.upcoming.length →
      exec .gzFlg s = .next (((s.afterRead 8).withSeq
        { s.seq with flg := BitVec.ofNat 8 (s.nextField 8) }).setPhase .mtime)) ∧
    (s.upcoming.length < 8 → exec .gzFlg s = shortOf s s)

/-- GZ_MTIME, GZ_XFL and GZ_FHCRC (R256, R257, R262): the field is read and discarded, whatever it is. -/
def Obligations.HeaderFieldsAreDiscarded : Prop :=
  ∀ s : State, s.reader.ok →
    (32 ≤ s.upcoming.length → exec .gzMtime s = .next ((s.afterRead 32).setPhase .xfl)) ∧
    (s.upcoming.length < 32 → exec .gzMtime s = shortOf s s) ∧
    (8 ≤ s.upcoming.length → exec .gzXfl s = .next ((s.afterRead 8).setPhase .os)) ∧
    (s.upcoming.length < 8 → exec .gzXfl s = shortOf s s) ∧
    (16 ≤ s.upcoming.length → exec .gzFhcrc s = .next ((s.afterRead 16).setPhase .blkhdr)) ∧
    (s.upcoming.length < 16 → exec .gzFhcrc s = shortOf s s)

/-- GZ_OS and GZ_FEXTRA (R258, R259, R263): FEXTRA raises after the OS byte; otherwise the next phase is that of the
first optional field present, in the order name, comment, header CRC. The bit numbers rest on R255, which the spec
marks as general knowledge (notes/assumptions/11). -/
def Obligations.OsByteChecksExtraFlag : Prop :=
  ∀ s : State, s.reader.ok →
    (8 ≤ s.upcoming.length → s.seq.flg.getLsbD 2 = false →
      exec .gzOs s = .next ((s.afterRead 8).setPhase
        (if s.seq.flg.getLsbD 3 then .fname else if s.seq.flg.getLsbD 4 then .fcomment
          else if s.seq.flg.getLsbD 1 then .fhcrc else .blkhdr))) ∧
    (8 ≤ s.upcoming.length → s.seq.flg.getLsbD 2 = true →
      exec .gzOs s = .next (errorEntry .unsupportedFeature (s.bitPos + 8) (s.afterRead 8))) ∧
    (s.upcoming.length < 8 → exec .gzOs s = shortOf s s) ∧
    (s.seq.flg.getLsbD 2 = false → exec .gzFextra s = .next s) ∧
    (s.seq.flg.getLsbD 2 = true → exec .gzFextra s = .next (errorEntry .unsupportedFeature s.bitPos s))

/-- GZ_FNAME_BYTE and GZ_FCOMMENT_BYTE (R260, R261, R263): the phase stays until the zero byte, then moves to the next
optional field present. The bit numbers rest on R255 (notes/assumptions/11). -/
def Obligations.HeaderStringsEndAtZero : Prop :=
  ∀ s : State, s.reader.ok →
    (8 ≤ s.upcoming.length → s.nextField 8 ≠ 0 →
      exec .gzFnameByte s = .next (s.afterRead 8) ∧ exec .gzFcommentByte s = .next (s.afterRead 8)) ∧
    (8 ≤ s.upcoming.length → s.nextField 8 = 0 →
      exec .gzFnameByte s = .next ((s.afterRead 8).setPhase
        (if s.seq.flg.getLsbD 4 then .fcomment else if s.seq.flg.getLsbD 1 then .fhcrc else .blkhdr)) ∧
      exec .gzFcommentByte s = .next ((s.afterRead 8).setPhase
        (if s.seq.flg.getLsbD 1 then .fhcrc else .blkhdr))) ∧
    (s.upcoming.length < 8 → exec .gzFnameByte s = shortOf s s ∧ exec .gzFcommentByte s = shortOf s s)

/-- GZ_TRAILER (R270, R271, R272, R275): after the pad bits both 32-bit fields are captured as read, with nothing
compared, and DONE is set; if either is missing neither register is written. -/
def Obligations.TrailerIsCapturedUnchecked : Prop :=
  ∀ s : State, s.reader.ok →
    (s.reader.cnt % 8 + 64 ≤ s.upcoming.length →
      exec .gzTrailer s = .next (((s.afterRead (s.reader.cnt % 8 + 64)).withPorts { s.ports with
        trailerCrc32 := BitVec.ofNat 32 ((s.afterRead (s.reader.cnt % 8)).nextField 32)
        trailerIsize := BitVec.ofNat 32 ((s.afterRead (s.reader.cnt % 8 + 32)).nextField 32)
        done := true }).setPhase .done)) ∧
    (s.upcoming.length < s.reader.cnt % 8 + 32 →
      exec .gzTrailer s = shortOf s (s.afterRead (s.reader.cnt % 8))) ∧
    (s.reader.cnt % 8 + 32 ≤ s.upcoming.length → s.upcoming.length < s.reader.cnt % 8 + 64 →
      exec .gzTrailer s = shortOf s (s.afterRead (s.reader.cnt % 8 + 32)))

/-! ## Blocks -/

/-- BLKHDR (R291): BLOCK_START at the header's first bit, then BFINAL and BTYPE, and in the same step the type's
continuation (R292 to R295); short of input neither register is written. -/
def Obligations.BlockHeaderSelectsContinuation : Prop :=
  ∀ s : State, s.reader.ok →
    (3 ≤ s.upcoming.length →
      ∀ t : State,
        t = ((sendDiag .blockStart s).afterRead 3).withSeq { s.seq with
          bfinal := s.nextField 1 == 1, btype := BitVec.ofNat 2 ((s.afterRead 1).nextField 2) } →
        ((s.afterRead 1).nextField 2 = 0 → exec .blkhdr s = .next (t.setPhase .storedHdr)) ∧
        ((s.afterRead 1).nextField 2 = 1 → exec .blkhdr s = exec .blkFixed t ∧ ∃ u, exec .blkhdr s = .next u) ∧
        ((s.afterRead 1).nextField 2 = 2 → exec .blkhdr s = .next (t.setPhase .dynHdr)) ∧
        ((s.afterRead 1).nextField 2 = 3 →
          exec .blkhdr s = .next (errorEntry .invalidBlockType (s.bitPos + 3) t))) ∧
    (s.upcoming.length = 0 → exec .blkhdr s = shortOf s (sendDiag .blockStart s)) ∧
    (1 ≤ s.upcoming.length → s.upcoming.length < 3 →
      exec .blkhdr s = shortOf s ((sendDiag .blockStart s).afterRead 1))

/-- BLK_STORED, BLK_FIXED, BLK_DYNAMIC and BLK_RESERVED (R292 to R295), run by themselves: the first and third only
select the phase, the second builds both fixed tables without reading a bit, the fourth raises. -/
def Obligations.BlockTypesContinue : Prop :=
  ∀ s : State,
    exec .blkStored s = .next (s.setPhase .storedHdr) ∧
    (∃ t : State, exec .blkFixed s = .next t ∧ t.reader = s.reader ∧ t.history = s.history ∧ t.ports = s.ports ∧
      t.seq = { s.seq with phase := .symbol } ∧ t.tables.cl = s.tables.cl ∧
      t.tables.ll = tableOf (expandRanges fixedLL) ∧ t.tables.d = tableOf (expandRanges fixedD) ∧
      t.tables.ll.malformed = false ∧ t.tables.d.malformed = false ∧
      t = ((s.withTables t.tables).withDiag t.diag).setPhase .symbol ∧
      t.diag = s.diag ++ (if s.params.diagPresent then
        [⟨s.bitPos, .tableBuilt⟩, ⟨s.bitPos, .tableBuilt⟩] else [])) ∧
    exec .blkDynamic s = .next (s.setPhase .dynHdr) ∧
    exec .blkReserved s = .next (errorEntry .invalidBlockType s.bitPos s)

/-- The fixed tables (R207, R208, R220): their entries in order, each symbol as the tables of those rules list it. -/
def Obligations.FixedTablesAsListed : Prop :=
  tableOf (expandRanges fixedLL) =
    { entries := (List.range 24).map (fun k => mkEntry (256 + k) 7 k)
        ++ (List.range 144).map (fun k => mkEntry k 8 (0x30 + k))
        ++ (List.range 8).map (fun k => mkEntry (280 + k) 8 (0xC0 + k))
        ++ (List.range 112).map (fun k => mkEntry (144 + k) 9 (0x190 + k))
      malformed := false } ∧
  tableOf (expandRanges fixedD) =
    { entries := (List.range 32).map (fun d => mkEntry d 5 d), malformed := false }

/-- STORED_HDR (R296, R298): after the pad bits LEN and NLEN, the test that NLEN_CHECK selects, and a block of length 0
ends at once (R313). -/
def Obligations.StoredHeaderChecksLength : Prop :=
  ∀ (s a : State) (len nlen : Nat), s.reader.ok → a = s.afterRead (s.reader.cnt % 8) →
    len = a.nextField 16 → nlen = (a.afterRead 16).nextField 16 →
    (32 ≤ a.upcoming.length → (∀ w : State,
        w = (a.afterRead 32).withSeq { s.seq with storedRem := BitVec.ofNat 16 len } →
        ((s.params.nlenCheck = .andZero ∧ len &&& nlen = 0) ∨
          (s.params.nlenCheck = .exactComplement ∧ nlen = 0xFFFF - len)) →
        (len ≠ 0 → exec .storedHdr s = .next (w.setPhase .storedData)) ∧
        (len = 0 → exec .storedHdr s = .next ((sendDiag .blockEnd w).setPhase
          (if s.seq.bfinal then .trailer else .blkhdr)))) ∧
      (((s.params.nlenCheck = .andZero ∧ len &&& nlen ≠ 0) ∨
          (s.params.nlenCheck = .exactComplement ∧ nlen ≠ 0xFFFF - len)) →
        exec .storedHdr s = .next (errorEntry .lengthMismatch (a.bitPos + 32) (a.afterRead 32)))) ∧
    (a.upcoming.length < 16 → exec .storedHdr s = shortOf s a) ∧
    (16 ≤ a.upcoming.length → a.upcoming.length < 32 → exec .storedHdr s = shortOf s (a.afterRead 16))

/-- STORED_BYTE (R297): one byte appended at OUT_COUNT, STORED_REM one less, the block ended after the last byte (R313),
and the byte offered as a chunk. -/
def Obligations.StoredByteIsCopied : Prop :=
  ∀ s : State, s.reader.ok → s.seq.storedRem ≠ 0 →
    (8 ≤ s.upcoming.length → ∀ (v : Byte) (u : State), v = BitVec.ofNat 8 (s.nextField 8) →
      u = ((s.afterRead 8).withHistory
            { hist := s.history.hist.write s.history.outCount v, outCount := s.history.outCount + 1 }).withSeq
            { s.seq with storedRem := s.seq.storedRem - 1 } →
      (s.seq.storedRem ≠ 1 →
        exec .storedByte s = .next (u.withPorts { s.ports with outChunk := [v], outPend := true })) ∧
      (s.seq.storedRem = 1 →
        exec .storedByte s = .next (((sendDiag .blockEnd u).setPhase
          (if s.seq.bfinal then .trailer else .blkhdr)).withPorts
          { s.ports with outChunk := [v], outPend := true }))) ∧
    (s.upcoming.length < 8 → exec .storedByte s = shortOf s s)

/-- DYN_HDR (R300 to R303): the three counts, each 3-bit length in the slot the permutation gives it and 0 in the slots
not sent, T_CL built from them, and LENS_N 0, everything else as it was. Short of input it stops at the start of the
field that fails, with the earlier fields written: among the 3-bit lengths, the slots of those before the one that
fails, and 0 in the others (R302). -/
def Obligations.DynamicHeaderBuildsCodeLengthTable : Prop :=
  ∀ (s : State) (hlit : BitVec 9) (hdist : BitVec 6) (n : Nat), s.reader.ok →
    hlit = BitVec.ofNat 9 (s.nextField 5 + 257) → hdist = BitVec.ofNat 6 ((s.afterRead 5).nextField 5 + 1) →
    n = (s.afterRead 10).nextField 4 + 4 →
    (14 + 3 * n ≤ s.upcoming.length → ∃ t : State, exec .dynHdr s = .next t ∧
      t.reader = (s.afterRead (14 + 3 * n)).reader ∧
      t.seq = { s.seq with
        hlit := hlit, hdist := hdist, hclen := BitVec.ofNat 5 n, clLen := t.seq.clLen, lensN := 0, phase := .dynLens } ∧
      (∀ i : Nat, i < n → (t.seq.clLen.toList[clOrder.getD i 0]?).map BitVec.toNat
        = some ((s.afterRead (14 + 3 * i)).nextField 3)) ∧
      (∀ i : Nat, n ≤ i → i < 19 → (t.seq.clLen.toList[clOrder.getD i 0]?).map BitVec.toNat = some 0) ∧
      t.tables = { s.tables with cl := tableOf (t.seq.clLen.toList.map BitVec.toNat) } ∧
      t.diag = s.diag ++ (if s.params.diagPresent then [⟨t.bitPos, .tableBuilt⟩] else []) ∧
      t = (((s.withReader t.reader).withSeq t.seq).withTables t.tables).withDiag t.diag) ∧
    (s.upcoming.length < 5 → exec .dynHdr s = shortOf s s) ∧
    (5 ≤ s.upcoming.length → s.upcoming.length < 10 →
      exec .dynHdr s = shortOf s ((s.afterRead 5).withSeq { s.seq with hlit := hlit })) ∧
    (10 ≤ s.upcoming.length → s.upcoming.length < 14 →
      exec .dynHdr s = shortOf s ((s.afterRead 10).withSeq { s.seq with hlit := hlit, hdist := hdist })) ∧
    (14 ≤ s.upcoming.length → s.upcoming.length < 14 + 3 * n → ∃ (k : Nat) (t : State), k < n ∧
      exec .dynHdr s = shortOf s t ∧ t.reader = (s.afterRead (14 + 3 * k)).reader ∧ t.upcoming.length < 3 ∧
      (∀ i : Nat, i < k → (t.seq.clLen.toList[clOrder.getD i 0]?).map BitVec.toNat
        = some ((s.afterRead (14 + 3 * i)).nextField 3)) ∧
      (∀ i : Nat, k ≤ i → i < 19 → (t.seq.clLen.toList[clOrder.getD i 0]?).map BitVec.toNat = some 0) ∧
      t = (s.withReader t.reader).withSeq { s.seq with
        hlit := hlit, hdist := hdist, hclen := BitVec.ofNat 5 n, clLen := t.seq.clLen })

/-! ## Code-length symbols -/

/-- CL_LEN_LIT (R304, R316, R309, R310): one length equal to the symbol, and the block's tables when it completes the
list; a list already full would be overrun, which raises. -/
def Obligations.CodeLengthLiteralAppendsOne : Prop :=
  ∀ (v : BitVec 4) (s : State), s.seq.hlit.toNat ≤ 288 → s.seq.hdist.toNat ≤ 32 →
    (s.seq.lensN < lensTotal s.seq → exec (.clLenLit v) s = .next (lensAppended v 1 s)) ∧
    (lensTotal s.seq ≤ s.seq.lensN →
      exec (.clLenLit v) s = .next (errorEntry .invalidCodeLengthSymbol s.bitPos s))

/-- CL_REPEAT_PREV (R305, R309, R316): without a previous length it raises before its extra bits; else the last length
appended is repeated 3 to 6 times, an overrun raising after the extra bits with nothing appended. -/
def Obligations.RepeatPreviousLength : Prop :=
  ∀ s : State, s.reader.ok → s.seq.hlit.toNat ≤ 288 → s.seq.hdist.toNat ≤ 32 →
    (s.seq.lensN = 0 → exec .clRepeatPrev s = .next (errorEntry .invalidCodeLengthSymbol s.bitPos s)) ∧
    (s.seq.lensN ≠ 0 → 2 ≤ s.upcoming.length → s.seq.lensN + (3 + s.nextField 2) ≤ lensTotal s.seq →
      ∃ v : BitVec 4, s.seq.lens.toList[s.seq.lensN - 1]? = some v ∧
        exec .clRepeatPrev s = .next (lensAppended v (3 + s.nextField 2) (s.afterRead 2))) ∧
    (s.seq.lensN ≠ 0 → s.seq.lensN ≤ 320 → 2 ≤ s.upcoming.length →
      lensTotal s.seq < s.seq.lensN + (3 + s.nextField 2) →
      exec .clRepeatPrev s = .next (errorEntry .invalidCodeLengthSymbol (s.bitPos + 2) (s.afterRead 2))) ∧
    (s.seq.lensN ≠ 0 → s.upcoming.length < 2 → exec .clRepeatPrev s = shortOf s s)

/-- CL_ZERO_SHORT and CL_ZERO_LONG (R306, R307, R309, R316): a run of 3 to 10, or 11 to 138, zero lengths; an overrun
raises after the extra bits with nothing appended. -/
def Obligations.ZeroRunsAppendZeros : Prop :=
  ∀ s : State, s.reader.ok → s.seq.hlit.toNat ≤ 288 → s.seq.hdist.toNat ≤ 32 →
    (3 ≤ s.upcoming.length → s.seq.lensN + (3 + s.nextField 3) ≤ lensTotal s.seq →
      exec .clZeroShort s = .next (lensAppended 0 (3 + s.nextField 3) (s.afterRead 3))) ∧
    (3 ≤ s.upcoming.length → lensTotal s.seq < s.seq.lensN + (3 + s.nextField 3) →
      exec .clZeroShort s = .next (errorEntry .invalidCodeLengthSymbol (s.bitPos + 3) (s.afterRead 3))) ∧
    (s.upcoming.length < 3 → exec .clZeroShort s = shortOf s s) ∧
    (7 ≤ s.upcoming.length → s.seq.lensN + (11 + s.nextField 7) ≤ lensTotal s.seq →
      exec .clZeroLong s = .next (lensAppended 0 (11 + s.nextField 7) (s.afterRead 7))) ∧
    (7 ≤ s.upcoming.length → lensTotal s.seq < s.seq.lensN + (11 + s.nextField 7) →
      exec .clZeroLong s = .next (errorEntry .invalidCodeLengthSymbol (s.bitPos + 7) (s.afterRead 7))) ∧
    (s.upcoming.length < 7 → exec .clZeroLong s = shortOf s s)

/-! ## Literal/length and distance symbols -/

/-- LIT (R341): the byte is appended at OUT_COUNT and offered as a one-byte chunk, and nothing else changes. -/
def Obligations.LiteralAppendsAndOffers : Prop :=
  ∀ (v : Byte) (s : State), exec (.lit v) s = .next ((s.withHistory
      { hist := s.history.hist.write s.history.outCount v, outCount := s.history.outCount + 1 }).withPorts
      { s.ports with outChunk := [v], outPend := true })

/-- EOB (R342, R313): BLOCK_END is sent, and the next phase is the trailer after the final block, else a header. -/
def Obligations.EndOfBlockSelectsPhase : Prop :=
  ∀ s : State,
    (s.seq.bfinal = true → exec .eob s = .next ((sendDiag .blockEnd s).setPhase .trailer)) ∧
    (s.seq.bfinal = false → exec .eob s = .next ((sendDiag .blockEnd s).setPhase .blkhdr))

/-- LEN_257 to LEN_285 (R343 to R372, R408, R409; R375, R410, R411; R441, R445): with a distance code of a well-formed
T_D next after the length's extra bits, and a distance within the output, the element appends `n` bytes, each the one
`dist` before it, offers them as one chunk, and leaves everything else. The distance bases rest on R411, which the spec
marks as its own inference (notes/assumptions/12); that distance codes 2 and 3 have no extra bit, on which R410
contradicts itself, is the model's reading (notes/assumptions/26). -/
def Obligations.LengthElementCopies : Prop :=
  ∀ (c : Nat) (i : Instr) (s : State) (lens : List Nat) (e : Entry) (lenBits distBits rest : List Bool) (n dist : Nat),
    257 ≤ c → c ≤ 285 → decode .litLen c = .ok i →
    s.reader.ok → s.reader.mode = .lsb → s.history.dense →
    s.tables.d = tableOf lens → s.tables.d.malformed = false → e ∈ s.tables.d.entries → e.code ≤ 29 →
    s.upcoming = lenBits ++ entryBits e ++ distBits ++ rest →
    lenBits.length = lenExtra c → distBits.length = distExtra e.code →
    n = lenBaseTable.getD (c - 257) 0 + fieldValue .lsb lenBits →
    dist = distBase e.code + fieldValue .lsb distBits → dist ≤ s.history.outCount →
    ∃ t : State, exec i s = .next t ∧
      t.reader = (s.afterRead (lenExtra c + e.bits + distExtra e.code)).reader ∧ t.upcoming = rest ∧
      t.history.outCount = s.history.outCount + n ∧ t.history.dense ∧
      (∀ a : Nat, a < s.history.outCount → t.history.hist.read a = s.history.hist.read a) ∧
      (∀ j : Nat, j < n →
        t.history.hist.read (s.history.outCount + j) = t.history.hist.read (s.history.outCount + j - dist) ∧
        t.history.hist.read (s.history.outCount + j) = s.history.copied dist j) ∧
      t.ports = { s.ports with outPend := true, outChunk := t.history.bytes.drop s.history.outCount } ∧
      t.diag = s.diag ++ (if s.params.diagPresent then [⟨s.bitPos + lenExtra c + e.bits, .symbolMatch⟩] else []) ∧
      t = (((s.withReader t.reader).withHistory t.history).withPorts t.ports).withDiag t.diag

/-- The errors of a length element (R343, R212 to R215, R444, R406, R407), each at the position R486 gives it, with
nothing appended: missing length extra bits, a malformed or empty T_D, a pattern that is no code of T_D, an end of the
input inside the distance code, an illegal distance symbol, missing distance extra bits, a distance beyond the output.
Where the input has not ended, the element waits instead. The distance bases rest on R411 (notes/assumptions/12), and
that distance codes 2 and 3 have no extra bit is the model's reading of R410 (notes/assumptions/26). -/
def Obligations.LengthElementErrors : Prop :=
  ∀ (c : Nat) (i : Instr) (s : State), 257 ≤ c → c ≤ 285 → decode .litLen c = .ok i → s.reader.ok →
    (s.upcoming.length < lenExtra c → exec i s = shortOf s s) ∧
    (lenExtra c ≤ s.upcoming.length → s.tables.d.malformed = true →
      exec i s = .next (errorEntry .symbolNotFound (s.bitPos + lenExtra c) (s.afterRead (lenExtra c)))) ∧
    (∀ (lens : List Nat) (u : State), s.reader.mode = .lsb → lenExtra c ≤ s.upcoming.length →
      s.tables.d = tableOf lens → s.tables.d.malformed = false → u = s.afterRead (lenExtra c) →
      (s.tables.d.entries = [] →
        exec i s = .next (errorEntry .symbolNotFound (s.bitPos + lenExtra c) u)) ∧
      ((∀ e ∈ s.tables.d.entries, e.bits ≤ u.upcoming.length ∧ u.upcoming.take e.bits ≠ entryBits e) →
        ∃ t : State, exec i s = .next t ∧ t.bitPos = s.bitPos + lenExtra c ∧ t.upcoming = u.upcoming ∧
          t = errorEntry .symbolNotFound (s.bitPos + lenExtra c) (u.withReader t.reader)) ∧
      ((∀ e ∈ s.tables.d.entries, e.bits ≤ u.upcoming.length → u.upcoming.take e.bits ≠ entryBits e) →
        (∃ e ∈ s.tables.d.entries, u.upcoming.length < e.bits) → exec i s = shortOf s u)) ∧
    (∀ (lens : List Nat) (e : Entry) (lenBits rest : List Bool), s.reader.mode = .lsb →
      s.tables.d = tableOf lens → s.tables.d.malformed = false → e ∈ s.tables.d.entries →
      s.upcoming = lenBits ++ entryBits e ++ rest → lenBits.length = lenExtra c →
      ∀ u : State, u = sendDiag .symbolMatch (s.afterRead (lenExtra c + e.bits)) →
      (e.code = 30 ∨ e.code = 31 →
        exec i s = .next (errorEntry .invalidDistanceSymbol (s.bitPos + lenExtra c + e.bits) u)) ∧
      (e.code ≤ 29 → rest.length < distExtra e.code → exec i s = shortOf s u) ∧
      (e.code ≤ 29 → distExtra e.code ≤ rest.length →
        s.history.outCount < distBase e.code + fieldValue .lsb (rest.take (distExtra e.code)) →
        exec i s = .next (errorEntry .distanceTooFar (s.bitPos + lenExtra c + e.bits + distExtra e.code)
          (u.afterRead (distExtra e.code)))))

/-- LEN_286, LEN_287, DIST_30 and DIST_31 (R373, R374, R406, R407): illegal, raised where they stand, no bit read. -/
def Obligations.IllegalSymbolsRaise : Prop :=
  ∀ s : State,
    exec .len286 s = .next (errorEntry .invalidLengthSymbol s.bitPos s) ∧
    exec .len287 s = .next (errorEntry .invalidLengthSymbol s.bitPos s) ∧
    exec .dist30 s = .next (errorEntry .invalidDistanceSymbol s.bitPos s) ∧
    exec .dist31 s = .next (errorEntry .invalidDistanceSymbol s.bitPos s)

/-- DIST_0 to DIST_29 (R375 to R405, R410, R413): the base of R411's recurrence plus the extra bits, 1 to 32768. The
recurrence is the spec's own inference (notes/assumptions/12); that DIST_2 and DIST_3 have no extra bit, on which R410
contradicts itself, is the model's reading (notes/assumptions/26); the value is left in `result`
(notes/assumptions/4). -/
def Obligations.DistanceSymbolsGiveDistance : Prop :=
  ∀ (d : Nat) (i : Instr) (s : State), d ≤ 29 → decode .distance d = .ok i → s.reader.ok →
    (distExtra d ≤ s.upcoming.length → ∃ t : State, exec i s = .next t ∧
      t = (s.afterRead (distExtra d)).withResult (distBase d + s.nextField (distExtra d)) ∧
      1 ≤ t.result ∧ t.result ≤ 32768) ∧
    (s.upcoming.length < distExtra d → exec i s = shortOf s s)

/-- Each distance is given by exactly one distance symbol with its extra bits (R375, R411, R413, R132), each length from
3 to 257 by exactly one length symbol with its extra bits, and 258 by exactly two, LEN_284 with its extra bits all 1 and
LEN_285 (R343, R408, R409, R412). The middle of the distance bases is the spec's own inference
(notes/assumptions/12), and that distance symbols 2 and 3 have no extra bit is the model's reading of R410, which
contradicts itself there (notes/assumptions/26). -/
def Obligations.RangesCoverExactlyOnce : Prop :=
  (∀ dist : Nat, 1 ≤ dist → dist ≤ 32768 →
    ∃ (d : Nat) (bits : List Bool), givesDistance d bits dist ∧
      ∀ (d' : Nat) (bits' : List Bool), givesDistance d' bits' dist → d' = d ∧ bits' = bits) ∧
  (∀ n : Nat, 3 ≤ n → n ≤ 257 →
    ∃ (c : Nat) (bits : List Bool), givesLength c bits n ∧
      ∀ (c' : Nat) (bits' : List Bool), givesLength c' bits' n → c' = c ∧ bits' = bits) ∧
  (∀ (c : Nat) (bits : List Bool),
    givesLength c bits 258 ↔ (c = 284 ∧ bits = List.replicate 5 true) ∨ (c = 285 ∧ bits = []))

/-! ## The history and the copy -/

/-- APPEND (R440): the byte goes to index OUT_COUNT, every other byte stays, and nothing else changes. -/
def Obligations.AppendWritesAtOutCount : Prop :=
  ∀ (v : Byte) (s : State), ∃ t : State, exec (.append v) s = .next t ∧
    t.history.outCount = s.history.outCount + 1 ∧
    t.history.hist.read s.history.outCount = some v ∧
    (∀ a : Nat, a ≠ s.history.outCount → t.history.hist.read a = s.history.hist.read a) ∧
    t = s.withHistory t.history

/-- COPY (R441): `n` bytes appended, each the byte `dist` before it, bytes of the copy itself included, so that the last
`dist` bytes repeat; outside its precondition it is refused. R441 gives `n` as 3 to 258 and `dist` as at most 32768: that COPY
by itself also runs beyond them is the model's choice (notes/assumptions/14). -/
def Obligations.CopyRepeatsHistory : Prop :=
  ∀ (dist n : Nat) (s : State),
    (s.history.dense → 1 ≤ dist → dist ≤ s.history.outCount → ∃ t : State, exec (.copy dist n) s = .next t ∧
      t.history.outCount = s.history.outCount + n ∧ t.history.dense ∧
      (∀ a : Nat, a < s.history.outCount → t.history.hist.read a = s.history.hist.read a) ∧
      (∀ j : Nat, j < n →
        t.history.hist.read (s.history.outCount + j) = t.history.hist.read (s.history.outCount + j - dist) ∧
        t.history.hist.read (s.history.outCount + j) = s.history.copied dist j) ∧
      t = s.withHistory t.history) ∧
    (dist = 0 ∨ s.history.outCount < dist → exec (.copy dist n) s = .refused (.badCopyDistance dist))

/-! ## Huffman tables and the symbol match -/

/-- BUILD_LENGTHS (R202 to R206): the store holds exactly the used codes with their lengths, sorted by length and code,
with the canonical symbols and their reversals, and MALFORMED says whether some symbol does not fit; no bit is read.
The order of increment and shift is the spec's own inference (R204, notes/assumptions/13); that a list which does not
fit the store, or has a length above 15, is refused is the model's choice (notes/assumptions/14), and so is that any
number of lengths the store has room for is taken, where R202 gives its callers' numbers (notes/assumptions/31), and
that T_CL takes lengths above CL_CODE_BITS (notes/assumptions/32). -/
def Obligations.BuildLengthsAssignsCanonicalCodes : Prop :=
  ∀ (id : TableId) (lens : List Nat) (s : State),
    (lengthsOk id lens = true → ∃ t : Table,
      exec (.buildLengths id lens) s = .next (sendDiag .tableBuilt (s.withTables (s.tables.set id t))) ∧
      (∀ c b : Nat, (∃ e ∈ t.entries, e.code = c ∧ e.bits = b) ↔ lens[c]? = some b ∧ 1 ≤ b) ∧
      (t.entries.Pairwise fun x y => x.bits < y.bits ∨ (x.bits = y.bits ∧ x.code < y.code)) ∧
      (∀ e : Entry, t.entries[0]? = some e → e.symbol = 0) ∧
      (∀ (k : Nat) (x y : Entry), t.entries[k]? = some x → t.entries[k + 1]? = some y →
        y.symbol = (x.symbol + 1) <<< (y.bits - x.bits)) ∧
      (∀ e ∈ t.entries, e.rev < 2 ^ e.bits ∧ lsbBits e.bits e.rev = msbBits e.bits e.symbol) ∧
      (t.malformed = true ↔ ∃ e ∈ t.entries, 2 ^ e.bits ≤ e.symbol)) ∧
    (lengthsOk id lens = false → exec (.buildLengths id lens) s = .refused (.badLengthList id))

/-- BUILD_RANGES (R201): every code from one start to the next gets the pair's length, and the list ends at the start of
the last pair; a list whose first start is not 0 or whose starts do not ascend is refused, and so is one that asks for
more codes than the store holds. R201 names only the starts: that a list too long for the store, or with a length out
of range or without the -1 at its end, is refused too is the model's choice (notes/assumptions/14), and so is that the
terminal pair alone, the empty alphabet, is a list of the operand form (notes/assumptions/25). R201's
only caller passes the two fixed lists; that every size within the store is built is notes/assumptions/31, and that T_CL
takes lengths above CL_CODE_BITS is notes/assumptions/32. -/
def Obligations.BuildRangesExpandsPairs : Prop :=
  ∀ (id : TableId) (pairs : List (Nat × Int)) (s : State),
    (rangesOk pairs = true → rangesSize pairs ≤ Config.tableSlots id → ∃ lens : List Nat,
      exec (.buildRanges id pairs) s =
        .next (sendDiag .tableBuilt (s.withTables (s.tables.set id (tableOf lens)))) ∧
      lens.length = rangesSize pairs ∧
      (∀ (k v₀ v₁ v : Nat) (b₀ b₁ : Int), pairs[k]? = some (v₀, b₀) → pairs[k + 1]? = some (v₁, b₁) →
        v₀ ≤ v → v < v₁ → lens[v]? = some b₀.toNat)) ∧
    (rangesOk pairs = true → Config.tableSlots id < rangesSize pairs →
      exec (.buildRanges id pairs) s = .refused (.badLengthList id)) ∧
    (rangesOk pairs = false → exec (.buildRanges id pairs) s = .refused .badRangeList)

/-- In a table that is not malformed no code begins another (R216): no entry's wire bits are the first bits of another
entry's. -/
def Obligations.CodesAreUniquelyDecodable : Prop :=
  ∀ lens : List Nat, (tableOf lens).malformed = false →
    ∀ x ∈ (tableOf lens).entries, ∀ y ∈ (tableOf lens).entries, ∀ rest : List Bool,
      entryBits y = entryBits x ++ rest → x = y ∧ rest = []

/-- A table is malformed exactly when its lengths over-subscribe the code space: their Kraft sum exceeds 1 (R206; the
spec marks this reading as general knowledge). -/
def Obligations.MalformedIffOversubscribed : Prop :=
  ∀ lens : List Nat, (∀ b ∈ lens, b ≤ 15) →
    ((tableOf lens).malformed = true ↔ 2 ^ 15 < (lens.map fun b => if b = 0 then 0 else 2 ^ (15 - b)).sum)

/-- FIND (R210, R211, R215): where the bits of an entry's code stand next, the match returns that entry's code and
consumes exactly its bits, whatever else the table holds and even if nothing follows them. -/
def Obligations.FindReturnsMatchingCode : Prop :=
  ∀ (id : TableId) (lens : List Nat) (e : Entry) (rest : List Bool) (s : State),
    s.reader.ok → s.reader.mode = .lsb → s.tables.get id = tableOf lens → (tableOf lens).malformed = false →
    e ∈ (tableOf lens).entries → s.upcoming = entryBits e ++ rest →
    exec (.find id) s = .next ((sendDiag .symbolMatch (s.afterRead e.bits)).withResult e.code)

/-- FIND on a malformed table (R213): SymbolNotFound at the first bit, before any peek, whatever the input. -/
def Obligations.FindInMalformedTableRaises : Prop :=
  ∀ (id : TableId) (s : State), (s.tables.get id).malformed = true →
    exec (.find id) s = .next (errorEntry .symbolNotFound s.bitPos s)

/-- FIND where no code matches (R212, R214, R215): an empty table raises without a peek; with enough bits for every code
and none that begins them it raises SymbolNotFound at the first bit, having consumed nothing; and where none of the
codes that the bits are enough for begins them, and a longer code is left to compare, it is short of input at the first
bit. -/
def Obligations.FindWithoutMatch : Prop :=
  ∀ (id : TableId) (lens : List Nat) (s : State), s.reader.ok → s.reader.mode = .lsb →
    s.tables.get id = tableOf lens → (tableOf lens).malformed = false →
    ((tableOf lens).entries = [] → exec (.find id) s = .next (errorEntry .symbolNotFound s.bitPos s)) ∧
    ((∀ e ∈ (tableOf lens).entries, e.bits ≤ s.upcoming.length ∧ s.upcoming.take e.bits ≠ entryBits e) →
      ∃ t : State, exec (.find id) s = .next t ∧ t.ports.errKind = .symbolNotFound ∧
        t.ports.errBitpos = s.bitPos ∧ t.bitPos = s.bitPos ∧ t.upcoming = s.upcoming ∧
        t = errorEntry .symbolNotFound s.bitPos (s.withReader t.reader)) ∧
    ((∀ e ∈ (tableOf lens).entries, e.bits ≤ s.upcoming.length → s.upcoming.take e.bits ≠ entryBits e) →
      (∃ e ∈ (tableOf lens).entries, s.upcoming.length < e.bits) → exec (.find id) s = shortOf s s)

/-- The fixed codes (R123, R124): with the fixed tables, the bits of each symbol's fixed code are decoded to that symbol
and no more are consumed. -/
def Obligations.FixedCodesDecode : Prop :=
  ∀ (s : State) (rest : List Bool), s.reader.ok → s.reader.mode = .lsb →
    (∀ v : Nat, v ≤ 287 → s.tables.ll = tableOf (expandRanges fixedLL) → s.upcoming = fixedLitLenBits v ++ rest →
      exec (.find .ll) s =
        .next ((sendDiag .symbolMatch (s.afterRead (fixedLitLenBits v).length)).withResult v)) ∧
    (∀ d : Nat, d ≤ 31 → s.tables.d = tableOf (expandRanges fixedD) → s.upcoming = fixedDistanceBits d ++ rest →
      exec (.find .d) s = .next ((sendDiag .symbolMatch (s.afterRead 5)).withResult d))

/-! ## Errors, the ports and reset -/

/-- Errors are precise (R94, R485, R486, R491): an instruction that raises records the bit position it leaves, and has
written no history, no LENS, no table and no chunk; DONE and the trailer registers, MODE, FLG and STORED_REM, and the
host's side of the ports are as they were. What R94 lets a failing element leave written is the rest: the reader's
buffer, BFINAL and BTYPE, the counts and CL_LEN, and the events sent before the error. -/
def Obligations.ErrorsArePrecise : Prop :=
  ∀ (i : Instr) (s t : State), s.reader.ok → s.ports.error = false → exec i s = .next t → t.ports.error = true →
    t.ports.errBitpos = t.bitPos ∧ t.ports.errKind ≠ .none ∧ t.seq.phase = .error ∧
    t.ports = { s.ports with error := true, errKind := t.ports.errKind, errBitpos := t.ports.errBitpos } ∧
    t.history = s.history ∧ t.tables = s.tables ∧ t.result = s.result ∧
    t.seq = { s.seq with
      phase := .error, bfinal := t.seq.bfinal, btype := t.seq.btype,
      hlit := t.seq.hlit, hdist := t.seq.hdist, hclen := t.seq.hclen, clLen := t.seq.clLen } ∧
    t.reader.mode = s.reader.mode ∧ s.bitPos ≤ t.bitPos ∧ s.diag <+: t.diag ∧
    t.params = s.params ∧ t.input = s.input ∧ t.inputEnd = s.inputEnd ∧ t.host = s.host ∧
    t.autoAccept = s.autoAccept ∧ t.accepted = s.accepted ∧ t.suspended = s.suspended

/-- P_DONE and P_ERROR are terminal (R272, R488): with no act of the host, a step changes nothing. -/
def Obligations.TerminalPhasesIdle : Prop :=
  ∀ s : State, s.host = [] → s.suspended = none → s.ports.outPend = false →
    s.seq.phase = .done ∨ s.seq.phase = .error → step s = .next s

/-- While a chunk is pending the block starts no element and requests no input (R533); accepting it clears OUT_PEND and
nothing else of the block (R82). That OUT_CHUNK keeps its bytes is the model's reading (notes/assumptions/19), and the
consumer's policy is data of the state (notes/assumptions/1). -/
def Obligations.PendingChunkBlocks : Prop :=
  ∀ s : State, s.host = [] → s.suspended = none → s.ports.outPend = true →
    (s.autoAccept = false → step s = .next s) ∧
    (s.autoAccept = true → step s = .next { s.withPorts { s.ports with outPend := false } with
      accepted := s.accepted ++ [s.ports.outChunk] })

/-- What the host can do (R80, R82, R493, R525): present bytes, end the input, accept a chunk, let the block move; a
change of a parameter between resets is refused, and so is input after its end. The acts are data of the state
(notes/assumptions/1), the last refusal and an accept with nothing pending are the model's choice
(notes/assumptions/17), and that OUT_CHUNK keeps its bytes after the accept is its reading (notes/assumptions/19). -/
def Obligations.HostActsAtThePorts : Prop :=
  ∀ (s : State) (acts : List HostAct) (bytes : List Byte) (p : Params),
    (s.inputEnd = false → step { s with host := .present bytes :: acts }
      = .next { s with host := acts, input := s.input ++ bytes }) ∧
    (s.inputEnd = true → step { s with host := .present bytes :: acts } = .refused .inputAfterEnd) ∧
    step { s with host := .finish :: acts } = .next { s with host := acts, inputEnd := true } ∧
    (s.ports.outPend = true → step { s with host := .accept :: acts } =
      .next { s.withPorts { s.ports with outPend := false } with
        host := acts, accepted := s.accepted ++ [s.ports.outChunk] }) ∧
    (s.ports.outPend = false → step { s with host := .accept :: acts } = .next { s with host := acts }) ∧
    step { s with host := .pass :: acts } = blockStep { s with host := acts } ∧
    step { s with host := .setParams p :: acts } = .refused .parameterChanged

/-- Reset at any time (R520, R523, R535): from every state, waiting, pending or terminal ones included, every register
takes its value of R60, the input is what the host presents from then on, no chunk was accepted and no diagnostic event
sent. The host's side of the ports and the diagnostic trace are data of the state (notes/assumptions/1 and 8); that no
element is suspended and that the input, the accepted chunks and the trace are empty after reset are values of the
model's own fields (notes/assumptions/21). -/
def Obligations.ResetRestoresEveryRegister : Prop :=
  ∀ (s : State) (p : Params) (acts : List HostAct), ∃ t : State, step { s with host := .reset p :: acts } = .next t ∧
    t.reader = { acc := 0, cnt := 0, nfetch := 0, mode := .msb, inWait := false } ∧
    t.seq.phase = .magic ∧ t.seq.bfinal = false ∧ t.seq.btype = 0 ∧ t.seq.flg = 0 ∧ t.seq.storedRem = 0 ∧
    t.seq.hlit = 0 ∧ t.seq.hdist = 0 ∧ t.seq.hclen = 0 ∧ t.seq.lensN = 0 ∧
    (∀ v ∈ t.seq.clLen.toList, v = 0) ∧ (∀ v ∈ t.seq.lens.toList, v = 0) ∧
    t.history = { hist := [], outCount := 0 } ∧
    (∀ id : TableId, (t.tables.get id).size = 0 ∧ (t.tables.get id).malformed = false) ∧
    t.ports.outPend = false ∧ t.ports.outChunk = [] ∧ t.ports.done = false ∧ t.ports.error = false ∧
    t.ports.errKind = .none ∧ t.ports.errBitpos = 0 ∧ t.ports.trailerCrc32 = 0 ∧ t.ports.trailerIsize = 0 ∧
    t.suspended = none ∧ t.input = [] ∧ t.inputEnd = false ∧ t.params = p ∧ t.accepted = [] ∧ t.diag = []

/-- The status file (R55, R56, R37, R470): each register at its index, each field of STATUS at its place with bits 31 to
12 zero, and the codes of the phases and the error kinds. -/
def Obligations.StatusFileReadsRegisters : Prop :=
  (∀ s : State,
    readStatus s 0 = some (statusWord s).toNat ∧ readStatus s 1 = some (errCode s.ports.errKind).toNat ∧
    readStatus s 2 = some s.ports.errBitpos ∧ readStatus s 3 = some s.bitPos ∧
    readStatus s 4 = some s.history.outCount ∧ readStatus s 5 = some s.ports.trailerCrc32.toNat ∧
    readStatus s 6 = some s.ports.trailerIsize.toNat) ∧
  (∀ s : State,
    (statusWord s).getLsbD 0 = s.ports.done ∧ (statusWord s).getLsbD 1 = s.ports.error ∧
    (statusWord s).getLsbD 2 = s.ports.outPend ∧ (statusWord s).getLsbD 3 = s.reader.inWait ∧
    (statusWord s).extractLsb' 4 5 = phaseCode s.seq.phase ∧ (statusWord s).getLsbD 9 = s.seq.bfinal ∧
    (statusWord s).extractLsb' 10 2 = s.seq.btype ∧ (statusWord s).extractLsb' 12 20 = 0) ∧
  [Phase.magic, .cm, .flg, .mtime, .xfl, .os, .fname, .fcomment, .fhcrc, .blkhdr, .storedHdr, .storedData, .dynHdr,
    .dynLens, .symbol, .trailer, .done, .error].map (fun p => (phaseCode p).toNat) = List.range 18 ∧
  [ErrKind.none, .unexpectedEof, .badMagic, .unsupportedMethod, .unsupportedFeature, .invalidBlockType,
    .lengthMismatch, .invalidCodeLengthSymbol, .invalidDistanceSymbol, .invalidLengthSymbol, .symbolNotFound,
    .distanceTooFar].map (fun k => (errCode k).toNat) = List.range 12

/-- The table-view port (R498): the ids 0, 1 and 2 name T_CL, T_LL and T_D, and a read returns `N`, MALFORMED and the
stored entry; past the last entry all entry fields are 0. An entry of a malformed table reads as a free value
(notes/assumptions/9), of which this says nothing. That no other id has an answer is the model's choice
(notes/assumptions/27). -/
def Obligations.TableViewShowsEntries : Prop :=
  (∀ (s : State) (k : Nat),
    readTable s 0 k = some (viewTable s .cl k) ∧ readTable s 1 k = some (viewTable s .ll k) ∧
    readTable s 2 k = some (viewTable s .d k) ∧ ∀ code : Nat, 2 < code → readTable s code k = none) ∧
  ∀ (s : State) (id : TableId) (k : Nat),
    (viewTable s id k).size = (s.tables.get id).size ∧
    (viewTable s id k).malformed = (s.tables.get id).malformed ∧
    (∀ e : Entry, (s.tables.get id).malformed = false → (s.tables.get id).entries[k]? = some e →
      (viewTable s id k).entry = e) ∧
    ((s.tables.get id).size ≤ k → (viewTable s id k).entry = { code := 0, bits := 0, symbol := 0, rev := 0 })

/-! ## The machine -/

/-- A step runs the decoded instruction (R126, R316, R340): in a phase with one element, that element; in P_DYN_LENS and
P_SYMBOL the instruction of the symbol decoded from the stream, run behind its code, and where it waits for input the
element goes on from its own start. Where no symbol is decoded in those two phases (R210, R212 to R215), the step is
what FIND in that table answers: SymbolNotFound or UnexpectedEof at the symbol's first bit, with no bit consumed, or the
wait, from which the element goes on from its own start (notes/assumptions/3); a malformed or empty table raises
SymbolNotFound whatever the input. -/
def Obligations.StepRunsDecodedInstruction : Prop :=
  ∀ s : State, s.host = [] → s.suspended = none → s.ports.outPend = false →
    (∀ i : Instr, decode (.phase s.seq.phase) 0 = .ok i → step s = exec i s) ∧
    (∀ (v : Nat) (t : State) (i : Instr), s.seq.phase = .dynLens → findNextSymbol .cl s = .ok v t →
      decode .codeLength v = .ok i → step s = resumeFrom s (exec i t)) ∧
    (∀ (v : Nat) (t : State) (i : Instr), s.seq.phase = .symbol → findNextSymbol .ll s = .ok v t →
      decode .litLen v = .ok i → step s = resumeFrom s (exec i t)) ∧
    (∀ id : TableId, s.seq.phase = .dynLens ∧ id = .cl ∨ s.seq.phase = .symbol ∧ id = .ll →
      (∀ (k : ErrKind) (q : Nat) (t : State), findNextSymbol id s = .raise k q t →
        step s = .next (errorEntry k q t) ∧ step s = exec (.find id) s ∧
        (k = .symbolNotFound ∨ k = .unexpectedEof) ∧ q = s.bitPos ∧ t.bitPos = s.bitPos) ∧
      (∀ t : State, findNextSymbol id s = .wait t →
        step s = .next (suspend s t) ∧ step s = exec (.find id) s ∧ t.bitPos = s.bitPos) ∧
      ((s.tables.get id).malformed = true ∨ (s.tables.get id).entries = [] →
        step s = .next (errorEntry .symbolNotFound s.bitPos s)))

/-- The invariant holds of the machine right after reset. -/
def Obligations.ResetStateIsSound : Prop := Inv State.reset

/-- Every step keeps the invariant, from every state that has it, the host's acts included: the reader holds bits of the
input at the bit position (R31, R85), at most 7 between elements (R35, R174), each header element stands at its place
(R250), status values are legal (R57), the chunks offered are the history (R82), OUT_COUNT stays within 129 bytes a bit
(R446), the tables are built tables, and the counts are in range (R44). -/
def Obligations.EveryStepKeepsSoundness : Prop :=
  ∀ s t : State, Inv s → step s = .next t → Inv t

/-- From every state that has the invariant, the block by itself always takes a step: no element ends in a fault or a
refusal, whatever the input (R8). So a decode ends in one of the three ways of R530, within the bound of R534: in P_DONE,
in P_ERROR, or in a wait that the schedule does not end, where a further step changes nothing; only the host's own acts
can be refused (R525; notes/assumptions/17 for input after its end). With the input ended and a consumer that accepts
every chunk there is no such wait. The form of the run is the model's (notes/assumptions/28). -/
def Obligations.SoundMachineNeverStops : Prop :=
  (∀ s : State, Inv s → s.host = [] → ∃ t : State, step s = .next t) ∧
  (∀ s : State, Inv s →
    (∃ t : State, s.runToEnd = .done t ∧ t.ports.done = true ∧ t.seq.phase = .done) ∨
    (∃ t : State, s.runToEnd = .error t ∧ t.ports.error = true ∧ t.seq.phase = .error) ∨
    (∃ t : State, s.runToEnd = .waits t ∧ t.host = [] ∧ step t = .next t ∧
      (t.suspended.isSome = true ∧ t.inputEnd = false ∨ t.ports.outPend = true ∧ t.autoAccept = false)) ∨
    (s.host ≠ [] ∧ (s.runToEnd = .refused .parameterChanged ∨ s.runToEnd = .refused .inputAfterEnd))) ∧
  (∀ s : State, Inv s → s.host = [] → s.inputEnd = true → s.autoAccept = true →
    ∃ t : State, s.runToEnd = .done t ∨ s.runToEnd = .error t)

/-- Every element consumes input (R36, R534): from a state that has the invariant, with nothing pending and no terminal
phase, a step that neither waits nor raises moves the bit position forward, and no step of the block moves it back. -/
def Obligations.EveryElementConsumesInput : Prop :=
  ∀ s t : State, Inv s → s.host = [] → step s = .next t →
    s.start.bitPos ≤ t.bitPos ∧
    (s.start.ports.outPend = false → terminal s.start.seq.phase = false → t.suspended = none →
      t.ports.error = false → s.start.bitPos < t.bitPos)

/-- A wait takes no time (R521): a step that waits leaves the element's start behind it, so that with more input the
next step is the one the element would have taken with that input at hand. -/
def Obligations.WaitResumesTheElement : Prop :=
  ∀ (s t : State) (bytes : List Byte) (ended : Bool), s.host = [] → step s = .next t → t.suspended.isSome = true →
    t.start = s.start ∧
    step (t.withInput (t.input ++ bytes) ended) = step (s.start.withInput (s.input ++ bytes) ended)

/-- No byte is asked for ahead of need (R103, R170, R528): an instruction that completes does the same with any other
input that agrees with this one on the bytes it has fetched. -/
def Obligations.OutcomeNeedsOnlyFetchedBytes : Prop :=
  ∀ (i : Instr) (s t : State) (bytes : List Byte) (ended : Bool),
    exec i s = .next t → t.suspended = none → t.ports.errKind ≠ .unexpectedEof →
    bytes.take t.reader.nfetch = s.input.take t.reader.nfetch → t.reader.nfetch ≤ s.input.length →
    exec i (s.withInput bytes ended) = .next (t.withInput bytes ended)

/-- The diagnostic sink has no effect (R497): with the sink taken away and its events forgotten, a step of the block has
the same outcome. -/
def Obligations.DiagnosticsHaveNoEffect : Prop :=
  ∀ s : State, s.host = [] → silentOutcome (step s) = step s.silent

/-! ## Frames -/

/-- What an instruction leaves of the registers (R58): each register changes only by the instructions that R58's table
lists for it, and by error entry, which writes ERROR, ERR_KIND, ERR_BITPOS and PHASE. -/
def Obligations.RegistersChangeOnlyByTheirWriters : Prop :=
  ∀ (i : Instr) (s t : State), exec i s = .next t →
    (writesMode i = false → t.reader.mode = s.reader.mode) ∧
    (writesHeader i = false → t.seq.bfinal = s.seq.bfinal ∧ t.seq.btype = s.seq.btype) ∧
    (writesFlg i = false → t.seq.flg = s.seq.flg) ∧
    (writesStoredRem i = false → t.seq.storedRem = s.seq.storedRem) ∧
    (writesCounts i = false → t.seq.hlit = s.seq.hlit ∧ t.seq.hdist = s.seq.hdist ∧ t.seq.hclen = s.seq.hclen ∧
      t.seq.clLen = s.seq.clLen) ∧
    (writesLens i = false → t.seq.lens = s.seq.lens) ∧
    (writesLens i = false → writesCounts i = false → t.seq.lensN = s.seq.lensN) ∧
    (∀ id : TableId, writesTable id i = false → t.tables.get id = s.tables.get id) ∧
    (offersChunk i = false → t.ports.outPend = s.ports.outPend ∧ t.ports.outChunk = s.ports.outChunk) ∧
    (writesDone i = false → t.ports.done = s.ports.done ∧ t.ports.trailerCrc32 = s.ports.trailerCrc32 ∧
      t.ports.trailerIsize = s.ports.trailerIsize) ∧
    (t.seq.phase ≠ .error → t.ports.error = s.ports.error ∧ t.ports.errKind = s.ports.errKind ∧
      t.ports.errBitpos = s.ports.errBitpos) ∧
    (encode i = none → t.seq.phase ≠ .error → t.seq = s.seq) ∧
    t.params = s.params ∧ t.input = s.input ∧ t.inputEnd = s.inputEnd ∧ t.host = s.host ∧
    t.autoAccept = s.autoAccept ∧ t.accepted = s.accepted ∧ s.reader.nfetch ≤ t.reader.nfetch

/-- What an instruction leaves of the history (R83, R440, R448): every byte but the ones it stores, which stand from
index OUT_COUNT on, as many as it appends (all of the store, where it raises, waits or stores nothing). -/
def Obligations.HistoryIsAppendOnly : Prop :=
  ∀ (i : Instr) (s t : State), s.reader.ok → exec i s = .next t →
    (writesHistory i = false → t.history = s.history) ∧
    (t.history = s.history ∨ t.history.outCount = s.history.outCount + storeCount i s) ∧
    (∀ a : Nat, a < s.history.outCount ∨ s.history.outCount + storeCount i s ≤ a →
      t.history.hist.read a = s.history.hist.read a) ∧
    (Memory.wf s.history.hist = true → Memory.wf t.history.hist = true)
end

