-- ==== Sys2Proof/Laws/Bits.lean ====
section
/-! SUPPORT. Bit lists and the numbers they stand for: the two orders of R85 and R86 as inverse maps. -/

namespace Sys2Proof.Machine

open Sys2Proof

/-! ## Lengths -/

@[simp] theorem length_lsbBits (n v : Nat) : (lsbBits n v).length = n := by
  induction n generalizing v with
  | zero => rfl
  | succ n ih => simp [lsbBits, ih]

@[simp] theorem length_msbBits (n v : Nat) : (msbBits n v).length = n := by
  induction n with
  | zero => rfl
  | succ n ih => simp [msbBits, ih]

@[simp] theorem length_byteBits (m : BitOrder) (b : Byte) : (byteBits m b).length = 8 := by
  cases m <;> simp [byteBits]

@[simp] theorem length_buffered (r : Reader) : r.buffered.length = r.cnt := by
  unfold Reader.buffered; cases r.mode <;> simp

theorem length_flatMap_byteBits (m : BitOrder) (bs : List Byte) : (bs.flatMap (byteBits m)).length = 8 * bs.length := by
  induction bs with
  | nil => rfl
  | cons b bs ih => simp [List.flatMap_cons, ih]; omega

theorem length_upcoming (s : State) : s.upcoming.length = s.reader.cnt + 8 * (s.input.length - s.reader.nfetch) := by
  rw [State.upcoming, List.length_append, length_buffered, length_flatMap_byteBits, List.length_drop]

/-! ## Values -/

@[simp] theorem fieldValue_nil (m : BitOrder) : fieldValue m [] = 0 := by cases m <;> rfl

theorem fieldValue_lsb_cons (b : Bool) (bs : List Bool) :
    fieldValue .lsb (b :: bs) = b.toNat + 2 * fieldValue .lsb bs := rfl

theorem fieldValue_msb_cons (b : Bool) (bs : List Bool) :
    fieldValue .msb (b :: bs) = b.toNat * 2 ^ bs.length + fieldValue .msb bs := rfl

theorem fieldValue_lt (m : BitOrder) (bs : List Bool) : fieldValue m bs < 2 ^ bs.length := by
  induction bs with
  | nil => cases m <;> simp
  | cons b bs ih =>
    have hb : b.toNat ≤ 1 := by cases b <;> simp
    cases m
    · rw [fieldValue_lsb_cons, List.length_cons, Nat.pow_succ]; omega
    · rw [fieldValue_msb_cons, List.length_cons, Nat.pow_succ]
      have : b.toNat * 2 ^ bs.length ≤ 1 * 2 ^ bs.length := Nat.mul_le_mul_right _ hb
      omega

theorem fieldValue_lsb_append (as bs : List Bool) :
    fieldValue .lsb (as ++ bs) = fieldValue .lsb as + 2 ^ as.length * fieldValue .lsb bs := by
  induction as with
  | nil => simp
  | cons a as ih =>
    rw [List.cons_append, fieldValue_lsb_cons, fieldValue_lsb_cons, ih, List.length_cons, Nat.pow_succ, Nat.mul_add,
      ← Nat.mul_assoc, Nat.mul_comm 2 (2 ^ as.length)]
    omega

theorem fieldValue_msb_append (as bs : List Bool) :
    fieldValue .msb (as ++ bs) = fieldValue .msb as * 2 ^ bs.length + fieldValue .msb bs := by
  induction as with
  | nil => simp
  | cons a as ih =>
    rw [List.cons_append, fieldValue_msb_cons, fieldValue_msb_cons, ih, List.length_append, Nat.pow_add, Nat.add_mul,
      Nat.mul_assoc]
    omega

theorem mod_pow_succ_lsb (v n : Nat) : v % 2 ^ (n + 1) = v % 2 + 2 * (v / 2 % 2 ^ n) := by
  rw [Nat.pow_succ, Nat.mul_comm (2 ^ n) 2, Nat.mod_mul]

theorem toNat_testBit_zero (v : Nat) : (v.testBit 0).toNat = v % 2 := by
  rw [Nat.testBit_zero]
  rcases Nat.mod_two_eq_zero_or_one v with h | h <;> simp [h]

theorem toNat_testBit (v i : Nat) : (v.testBit i).toNat = v / 2 ^ i % 2 := by
  rw [Nat.testBit_eq_decide_div_mod_eq]
  rcases Nat.mod_two_eq_zero_or_one (v / 2 ^ i) with h | h <;> simp [h]

theorem fieldValue_lsbBits (n v : Nat) : fieldValue .lsb (lsbBits n v) = v % 2 ^ n := by
  induction n generalizing v with
  | zero => simp [lsbBits, Nat.mod_one]
  | succ n ih => rw [lsbBits, fieldValue_lsb_cons, ih, mod_pow_succ_lsb, toNat_testBit_zero]

theorem fieldValue_msbBits (n v : Nat) : fieldValue .msb (msbBits n v) = v % 2 ^ n := by
  induction n with
  | zero => simp [msbBits, Nat.mod_one]
  | succ n ih =>
    rw [msbBits, fieldValue_msb_cons, ih, length_msbBits, toNat_testBit, Nat.pow_succ, Nat.mod_mul, Nat.mul_comm, Nat.add_comm]

theorem lsbBits_fieldValue (bs : List Bool) : lsbBits bs.length (fieldValue .lsb bs) = bs := by
  induction bs with
  | nil => rfl
  | cons b bs ih =>
    rw [List.length_cons, lsbBits, fieldValue_lsb_cons]
    have h1 : (b.toNat + 2 * fieldValue .lsb bs) / 2 = fieldValue .lsb bs := by
      have : b.toNat ≤ 1 := by cases b <;> simp
      omega
    have h2 : (b.toNat + 2 * fieldValue .lsb bs).testBit 0 = b := by
      rw [Nat.testBit_zero]; cases b <;> simp
    rw [h1, h2, ih]

theorem msbBits_mod (n v k : Nat) (h : n ≤ k) : msbBits n (v % 2 ^ k) = msbBits n v := by
  induction n with
  | zero => rfl
  | succ n ih =>
    rw [msbBits, msbBits, ih (by omega), Nat.testBit_mod_two_pow]
    simp; intro h'; omega

theorem lsbBits_mod (n v k : Nat) (h : n ≤ k) : lsbBits n (v % 2 ^ k) = lsbBits n v := by
  induction n generalizing v k with
  | zero => rfl
  | succ n ih =>
    obtain ⟨k, rfl⟩ : ∃ j, k = j + 1 := ⟨k - 1, by omega⟩
    have h0 : (v % 2 ^ (k + 1)).testBit 0 = v.testBit 0 := by rw [Nat.testBit_mod_two_pow]; simp
    have h1 : v % 2 ^ (k + 1) / 2 = v / 2 % 2 ^ k := by rw [mod_pow_succ_lsb]; omega
    rw [lsbBits, lsbBits, h0, h1, ih (v / 2) k (by omega)]

theorem msbBits_fieldValue (bs : List Bool) : msbBits bs.length (fieldValue .msb bs) = bs := by
  induction bs with
  | nil => rfl
  | cons b bs ih =>
    rw [List.length_cons, msbBits, fieldValue_msb_cons]
    have hlt := fieldValue_lt .msb bs
    have h2 : (b.toNat * 2 ^ bs.length + fieldValue .msb bs).testBit bs.length = b := by
      rw [Nat.testBit_eq_decide_div_mod_eq, Nat.mul_comm, Nat.mul_add_div (Nat.two_pow_pos _), Nat.div_eq_of_lt hlt]
      cases b <;> simp
    have h3 : msbBits bs.length (b.toNat * 2 ^ bs.length + fieldValue .msb bs) = bs := by
      rw [← msbBits_mod _ _ bs.length (Nat.le_refl _), Nat.mul_comm, Nat.mul_add_mod, Nat.mod_eq_of_lt hlt, ih]
    rw [h2, h3]

/-! ## Splitting -/

theorem take_lsbBits (k n v : Nat) (h : k ≤ n) : (lsbBits n v).take k = lsbBits k v := by
  induction k generalizing n v with
  | zero => rfl
  | succ k ih =>
    obtain ⟨n, rfl⟩ : ∃ m, n = m + 1 := ⟨n - 1, by omega⟩
    rw [lsbBits, List.take_succ_cons, ih _ _ (by omega), lsbBits]

theorem drop_lsbBits (k n v : Nat) (h : k ≤ n) : (lsbBits n v).drop k = lsbBits (n - k) (v >>> k) := by
  induction k generalizing n v with
  | zero => simp
  | succ k ih =>
    obtain ⟨n, rfl⟩ : ∃ m, n = m + 1 := ⟨n - 1, by omega⟩
    rw [lsbBits, List.drop_succ_cons, ih _ _ (by omega), Nat.shiftRight_eq_div_pow, Nat.shiftRight_eq_div_pow,
      Nat.div_div_eq_div_mul, Nat.pow_succ, Nat.mul_comm 2]
    congr 1; omega

theorem take_msbBits (k n v : Nat) (h : k ≤ n) : (msbBits n v).take k = msbBits k (v >>> (n - k)) := by
  induction k generalizing n with
  | zero => rfl
  | succ k ih =>
    obtain ⟨n, rfl⟩ : ∃ m, n = m + 1 := ⟨n - 1, by omega⟩
    rw [msbBits, List.take_succ_cons, ih _ (by omega), msbBits]
    have e : n + 1 - (k + 1) = n - k := by omega
    rw [e, Nat.testBit_shiftRight]
    congr 2; omega

theorem drop_msbBits (k n v : Nat) (h : k ≤ n) : (msbBits n v).drop k = msbBits (n - k) v := by
  induction k generalizing n with
  | zero => simp
  | succ k ih =>
    obtain ⟨n, rfl⟩ : ∃ m, n = m + 1 := ⟨n - 1, by omega⟩
    rw [msbBits, List.drop_succ_cons, ih _ (by omega)]
    congr 1; omega

theorem lsbBits_append (n m v w : Nat) (h : v < 2 ^ n) : lsbBits (n + m) (v + 2 ^ n * w) = lsbBits n v ++ lsbBits m w := by
  have := lsbBits_fieldValue (lsbBits n v ++ lsbBits m w)
  rw [fieldValue_lsb_append, fieldValue_lsbBits, fieldValue_lsbBits, Nat.mod_eq_of_lt h] at this
  simp only [List.length_append, length_lsbBits] at this
  rw [← this, ← lsbBits_mod _ _ (n + m) (Nat.le_refl _)]
  conv => rhs; rw [← lsbBits_mod _ _ (n + m) (Nat.le_refl _)]
  congr 1
  rw [Nat.pow_add, Nat.mod_mul, Nat.mod_mul, Nat.add_mul_mod_self_left, Nat.add_mul_mod_self_left,
    Nat.add_mul_div_left _ _ (Nat.two_pow_pos n), Nat.add_mul_div_left _ _ (Nat.two_pow_pos n), Nat.div_eq_of_lt h]
  simp

theorem msbBits_append (n m v w : Nat) (h : w < 2 ^ m) : msbBits (n + m) (v * 2 ^ m + w) = msbBits n v ++ msbBits m w := by
  have h1 := take_msbBits n (n + m) (v * 2 ^ m + w) (by omega)
  have h2 := drop_msbBits n (n + m) (v * 2 ^ m + w) (by omega)
  have e : n + m - n = m := by omega
  rw [e] at h1 h2
  rw [← List.take_append_drop n (msbBits (n + m) (v * 2 ^ m + w)), h1, h2, Nat.shiftRight_eq_div_pow, Nat.mul_comm,
    Nat.mul_add_div (Nat.two_pow_pos m), Nat.div_eq_of_lt h, Nat.add_zero, ← msbBits_mod m _ m (Nat.le_refl m),
    Nat.mul_add_mod, Nat.mod_eq_of_lt h]

end Sys2Proof.Machine
end

