-- ==== Sys2Proof/Laws/State.lean ====
section
/-! SUPPORT. One lemma per field and update: what each write of a register group, and each shared operation made of such
writes, leaves of every field of the state. -/

namespace Sys2Proof.Machine

open Sys2Proof

/-! ### withReader -/

@[simp] theorem State.withReader_reader (s : State) (r : Reader) : (s.withReader r).reader = r := rfl
@[simp] theorem State.withReader_seq (s : State) (r : Reader) : (s.withReader r).seq = s.seq := rfl
@[simp] theorem State.withReader_history (s : State) (r : Reader) : (s.withReader r).history = s.history := rfl
@[simp] theorem State.withReader_tables (s : State) (r : Reader) : (s.withReader r).tables = s.tables := rfl
@[simp] theorem State.withReader_ports (s : State) (r : Reader) : (s.withReader r).ports = s.ports := rfl
@[simp] theorem State.withReader_result (s : State) (r : Reader) : (s.withReader r).result = s.result := rfl
@[simp] theorem State.withReader_diag (s : State) (r : Reader) : (s.withReader r).diag = s.diag := rfl
@[simp] theorem State.withReader_params (s : State) (r : Reader) : (s.withReader r).params = s.params := rfl
@[simp] theorem State.withReader_input (s : State) (r : Reader) : (s.withReader r).input = s.input := rfl
@[simp] theorem State.withReader_inputEnd (s : State) (r : Reader) : (s.withReader r).inputEnd = s.inputEnd := rfl
@[simp] theorem State.withReader_host (s : State) (r : Reader) : (s.withReader r).host = s.host := rfl
@[simp] theorem State.withReader_autoAccept (s : State) (r : Reader) : (s.withReader r).autoAccept = s.autoAccept := rfl
@[simp] theorem State.withReader_accepted (s : State) (r : Reader) : (s.withReader r).accepted = s.accepted := rfl
@[simp] theorem State.withReader_suspended (s : State) (r : Reader) : (s.withReader r).suspended = s.suspended := rfl

/-! ### withSeq -/

@[simp] theorem State.withSeq_reader (s : State) (r : Sequencer) : (s.withSeq r).reader = s.reader := rfl
@[simp] theorem State.withSeq_seq (s : State) (r : Sequencer) : (s.withSeq r).seq = r := rfl
@[simp] theorem State.withSeq_history (s : State) (r : Sequencer) : (s.withSeq r).history = s.history := rfl
@[simp] theorem State.withSeq_tables (s : State) (r : Sequencer) : (s.withSeq r).tables = s.tables := rfl
@[simp] theorem State.withSeq_ports (s : State) (r : Sequencer) : (s.withSeq r).ports = s.ports := rfl
@[simp] theorem State.withSeq_result (s : State) (r : Sequencer) : (s.withSeq r).result = s.result := rfl
@[simp] theorem State.withSeq_diag (s : State) (r : Sequencer) : (s.withSeq r).diag = s.diag := rfl
@[simp] theorem State.withSeq_params (s : State) (r : Sequencer) : (s.withSeq r).params = s.params := rfl
@[simp] theorem State.withSeq_input (s : State) (r : Sequencer) : (s.withSeq r).input = s.input := rfl
@[simp] theorem State.withSeq_inputEnd (s : State) (r : Sequencer) : (s.withSeq r).inputEnd = s.inputEnd := rfl
@[simp] theorem State.withSeq_host (s : State) (r : Sequencer) : (s.withSeq r).host = s.host := rfl
@[simp] theorem State.withSeq_autoAccept (s : State) (r : Sequencer) : (s.withSeq r).autoAccept = s.autoAccept := rfl
@[simp] theorem State.withSeq_accepted (s : State) (r : Sequencer) : (s.withSeq r).accepted = s.accepted := rfl
@[simp] theorem State.withSeq_suspended (s : State) (r : Sequencer) : (s.withSeq r).suspended = s.suspended := rfl

/-! ### withHistory -/

@[simp] theorem State.withHistory_reader (s : State) (r : History) : (s.withHistory r).reader = s.reader := rfl
@[simp] theorem State.withHistory_seq (s : State) (r : History) : (s.withHistory r).seq = s.seq := rfl
@[simp] theorem State.withHistory_history (s : State) (r : History) : (s.withHistory r).history = r := rfl
@[simp] theorem State.withHistory_tables (s : State) (r : History) : (s.withHistory r).tables = s.tables := rfl
@[simp] theorem State.withHistory_ports (s : State) (r : History) : (s.withHistory r).ports = s.ports := rfl
@[simp] theorem State.withHistory_result (s : State) (r : History) : (s.withHistory r).result = s.result := rfl
@[simp] theorem State.withHistory_diag (s : State) (r : History) : (s.withHistory r).diag = s.diag := rfl
@[simp] theorem State.withHistory_params (s : State) (r : History) : (s.withHistory r).params = s.params := rfl
@[simp] theorem State.withHistory_input (s : State) (r : History) : (s.withHistory r).input = s.input := rfl
@[simp] theorem State.withHistory_inputEnd (s : State) (r : History) : (s.withHistory r).inputEnd = s.inputEnd := rfl
@[simp] theorem State.withHistory_host (s : State) (r : History) : (s.withHistory r).host = s.host := rfl
@[simp] theorem State.withHistory_autoAccept (s : State) (r : History) : (s.withHistory r).autoAccept = s.autoAccept := rfl
@[simp] theorem State.withHistory_accepted (s : State) (r : History) : (s.withHistory r).accepted = s.accepted := rfl
@[simp] theorem State.withHistory_suspended (s : State) (r : History) : (s.withHistory r).suspended = s.suspended := rfl

/-! ### withTables -/

@[simp] theorem State.withTables_reader (s : State) (r : Tables) : (s.withTables r).reader = s.reader := rfl
@[simp] theorem State.withTables_seq (s : State) (r : Tables) : (s.withTables r).seq = s.seq := rfl
@[simp] theorem State.withTables_history (s : State) (r : Tables) : (s.withTables r).history = s.history := rfl
@[simp] theorem State.withTables_tables (s : State) (r : Tables) : (s.withTables r).tables = r := rfl
@[simp] theorem State.withTables_ports (s : State) (r : Tables) : (s.withTables r).ports = s.ports := rfl
@[simp] theorem State.withTables_result (s : State) (r : Tables) : (s.withTables r).result = s.result := rfl
@[simp] theorem State.withTables_diag (s : State) (r : Tables) : (s.withTables r).diag = s.diag := rfl
@[simp] theorem State.withTables_params (s : State) (r : Tables) : (s.withTables r).params = s.params := rfl
@[simp] theorem State.withTables_input (s : State) (r : Tables) : (s.withTables r).input = s.input := rfl
@[simp] theorem State.withTables_inputEnd (s : State) (r : Tables) : (s.withTables r).inputEnd = s.inputEnd := rfl
@[simp] theorem State.withTables_host (s : State) (r : Tables) : (s.withTables r).host = s.host := rfl
@[simp] theorem State.withTables_autoAccept (s : State) (r : Tables) : (s.withTables r).autoAccept = s.autoAccept := rfl
@[simp] theorem State.withTables_accepted (s : State) (r : Tables) : (s.withTables r).accepted = s.accepted := rfl
@[simp] theorem State.withTables_suspended (s : State) (r : Tables) : (s.withTables r).suspended = s.suspended := rfl

/-! ### withPorts -/

@[simp] theorem State.withPorts_reader (s : State) (r : Ports) : (s.withPorts r).reader = s.reader := rfl
@[simp] theorem State.withPorts_seq (s : State) (r : Ports) : (s.withPorts r).seq = s.seq := rfl
@[simp] theorem State.withPorts_history (s : State) (r : Ports) : (s.withPorts r).history = s.history := rfl
@[simp] theorem State.withPorts_tables (s : State) (r : Ports) : (s.withPorts r).tables = s.tables := rfl
@[simp] theorem State.withPorts_ports (s : State) (r : Ports) : (s.withPorts r).ports = r := rfl
@[simp] theorem State.withPorts_result (s : State) (r : Ports) : (s.withPorts r).result = s.result := rfl
@[simp] theorem State.withPorts_diag (s : State) (r : Ports) : (s.withPorts r).diag = s.diag := rfl
@[simp] theorem State.withPorts_params (s : State) (r : Ports) : (s.withPorts r).params = s.params := rfl
@[simp] theorem State.withPorts_input (s : State) (r : Ports) : (s.withPorts r).input = s.input := rfl
@[simp] theorem State.withPorts_inputEnd (s : State) (r : Ports) : (s.withPorts r).inputEnd = s.inputEnd := rfl
@[simp] theorem State.withPorts_host (s : State) (r : Ports) : (s.withPorts r).host = s.host := rfl
@[simp] theorem State.withPorts_autoAccept (s : State) (r : Ports) : (s.withPorts r).autoAccept = s.autoAccept := rfl
@[simp] theorem State.withPorts_accepted (s : State) (r : Ports) : (s.withPorts r).accepted = s.accepted := rfl
@[simp] theorem State.withPorts_suspended (s : State) (r : Ports) : (s.withPorts r).suspended = s.suspended := rfl

/-! ### withResult -/

@[simp] theorem State.withResult_reader (s : State) (r : Nat) : (s.withResult r).reader = s.reader := rfl
@[simp] theorem State.withResult_seq (s : State) (r : Nat) : (s.withResult r).seq = s.seq := rfl
@[simp] theorem State.withResult_history (s : State) (r : Nat) : (s.withResult r).history = s.history := rfl
@[simp] theorem State.withResult_tables (s : State) (r : Nat) : (s.withResult r).tables = s.tables := rfl
@[simp] theorem State.withResult_ports (s : State) (r : Nat) : (s.withResult r).ports = s.ports := rfl
@[simp] theorem State.withResult_result (s : State) (r : Nat) : (s.withResult r).result = r := rfl
@[simp] theorem State.withResult_diag (s : State) (r : Nat) : (s.withResult r).diag = s.diag := rfl
@[simp] theorem State.withResult_params (s : State) (r : Nat) : (s.withResult r).params = s.params := rfl
@[simp] theorem State.withResult_input (s : State) (r : Nat) : (s.withResult r).input = s.input := rfl
@[simp] theorem State.withResult_inputEnd (s : State) (r : Nat) : (s.withResult r).inputEnd = s.inputEnd := rfl
@[simp] theorem State.withResult_host (s : State) (r : Nat) : (s.withResult r).host = s.host := rfl
@[simp] theorem State.withResult_autoAccept (s : State) (r : Nat) : (s.withResult r).autoAccept = s.autoAccept := rfl
@[simp] theorem State.withResult_accepted (s : State) (r : Nat) : (s.withResult r).accepted = s.accepted := rfl
@[simp] theorem State.withResult_suspended (s : State) (r : Nat) : (s.withResult r).suspended = s.suspended := rfl

/-! ### withDiag -/

@[simp] theorem State.withDiag_reader (s : State) (r : List DiagEvent) : (s.withDiag r).reader = s.reader := rfl
@[simp] theorem State.withDiag_seq (s : State) (r : List DiagEvent) : (s.withDiag r).seq = s.seq := rfl
@[simp] theorem State.withDiag_history (s : State) (r : List DiagEvent) : (s.withDiag r).history = s.history := rfl
@[simp] theorem State.withDiag_tables (s : State) (r : List DiagEvent) : (s.withDiag r).tables = s.tables := rfl
@[simp] theorem State.withDiag_ports (s : State) (r : List DiagEvent) : (s.withDiag r).ports = s.ports := rfl
@[simp] theorem State.withDiag_result (s : State) (r : List DiagEvent) : (s.withDiag r).result = s.result := rfl
@[simp] theorem State.withDiag_diag (s : State) (r : List DiagEvent) : (s.withDiag r).diag = r := rfl
@[simp] theorem State.withDiag_params (s : State) (r : List DiagEvent) : (s.withDiag r).params = s.params := rfl
@[simp] theorem State.withDiag_input (s : State) (r : List DiagEvent) : (s.withDiag r).input = s.input := rfl
@[simp] theorem State.withDiag_inputEnd (s : State) (r : List DiagEvent) : (s.withDiag r).inputEnd = s.inputEnd := rfl
@[simp] theorem State.withDiag_host (s : State) (r : List DiagEvent) : (s.withDiag r).host = s.host := rfl
@[simp] theorem State.withDiag_autoAccept (s : State) (r : List DiagEvent) : (s.withDiag r).autoAccept = s.autoAccept := rfl
@[simp] theorem State.withDiag_accepted (s : State) (r : List DiagEvent) : (s.withDiag r).accepted = s.accepted := rfl
@[simp] theorem State.withDiag_suspended (s : State) (r : List DiagEvent) : (s.withDiag r).suspended = s.suspended := rfl

/-! ### setPhase -/

@[simp] theorem State.setPhase_reader (s : State) (p : Phase) : (s.setPhase p).reader = s.reader := rfl
@[simp] theorem State.setPhase_seq (s : State) (p : Phase) : (s.setPhase p).seq = { s.seq with phase := p } := rfl
@[simp] theorem State.setPhase_history (s : State) (p : Phase) : (s.setPhase p).history = s.history := rfl
@[simp] theorem State.setPhase_tables (s : State) (p : Phase) : (s.setPhase p).tables = s.tables := rfl
@[simp] theorem State.setPhase_ports (s : State) (p : Phase) : (s.setPhase p).ports = s.ports := rfl
@[simp] theorem State.setPhase_result (s : State) (p : Phase) : (s.setPhase p).result = s.result := rfl
@[simp] theorem State.setPhase_diag (s : State) (p : Phase) : (s.setPhase p).diag = s.diag := rfl
@[simp] theorem State.setPhase_params (s : State) (p : Phase) : (s.setPhase p).params = s.params := rfl
@[simp] theorem State.setPhase_input (s : State) (p : Phase) : (s.setPhase p).input = s.input := rfl
@[simp] theorem State.setPhase_inputEnd (s : State) (p : Phase) : (s.setPhase p).inputEnd = s.inputEnd := rfl
@[simp] theorem State.setPhase_host (s : State) (p : Phase) : (s.setPhase p).host = s.host := rfl
@[simp] theorem State.setPhase_autoAccept (s : State) (p : Phase) : (s.setPhase p).autoAccept = s.autoAccept := rfl
@[simp] theorem State.setPhase_accepted (s : State) (p : Phase) : (s.setPhase p).accepted = s.accepted := rfl
@[simp] theorem State.setPhase_suspended (s : State) (p : Phase) : (s.setPhase p).suspended = s.suspended := rfl

/-! ### sendDiag -/

@[simp] theorem sendDiag_reader (k : DiagKind) (s : State) : (sendDiag k s).reader = s.reader := by unfold sendDiag; split <;> rfl
@[simp] theorem sendDiag_seq (k : DiagKind) (s : State) : (sendDiag k s).seq = s.seq := by unfold sendDiag; split <;> rfl
@[simp] theorem sendDiag_history (k : DiagKind) (s : State) : (sendDiag k s).history = s.history := by unfold sendDiag; split <;> rfl
@[simp] theorem sendDiag_tables (k : DiagKind) (s : State) : (sendDiag k s).tables = s.tables := by unfold sendDiag; split <;> rfl
@[simp] theorem sendDiag_ports (k : DiagKind) (s : State) : (sendDiag k s).ports = s.ports := by unfold sendDiag; split <;> rfl
@[simp] theorem sendDiag_result (k : DiagKind) (s : State) : (sendDiag k s).result = s.result := by unfold sendDiag; split <;> rfl
@[simp] theorem sendDiag_diag (k : DiagKind) (s : State) : (sendDiag k s).diag = if s.params.diagPresent then s.diag ++ [⟨s.bitPos, k⟩] else s.diag := by unfold sendDiag; split <;> rfl
@[simp] theorem sendDiag_params (k : DiagKind) (s : State) : (sendDiag k s).params = s.params := by unfold sendDiag; split <;> rfl
@[simp] theorem sendDiag_input (k : DiagKind) (s : State) : (sendDiag k s).input = s.input := by unfold sendDiag; split <;> rfl
@[simp] theorem sendDiag_inputEnd (k : DiagKind) (s : State) : (sendDiag k s).inputEnd = s.inputEnd := by unfold sendDiag; split <;> rfl
@[simp] theorem sendDiag_host (k : DiagKind) (s : State) : (sendDiag k s).host = s.host := by unfold sendDiag; split <;> rfl
@[simp] theorem sendDiag_autoAccept (k : DiagKind) (s : State) : (sendDiag k s).autoAccept = s.autoAccept := by unfold sendDiag; split <;> rfl
@[simp] theorem sendDiag_accepted (k : DiagKind) (s : State) : (sendDiag k s).accepted = s.accepted := by unfold sendDiag; split <;> rfl
@[simp] theorem sendDiag_suspended (k : DiagKind) (s : State) : (sendDiag k s).suspended = s.suspended := by unfold sendDiag; split <;> rfl

/-! ### outAppend -/

@[simp] theorem outAppend_reader (v : Byte) (s : State) : (outAppend v s).reader = s.reader := rfl
@[simp] theorem outAppend_seq (v : Byte) (s : State) : (outAppend v s).seq = s.seq := rfl
@[simp] theorem outAppend_history (v : Byte) (s : State) : (outAppend v s).history = { hist := s.history.hist.write s.history.outCount v, outCount := s.history.outCount + 1 } := rfl
@[simp] theorem outAppend_tables (v : Byte) (s : State) : (outAppend v s).tables = s.tables := rfl
@[simp] theorem outAppend_ports (v : Byte) (s : State) : (outAppend v s).ports = s.ports := rfl
@[simp] theorem outAppend_result (v : Byte) (s : State) : (outAppend v s).result = s.result := rfl
@[simp] theorem outAppend_diag (v : Byte) (s : State) : (outAppend v s).diag = s.diag := rfl
@[simp] theorem outAppend_params (v : Byte) (s : State) : (outAppend v s).params = s.params := rfl
@[simp] theorem outAppend_input (v : Byte) (s : State) : (outAppend v s).input = s.input := rfl
@[simp] theorem outAppend_inputEnd (v : Byte) (s : State) : (outAppend v s).inputEnd = s.inputEnd := rfl
@[simp] theorem outAppend_host (v : Byte) (s : State) : (outAppend v s).host = s.host := rfl
@[simp] theorem outAppend_autoAccept (v : Byte) (s : State) : (outAppend v s).autoAccept = s.autoAccept := rfl
@[simp] theorem outAppend_accepted (v : Byte) (s : State) : (outAppend v s).accepted = s.accepted := rfl
@[simp] theorem outAppend_suspended (v : Byte) (s : State) : (outAppend v s).suspended = s.suspended := rfl

/-! ### emit -/

@[simp] theorem emit_reader (c : List Byte) (s : State) : (emit c s).reader = s.reader := rfl
@[simp] theorem emit_seq (c : List Byte) (s : State) : (emit c s).seq = s.seq := rfl
@[simp] theorem emit_history (c : List Byte) (s : State) : (emit c s).history = s.history := rfl
@[simp] theorem emit_tables (c : List Byte) (s : State) : (emit c s).tables = s.tables := rfl
@[simp] theorem emit_ports (c : List Byte) (s : State) : (emit c s).ports = { s.ports with outChunk := c, outPend := true } := rfl
@[simp] theorem emit_result (c : List Byte) (s : State) : (emit c s).result = s.result := rfl
@[simp] theorem emit_diag (c : List Byte) (s : State) : (emit c s).diag = s.diag := rfl
@[simp] theorem emit_params (c : List Byte) (s : State) : (emit c s).params = s.params := rfl
@[simp] theorem emit_input (c : List Byte) (s : State) : (emit c s).input = s.input := rfl
@[simp] theorem emit_inputEnd (c : List Byte) (s : State) : (emit c s).inputEnd = s.inputEnd := rfl
@[simp] theorem emit_host (c : List Byte) (s : State) : (emit c s).host = s.host := rfl
@[simp] theorem emit_autoAccept (c : List Byte) (s : State) : (emit c s).autoAccept = s.autoAccept := rfl
@[simp] theorem emit_accepted (c : List Byte) (s : State) : (emit c s).accepted = s.accepted := rfl
@[simp] theorem emit_suspended (c : List Byte) (s : State) : (emit c s).suspended = s.suspended := rfl

/-! ### errorEntry -/

@[simp] theorem errorEntry_reader (k : ErrKind) (q : Nat) (s : State) : (errorEntry k q s).reader = s.reader := rfl
@[simp] theorem errorEntry_seq (k : ErrKind) (q : Nat) (s : State) : (errorEntry k q s).seq = { s.seq with phase := .error } := rfl
@[simp] theorem errorEntry_history (k : ErrKind) (q : Nat) (s : State) : (errorEntry k q s).history = s.history := rfl
@[simp] theorem errorEntry_tables (k : ErrKind) (q : Nat) (s : State) : (errorEntry k q s).tables = s.tables := rfl
@[simp] theorem errorEntry_ports (k : ErrKind) (q : Nat) (s : State) : (errorEntry k q s).ports = { s.ports with error := true, errKind := k, errBitpos := q } := rfl
@[simp] theorem errorEntry_result (k : ErrKind) (q : Nat) (s : State) : (errorEntry k q s).result = s.result := rfl
@[simp] theorem errorEntry_diag (k : ErrKind) (q : Nat) (s : State) : (errorEntry k q s).diag = s.diag := rfl
@[simp] theorem errorEntry_params (k : ErrKind) (q : Nat) (s : State) : (errorEntry k q s).params = s.params := rfl
@[simp] theorem errorEntry_input (k : ErrKind) (q : Nat) (s : State) : (errorEntry k q s).input = s.input := rfl
@[simp] theorem errorEntry_inputEnd (k : ErrKind) (q : Nat) (s : State) : (errorEntry k q s).inputEnd = s.inputEnd := rfl
@[simp] theorem errorEntry_host (k : ErrKind) (q : Nat) (s : State) : (errorEntry k q s).host = s.host := rfl
@[simp] theorem errorEntry_autoAccept (k : ErrKind) (q : Nat) (s : State) : (errorEntry k q s).autoAccept = s.autoAccept := rfl
@[simp] theorem errorEntry_accepted (k : ErrKind) (q : Nat) (s : State) : (errorEntry k q s).accepted = s.accepted := rfl
@[simp] theorem errorEntry_suspended (k : ErrKind) (q : Nat) (s : State) : (errorEntry k q s).suspended = s.suspended := rfl

/-! ### afterRefill (its reader is Laws/Reader.lean's matter) -/

@[simp] theorem State.afterRefill_seq (n : Nat) (s : State) : (s.afterRefill n).seq = s.seq := rfl
@[simp] theorem State.afterRefill_history (n : Nat) (s : State) : (s.afterRefill n).history = s.history := rfl
@[simp] theorem State.afterRefill_tables (n : Nat) (s : State) : (s.afterRefill n).tables = s.tables := rfl
@[simp] theorem State.afterRefill_ports (n : Nat) (s : State) : (s.afterRefill n).ports = s.ports := rfl
@[simp] theorem State.afterRefill_result (n : Nat) (s : State) : (s.afterRefill n).result = s.result := rfl
@[simp] theorem State.afterRefill_diag (n : Nat) (s : State) : (s.afterRefill n).diag = s.diag := rfl
@[simp] theorem State.afterRefill_params (n : Nat) (s : State) : (s.afterRefill n).params = s.params := rfl
@[simp] theorem State.afterRefill_input (n : Nat) (s : State) : (s.afterRefill n).input = s.input := rfl
@[simp] theorem State.afterRefill_inputEnd (n : Nat) (s : State) : (s.afterRefill n).inputEnd = s.inputEnd := rfl
@[simp] theorem State.afterRefill_host (n : Nat) (s : State) : (s.afterRefill n).host = s.host := rfl
@[simp] theorem State.afterRefill_autoAccept (n : Nat) (s : State) : (s.afterRefill n).autoAccept = s.autoAccept := rfl
@[simp] theorem State.afterRefill_accepted (n : Nat) (s : State) : (s.afterRefill n).accepted = s.accepted := rfl
@[simp] theorem State.afterRefill_suspended (n : Nat) (s : State) : (s.afterRefill n).suspended = s.suspended := rfl

/-! ### afterRead (its reader is Laws/Reader.lean's matter) -/

@[simp] theorem State.afterRead_seq (n : Nat) (s : State) : (s.afterRead n).seq = s.seq := rfl
@[simp] theorem State.afterRead_history (n : Nat) (s : State) : (s.afterRead n).history = s.history := rfl
@[simp] theorem State.afterRead_tables (n : Nat) (s : State) : (s.afterRead n).tables = s.tables := rfl
@[simp] theorem State.afterRead_ports (n : Nat) (s : State) : (s.afterRead n).ports = s.ports := rfl
@[simp] theorem State.afterRead_result (n : Nat) (s : State) : (s.afterRead n).result = s.result := rfl
@[simp] theorem State.afterRead_diag (n : Nat) (s : State) : (s.afterRead n).diag = s.diag := rfl
@[simp] theorem State.afterRead_params (n : Nat) (s : State) : (s.afterRead n).params = s.params := rfl
@[simp] theorem State.afterRead_input (n : Nat) (s : State) : (s.afterRead n).input = s.input := rfl
@[simp] theorem State.afterRead_inputEnd (n : Nat) (s : State) : (s.afterRead n).inputEnd = s.inputEnd := rfl
@[simp] theorem State.afterRead_host (n : Nat) (s : State) : (s.afterRead n).host = s.host := rfl
@[simp] theorem State.afterRead_autoAccept (n : Nat) (s : State) : (s.afterRead n).autoAccept = s.autoAccept := rfl
@[simp] theorem State.afterRead_accepted (n : Nat) (s : State) : (s.afterRead n).accepted = s.accepted := rfl
@[simp] theorem State.afterRead_suspended (n : Nat) (s : State) : (s.afterRead n).suspended = s.suspended := rfl

/-! ### afterShort (its reader is Laws/Reader.lean's matter) -/

@[simp] theorem State.afterShort_seq (s : State) : (s.afterShort).seq = s.seq := rfl
@[simp] theorem State.afterShort_history (s : State) : (s.afterShort).history = s.history := rfl
@[simp] theorem State.afterShort_tables (s : State) : (s.afterShort).tables = s.tables := rfl
@[simp] theorem State.afterShort_ports (s : State) : (s.afterShort).ports = s.ports := rfl
@[simp] theorem State.afterShort_result (s : State) : (s.afterShort).result = s.result := rfl
@[simp] theorem State.afterShort_diag (s : State) : (s.afterShort).diag = s.diag := rfl
@[simp] theorem State.afterShort_params (s : State) : (s.afterShort).params = s.params := rfl
@[simp] theorem State.afterShort_input (s : State) : (s.afterShort).input = s.input := rfl
@[simp] theorem State.afterShort_inputEnd (s : State) : (s.afterShort).inputEnd = s.inputEnd := rfl
@[simp] theorem State.afterShort_host (s : State) : (s.afterShort).host = s.host := rfl
@[simp] theorem State.afterShort_autoAccept (s : State) : (s.afterShort).autoAccept = s.autoAccept := rfl
@[simp] theorem State.afterShort_accepted (s : State) : (s.afterShort).accepted = s.accepted := rfl
@[simp] theorem State.afterShort_suspended (s : State) : (s.afterShort).suspended = s.suspended := rfl

/-! ### suspend -/

@[simp] theorem suspend_reader (s t : State) : (suspend s t).reader = t.reader := rfl
@[simp] theorem suspend_seq (s t : State) : (suspend s t).seq = t.seq := rfl
@[simp] theorem suspend_history (s t : State) : (suspend s t).history = t.history := rfl
@[simp] theorem suspend_tables (s t : State) : (suspend s t).tables = t.tables := rfl
@[simp] theorem suspend_ports (s t : State) : (suspend s t).ports = t.ports := rfl
@[simp] theorem suspend_result (s t : State) : (suspend s t).result = t.result := rfl
@[simp] theorem suspend_diag (s t : State) : (suspend s t).diag = t.diag := rfl
@[simp] theorem suspend_params (s t : State) : (suspend s t).params = t.params := rfl
@[simp] theorem suspend_input (s t : State) : (suspend s t).input = t.input := rfl
@[simp] theorem suspend_inputEnd (s t : State) : (suspend s t).inputEnd = t.inputEnd := rfl
@[simp] theorem suspend_host (s t : State) : (suspend s t).host = t.host := rfl
@[simp] theorem suspend_autoAccept (s t : State) : (suspend s t).autoAccept = t.autoAccept := rfl
@[simp] theorem suspend_accepted (s t : State) : (suspend s t).accepted = t.accepted := rfl
@[simp] theorem suspend_suspended (s t : State) : (suspend s t).suspended = some s.toBlock := rfl

/-! ### The state an element starts from -/

theorem State.start_of_none {s : State} (h : s.suspended = none) : s.start = s := by
  unfold State.start; rw [h]

theorem State.start_of_some {s : State} {b : Block} (h : s.suspended = some b) :
    s.start = { s with toBlock := b, suspended := none } := by
  unfold State.start; rw [h]

@[simp] theorem State.start_suspended (s : State) : s.start.suspended = none := by
  unfold State.start; split <;> simp_all

@[simp] theorem State.start_params (s : State) : s.start.params = s.params := by
  unfold State.start; split <;> rfl

@[simp] theorem State.start_input (s : State) : s.start.input = s.input := by
  unfold State.start; split <;> rfl

@[simp] theorem State.start_inputEnd (s : State) : s.start.inputEnd = s.inputEnd := by
  unfold State.start; split <;> rfl

@[simp] theorem State.start_host (s : State) : s.start.host = s.host := by
  unfold State.start; split <;> rfl

@[simp] theorem State.start_autoAccept (s : State) : s.start.autoAccept = s.autoAccept := by
  unfold State.start; split <;> rfl

@[simp] theorem State.start_accepted (s : State) : s.start.accepted = s.accepted := by
  unfold State.start; split <;> rfl

end Sys2Proof.Machine
end

