-- ==== Sys2Proof/Laws/Reader.lean ====
section
/-! SUPPORT. The bit reader: what a refill, a read, a peek and an align answer, in terms of the upcoming bits, and the
laws of the states they leave. -/

namespace Sys2Proof.Machine

open Sys2Proof

/-! ## Outcomes of operations in sequence -/

@[simp] theorem Res.bind_ok {α β : Type} (a : α) (s : State) (f : α → State → Res β) :
    (Res.ok a s).bind f = f a s := rfl

@[simp] theorem Res.bind_raise {α β : Type} (k : ErrKind) (q : Nat) (s : State) (f : α → State → Res β) :
    (Res.raise k q s : Res α).bind f = .raise k q s := rfl

@[simp] theorem Res.bind_wait {α β : Type} (s : State) (f : α → State → Res β) :
    (Res.wait s : Res α).bind f = .wait s := rfl

@[simp] theorem Res.bind_fault {α β : Type} (e : Fault) (f : α → State → Res β) :
    (Res.fault e : Res α).bind f = .fault e := rfl

@[simp] theorem Res.bind_refused {α β : Type} (e : Refusal) (f : α → State → Res β) :
    (Res.refused e : Res α).bind f = .refused e := rfl

theorem Res.bind_assoc {α β γ : Type} (r : Res α) (f : α → State → Res β) (g : β → State → Res γ) :
    (r.bind f).bind g = r.bind fun a s => (f a s).bind g := by
  cases r <;> rfl

/-- What a completed sequence went through. -/
theorem Res.bind_eq_ok {α β : Type} {r : Res α} {f : α → State → Res β} {b : β} {t : State}
    (h : r.bind f = .ok b t) : ∃ a u, r = .ok a u ∧ f a u = .ok b t := by
  cases r with
  | ok a u => exact ⟨a, u, rfl, h⟩
  | raise _ _ _ => cases h
  | wait _ => cases h
  | fault _ => cases h
  | refused _ => cases h

/-! ## The reader's registers and the bits they hold -/

/-- ACC is the value of the buffered bits (R31). -/
theorem Reader.acc_eq {r : Reader} (h : r.acc < 2 ^ r.cnt) : r.acc = fieldValue r.mode r.buffered := by
  unfold Reader.buffered
  cases r.mode
  · rw [fieldValue_lsbBits, Nat.mod_eq_of_lt h]
  · rw [fieldValue_msbBits, Nat.mod_eq_of_lt h]

/-- A reader made from a bit list buffers that list. -/
theorem Reader.buffered_of_bits {r : Reader} {bs : List Bool} (hc : r.cnt = bs.length)
    (ha : r.acc = fieldValue r.mode bs) : r.buffered = bs := by
  unfold Reader.buffered
  rw [hc, ha]
  cases r.mode
  · exact lsbBits_fieldValue bs
  · exact msbBits_fieldValue bs

theorem Reader.acc_lt_of_bits {r : Reader} {bs : List Bool} (hc : r.cnt = bs.length)
    (ha : r.acc = fieldValue r.mode bs) : r.acc < 2 ^ r.cnt := by
  rw [hc, ha]; exact fieldValue_lt _ _

theorem takeByte_acc_lsb {r : Reader} (h : r.acc < 2 ^ r.cnt) (b : Byte) :
    r.acc ||| (b.toNat <<< r.cnt) = r.acc + 2 ^ r.cnt * b.toNat := by
  rw [Nat.or_comm, Nat.shiftLeft_eq, Nat.mul_comm b.toNat, ← Nat.two_pow_add_eq_or_of_lt h, Nat.add_comm]

theorem takeByte_acc_msb (r : Reader) (b : Byte) :
    (r.acc <<< 8) ||| b.toNat = r.acc * 2 ^ 8 + b.toNat := by
  rw [Nat.shiftLeft_eq, Nat.mul_comm, ← Nat.two_pow_add_eq_or_of_lt b.isLt]

/-- A fetched byte joins the buffered bits behind them, in the current order (R164). -/
theorem Reader.buffered_takeByte {r : Reader} (h : r.acc < 2 ^ r.cnt) (b : Byte) :
    (r.takeByte b).buffered = r.buffered ++ byteBits r.mode b := by
  unfold Reader.takeByte Reader.buffered byteBits
  cases r.mode
  · show lsbBits (r.cnt + 8) _ = _
    rw [takeByte_acc_lsb h, lsbBits_append _ _ _ _ h]
  · show msbBits (r.cnt + 8) _ = _
    rw [takeByte_acc_msb, msbBits_append _ _ _ _ b.isLt]

theorem Reader.acc_takeByte_lt {r : Reader} (h : r.acc < 2 ^ r.cnt) (b : Byte) :
    (r.takeByte b).acc < 2 ^ (r.takeByte b).cnt := by
  have hb := b.isLt
  have hp := Nat.two_pow_pos r.cnt
  unfold Reader.takeByte
  cases r.mode
  · show r.acc ||| (b.toNat <<< r.cnt) < 2 ^ (r.cnt + 8)
    rw [takeByte_acc_lsb h, Nat.pow_add]
    have : 2 ^ r.cnt * b.toNat ≤ 2 ^ r.cnt * 255 := Nat.mul_le_mul_left _ (by omega)
    omega
  · show (r.acc <<< 8) ||| b.toNat < 2 ^ (r.cnt + 8)
    rw [takeByte_acc_msb, Nat.pow_add]
    omega

@[simp] theorem Reader.takeByte_mode (r : Reader) (b : Byte) : (r.takeByte b).mode = r.mode := rfl
@[simp] theorem Reader.takeByte_cnt (r : Reader) (b : Byte) : (r.takeByte b).cnt = r.cnt + 8 := rfl
@[simp] theorem Reader.takeByte_nfetch (r : Reader) (b : Byte) : (r.takeByte b).nfetch = r.nfetch + 1 := rfl
@[simp] theorem Reader.takeByte_inWait (r : Reader) (b : Byte) : (r.takeByte b).inWait = false := rfl

/-- Fetching a byte leaves the upcoming bits as they are. -/
theorem upcoming_takeByte {s : State} (h : s.reader.acc < 2 ^ s.reader.cnt) {b : Byte}
    (hb : s.input[s.reader.nfetch]? = some b) :
    (s.withReader (s.reader.takeByte b)).upcoming = s.upcoming := by
  obtain ⟨hl, hg⟩ := List.getElem?_eq_some_iff.mp hb
  unfold State.upcoming
  simp only [State.withReader_reader, State.withReader_input, Reader.buffered_takeByte h, Reader.takeByte_mode,
    Reader.takeByte_nfetch]
  rw [List.append_assoc, List.drop_eq_getElem_cons hl, List.flatMap_cons, hg]

/-- The first CNT upcoming bits are the buffered ones. -/
theorem take_upcoming_cnt (s : State) : s.upcoming.take s.reader.cnt = s.reader.buffered := by
  unfold State.upcoming
  rw [List.take_append_of_le_length (by simp), List.take_of_length_le (by simp)]

/-! ## Refill -/

theorem bytesFor_of_le {n : Nat} {r : Reader} (h : n ≤ r.cnt) : r.bytesFor n = 0 := by
  unfold Reader.bytesFor; omega

/-- With the bits already there, a refill changes nothing (R164). -/
theorem afterRefill_of_le {n : Nat} {s : State} (ha : s.reader.acc < 2 ^ s.reader.cnt) (h : n ≤ s.reader.cnt) :
    s.afterRefill n = s := by
  unfold State.afterRefill
  rw [bytesFor_of_le h, Nat.mul_zero, Nat.add_zero, Nat.add_zero, take_upcoming_cnt, ← Reader.acc_eq ha]
  simp [State.withReader]

theorem afterRefill_takeByte {n : Nat} {s : State} (ha : s.reader.acc < 2 ^ s.reader.cnt) (h : s.reader.cnt < n)
    {b : Byte} (hb : s.input[s.reader.nfetch]? = some b) :
    (s.withReader (s.reader.takeByte b)).afterRefill n = s.afterRefill n := by
  have hk : s.reader.bytesFor n = (s.reader.takeByte b).bytesFor n + 1 := by
    unfold Reader.bytesFor; simp only [Reader.takeByte_cnt]; omega
  unfold State.afterRefill
  rw [upcoming_takeByte ha hb, hk]
  simp only [State.withReader_reader, Reader.takeByte_mode, Reader.takeByte_cnt, Reader.takeByte_nfetch,
    Reader.takeByte_inWait, Bool.false_and]
  have e1 : s.reader.cnt + 8 + 8 * (s.reader.takeByte b).bytesFor n
      = s.reader.cnt + 8 * ((s.reader.takeByte b).bytesFor n + 1) := by omega
  have e2 : s.reader.nfetch + 1 + (s.reader.takeByte b).bytesFor n
      = s.reader.nfetch + ((s.reader.takeByte b).bytesFor n + 1) := by omega
  have e3 : ((s.reader.takeByte b).bytesFor n + 1 == 0) = false := by simp
  rw [e1, e2, e3, Bool.and_false]
  rfl

theorem refillLoop_eq {fuel n p0 : Nat} {s : State} (ha : s.reader.acc < 2 ^ s.reader.cnt)
    (hf : n ≤ s.reader.cnt + fuel) (hn : n ≤ s.upcoming.length) :
    refillLoop fuel n p0 s = .ok () (s.afterRefill n) := by
  induction fuel generalizing s with
  | zero => rw [refillLoop, afterRefill_of_le ha hf]
  | succ fuel ih =>
    rw [refillLoop]
    split
    next h =>
      rw [length_upcoming] at hn
      have hl : s.reader.nfetch < s.input.length := by omega
      have hb : s.input[s.reader.nfetch]? = some s.input[s.reader.nfetch] := List.getElem?_eq_getElem hl
      simp only [inByte, hb]
      rw [ih (Reader.acc_takeByte_lt ha _) (by simp; omega)
        (by rw [upcoming_takeByte ha hb, length_upcoming]; exact hn), afterRefill_takeByte ha h hb]
    next h => rw [afterRefill_of_le ha (by omega)]

theorem afterShort_takeByte {s : State} (ha : s.reader.acc < 2 ^ s.reader.cnt) {b : Byte}
    (hb : s.input[s.reader.nfetch]? = some b) :
    (s.withReader (s.reader.takeByte b)).afterShort = s.afterShort := by
  obtain ⟨hl, -⟩ := List.getElem?_eq_some_iff.mp hb
  unfold State.afterShort
  rw [upcoming_takeByte ha hb]
  simp only [State.withReader_reader, State.withReader_input, State.withReader_inputEnd, Reader.takeByte_mode,
    Reader.takeByte_cnt, Reader.takeByte_nfetch]
  have e1 : s.reader.cnt + 8 + 8 * (s.input.length - (s.reader.nfetch + 1))
      = s.reader.cnt + 8 * (s.input.length - s.reader.nfetch) := by omega
  have e2 : s.reader.nfetch + 1 + (s.input.length - (s.reader.nfetch + 1))
      = s.reader.nfetch + (s.input.length - s.reader.nfetch) := by omega
  rw [e1, e2]
  rfl

theorem refillLoop_short {fuel n p0 : Nat} {s : State} (ha : s.reader.acc < 2 ^ s.reader.cnt)
    (hf : n ≤ s.reader.cnt + fuel) (hn : s.upcoming.length < n) :
    refillLoop fuel n p0 s = if s.inputEnd then .raise .unexpectedEof p0 s.afterShort else .wait s.afterShort := by
  induction fuel generalizing s with
  | zero => rw [length_upcoming] at hn; omega
  | succ fuel ih =>
    have hn' := hn
    rw [length_upcoming] at hn'
    rw [refillLoop, if_pos (by omega)]
    cases hb : s.input[s.reader.nfetch]? with
    | some b =>
      simp only [inByte, hb]
      rw [ih (Reader.acc_takeByte_lt ha _) (by simp; omega) (by rw [upcoming_takeByte ha hb]; exact hn),
        afterShort_takeByte ha hb]
      rfl
    | none =>
      have hl : s.input.length ≤ s.reader.nfetch := List.getElem?_eq_none_iff.mp hb
      have hu : s.upcoming = s.reader.buffered := by
        unfold State.upcoming; rw [List.drop_of_length_le hl]; simp
      have e0 : s.input.length - s.reader.nfetch = 0 := by omega
      have e : s.afterShort = s.withReader { s.reader with inWait := !s.inputEnd } := by
        unfold State.afterShort
        rw [hu, ← Reader.acc_eq ha, e0]
        rfl
      simp only [inByte, hb, e]
      cases s.inputEnd <;> rfl

/-- `Refill(n, p0)` gets its bits (R164). -/
theorem refill_eq {n p0 : Nat} {s : State} (ha : s.reader.acc < 2 ^ s.reader.cnt) (hn : n ≤ s.upcoming.length) :
    refill n p0 s = .ok () (s.afterRefill n) := refillLoop_eq ha (by omega) hn

/-- `Refill(n, p0)` runs short of bits (R164, R521). -/
theorem refill_short {n p0 : Nat} {s : State} (ha : s.reader.acc < 2 ^ s.reader.cnt) (hn : s.upcoming.length < n) :
    refill n p0 s = if s.inputEnd then .raise .unexpectedEof p0 s.afterShort else .wait s.afterShort :=
  refillLoop_short ha (by omega) hn

/-! ## The states a refill and a read leave -/

theorem length_take_upcoming_bytesFor {n : Nat} {s : State} (hn : n ≤ s.upcoming.length) :
    (s.upcoming.take (s.reader.cnt + 8 * s.reader.bytesFor n)).length = s.reader.cnt + 8 * s.reader.bytesFor n := by
  rw [length_upcoming] at hn
  rw [List.length_take, length_upcoming]
  unfold Reader.bytesFor
  omega

theorem afterRefill_reader (n : Nat) (s : State) : (s.afterRefill n).reader = { s.reader with
    acc := fieldValue s.reader.mode (s.upcoming.take (s.reader.cnt + 8 * s.reader.bytesFor n))
    cnt := s.reader.cnt + 8 * s.reader.bytesFor n
    nfetch := s.reader.nfetch + s.reader.bytesFor n
    inWait := s.reader.inWait && s.reader.bytesFor n == 0 } := rfl

theorem afterRead_reader (n : Nat) (s : State) : (s.afterRead n).reader = { s.reader with
    acc := fieldValue s.reader.mode ((s.upcoming.drop n).take (s.reader.cnt + 8 * s.reader.bytesFor n - n))
    cnt := s.reader.cnt + 8 * s.reader.bytesFor n - n
    nfetch := s.reader.nfetch + s.reader.bytesFor n
    inWait := s.reader.inWait && s.reader.bytesFor n == 0 } := rfl

theorem afterShort_reader (s : State) : s.afterShort.reader = { s.reader with
    acc := fieldValue s.reader.mode s.upcoming
    cnt := s.reader.cnt + 8 * (s.input.length - s.reader.nfetch)
    nfetch := s.reader.nfetch + (s.input.length - s.reader.nfetch)
    inWait := !s.inputEnd } := rfl

theorem le_cnt_bytesFor (n : Nat) (r : Reader) : n ≤ r.cnt + 8 * r.bytesFor n := by
  unfold Reader.bytesFor; omega

theorem afterRefill_buffered {n : Nat} {s : State} (hn : n ≤ s.upcoming.length) :
    (s.afterRefill n).reader.buffered = s.upcoming.take (s.reader.cnt + 8 * s.reader.bytesFor n) :=
  Reader.buffered_of_bits (length_take_upcoming_bytesFor hn).symm rfl

theorem length_take_drop_upcoming {n : Nat} {s : State} (hn : n ≤ s.upcoming.length) :
    ((s.upcoming.drop n).take (s.reader.cnt + 8 * s.reader.bytesFor n - n)).length
      = s.reader.cnt + 8 * s.reader.bytesFor n - n := by
  have := length_take_upcoming_bytesFor hn
  rw [List.length_take] at this ⊢
  rw [List.length_drop]
  omega

theorem afterRead_buffered {n : Nat} {s : State} (hn : n ≤ s.upcoming.length) :
    (s.afterRead n).reader.buffered = (s.upcoming.drop n).take (s.reader.cnt + 8 * s.reader.bytesFor n - n) :=
  Reader.buffered_of_bits (length_take_drop_upcoming hn).symm rfl

/-- The bytes left after `k` more fetches are the bits left after `8 k` bits behind the buffered ones. -/
theorem drop_flatMap_byteBits (m : BitOrder) (k : Nat) (bs : List Byte) :
    (bs.drop k).flatMap (byteBits m) = (bs.flatMap (byteBits m)).drop (8 * k) := by
  induction k generalizing bs with
  | zero => simp
  | succ k ih =>
    cases bs with
    | nil => simp
    | cons b bs =>
      have h0 : (byteBits m b).drop (8 * (k + 1)) = [] :=
        List.drop_of_length_le (by rw [length_byteBits]; omega)
      rw [List.drop_succ_cons, ih, List.flatMap_cons, List.drop_append, length_byteBits, h0, List.nil_append]
      congr 1

theorem flatMap_drop_nfetch (k : Nat) (s : State) :
    (s.input.drop (s.reader.nfetch + k)).flatMap (byteBits s.reader.mode)
      = s.upcoming.drop (s.reader.cnt + 8 * k) := by
  have h0 : s.reader.buffered.drop (s.reader.cnt + 8 * k) = [] :=
    List.drop_of_length_le (by rw [length_buffered]; omega)
  unfold State.upcoming
  rw [← List.drop_drop, drop_flatMap_byteBits, List.drop_append, length_buffered, h0, List.nil_append]
  congr 1; omega

/-- A refill keeps the upcoming bits (R166: a peek consumes nothing). -/
theorem afterRefill_upcoming {n : Nat} {s : State} (hn : n ≤ s.upcoming.length) :
    (s.afterRefill n).upcoming = s.upcoming := by
  have h1 := afterRefill_buffered hn
  have h2 := flatMap_drop_nfetch (s.reader.bytesFor n) s
  unfold State.upcoming at h1 h2 ⊢
  rw [h1]
  simp only [State.afterRefill_input, afterRefill_reader]
  rw [h2, List.take_append_drop]

/-- A read takes its bits from the front of the upcoming ones (R165). -/
theorem afterRead_upcoming {n : Nat} {s : State} (hn : n ≤ s.upcoming.length) :
    (s.afterRead n).upcoming = s.upcoming.drop n := by
  have h1 := afterRead_buffered hn
  have h2 := flatMap_drop_nfetch (s.reader.bytesFor n) s
  have h3 := le_cnt_bytesFor n s.reader
  rw [State.upcoming, h1]
  simp only [State.afterRead_input, afterRead_reader]
  rw [h2]
  have e : s.upcoming.drop (s.reader.cnt + 8 * s.reader.bytesFor n)
      = (s.upcoming.drop n).drop (s.reader.cnt + 8 * s.reader.bytesFor n - n) := by
    rw [List.drop_drop]; congr 1; omega
  rw [e, List.take_append_drop]

theorem afterShort_buffered (s : State) : s.afterShort.reader.buffered = s.upcoming :=
  Reader.buffered_of_bits (by rw [afterShort_reader]; exact (length_upcoming s).symm) rfl

theorem afterShort_upcoming (s : State) : s.afterShort.upcoming = s.upcoming := by
  rw [State.upcoming, afterShort_buffered, afterShort_reader, State.afterShort_input,
    List.drop_of_length_le (by show s.input.length ≤ s.reader.nfetch + (s.input.length - s.reader.nfetch); omega)]
  simp

theorem afterRefill_ok {n : Nat} {s : State} (hs : s.reader.ok) (hn : n ≤ s.upcoming.length) :
    (s.afterRefill n).reader.ok := by
  refine ⟨Reader.acc_lt_of_bits (length_take_upcoming_bytesFor hn).symm rfl, ?_⟩
  have := hs.2
  show s.reader.cnt + 8 * s.reader.bytesFor n ≤ 8 * (s.reader.nfetch + s.reader.bytesFor n)
  omega

theorem afterRead_ok {n : Nat} {s : State} (hs : s.reader.ok) (hn : n ≤ s.upcoming.length) :
    (s.afterRead n).reader.ok := by
  refine ⟨Reader.acc_lt_of_bits (length_take_drop_upcoming hn).symm rfl, ?_⟩
  have := hs.2
  show s.reader.cnt + 8 * s.reader.bytesFor n - n ≤ 8 * (s.reader.nfetch + s.reader.bytesFor n)
  omega

theorem afterShort_ok {s : State} (hs : s.reader.ok) : s.afterShort.reader.ok := by
  refine ⟨Reader.acc_lt_of_bits (length_upcoming s).symm rfl, ?_⟩
  have := hs.2
  show s.reader.cnt + 8 * (s.input.length - s.reader.nfetch)
    ≤ 8 * (s.reader.nfetch + (s.input.length - s.reader.nfetch))
  omega

/-- A refill leaves the bit position (R166). -/
theorem afterRefill_bitPos (n : Nat) (s : State) : (s.afterRefill n).bitPos = s.bitPos := by
  show 8 * (s.reader.nfetch + s.reader.bytesFor n) - (s.reader.cnt + 8 * s.reader.bytesFor n)
    = 8 * s.reader.nfetch - s.reader.cnt
  omega

/-- A read moves the bit position by its width (R36, R165). -/
theorem afterRead_bitPos {n : Nat} {s : State} (hs : s.reader.ok) : (s.afterRead n).bitPos = s.bitPos + n := by
  have := hs.2
  have := le_cnt_bytesFor n s.reader
  show 8 * (s.reader.nfetch + s.reader.bytesFor n) - (s.reader.cnt + 8 * s.reader.bytesFor n - n)
    = 8 * s.reader.nfetch - s.reader.cnt + n
  omega

theorem afterShort_bitPos (s : State) : s.afterShort.bitPos = s.bitPos := by
  show 8 * (s.reader.nfetch + (s.input.length - s.reader.nfetch))
      - (s.reader.cnt + 8 * (s.input.length - s.reader.nfetch)) = 8 * s.reader.nfetch - s.reader.cnt
  omega

/-! ## Reads and peeks -/

/-- The front of a reader is the value of its first buffered bits. -/
theorem Reader.front_eq {r : Reader} {n : Nat} (hn : n ≤ r.cnt) :
    r.front n = fieldValue r.mode (r.buffered.take n) := by
  unfold Reader.front Reader.buffered field
  cases r.mode
  · show _ = fieldValue .lsb ((lsbBits r.cnt r.acc).take n)
    rw [take_lsbBits _ _ _ hn, fieldValue_lsbBits]; rfl
  · show _ = fieldValue .msb ((msbBits r.cnt r.acc).take n)
    rw [take_msbBits _ _ _ hn, fieldValue_msbBits]

theorem Reader.drop_eq {r : Reader} {n : Nat} (h : r.acc < 2 ^ r.cnt) (hn : n ≤ r.cnt) :
    r.drop n = { r with acc := fieldValue r.mode (r.buffered.drop n), cnt := r.cnt - n } := by
  obtain ⟨acc, cnt, nfetch, mode, inWait⟩ := r
  cases mode
  · have e : acc >>> n = fieldValue .lsb ((lsbBits cnt acc).drop n) := by
      rw [drop_lsbBits _ _ _ hn, fieldValue_lsbBits, Nat.mod_eq_of_lt]
      rw [Nat.shiftRight_eq_div_pow, Nat.div_lt_iff_lt_mul (Nat.two_pow_pos n), ← Nat.pow_add]
      rwa [Nat.sub_add_cancel hn]
    show Reader.mk (acc >>> n) (cnt - n) nfetch .lsb inWait = _
    rw [e]; rfl
  · have e : field acc 0 (cnt - n) = fieldValue .msb ((msbBits cnt acc).drop n) := by
      rw [drop_msbBits _ _ _ hn, fieldValue_msbBits]; rfl
    show Reader.mk (field acc 0 (cnt - n)) (cnt - n) nfetch .msb inWait = _
    rw [e]; rfl

/-- A read straight after the refill it needs. -/
theorem drop_afterRefill {n : Nat} {s : State} (hn : n ≤ s.upcoming.length) :
    (s.afterRefill n).withReader ((s.afterRefill n).reader.drop n) = s.afterRead n := by
  have hl := le_cnt_bytesFor n s.reader
  have ha : (s.afterRefill n).reader.acc < 2 ^ (s.afterRefill n).reader.cnt :=
    Reader.acc_lt_of_bits (length_take_upcoming_bytesFor hn).symm rfl
  rw [Reader.drop_eq ha hl, afterRefill_buffered hn, afterRefill_reader, List.drop_take]
  rfl

theorem front_afterRefill {n : Nat} {s : State} (hn : n ≤ s.upcoming.length) :
    (s.afterRefill n).reader.front n = s.nextField n := by
  have hl := le_cnt_bytesFor n s.reader
  rw [Reader.front_eq hl, afterRefill_buffered hn, List.take_take, Nat.min_eq_left hl]
  rfl

/-- `ReadBits(n)` with its bits there (R165). -/
theorem readBits_eq {n : Nat} {s : State} (hs : s.reader.acc < 2 ^ s.reader.cnt) (h32 : n ≤ 32)
    (hn : n ≤ s.upcoming.length) : readBits n s = .ok (s.nextField n) (s.afterRead n) := by
  unfold readBits
  rw [if_neg (by unfold Config.maxReadBits; omega), refill_eq hs hn, Res.bind_ok, front_afterRefill hn,
    drop_afterRefill hn]

/-- `PeekBits(n)` with its bits there (R166). -/
theorem peekBits_eq {n : Nat} {s : State} (hs : s.reader.acc < 2 ^ s.reader.cnt) (h32 : n ≤ 32)
    (hn : n ≤ s.upcoming.length) : peekBits n s = .ok (s.nextField n) (s.afterRefill n) := by
  unfold peekBits
  rw [if_neg (by unfold Config.maxReadBits; omega), refill_eq hs hn, Res.bind_ok, front_afterRefill hn]

/-- `ReadBits(n)` without its bits (R164, R471). -/
theorem readBits_short {n : Nat} {s : State} (hs : s.reader.acc < 2 ^ s.reader.cnt) (h32 : n ≤ 32)
    (hn : s.upcoming.length < n) :
    readBits n s = if s.inputEnd then .raise .unexpectedEof s.bitPos s.afterShort else .wait s.afterShort := by
  unfold readBits
  rw [if_neg (by unfold Config.maxReadBits; omega), refill_short hs hn]
  cases s.inputEnd <;> rfl

/-- `PeekBits(n)` without its bits (R166, R471). -/
theorem peekBits_short {n : Nat} {s : State} (hs : s.reader.acc < 2 ^ s.reader.cnt) (h32 : n ≤ 32)
    (hn : s.upcoming.length < n) :
    peekBits n s = if s.inputEnd then .raise .unexpectedEof s.bitPos s.afterShort else .wait s.afterShort := by
  unfold peekBits
  rw [if_neg (by unfold Config.maxReadBits; omega), refill_short hs hn]
  cases s.inputEnd <;> rfl

/-- `AlignToByte()` (R167): the bits it discards are buffered, so it always completes. -/
theorem alignToByte_eq {s : State} (hs : s.reader.acc < 2 ^ s.reader.cnt) :
    alignToByte s = .ok (s.reader.cnt % 8) (s.afterRead (s.reader.cnt % 8)) := by
  unfold alignToByte
  rw [readBits_eq hs (by omega) (by rw [length_upcoming]; omega), Res.bind_ok]

/-! ## One read after another (R171) -/

theorem bytesFor_afterRead (n m : Nat) (s : State) :
    s.reader.bytesFor n + (s.afterRead n).reader.bytesFor m = s.reader.bytesFor (n + m) := by
  have h : (s.afterRead n).reader.cnt = s.reader.cnt + 8 * s.reader.bytesFor n - n := rfl
  unfold Reader.bytesFor at *
  rw [h]
  omega

/-- Two reads leave what one read of both widths leaves (R171). -/
theorem afterRead_afterRead {n m : Nat} {s : State} (hn : n ≤ s.upcoming.length) :
    (s.afterRead n).afterRead m = s.afterRead (n + m) := by
  have hk := bytesFor_afterRead n m s
  have hc : (s.afterRead n).reader.cnt = s.reader.cnt + 8 * s.reader.bytesFor n - n := rfl
  have h1 := le_cnt_bytesFor n s.reader
  have h2 := le_cnt_bytesFor m (s.afterRead n).reader
  have ec : (s.afterRead n).reader.cnt + 8 * (s.afterRead n).reader.bytesFor m - m
      = s.reader.cnt + 8 * s.reader.bytesFor (n + m) - (n + m) := by omega
  have en : (s.afterRead n).reader.nfetch + (s.afterRead n).reader.bytesFor m
      = s.reader.nfetch + s.reader.bytesFor (n + m) := by
    show s.reader.nfetch + s.reader.bytesFor n + _ = _; omega
  have ew : ((s.afterRead n).reader.inWait && (s.afterRead n).reader.bytesFor m == 0)
      = (s.reader.inWait && s.reader.bytesFor (n + m) == 0) := by
    show ((s.reader.inWait && s.reader.bytesFor n == 0) && _) = _
    rw [← hk, Bool.and_assoc]
    congr 1
    rw [Bool.eq_iff_iff]; simp
  unfold State.afterRead at ec en ew ⊢
  show State.withReader _ _ = _
  have hu := afterRead_upcoming hn
  unfold State.afterRead at hu
  rw [hu, ec, en, ew, List.drop_drop]
  rfl

/-- Reading nothing (R172). -/
theorem afterRead_zero {s : State} (hs : s.reader.acc < 2 ^ s.reader.cnt) : s.afterRead 0 = s := by
  have h := drop_afterRefill (n := 0) (s := s) (by omega)
  rw [← h, afterRefill_of_le hs (by omega), Reader.drop_eq hs (by omega), List.drop_zero, ← Reader.acc_eq hs]
  rfl

theorem nextField_zero (s : State) : s.nextField 0 = 0 := by simp [State.nextField]

/-- A field has no bit beyond its width (R165). -/
theorem nextField_lt (n : Nat) (s : State) : s.nextField n < 2 ^ n := by
  refine Nat.lt_of_lt_of_le (fieldValue_lt _ _) (Nat.pow_le_pow_right (by omega) ?_)
  rw [List.length_take]; omega

/-- A read after a refill that brought no more bits than it needs is the read alone. -/
theorem afterRead_afterRefill {n : Nat} {s : State} (hn : n ≤ s.upcoming.length) :
    (s.afterRefill n).afterRead n = s.afterRead n := by
  have ha : (s.afterRefill n).reader.acc < 2 ^ (s.afterRefill n).reader.cnt :=
    Reader.acc_lt_of_bits (length_take_upcoming_bytesFor hn).symm rfl
  have hl : n ≤ (s.afterRefill n).reader.cnt := le_cnt_bytesFor n s.reader
  have hu : n ≤ (s.afterRefill n).upcoming.length := by rw [afterRefill_upcoming hn]; exact hn
  rw [← drop_afterRefill hu, afterRefill_of_le ha hl, drop_afterRefill hn]

/-- A refill after a smaller one is the larger one alone (R211: each peek starts at the same bit). -/
theorem afterRefill_afterRefill {n m : Nat} {s : State} (hnm : n ≤ m) (hm : m ≤ s.upcoming.length) :
    (s.afterRefill n).afterRefill m = s.afterRefill m := by
  have hc : (s.afterRefill n).reader.cnt = s.reader.cnt + 8 * s.reader.bytesFor n := rfl
  have hk : s.reader.bytesFor n + (s.afterRefill n).reader.bytesFor m = s.reader.bytesFor m := by
    unfold Reader.bytesFor at *; rw [hc]; omega
  have ec : (s.afterRefill n).reader.cnt + 8 * (s.afterRefill n).reader.bytesFor m
      = s.reader.cnt + 8 * s.reader.bytesFor m := by omega
  have en : (s.afterRefill n).reader.nfetch + (s.afterRefill n).reader.bytesFor m
      = s.reader.nfetch + s.reader.bytesFor m := by
    show s.reader.nfetch + s.reader.bytesFor n + _ = _; omega
  have ew : ((s.afterRefill n).reader.inWait && (s.afterRefill n).reader.bytesFor m == 0)
      = (s.reader.inWait && s.reader.bytesFor m == 0) := by
    show ((s.reader.inWait && s.reader.bytesFor n == 0) && _) = _
    rw [← hk, Bool.and_assoc]
    congr 1
    rw [Bool.eq_iff_iff]; simp
  have hu := afterRefill_upcoming (n := n) (s := s) (by omega)
  unfold State.afterRefill at ec en ew hu ⊢
  show State.withReader _ _ = _
  rw [hu, ec, en, ew]
  rfl

end Sys2Proof.Machine
end

