-- ==== Sys2Proof/Laws/Memory.lean ====
section
/-! SUPPORT. The history store: a read after a write, the canonical form, and the dense history as a list of bytes. -/

namespace Sys2Proof.Machine

open Sys2Proof

/-! ## The store -/

/-- A read of the address just written gives the byte written. -/
theorem Memory.read_write_same (m : Memory) (a : Nat) (v : Byte) : (m.write a v).read a = some v := by
  induction m with
  | nil => simp [Memory.write, Memory.read]
  | cons c m ih =>
    obtain ⟨b, w⟩ := c
    rw [Memory.write]
    split
    · simp [Memory.read]
    split
    · simp [Memory.read]
    · rw [Memory.read, if_neg ‹_›, ih]

/-- A write leaves every other address as it was. -/
theorem Memory.read_write_other (m : Memory) {a x : Nat} (v : Byte) (h : x ≠ a) : (m.write a v).read x = m.read x := by
  induction m with
  | nil => simp [Memory.write, Memory.read, h]
  | cons c m ih =>
    obtain ⟨b, w⟩ := c
    rw [Memory.write]
    split
    · rw [Memory.read, if_neg h]
    split
    next h' => subst h'; rw [Memory.read, if_neg h, Memory.read, if_neg h]
    · rw [Memory.read, Memory.read, ih]

theorem Memory.risesFrom_write {lo a : Nat} {m : Memory} (v : Byte) (hm : m.risesFrom lo = true) (h : lo < a) :
    (m.write a v).risesFrom lo = true := by
  induction m generalizing lo with
  | nil => simp [Memory.write, Memory.risesFrom, h]
  | cons c m ih =>
    obtain ⟨b, w⟩ := c
    simp only [Memory.risesFrom, Bool.and_eq_true, decide_eq_true_eq] at hm
    rw [Memory.write]
    split
    · simp [Memory.risesFrom, *]
    split
    · subst a; simp [Memory.risesFrom, hm]
    · simp [Memory.risesFrom, hm.1, ih hm.2 (by omega)]

/-- Every write keeps the canonical form. -/
theorem Memory.wf_write {m : Memory} (hm : m.wf = true) (a : Nat) (v : Byte) : (m.write a v).wf = true := by
  cases m with
  | nil => rfl
  | cons c m =>
    obtain ⟨b, w⟩ := c
    rw [Memory.wf] at hm
    rw [Memory.write]
    split
    · simp [Memory.wf, Memory.risesFrom, *]
    split
    · subst a; simpa [Memory.wf] using hm
    · rw [Memory.wf]; exact Memory.risesFrom_write v hm (by omega)

/-- The store after reset has the canonical form. -/
theorem reset_hist_wf : Memory.wf State.reset.history.hist = true := rfl

/-- Appending keeps the canonical form (R440). -/
theorem outAppend_wf {s : State} (h : Memory.wf s.history.hist = true) (v : Byte) :
    Memory.wf (outAppend v s).history.hist = true := Memory.wf_write h _ _

/-! ## Dense histories -/

theorem Memory.write_end {m : Memory} {n : Nat} (v : Byte) (h : ∀ c ∈ m, c.1 < n) : m.write n v = m ++ [(n, v)] := by
  induction m with
  | nil => rfl
  | cons c m ih =>
    obtain ⟨b, w⟩ := c
    have hb : b < n := h (b, w) (by simp)
    rw [Memory.write, if_neg (by omega), if_neg (by omega), ih (fun c hc => h c (by simp [hc]))]
    rfl

theorem Memory.read_of_map_range' {m : Memory} {k n : Nat} (h : m.map Prod.fst = List.range' k n) (a : Nat) :
    m.read a = if a < k then none else (m.map Prod.snd)[a - k]? := by
  induction m generalizing k n with
  | nil => simp [Memory.read]
  | cons c m ih =>
    obtain ⟨b, w⟩ := c
    cases n with
    | zero => simp at h
    | succ n =>
      rw [List.map_cons, List.range'_succ, List.cons.injEq] at h
      obtain ⟨rfl, h⟩ : b = k ∧ _ := h
      rw [Memory.read, ih h]
      by_cases e : a = b
      · subst e; simp
      · rw [if_neg e]
        by_cases l : a < b
        · rw [if_pos l, if_pos (by omega)]
        · rw [if_neg l, if_neg (by omega), List.map_cons, show a - b = (a - (b + 1)) + 1 by omega,
            List.getElem?_cons_succ]

/-- A read of a dense history is a lookup in its bytes. -/
theorem History.dense.read {h : History} (hd : h.dense) (a : Nat) : h.hist.read a = h.bytes[a]? := by
  unfold History.dense at hd
  rw [List.range_eq_range'] at hd
  rw [Memory.read_of_map_range' hd]; simp [History.bytes]

theorem History.dense.length {h : History} (hd : h.dense) : h.bytes.length = h.outCount := by
  have := congrArg List.length hd
  simpa [History.bytes] using this

theorem History.dense.isSome {h : History} (hd : h.dense) (a : Nat) :
    (h.hist.read a).isSome = decide (a < h.outCount) := by
  rw [hd.read]
  by_cases l : a < h.bytes.length
  · have l' := l
    rw [hd.length] at l'
    simp [l, l']
  · have l' := l
    rw [hd.length] at l'
    rw [List.getElem?_eq_none (by omega)]; simp [l']

theorem History.dense.append {h : History} (hd : h.dense) (v : Byte) :
    h.hist.write h.outCount v = h.hist ++ [(h.outCount, v)] := by
  refine Memory.write_end v fun c hc => ?_
  have : c.1 ∈ h.hist.map Prod.fst := List.mem_map_of_mem hc
  rw [show h.hist.map Prod.fst = List.range h.outCount from hd] at this
  simpa using this

/-- An append keeps the history dense (R440). -/
theorem outAppend_dense {s : State} (hd : s.history.dense) (v : Byte) : (outAppend v s).history.dense := by
  rw [outAppend_history, hd.append]
  show (s.history.hist ++ _).map Prod.fst = _
  rw [List.map_append, show s.history.hist.map Prod.fst = List.range s.history.outCount from hd, List.range_succ]
  rfl

theorem outAppend_bytes {s : State} (hd : s.history.dense) (v : Byte) :
    (outAppend v s).history.bytes = s.history.bytes ++ [v] := by
  rw [outAppend_history, hd.append]; simp [History.bytes]

theorem Memory.risesFrom_of_range' {m : Memory} {k n lo : Nat} (h : m.map Prod.fst = List.range' k n) (hl : lo < k) :
    m.risesFrom lo = true := by
  induction m generalizing k n lo with
  | nil => rfl
  | cons c m ih =>
    obtain ⟨b, w⟩ := c
    cases n with
    | zero => simp at h
    | succ n =>
      rw [List.map_cons, List.range'_succ, List.cons.injEq] at h
      obtain ⟨rfl, h⟩ : b = k ∧ _ := h
      rw [Memory.risesFrom, ih h (by omega)]; simp [hl]

/-- A dense history has the canonical form. -/
theorem History.dense.wf {h : History} (hd : h.dense) : Memory.wf h.hist = true := by
  unfold History.dense at hd
  obtain ⟨m, n⟩ := h
  cases m with
  | nil => rfl
  | cons c m =>
    obtain ⟨b, w⟩ := c
    cases n with
    | zero => simp at hd
    | succ n =>
      simp only [List.range_eq_range'] at hd
      rw [List.map_cons, List.range'_succ, List.cons.injEq] at hd
      obtain ⟨rfl, hd⟩ : b = 0 ∧ _ := hd
      exact Memory.risesFrom_of_range' hd (by omega)

/-! ## Copies and slices -/

/-- `MemRead` of a byte that is there. -/
theorem memRead_eq {a : Nat} {s : State} {v : Byte} (h : s.history.hist.read a = some v) : memRead a s = .ok v s := by
  unfold memRead; rw [h]

theorem memRead_dense {a : Nat} {s : State} (hd : s.history.dense) (h : a < s.history.bytes.length) :
    memRead a s = .ok s.history.bytes[a] s := by
  refine memRead_eq ?_
  rw [hd.read, List.getElem?_eq_getElem h]

/-- The bytes a copy of `n` at distance `dist` appends to `bs` (R441). -/
def copyBytes (dist : Nat) : Nat → List Byte → List Byte
  | 0, _ => []
  | n + 1, bs => bs.getD (bs.length - dist) 0 :: copyBytes dist n (bs ++ [bs.getD (bs.length - dist) 0])

@[simp] theorem length_copyBytes (dist n : Nat) (bs : List Byte) : (copyBytes dist n bs).length = n := by
  induction n generalizing bs with
  | zero => rfl
  | succ n ih => simp [copyBytes, ih]

/-- The state with bytes appended one after another. -/
def appendAll : List Byte → State → State
  | [], s => s
  | v :: vs, s => appendAll vs (outAppend v s)

theorem appendAll_dense {vs : List Byte} {s : State} (hd : s.history.dense) : (appendAll vs s).history.dense := by
  induction vs generalizing s with
  | nil => exact hd
  | cons v vs ih => exact ih (outAppend_dense hd v)

theorem appendAll_bytes {vs : List Byte} {s : State} (hd : s.history.dense) :
    (appendAll vs s).history.bytes = s.history.bytes ++ vs := by
  induction vs generalizing s with
  | nil => simp [appendAll]
  | cons v vs ih => rw [appendAll, ih (outAppend_dense hd v), outAppend_bytes hd]; simp

theorem appendAll_outCount (vs : List Byte) (s : State) :
    (appendAll vs s).history.outCount = s.history.outCount + vs.length := by
  induction vs generalizing s with
  | nil => rfl
  | cons v vs ih => rw [appendAll, ih]; simp; omega

/-- Appending writes the history and nothing else (R440). -/
theorem appendAll_eq (vs : List Byte) (s : State) : appendAll vs s = s.withHistory (appendAll vs s).history := by
  induction vs generalizing s with
  | nil => rfl
  | cons v vs ih => rw [appendAll, ih]; rfl

/-- The copy loop (R441). -/
theorem copyLoop_eq {dist n : Nat} {s : State} (hd : s.history.dense) (h1 : 1 ≤ dist) (h2 : dist ≤ s.history.outCount) :
    copyLoop dist n s = .ok () (appendAll (copyBytes dist n s.history.bytes) s) := by
  induction n generalizing s with
  | zero => rfl
  | succ n ih =>
    have hl := hd.length
    have hlt : s.history.outCount - dist < s.history.bytes.length := by omega
    rw [copyLoop, memRead_dense hd hlt, Res.bind_ok, ih (outAppend_dense hd _) (by simp; omega), outAppend_bytes hd,
      copyBytes, appendAll, List.getD_eq_getElem?_getD, hl, List.getElem?_eq_getElem hlt]
    rfl

/-- `Copy(dist, n)` within its precondition (R441). -/
theorem copyRun_eq {dist n : Nat} {s : State} (hd : s.history.dense) (h1 : 1 ≤ dist) (h2 : dist ≤ s.history.outCount) :
    copyRun dist n s = .ok () (appendAll (copyBytes dist n s.history.bytes) s) := by
  unfold copyRun; rw [if_neg (by omega), copyLoop_eq hd h1 h2]

/-- A slice of a dense history. -/
theorem histSlice_eq {p n : Nat} {s : State} (hd : s.history.dense) (h : p + n ≤ s.history.outCount) :
    histSlice p n s = .ok ((s.history.bytes.drop p).take n) s := by
  induction n generalizing p with
  | zero => simp [histSlice]
  | succ n ih =>
    have hl := hd.length
    have hp : p < s.history.bytes.length := by omega
    rw [histSlice, memRead_dense hd hp, Res.bind_ok, ih (by omega), Res.bind_ok,
      List.drop_eq_getElem_cons hp, List.take_succ_cons]

/-- The slice a length element offers: the bytes it has just appended (R445). -/
theorem histSlice_appendAll {vs : List Byte} {s : State} (hd : s.history.dense) :
    histSlice ((appendAll vs s).history.outCount - vs.length) vs.length (appendAll vs s)
      = .ok vs (appendAll vs s) := by
  rw [histSlice_eq (appendAll_dense hd) (by rw [appendAll_outCount]; omega), appendAll_outCount, appendAll_bytes hd,
    Nat.add_sub_cancel, ← hd.length, List.drop_left, List.take_length]

/-- The copied bytes repeat the last `dist` bytes (R441, corner cases). -/
theorem getElem?_copyBytes {dist : Nat} (h1 : 1 ≤ dist) {n i : Nat} {bs : List Byte} (h2 : dist ≤ bs.length)
    (hi : i < n) : (copyBytes dist n bs)[i]? = bs[bs.length - dist + i % dist]? := by
  induction n generalizing bs i with
  | zero => omega
  | succ n ih =>
    have hlt : bs.length - dist < bs.length := by omega
    have hg : bs.getD (bs.length - dist) 0 = bs[bs.length - dist] := by
      rw [List.getD_eq_getElem?_getD, List.getElem?_eq_getElem hlt]; rfl
    cases i with
    | zero => rw [copyBytes, hg]; simp [hlt]
    | succ i =>
      rw [copyBytes, List.getElem?_cons_succ, ih (by simp; omega) (by omega), hg, List.length_append,
        List.length_singleton]
      have hm : (i + 1) % dist = if i % dist + 1 = dist then 0 else i % dist + 1 := by
        have hlt := Nat.mod_lt i h1
        split
        next e =>
          by_cases d1 : dist = 1
          · rw [d1, Nat.mod_one]
          rw [Nat.add_mod]
          rw [Nat.mod_eq_of_lt (show 1 < dist by omega), e, Nat.mod_self]
        next e =>
          rw [Nat.add_mod]
          by_cases d1 : dist = 1
          · omega
          · rw [Nat.mod_eq_of_lt (show 1 < dist by omega), Nat.mod_eq_of_lt (by omega)]
      rw [hm]
      have hlt' := Nat.mod_lt i h1
      split
      next e =>
        have : bs.length + 1 - dist + i % dist = bs.length := by omega
        rw [this]; simp [hlt]
      next e =>
        rw [List.getElem?_append_left (by omega)]
        congr 1; omega

end Sys2Proof.Machine
end

