-- ==== Sys2Proof/Laws/Huffman.lean ====
section
/-! SUPPORT. The table builder and the symbol match: what a built table holds, why its codes are prefix-free (R216), and
what a search answers. -/

namespace Sys2Proof.Machine

open Sys2Proof

/-! ## Reversal -/

theorem rev_lt (x b : Nat) : rev x b < 2 ^ b := by
  induction b generalizing x with
  | zero => simp [rev]
  | succ b ih =>
    have h1 := ih (x / 2)
    have h2 : x % 2 * 2 ^ b ≤ 1 * 2 ^ b := Nat.mul_le_mul_right _ (by omega)
    rw [rev, Nat.pow_succ]; omega

theorem msbBits_succ_last (b x : Nat) : msbBits (b + 1) x = msbBits b (x / 2) ++ [x.testBit 0] := by
  have h := msbBits_append b 1 (x / 2) (x % 2) (by omega)
  have e : x / 2 * 2 ^ 1 + x % 2 = x := by omega
  rw [e] at h
  rw [h]
  simp [msbBits]

/-- The reversed symbol is the LSB-first value of the code's wire bits (R121, R205). -/
theorem fieldValue_lsb_msbBits (b x : Nat) : fieldValue .lsb (msbBits b x) = rev x b := by
  induction b generalizing x with
  | zero => rfl
  | succ b ih =>
    rw [msbBits_succ_last, fieldValue_lsb_append, ih, length_msbBits, rev, fieldValue_lsb_cons, fieldValue_nil,
      toNat_testBit_zero, Nat.mul_zero, Nat.add_zero, Nat.mul_comm (2 ^ b), Nat.add_comm]

theorem fieldValue_lsb_inj {as bs : List Bool} (hl : as.length = bs.length)
    (h : fieldValue .lsb as = fieldValue .lsb bs) : as = bs := by
  rw [← lsbBits_fieldValue as, ← lsbBits_fieldValue bs, hl, h]

/-! ## What a table holds -/

theorem assignAfter_codes (prev sym : Nat) (l : List (Nat × Nat)) :
    (assignAfter prev sym l).map (fun e => (e.code, e.bits)) = l := by
  induction l generalizing prev sym with
  | nil => rfl
  | cons c l ih => obtain ⟨c, b⟩ := c; simp [assignAfter, mkEntry, ih]

theorem assignSymbols_codes (l : List (Nat × Nat)) :
    (assignSymbols l).map (fun e => (e.code, e.bits)) = l := by
  cases l with
  | nil => rfl
  | cons c l => obtain ⟨c, b⟩ := c; simp [assignSymbols, mkEntry, assignAfter_codes]

theorem assignAfter_rev (prev sym : Nat) (l : List (Nat × Nat)) :
    ∀ e ∈ assignAfter prev sym l, e.rev = rev e.symbol e.bits := by
  induction l generalizing prev sym with
  | nil => simp [assignAfter]
  | cons c l ih =>
    obtain ⟨c, b⟩ := c
    intro e he
    rw [assignAfter, List.mem_cons] at he
    rcases he with rfl | he
    · rfl
    · exact ih _ _ e he

/-- Each entry carries the reversal of its symbol (R205). -/
theorem tableOf_rev (lens : List Nat) : ∀ e ∈ (tableOf lens).entries, e.rev = rev e.symbol e.bits := by
  intro e he
  unfold tableOf at he
  cases h : sortedLengths lens with
  | nil => rw [h] at he; simp [assignSymbols] at he
  | cons c l =>
    obtain ⟨c, b⟩ := c
    rw [h] at he
    simp only [assignSymbols, List.mem_cons] at he
    rcases he with rfl | he
    · rfl
    · exact assignAfter_rev _ _ _ e he

/-- The entries' codes and lengths, in order (R203). -/
theorem tableOf_codes (lens : List Nat) :
    (tableOf lens).entries.map (fun e => (e.code, e.bits)) = sortedLengths lens := assignSymbols_codes _

theorem mem_codedLengths {lens : List Nat} {c b : Nat} : (c, b) ∈ codedLengths lens ↔ lens[c]? = some b := by
  unfold codedLengths
  rw [List.mem_iff_getElem?]
  constructor
  · rintro ⟨i, hi⟩
    rw [List.getElem?_zip_eq_some] at hi
    obtain ⟨h1, h2⟩ := hi
    rw [List.getElem?_eq_some_iff] at h1
    obtain ⟨_, h1⟩ := h1
    rw [List.getElem_range] at h1
    subst h1; exact h2
  · intro h
    refine ⟨c, ?_⟩
    rw [List.getElem?_zip_eq_some]
    refine ⟨?_, h⟩
    obtain ⟨hl, _⟩ := List.getElem?_eq_some_iff.mp h
    rw [List.getElem?_range hl]

theorem mem_sortedLengths {lens : List Nat} {c b : Nat} :
    (c, b) ∈ sortedLengths lens ↔ lens[c]? = some b ∧ 1 ≤ b ∧ b ≤ 15 := by
  unfold sortedLengths
  simp only [List.mem_flatMap, List.mem_range, List.mem_filter, mem_codedLengths, beq_iff_eq, Config.maxCodeBits]
  constructor
  · rintro ⟨k, hk, h, rfl⟩; exact ⟨h, by omega, by omega⟩
  · rintro ⟨h, h1, h2⟩; exact ⟨b - 1, by omega, h, by omega⟩

/-- An entry's code is a used code of the length list, and its bits are that code's length (R202). -/
theorem tableOf_mem {lens : List Nat} {e : Entry} (he : e ∈ (tableOf lens).entries) :
    lens[e.code]? = some e.bits ∧ 1 ≤ e.bits ∧ e.bits ≤ 15 := by
  have : (e.code, e.bits) ∈ sortedLengths lens := by
    rw [← tableOf_codes]; exact List.mem_map_of_mem (f := fun e : Entry => (e.code, e.bits)) he
  exact mem_sortedLengths.mp this

theorem tableOf_code_lt {lens : List Nat} {e : Entry} (he : e ∈ (tableOf lens).entries) : e.code < lens.length :=
  (List.getElem?_eq_some_iff.mp (tableOf_mem he).1).1

theorem sortedLengths_pairwise (lens : List Nat) :
    (sortedLengths lens).Pairwise fun x y => x.2 < y.2 ∨ (x.2 = y.2 ∧ x.1 < y.1) := by
  unfold sortedLengths
  rw [List.pairwise_flatMap]
  constructor
  · intro k _
    have h0 : (codedLengths lens).Pairwise fun x y => x.1 < y.1 := by
      unfold codedLengths
      rw [← List.pairwise_map (f := Prod.fst) (R := (· < ·)), List.map_fst_zip (by simp)]
      exact List.pairwise_lt_range
    refine (h0.filter _).imp_of_mem ?_
    intro x y hx hy hxy
    simp only [List.mem_filter, beq_iff_eq] at hx hy
    exact .inr ⟨by omega, hxy⟩
  · refine List.pairwise_lt_range.imp ?_
    intro a b hab x hx y hy
    simp only [List.mem_filter, beq_iff_eq] at hx hy
    exact .inl (by omega)

/-- The stored order: lengths ascending, then codes ascending (R51, R203). -/
theorem tableOf_sorted (lens : List Nat) :
    (tableOf lens).entries.Pairwise fun x y => x.bits < y.bits ∨ (x.bits = y.bits ∧ x.code < y.code) := by
  have h := sortedLengths_pairwise lens
  rw [← tableOf_codes, List.pairwise_map] at h
  exact h

/-- The symbols of a list assigned after `sym` of length `prev` all lie beyond `sym`, cut to its length. -/
theorem assignAfter_beyond {prev sym : Nat} {l : List (Nat × Nat)} (hs : l.Pairwise fun x y => x.2 ≤ y.2)
    (hp : ∀ x ∈ l, prev ≤ x.2) :
    ∀ e ∈ assignAfter prev sym l, prev ≤ e.bits ∧ sym < e.symbol >>> (e.bits - prev) := by
  induction l generalizing prev sym with
  | nil => simp [assignAfter]
  | cons c l ih =>
    obtain ⟨c, b⟩ := c
    rw [List.pairwise_cons] at hs
    have hb : prev ≤ b := hp (c, b) (by simp)
    intro e he
    rw [assignAfter, List.mem_cons] at he
    rcases he with rfl | he
    · refine ⟨hb, ?_⟩
      show sym < ((sym + 1) <<< (b - prev)) >>> (b - prev)
      rw [Nat.shiftLeft_shiftRight]; omega
    · obtain ⟨h1, h2⟩ := ih hs.2 (fun x hx => hs.1 x hx) e he
      refine ⟨by omega, ?_⟩
      have e1 : e.bits - prev = (e.bits - b) + (b - prev) := by omega
      rw [e1, Nat.shiftRight_add]
      have h3 : ((sym + 1) <<< (b - prev)) >>> (b - prev) ≤ (e.symbol >>> (e.bits - b)) >>> (b - prev) := by
        rw [Nat.shiftRight_eq_div_pow _ (b - prev), Nat.shiftRight_eq_div_pow _ (b - prev)]
        exact Nat.div_le_div_right (Nat.le_of_lt h2)
      rw [Nat.shiftLeft_shiftRight] at h3
      omega

theorem assignAfter_pairwise {prev sym : Nat} {l : List (Nat × Nat)} (hs : l.Pairwise fun x y => x.2 ≤ y.2) :
    (assignAfter prev sym l).Pairwise fun x y => x.bits ≤ y.bits ∧ x.symbol < y.symbol >>> (y.bits - x.bits) := by
  induction l generalizing prev sym with
  | nil => simp [assignAfter]
  | cons c l ih =>
    obtain ⟨c, b⟩ := c
    rw [List.pairwise_cons] at hs
    rw [assignAfter, List.pairwise_cons]
    exact ⟨assignAfter_beyond hs.2 (fun x hx => hs.1 x hx), ih hs.2⟩

/-- Of two entries the later one's symbol, cut to the earlier one's length, is larger than the earlier one's (R204). -/
theorem tableOf_symbols (lens : List Nat) :
    (tableOf lens).entries.Pairwise fun x y => x.bits ≤ y.bits ∧ x.symbol < y.symbol >>> (y.bits - x.bits) := by
  have hs : (sortedLengths lens).Pairwise fun x y => x.2 ≤ y.2 :=
    (sortedLengths_pairwise lens).imp fun h => by omega
  show (assignSymbols (sortedLengths lens)).Pairwise _
  cases h : sortedLengths lens with
  | nil => simp [assignSymbols]
  | cons c l =>
    obtain ⟨c, b⟩ := c
    rw [h, List.pairwise_cons] at hs
    rw [assignSymbols, List.pairwise_cons]
    exact ⟨assignAfter_beyond hs.2 (fun x hx => hs.1 x hx), assignAfter_pairwise hs.2⟩

theorem tableOf_fits {lens : List Nat} (hm : (tableOf lens).malformed = false) :
    ∀ e ∈ (tableOf lens).entries, e.symbol < 2 ^ e.bits := by
  intro e he
  have h : ((tableOf lens).entries.any fun e => decide (2 ^ e.bits ≤ e.symbol)) = false := hm
  rw [List.any_eq_false] at h
  have := h e he
  simp at this; omega

/-- Where the later of two entries matches, the earlier one does not (R216). -/
theorem tableOf_no_earlier {lens : List Nat} (hm : (tableOf lens).malformed = false) {bs : List Bool} :
    (tableOf lens).entries.Pairwise fun x y => bs.take y.bits = (entryBits y) → ¬ bs.take x.bits = (entryBits x) := by
  refine (tableOf_symbols lens).imp_of_mem ?_
  intro x y hx hy h hym hxm
  have hxf := tableOf_fits hm x hx
  have h1 : (bs.take y.bits).take x.bits = (entryBits x) := by
    rw [List.take_take, Nat.min_eq_left h.1]; exact hxm
  rw [hym] at h1
  unfold entryBits at h1
  rw [take_msbBits _ _ _ h.1] at h1
  have h2 := congrArg (fieldValue .msb) h1
  rw [fieldValue_msbBits, fieldValue_msbBits, Nat.mod_eq_of_lt hxf] at h2
  have hyf := tableOf_fits hm y hy
  have h3 : y.symbol >>> (y.bits - x.bits) < 2 ^ x.bits := by
    rw [Nat.shiftRight_eq_div_pow, Nat.div_lt_iff_lt_mul (Nat.two_pow_pos _), ← Nat.pow_add]
    rwa [show x.bits + (y.bits - x.bits) = y.bits by omega]
  rw [Nat.mod_eq_of_lt h3] at h2
  omega

theorem buildFromLengths_eq {t : TableId} {lens : List Nat} (h : lengthsOk t lens = true) (s : State) :
    buildFromLengths t lens s = .ok () (sendDiag .tableBuilt (s.withTables (s.tables.set t (tableOf lens)))) := by
  unfold buildFromLengths; rw [if_pos h]

/-! ## The search -/

/-- Whether an entry's code stands next in the stream, in LSB-first order (R121, R210). -/
theorem match_iff {s : State} (hmode : s.reader.mode = .lsb) {e : Entry} (hrev : e.rev = rev e.symbol e.bits)
    (hn : e.bits ≤ s.upcoming.length) : s.nextField e.bits = e.rev ↔ s.upcoming.take e.bits = (entryBits e) := by
  have hl : (s.upcoming.take e.bits).length = (entryBits e).length := by
    rw [List.length_take, entryBits, length_msbBits]; omega
  unfold State.nextField
  rw [hmode, hrev, ← fieldValue_lsb_msbBits]
  exact ⟨fun h => fieldValue_lsb_inj hl h, fun h => by rw [h, entryBits]⟩

/-- The bits of the last entry a search compares. -/
def lastBits (cl : Nat) : List Entry → Nat
  | [] => cl
  | e :: es => lastBits e.bits es

/-- What a search over `es` answers from `s`, each peek starting at the same bit (R210, R211, R214, R215). -/
def searched (p0 cl : Nat) (es : List Entry) (s : State) : Res Nat :=
  match es.find? fun e => decide (s.upcoming.length < e.bits) || s.nextField e.bits == e.rev with
  | none => .raise .symbolNotFound p0 (s.afterRefill (lastBits cl es))
  | some e =>
    if e.bits ≤ s.upcoming.length then .ok e.code (sendDiag .symbolMatch (s.afterRead e.bits))
    else if s.inputEnd then .raise .unexpectedEof p0 s.afterShort else .wait s.afterShort

theorem afterShort_afterRefill {n : Nat} {s : State} (hn : n ≤ s.upcoming.length) :
    (s.afterRefill n).afterShort = s.afterShort := by
  have hu := afterRefill_upcoming hn
  have hl := length_take_upcoming_bytesFor hn
  rw [List.length_take, length_upcoming] at hl
  have e1 : s.reader.cnt + 8 * s.reader.bytesFor n + 8 * (s.input.length - (s.reader.nfetch + s.reader.bytesFor n))
      = s.reader.cnt + 8 * (s.input.length - s.reader.nfetch) := by omega
  have e2 : s.reader.nfetch + s.reader.bytesFor n + (s.input.length - (s.reader.nfetch + s.reader.bytesFor n))
      = s.reader.nfetch + (s.input.length - s.reader.nfetch) := by omega
  unfold State.afterShort
  rw [hu, afterRefill_reader]
  simp only [State.afterRefill_input, State.afterRefill_inputEnd]
  rw [e1, e2]
  rfl

theorem nextField_afterRefill {n m : Nat} {s : State} (hn : n ≤ s.upcoming.length) :
    (s.afterRefill n).nextField m = s.nextField m := by
  unfold State.nextField
  rw [afterRefill_upcoming hn]
  rfl

theorem cachedPeek_eq {s : State} {cl b : Nat} (hle : cl ≤ b)
    (hb : b ≤ s.upcoming.length) (h32 : b ≤ 32) :
    cachedPeek (some (cl, s.nextField cl)) b (s.afterRefill cl) = .ok (s.nextField b) (s.afterRefill b) := by
  show (if b = cl then Res.ok (s.nextField cl) (s.afterRefill cl) else peekBits b (s.afterRefill cl)) = _
  split
  next h => subst h; rfl
  next h =>
    have ha : (s.afterRefill cl).reader.acc < 2 ^ (s.afterRefill cl).reader.cnt :=
      Reader.acc_lt_of_bits (length_take_upcoming_bytesFor (by omega)).symm rfl
    rw [peekBits_eq ha h32 (by rw [afterRefill_upcoming (by omega)]; exact hb), nextField_afterRefill (by omega),
      afterRefill_afterRefill hle hb]

theorem findLoop_some {s : State} {es : List Entry} {cl p0 : Nat}
    (hp : s.bitPos = p0) (hcl : cl ≤ s.upcoming.length) (hle : ∀ e ∈ es, cl ≤ e.bits)
    (hsort : es.Pairwise fun x y => x.bits ≤ y.bits) (h32 : ∀ e ∈ es, e.bits ≤ 32) :
    findLoop p0 es (some (cl, s.nextField cl)) (s.afterRefill cl) = searched p0 cl es s := by
  induction es generalizing cl with
  | nil => rfl
  | cons e es ih =>
    rw [List.pairwise_cons] at hsort
    have hle' : cl ≤ e.bits := hle e (by simp)
    have h32' : e.bits ≤ 32 := h32 e (by simp)
    rw [findLoop]
    unfold searched
    by_cases hb : e.bits ≤ s.upcoming.length
    · rw [cachedPeek_eq hle' hb h32', Res.bind_ok]
      by_cases hm : s.nextField e.bits = e.rev
      · have ha : (s.afterRefill e.bits).reader.acc < 2 ^ (s.afterRefill e.bits).reader.cnt :=
          Reader.acc_lt_of_bits (length_take_upcoming_bytesFor hb).symm rfl
        rw [if_pos hm, readBits_eq ha h32' (by rw [afterRefill_upcoming hb]; exact hb), Res.bind_ok,
          afterRead_afterRefill hb, List.find?_cons_of_pos (by simp [hm])]
        simp [hb]
      · rw [if_neg hm, List.find?_cons_of_neg (by simp [hm, hb])]
        exact ih hb (fun x hx => hsort.1 x hx) hsort.2 (fun x hx => h32 x (by simp [hx]))
    · rw [List.find?_cons_of_pos (by simp; omega)]
      simp only [if_neg hb]
      have hne : ¬ e.bits = cl := by omega
      have ha : (s.afterRefill cl).reader.acc < 2 ^ (s.afterRefill cl).reader.cnt :=
        Reader.acc_lt_of_bits (length_take_upcoming_bytesFor hcl).symm rfl
      unfold cachedPeek
      simp only [if_neg hne]
      rw [peekBits_short ha h32' (by rw [afterRefill_upcoming hcl]; omega), afterShort_afterRefill hcl,
        afterRefill_bitPos, hp]
      by_cases h : s.inputEnd = true
      · have h' : (s.afterRefill cl).inputEnd = true := h
        rw [if_pos h, if_pos h']; rfl
      · have h' : ¬ (s.afterRefill cl).inputEnd = true := h
        rw [if_neg h, if_neg h']; rfl

/-- A search from the table's first entry on. -/
theorem findLoop_eq {s : State} (hs : s.reader.acc < 2 ^ s.reader.cnt) {es : List Entry}
    (hsort : es.Pairwise fun x y => x.bits ≤ y.bits) (h32 : ∀ e ∈ es, e.bits ≤ 32) (h1 : ∀ e ∈ es, 1 ≤ e.bits) :
    findLoop s.bitPos es none s = searched s.bitPos 0 es s := by
  have h := findLoop_some (s := s) (p0 := s.bitPos) (cl := 0) rfl (Nat.zero_le _) (fun _ _ => Nat.zero_le _) hsort h32
  rw [← h, afterRefill_of_le hs (Nat.zero_le _), nextField_zero]
  cases es with
  | nil => rfl
  | cons e es =>
    have : ¬ e.bits = 0 := by have := h1 e (by simp); omega
    rw [findLoop, findLoop]
    congr 1
    unfold cachedPeek
    simp only [if_neg this]

/-- `FindNextSymbol(t)` on a built table (R210). -/
theorem findNextSymbol_eq {id : TableId} {s : State} (hs : s.reader.acc < 2 ^ s.reader.cnt) {lens : List Nat}
    (ht : s.tables.get id = tableOf lens) :
    findNextSymbol id s = if (tableOf lens).malformed then .raise .symbolNotFound s.bitPos s
      else searched s.bitPos 0 (tableOf lens).entries s := by
  unfold findNextSymbol
  rw [ht]
  split
  · rfl
  · refine findLoop_eq hs ((tableOf_sorted lens).imp fun h => by omega) ?_ ?_ <;>
      · intro e he; have := tableOf_mem he; omega

/-- A code that stands next in the stream is found, whatever other codes the table has (R210, R216). -/
theorem findNextSymbol_match {id : TableId} {s : State} (hs : s.reader.acc < 2 ^ s.reader.cnt)
    (hmode : s.reader.mode = .lsb) {lens : List Nat} (ht : s.tables.get id = tableOf lens)
    (hmal : (tableOf lens).malformed = false) {e : Entry} (he : e ∈ (tableOf lens).entries)
    {rest : List Bool} (hu : s.upcoming = (entryBits e) ++ rest) :
    findNextSymbol id s = .ok e.code (sendDiag .symbolMatch (s.afterRead e.bits)) := by
  have hlen : e.bits ≤ s.upcoming.length := by
    rw [hu, List.length_append, entryBits, length_msbBits]; omega
  have htake : s.upcoming.take e.bits = (entryBits e) := by
    rw [hu, List.take_left' (by rw [entryBits, length_msbBits])]
  have hrev := tableOf_rev lens
  rw [findNextSymbol_eq hs ht, hmal, if_neg (by simp)]
  unfold searched
  obtain ⟨pre, post, hes⟩ := List.append_of_mem he
  have hno := tableOf_no_earlier (bs := s.upcoming) hmal
  have hsort := tableOf_sorted lens
  rw [hes] at hno hsort hrev ⊢
  rw [List.pairwise_append] at hno hsort
  have hfind : (pre ++ e :: post).find? (fun e => decide (s.upcoming.length < e.bits) || s.nextField e.bits == e.rev)
      = some e := by
    rw [List.find?_append]
    have hpre : pre.find? (fun e => decide (s.upcoming.length < e.bits) || s.nextField e.bits == e.rev) = none := by
      rw [List.find?_eq_none]
      intro x hx hxm
      have hxb := hsort.2.2 x hx e (by simp)
      have hxl : x.bits ≤ s.upcoming.length := by omega
      simp only [Bool.or_eq_true, decide_eq_true_eq, beq_iff_eq] at hxm
      rcases hxm with hxm | hxm
      · omega
      · exact hno.2.2 x hx e (by simp) htake ((match_iff hmode (hrev x (by simp [hx])) hxl).mp hxm)
    rw [hpre, Option.none_or, List.find?_cons_of_pos]
    rw [(match_iff hmode (hrev e (by simp)) hlen).mpr htake]; simp
  rw [hfind]
  simp [hlen]

theorem lastBits_le {n : Nat} {es : List Entry} {cl : Nat} (hcl : cl ≤ n) (h : ∀ e ∈ es, e.bits ≤ n) :
    lastBits cl es ≤ n := by
  induction es generalizing cl with
  | nil => exact hcl
  | cons e es ih => exact ih (h e (by simp)) fun x hx => h x (by simp [hx])

/-- With bits enough for every code and none that begins them, the search answers that no symbol was found (R214). -/
theorem findNextSymbol_none {id : TableId} {s : State} (hs : s.reader.acc < 2 ^ s.reader.cnt)
    (hmode : s.reader.mode = .lsb) {lens : List Nat} (ht : s.tables.get id = tableOf lens)
    (hmal : (tableOf lens).malformed = false)
    (h : ∀ e ∈ (tableOf lens).entries, e.bits ≤ s.upcoming.length ∧ s.upcoming.take e.bits ≠ entryBits e) :
    ∃ n, n ≤ s.upcoming.length ∧ findNextSymbol id s = .raise .symbolNotFound s.bitPos (s.afterRefill n) := by
  refine ⟨lastBits 0 (tableOf lens).entries, lastBits_le (Nat.zero_le _) fun e he => (h e he).1, ?_⟩
  have hfind : (tableOf lens).entries.find?
      (fun e => decide (s.upcoming.length < e.bits) || s.nextField e.bits == e.rev) = none := by
    rw [List.find?_eq_none]
    intro x hx hxm
    obtain ⟨h1, h2⟩ := h x hx
    simp only [Bool.or_eq_true, decide_eq_true_eq, beq_iff_eq] at hxm
    rcases hxm with hxm | hxm
    · omega
    · exact h2 ((match_iff hmode (tableOf_rev lens x hx) h1).mp hxm)
  rw [findNextSymbol_eq hs ht, hmal, if_neg (by simp)]
  unfold searched
  rw [hfind]

/-- Where none of the codes that the bits are enough for begins them and a longer code is left, the search is short of
input at the symbol's first bit (R215). -/
theorem findNextSymbol_short {id : TableId} {s : State} (hs : s.reader.acc < 2 ^ s.reader.cnt)
    (hmode : s.reader.mode = .lsb) {lens : List Nat} (ht : s.tables.get id = tableOf lens)
    (hmal : (tableOf lens).malformed = false)
    (h : ∀ e ∈ (tableOf lens).entries, e.bits ≤ s.upcoming.length → s.upcoming.take e.bits ≠ entryBits e)
    (hlong : ∃ e ∈ (tableOf lens).entries, s.upcoming.length < e.bits) :
    findNextSymbol id s =
      if s.inputEnd then .raise .unexpectedEof s.bitPos s.afterShort else .wait s.afterShort := by
  rw [findNextSymbol_eq hs ht, hmal, if_neg (by simp)]
  unfold searched
  obtain ⟨e, he, hb⟩ := hlong
  cases hfind : (tableOf lens).entries.find?
      (fun e => decide (s.upcoming.length < e.bits) || s.nextField e.bits == e.rev) with
  | none => exact absurd (List.find?_eq_none.mp hfind e he) (by simp [hb])
  | some x =>
    have hx := List.mem_of_find?_eq_some hfind
    have hxm := List.find?_some hfind
    simp only [Bool.or_eq_true, decide_eq_true_eq, beq_iff_eq] at hxm
    have hxb : ¬ x.bits ≤ s.upcoming.length := by
      intro hle
      rcases hxm with hxm | hxm
      · omega
      · exact h x hx hle ((match_iff hmode (tableOf_rev lens x hx) hle).mp hxm)
    simp only [if_neg hxb]

end Sys2Proof.Machine
end

