-- ==== Sys2Proof/Laws/Outcome.lean ====
section
/-! SUPPORT. Reasoning about operations in sequence: what each primitive answers from any state, and how the outcome of
an instruction follows from its operation's answer. -/

namespace Sys2Proof.Machine

open Sys2Proof

/-- An answer's three cases that carry a state meet their conditions: completed, raised (at a position), waiting. -/
def Res.sat {α : Type} (r : Res α) (done : α → State → Prop) (raised : ErrKind → Nat → State → Prop)
    (waits : State → Prop) : Prop :=
  match r with
  | .ok a t => done a t
  | .raise k q t => raised k q t
  | .wait t => waits t
  | .fault _ => True
  | .refused _ => True

theorem Res.sat_bind {α β : Type} {r : Res α} {f : α → State → Res β} {D : α → State → Prop}
    {D' : β → State → Prop} {R : ErrKind → Nat → State → Prop} {W : State → Prop}
    (h : r.sat D R W) (hf : ∀ a t, D a t → (f a t).sat D' R W) : (r.bind f).sat D' R W := by
  cases r with
  | ok a t => exact hf a t h
  | raise k q t => exact h
  | wait t => exact h
  | fault _ => trivial
  | refused _ => trivial

theorem Res.sat_mono {α : Type} {r : Res α} {D D' : α → State → Prop} {R R' : ErrKind → Nat → State → Prop}
    {W W' : State → Prop} (h : r.sat D R W) (hd : ∀ a t, D a t → D' a t) (hr : ∀ k q t, R k q t → R' k q t)
    (hw : ∀ t, W t → W' t) : r.sat D' R' W' := by
  cases r with
  | ok a t => exact hd a t h
  | raise k q t => exact hr k q t h
  | wait t => exact hw t h
  | fault _ => trivial
  | refused _ => trivial

/-- An instruction's next state, from what its operation answers. -/
theorem finish_next {s t : State} {r : Res Unit} {P : State → Prop} (h : finish s r = .next t)
    (hr : r.sat (fun _ u => P u) (fun k q u => P (errorEntry k q u)) (fun u => P (suspend s u))) : P t := by
  cases r with
  | ok a u => injection h with h; exact h ▸ hr
  | raise k q u => injection h with h; exact h ▸ hr
  | wait u => injection h with h; exact h ▸ hr
  | fault _ => cases h
  | refused _ => cases h

theorem finishValue_next {s t : State} {r : Res Nat} {P : State → Prop} (h : finishValue s r = .next t)
    (hr : r.sat (fun v u => P (u.withResult v)) (fun k q u => P (errorEntry k q u)) (fun u => P (suspend s u))) :
    P t :=
  finish_next h (Res.sat_bind hr fun _ _ h => h)

/-! ## What reading can do -/

/-- What a reader primitive does to the state: it writes the reader's registers only, keeps the order, fetches bytes it
does not give back, and keeps a reader that is in order so. -/
structure ReadsTo (s t : State) : Prop where
  only : t = s.withReader t.reader
  mode : t.reader.mode = s.reader.mode
  fetched : s.reader.nfetch ≤ t.reader.nfetch
  ok : s.reader.ok → t.reader.ok
  pos : s.reader.ok → s.bitPos ≤ t.bitPos

theorem ReadsTo.rfl' (s : State) : ReadsTo s s :=
  ⟨rfl, rfl, Nat.le_refl _, id, fun _ => Nat.le_refl _⟩

theorem ReadsTo.trans {s t u : State} (h : ReadsTo s t) (h' : ReadsTo t u) : ReadsTo s u :=
  ⟨by rw [h'.only, h.only]; rfl, h'.mode.trans h.mode, Nat.le_trans h.fetched h'.fetched, fun ho => h'.ok (h.ok ho),
    fun ho => Nat.le_trans (h.pos ho) (h'.pos (h.ok ho))⟩

theorem takeByte_readsTo (s : State) (b : Byte) : ReadsTo s (s.withReader (s.reader.takeByte b)) := by
  refine ⟨rfl, rfl, Nat.le_succ _, ?_, ?_⟩
  · intro ho
    refine ⟨Reader.acc_takeByte_lt ho.1 b, ?_⟩
    have := ho.2
    show s.reader.cnt + 8 ≤ 8 * (s.reader.nfetch + 1)
    omega
  · intro _
    show 8 * s.reader.nfetch - s.reader.cnt ≤ 8 * (s.reader.nfetch + 1) - (s.reader.cnt + 8)
    omega

theorem takeByte_bitPos (s : State) (b : Byte) : (s.withReader (s.reader.takeByte b)).bitPos = s.bitPos := by
  show 8 * (s.reader.nfetch + 1) - (s.reader.cnt + 8) = 8 * s.reader.nfetch - s.reader.cnt
  omega

theorem inWait_readsTo (s : State) (w : Bool) : ReadsTo s (s.withReader { s.reader with inWait := w }) :=
  ⟨rfl, rfl, Nat.le_refl _, id, fun _ => Nat.le_refl _⟩

/-- A refill reads, stays at its bit position, and completes with its bits buffered. -/
theorem refillLoop_sat (fuel n p0 : Nat) (s : State) (hf : n ≤ s.reader.cnt + fuel) :
    (refillLoop fuel n p0 s).sat (fun _ t => ReadsTo s t ∧ t.bitPos = s.bitPos ∧ n ≤ t.reader.cnt)
      (fun k q t => k = .unexpectedEof ∧ q = p0 ∧ ReadsTo s t ∧ t.bitPos = s.bitPos)
      (fun t => ReadsTo s t ∧ t.bitPos = s.bitPos ∧ t.reader.inWait = true) := by
  induction fuel generalizing s with
  | zero => exact ⟨.rfl' s, rfl, hf⟩
  | succ fuel ih =>
    rw [refillLoop]
    split
    · split
      next b _ =>
        refine Res.sat_mono (ih (s.withReader (s.reader.takeByte b)) (by simp; omega)) ?_ ?_ ?_
        · rintro _ t ⟨h1, h2, h3⟩
          exact ⟨(takeByte_readsTo s b).trans h1, h2.trans (takeByte_bitPos s b), h3⟩
        · rintro k q t ⟨h0, h1, h2, h3⟩
          exact ⟨h0, h1, (takeByte_readsTo s b).trans h2, h3.trans (takeByte_bitPos s b)⟩
        · rintro t ⟨h1, h2, h3⟩
          exact ⟨(takeByte_readsTo s b).trans h1, h2.trans (takeByte_bitPos s b), h3⟩
      · exact ⟨rfl, rfl, inWait_readsTo s false, rfl⟩
      · exact ⟨inWait_readsTo s true, rfl, rfl⟩
    · exact ⟨.rfl' s, rfl, by omega⟩

theorem drop_readsTo {s : State} {n : Nat} (hn : n ≤ s.reader.cnt) :
    ReadsTo s (s.withReader (s.reader.drop n)) := by
  refine ⟨rfl, rfl, Nat.le_refl _, ?_, ?_⟩
  · intro ho
    have hlt : (s.reader.drop n).acc < 2 ^ (s.reader.cnt - n) := by
      rw [Reader.drop_eq ho.1 hn]
      have := fieldValue_lt s.reader.mode (s.reader.buffered.drop n)
      rwa [List.length_drop, length_buffered] at this
    have := ho.2
    exact ⟨hlt, by show s.reader.cnt - n ≤ 8 * s.reader.nfetch; omega⟩
  · intro _
    show 8 * s.reader.nfetch - s.reader.cnt ≤ 8 * s.reader.nfetch - (s.reader.cnt - n)
    omega

/-- What `ReadBits` answers from any state. -/
theorem readBits_sat (n : Nat) (s : State) :
    (readBits n s).sat (fun v t => ReadsTo s t ∧ v < 2 ^ n ∧ (s.reader.ok → v = s.nextField n))
      (fun k q t => k = .unexpectedEof ∧ q = s.bitPos ∧ ReadsTo s t ∧ t.bitPos = s.bitPos)
      (fun t => ReadsTo s t ∧ t.bitPos = s.bitPos ∧ t.reader.inWait = true) := by
  by_cases hn : Config.maxReadBits < n
  · unfold readBits; rw [if_pos hn]; trivial
  have hmain : (readBits n s).sat (fun v t => ReadsTo s t ∧ v < 2 ^ n)
      (fun k q t => k = .unexpectedEof ∧ q = s.bitPos ∧ ReadsTo s t ∧ t.bitPos = s.bitPos)
      (fun t => ReadsTo s t ∧ t.bitPos = s.bitPos ∧ t.reader.inWait = true) := by
    unfold readBits
    rw [if_neg hn]
    refine Res.sat_bind (refillLoop_sat n n s.bitPos s (by omega)) ?_
    rintro _ t ⟨h1, h2, h3⟩
    refine ⟨h1.trans (drop_readsTo h3), ?_⟩
    unfold Reader.front field
    split <;> exact Nat.mod_lt _ (Nat.two_pow_pos n)
  by_cases ho : s.reader.ok
  · have h32 : n ≤ 32 := by unfold Config.maxReadBits at hn; omega
    by_cases hl : n ≤ s.upcoming.length
    · have e := readBits_eq ho.1 h32 hl
      rw [e] at hmain ⊢
      exact ⟨hmain.1, hmain.2, fun _ => rfl⟩
    · have e := readBits_short ho.1 h32 (by omega)
      rw [e] at hmain ⊢
      cases hE : s.inputEnd <;> rw [hE] at hmain <;> exact hmain
  · exact Res.sat_mono hmain (fun _ _ h => ⟨h.1, h.2, fun h' => absurd h' ho⟩) (fun _ _ _ h => h) (fun _ h => h)

/-- What `PeekBits` answers from any state. -/
theorem peekBits_sat (n : Nat) (s : State) :
    (peekBits n s).sat (fun _ t => ReadsTo s t ∧ t.bitPos = s.bitPos ∧ n ≤ t.reader.cnt)
      (fun k q t => k = .unexpectedEof ∧ q = s.bitPos ∧ ReadsTo s t ∧ t.bitPos = s.bitPos)
      (fun t => ReadsTo s t ∧ t.bitPos = s.bitPos ∧ t.reader.inWait = true) := by
  unfold peekBits
  split
  · trivial
  · exact Res.sat_bind (refillLoop_sat n n s.bitPos s (by omega)) fun _ t h => h

/-- What `AlignToByte` answers from any state. -/
theorem alignToByte_sat (s : State) :
    (alignToByte s).sat (fun _ t => ReadsTo s t)
      (fun k q t => k = .unexpectedEof ∧ q = s.bitPos ∧ ReadsTo s t ∧ t.bitPos = s.bitPos)
      (fun t => ReadsTo s t ∧ t.bitPos = s.bitPos ∧ t.reader.inWait = true) :=
  Res.sat_bind (readBits_sat _ s) fun _ _ h => h.1

/-- What a match answers from any state: it reads, and adds events behind those already sent. -/
structure MatchesTo (s t : State) : Prop where
  only : t = (s.withReader t.reader).withDiag t.diag
  events : s.diag <+: t.diag
  mode : t.reader.mode = s.reader.mode
  fetched : s.reader.nfetch ≤ t.reader.nfetch
  ok : s.reader.ok → t.reader.ok
  pos : s.reader.ok → s.bitPos ≤ t.bitPos

theorem ReadsTo.matches {s t : State} (h : ReadsTo s t) : MatchesTo s t :=
  ⟨by rw [h.only]; rfl, by rw [h.only]; exact List.prefix_refl _, h.mode, h.fetched, h.ok, h.pos⟩

theorem sendDiag_matchesTo (k : DiagKind) (s : State) : MatchesTo s (sendDiag k s) := by
  refine ⟨?_, ?_, by simp, by simp, by simp, ?_⟩
  · unfold sendDiag; split <;> rfl
  · unfold sendDiag; split
    · exact List.prefix_append _ _
    · exact List.prefix_refl _
  · intro _; unfold sendDiag; split <;> exact Nat.le_refl _

@[simp] theorem sendDiag_bitPos (k : DiagKind) (s : State) : (sendDiag k s).bitPos = s.bitPos := by
  unfold sendDiag; split <;> rfl

@[simp] theorem sendDiag_upcoming (k : DiagKind) (s : State) : (sendDiag k s).upcoming = s.upcoming := by
  unfold sendDiag; split <;> rfl

@[simp] theorem sendDiag_nextField (k : DiagKind) (n : Nat) (s : State) :
    (sendDiag k s).nextField n = s.nextField n := by
  unfold sendDiag; split <;> rfl

theorem MatchesTo.trans {s t u : State} (h : MatchesTo s t) (h' : MatchesTo t u) : MatchesTo s u :=
  ⟨by rw [h'.only, h.only]; rfl, h.events.trans h'.events, h'.mode.trans h.mode, Nat.le_trans h.fetched h'.fetched, fun ho => h'.ok (h.ok ho),
    fun ho => Nat.le_trans (h.pos ho) (h'.pos (h.ok ho))⟩

theorem cachedPeek_sat (cache : Option (Nat × Nat)) (n : Nat) (s : State) :
    (cachedPeek cache n s).sat (fun _ t => ReadsTo s t ∧ t.bitPos = s.bitPos)
      (fun k q t => k = .unexpectedEof ∧ q = s.bitPos ∧ ReadsTo s t ∧ t.bitPos = s.bitPos)
      (fun t => ReadsTo s t ∧ t.bitPos = s.bitPos ∧ t.reader.inWait = true) := by
  have hp : (peekBits n s).sat (fun _ t => ReadsTo s t ∧ t.bitPos = s.bitPos)
      (fun k q t => k = .unexpectedEof ∧ q = s.bitPos ∧ ReadsTo s t ∧ t.bitPos = s.bitPos)
      (fun t => ReadsTo s t ∧ t.bitPos = s.bitPos ∧ t.reader.inWait = true) :=
    Res.sat_mono (peekBits_sat n s) (fun _ _ h => ⟨h.1, h.2.1⟩) (fun _ _ _ h => h) (fun _ h => h)
  unfold cachedPeek
  split
  · split
    · exact ⟨.rfl' s, rfl⟩
    · exact hp
  · exact hp

theorem findLoop_sat (p0 : Nat) (es : List Entry) (cache : Option (Nat × Nat)) (s : State) (h0 : s.bitPos = p0) :
    (findLoop p0 es cache s).sat (fun v t => MatchesTo s t ∧ ∃ e ∈ es, v = e.code)
      (fun k q t => (k = .symbolNotFound ∨ k = .unexpectedEof) ∧ q = p0 ∧ ReadsTo s t ∧ t.bitPos = s.bitPos)
      (fun t => ReadsTo s t ∧ t.bitPos = s.bitPos ∧ t.reader.inWait = true) := by
  induction es generalizing cache s with
  | nil => exact ⟨.inl rfl, rfl, .rfl' s, rfl⟩
  | cons e es ih =>
    rw [findLoop]
    have hc := cachedPeek_sat cache e.bits s
    cases hcp : cachedPeek cache e.bits s with
    | ok cv t =>
      rw [hcp] at hc
      obtain ⟨h1, h2⟩ := hc
      rw [Res.bind_ok]
      split
      · have hr := readBits_sat e.bits t
        cases hrb : readBits e.bits t with
        | ok v u =>
          rw [hrb] at hr
          refine ⟨(h1.trans hr.1).matches.trans (sendDiag_matchesTo _ _), e, by simp, rfl⟩
        | raise k q u =>
          rw [hrb] at hr
          obtain ⟨ha, hb, hc, hd⟩ := hr
          exact ⟨.inr ha, by rw [hb, h2, h0], h1.trans hc, hd.trans h2⟩
        | wait u =>
          rw [hrb] at hr
          obtain ⟨ha, hb, hc⟩ := hr
          exact ⟨h1.trans ha, hb.trans h2, hc⟩
        | fault _ => trivial
        | refused _ => trivial
      · refine Res.sat_mono (ih (some (e.bits, cv)) t (h2.trans h0)) ?_ ?_ ?_
        · rintro v u ⟨ha, x, hx, hv⟩
          exact ⟨h1.matches.trans ha, x, by simp [hx], hv⟩
        · rintro k q u ⟨ha, hb, hc, hd⟩
          exact ⟨ha, hb, h1.trans hc, hd.trans h2⟩
        · rintro u ⟨ha, hb, hc⟩
          exact ⟨h1.trans ha, hb.trans h2, hc⟩
    | raise k q t =>
      rw [hcp] at hc
      obtain ⟨ha, hb, hc, hd⟩ := hc
      exact ⟨.inr ha, by rw [hb, h0], hc, hd⟩
    | wait t => rw [hcp] at hc; exact hc
    | fault _ => trivial
    | refused _ => trivial

/-- What `FindNextSymbol` answers from any state: it raises SymbolNotFound or UnexpectedEof, at the symbol's first bit. -/
theorem findNextSymbol_sat (id : TableId) (s : State) :
    (findNextSymbol id s).sat (fun v t => MatchesTo s t ∧ ∃ e ∈ (s.tables.get id).entries, v = e.code)
      (fun k q t => (k = .symbolNotFound ∨ k = .unexpectedEof) ∧ q = s.bitPos ∧ ReadsTo s t ∧ t.bitPos = s.bitPos)
      (fun t => ReadsTo s t ∧ t.bitPos = s.bitPos ∧ t.reader.inWait = true) := by
  unfold findNextSymbol
  split
  · exact ⟨.inl rfl, rfl, .rfl' s, rfl⟩
  · exact findLoop_sat _ _ _ _ rfl

end Sys2Proof.Machine
end

