-- ==== Sys2Proof/Laws/Elements.lean ====
section
/-! SUPPORT. What the shared operations of the block and symbol elements answer: a short read, the fixed tables, the
code-length lengths, appends to LENS, the operand tables of lengths and distances, and copies from any state. -/

namespace Sys2Proof.Machine

open Sys2Proof

/-! ## Reads and diagnostics -/

/-- An element whose next operation is short of input (R471, R521). -/
theorem finish_short {α : Type} {s : State} {r : Res α} {f : α → State → Res Unit} (t : State)
    (h : r = if t.inputEnd then .raise .unexpectedEof t.bitPos t.afterShort else .wait t.afterShort) :
    finish s (r.bind f) = shortOf s t := by
  subst h; unfold shortOf; split <;> rfl

theorem length_afterRead {n : Nat} {s : State} (hn : n ≤ s.upcoming.length) :
    (s.afterRead n).upcoming.length = s.upcoming.length - n := by
  rw [afterRead_upcoming hn, List.length_drop]

/-- Aligning never needs more bits than are buffered (R167). -/
theorem align_le (s : State) : s.reader.cnt % 8 ≤ s.upcoming.length := by
  rw [length_upcoming]; omega

theorem sendDiag_ok {k : DiagKind} {s : State} (hs : s.reader.ok) : (sendDiag k s).reader.ok := by simpa using hs

theorem sendDiag_present {k : DiagKind} {s : State} (h : s.params.diagPresent = true) :
    sendDiag k s = s.withDiag (s.diag ++ [⟨s.bitPos, k⟩]) := by
  unfold sendDiag; rw [if_pos h]

theorem sendDiag_absent {k : DiagKind} {s : State} (h : s.params.diagPresent = false) : sendDiag k s = s := by
  unfold sendDiag; rw [if_neg (by simp [h])]

/-- Whatever the sink, an event writes the events sent and nothing else (R495, R497). -/
theorem sendDiag_withDiag (k : DiagKind) (s : State) : ∃ d, sendDiag k s = s.withDiag d := by
  unfold sendDiag
  split
  · exact ⟨_, rfl⟩
  · exact ⟨s.diag, rfl⟩

theorem afterRead_sendDiag (k : DiagKind) (n : Nat) (s : State) :
    (sendDiag k s).afterRead n = (sendDiag k s).withReader (s.afterRead n).reader := by
  unfold State.afterRead
  simp

/-! ## The fixed tables (R207, R208, R293) -/

theorem buildFixedLL_eq (s : State) : buildFromRanges .ll fixedLL s =
    .ok () (sendDiag .tableBuilt (s.withTables { s.tables with ll := tableOf (expandRanges fixedLL) })) := by
  unfold buildFromRanges
  rw [if_pos (by decide), buildFromLengths_eq (by decide +kernel)]; rfl

theorem buildFixedD_eq (s : State) : buildFromRanges .d fixedD s =
    .ok () (sendDiag .tableBuilt (s.withTables { s.tables with d := tableOf (expandRanges fixedD) })) := by
  unfold buildFromRanges
  rw [if_pos (by decide), buildFromLengths_eq (by decide +kernel)]; rfl

/-- `BLK_FIXED`, from any state (R293). Generalize the two tables before comparing terms that hold them: comparing them
by evaluation is slow. -/
theorem blkFixed_eq (s : State) : blkFixed s = .ok () ((sendDiag .tableBuilt
    ((sendDiag .tableBuilt (s.withTables { s.tables with ll := tableOf (expandRanges fixedLL) })).withTables
      { s.tables with ll := tableOf (expandRanges fixedLL), d := tableOf (expandRanges fixedD) })).setPhase .symbol) := by
  unfold blkFixed
  rw [buildFixedLL_eq, Res.bind_ok, buildFixedD_eq, Res.bind_ok]
  simp

theorem fixedLL_built : (tableOf (expandRanges fixedLL)).built .ll := ⟨_, by decide +kernel, rfl⟩

theorem fixedD_built : (tableOf (expandRanges fixedD)).built .d := ⟨_, by decide +kernel, rfl⟩

/-! ## The code-length lengths (R301, R302) -/

theorem clOrder_nodup : clOrder.Nodup := by decide

theorem clOrder_lt : ∀ x ∈ clOrder, x < 19 := by decide

/-- The lengths of CL_LEN always fit T_CL. -/
theorem clLens_ok (q : Sequencer) : lengthsOk .cl (q.clLen.toList.map BitVec.toNat) = true := by
  unfold lengthsOk
  simp [Config.tableSlots, Config.maxCodeBits]
  intro a ha
  have := (q.clLen[a]).isLt
  exact decide_eq_true (show q.clLen[a].toNat ≤ 15 by omega)

/-- The loop over the slots with enough input: each slot takes its 3 bits, the others stay (R302). -/
theorem readClLens_eq (slots : List Nat) (s : State) (hs : s.reader.ok) (hl : 3 * slots.length ≤ s.upcoming.length)
    (hnd : slots.Nodup) (h19 : ∀ x ∈ slots, x < 19) :
    ∃ u, readClLens slots s = .ok () u ∧
      u = (s.afterRead (3 * slots.length)).withSeq { s.seq with clLen := u.seq.clLen } ∧
      (∀ i, (h : i < slots.length) →
        (u.seq.clLen.toList[slots[i]]?).map BitVec.toNat = some ((s.afterRead (3 * i)).nextField 3)) ∧
      (∀ j, j ∉ slots → u.seq.clLen.toList[j]? = s.seq.clLen.toList[j]?) := by
  induction slots generalizing s with
  | nil => exact ⟨s, rfl, by simp [afterRead_zero hs.1]; rfl, by simp, by simp⟩
  | cons x slots ih =>
    rw [List.length_cons] at hl
    rw [List.nodup_cons] at hnd
    rw [readClLens, readBits_eq hs.1 (by omega) (by omega), Res.bind_ok]
    have hup : ∀ q, ((s.afterRead 3).withSeq q).upcoming.length = s.upcoming.length - 3 := fun _ =>
      length_afterRead (by omega)
    obtain ⟨u, h1, h2, h3, h4⟩ := ih ((s.afterRead 3).withSeq { (s.afterRead 3).seq with
        clLen := (s.afterRead 3).seq.clLen.setIfInBounds x (BitVec.ofNat 3 (s.nextField 3)) })
      (show (s.afterRead 3).reader.ok from afterRead_ok hs (by omega))
      (by rw [hup]; omega) hnd.2 (fun y hy => h19 y (by simp [hy]))
    refine ⟨u, h1, ?_, ?_, ?_⟩
    · rw [List.length_cons, show 3 * (slots.length + 1) = 3 + 3 * slots.length by omega,
        ← afterRead_afterRead (by omega)]
      exact h2
    · intro i hi
      cases i with
      | zero =>
        rw [List.getElem_cons_zero, h4 x hnd.1, Nat.mul_zero, afterRead_zero hs.1]
        have hx := h19 x (by simp)
        have hlt := nextField_lt 3 s
        simp [hx]
        omega
      | succ i =>
        rw [List.length_cons] at hi
        rw [List.getElem_cons_succ, h3 i (by omega)]
        show some (((s.afterRead 3).afterRead (3 * i)).nextField 3) = _
        rw [afterRead_afterRead (by omega)]
        congr 3; omega
    · intro j hj
      rw [List.mem_cons, not_or] at hj
      rw [h4 j hj.2]
      simp only [State.withSeq_seq, State.afterRead_seq, Vector.toList_setIfInBounds]
      rw [List.getElem?_set_ne (by omega)]

/-- The loop short of input: it stops at the start of the slot whose bits are missing, with the slots before it
written and no other (R94, R302). -/
theorem readClLens_short (slots : List Nat) (s s₀ : State) (hs : s.reader.ok)
    (hl : s.upcoming.length < 3 * slots.length) (hnd : slots.Nodup) (h19 : ∀ x ∈ slots, x < 19) :
    ∃ k t, k < slots.length ∧
      (∀ f : Unit → State → Res Unit, finish s₀ ((readClLens slots s).bind f) = shortOf s₀ t) ∧
      3 * k ≤ s.upcoming.length ∧ s.upcoming.length < 3 * k + 3 ∧
      t = (s.afterRead (3 * k)).withSeq { s.seq with clLen := t.seq.clLen } ∧
      (∀ i, (h : i < slots.length) → i < k →
        (t.seq.clLen.toList[slots[i]]?).map BitVec.toNat = some ((s.afterRead (3 * i)).nextField 3)) ∧
      (∀ j, j ∉ slots.take k → t.seq.clLen.toList[j]? = s.seq.clLen.toList[j]?) := by
  induction slots generalizing s with
  | nil => simp at hl
  | cons x slots ih =>
    rw [List.length_cons] at hl
    rw [List.nodup_cons] at hnd
    by_cases h3 : 3 ≤ s.upcoming.length
    · have hup : ∀ q, ((s.afterRead 3).withSeq q).upcoming.length = s.upcoming.length - 3 := fun _ =>
        length_afterRead h3
      obtain ⟨k, t, h1, h2, h4, h5, h6, h7, h8⟩ := ih ((s.afterRead 3).withSeq { (s.afterRead 3).seq with
          clLen := (s.afterRead 3).seq.clLen.setIfInBounds x (BitVec.ofNat 3 (s.nextField 3)) })
        (show (s.afterRead 3).reader.ok from afterRead_ok hs (by omega)) (by rw [hup]; omega) hnd.2
        (fun y hy => h19 y (by simp [hy]))
      rw [hup] at h4 h5
      refine ⟨k + 1, t, by simp; omega, ?_, by omega, by omega, ?_, ?_, ?_⟩
      · intro f; rw [readClLens, readBits_eq hs.1 (by omega) (by omega), Res.bind_ok]; exact h2 f
      · rw [show 3 * (k + 1) = 3 + 3 * k by omega, ← afterRead_afterRead (by omega)]
        exact h6
      · intro i hi hik
        cases i with
        | zero =>
          rw [List.getElem_cons_zero, h8 x fun hm => hnd.1 (List.mem_of_mem_take hm), Nat.mul_zero, afterRead_zero hs.1]
          have hx := h19 x (by simp)
          have hlt := nextField_lt 3 s
          simp [hx]
          omega
        | succ i =>
          rw [List.length_cons] at hi
          rw [List.getElem_cons_succ, h7 i (by omega) (by omega)]
          show some (((s.afterRead 3).afterRead (3 * i)).nextField 3) = _
          rw [afterRead_afterRead (by omega)]
          congr 3; omega
      · intro j hj
        rw [List.take_succ_cons, List.mem_cons, not_or] at hj
        rw [h8 j hj.2]
        simp only [State.withSeq_seq, State.afterRead_seq, Vector.toList_setIfInBounds]
        rw [List.getElem?_set_ne (by omega)]
    · refine ⟨0, s, by simp, ?_, by omega, by omega, by simp [afterRead_zero hs.1]; rfl, ?_, fun _ _ => rfl⟩
      · intro f
        rw [readClLens, Res.bind_assoc]
        exact finish_short _ (readBits_short hs.1 (by omega) (by omega))
      · intro i _ hi; omega

/-! ## Appends to LENS (R309, R310, R316) -/

theorem getElem_fillLens (lens : Vector (BitVec 4) 320) (v : BitVec 4) (a r j : Nat) (hj : j < 320) :
    (fillLens lens v a r)[j] = if a ≤ j ∧ j < a + r then v else lens[j] := by
  induction r with
  | zero => rw [if_neg (by omega)]; rfl
  | succ r ih =>
    simp only [fillLens]
    rw [Vector.getElem_setIfInBounds]
    split
    · rw [if_pos (by omega)]
    · rw [ih]; congr 1; apply propext; omega

/-- The fill loop writes the range entry by entry. -/
theorem fillLens_eq (lens : Vector (BitVec 4) 320) (v : BitVec 4) (a r : Nat) :
    fillLens lens v a r = lensWith lens v a r := by
  apply Vector.ext
  intro j hj
  rw [getElem_fillLens, lensWith, Vector.getElem_ofFn]; rfl

/-- Lengths of four bits fit any store with room for them (R202). -/
theorem nibbles_ok (t : TableId) (l : List (BitVec 4)) (h : l.length ≤ Config.tableSlots t) :
    lengthsOk t (l.map BitVec.toNat) = true := by
  unfold lengthsOk
  simp [h, Config.maxCodeBits]
  intro a ha
  have := a.isLt
  exact decide_eq_true (show a.toNat ≤ 15 by omega)

/-- `LensComplete` with the counts in range (R310). -/
theorem lensComplete_eq {s : State} (h1 : s.seq.hlit.toNat ≤ 288) (h2 : s.seq.hdist.toNat ≤ 32) :
    lensComplete s = .ok () (
      let all := s.seq.lens.toList.map BitVec.toNat
      let ll := all.take s.seq.hlit.toNat
      let d := (all.drop s.seq.hlit.toNat).take s.seq.hdist.toNat
      let u := sendDiag .tableBuilt (s.withTables { s.tables with ll := tableOf ll })
      (sendDiag .tableBuilt (u.withTables { u.tables with d := tableOf d })).setPhase .symbol) := by
  unfold lensComplete
  have k1 : lengthsOk .ll ((s.seq.lens.toList.map BitVec.toNat).take s.seq.hlit.toNat) = true := by
    rw [← List.map_take]; exact nibbles_ok _ _ (by rw [List.length_take]; show min _ _ ≤ 288; omega)
  have k2 : lengthsOk .d
      (((s.seq.lens.toList.map BitVec.toNat).drop s.seq.hlit.toNat).take s.seq.hdist.toNat) = true := by
    rw [← List.map_drop, ← List.map_take]
    exact nibbles_ok _ _ (by rw [List.length_take]; show min _ _ ≤ 32; omega)
  simp only
  rw [buildFromLengths_eq k1, Res.bind_ok, buildFromLengths_eq k2, Res.bind_ok]
  rfl

/-- `Append(v, r)` without an overrun (R316). -/
theorem appendLens_eq {v : BitVec 4} {r : Nat} {s : State} (h1 : s.seq.hlit.toNat ≤ 288)
    (h2 : s.seq.hdist.toNat ≤ 32) (h : s.seq.lensN + r ≤ lensTotal s.seq) :
    appendLens v r s = .ok () (lensAppended v r s) := by
  have h3 : lensTotal s.seq ≤ 320 := by unfold lensTotal; omega
  have e : appendLens v r s =
      if s.seq.lensN + r = lensTotal s.seq then
        lensComplete (s.withSeq
          { s.seq with lens := lensWith s.seq.lens v s.seq.lensN r, lensN := s.seq.lensN + r })
      else
        .ok () (s.withSeq
          { s.seq with lens := lensWith s.seq.lens v s.seq.lensN r, lensN := s.seq.lensN + r }) := by
    unfold appendLens
    rw [if_neg (by omega), if_neg (by omega), fillLens_eq]
    generalize lensWith s.seq.lens v s.seq.lensN r = L
    simp only [State.withSeq_seq, lensTotal]
    exact if_congr Iff.rfl rfl rfl
  rw [e]
  unfold lensAppended
  generalize lensWith s.seq.lens v s.seq.lensN r = L
  simp only
  split
  · exact lensComplete_eq (s := s.withSeq { s.seq with lens := L, lensN := s.seq.lensN + r }) h1 h2
  · rfl

/-- `Append(v, r)` past HLIT + HDIST (R309). -/
theorem appendLens_over {v : BitVec 4} {r : Nat} {s : State} (h : lensTotal s.seq < s.seq.lensN + r) :
    appendLens v r s = .raise .invalidCodeLengthSymbol s.bitPos s := by
  unfold appendLens; rw [if_pos h]; rfl

/-! ## Lengths and distances (R125, R408 to R411) -/

/-- A legal distance code's operation, by the tables (R375). -/
theorem distanceOf_eq (d : Nat) (hd : d ≤ 29) (s : State) :
    distanceOf d s = distanceValue (distBase d) (distExtra d) s := by
  interval_cases d <;> rfl

theorem distBase_bounds : ∀ d ≤ 29, 1 ≤ distBase d ∧ distBase d + 2 ^ distExtra d ≤ 32769 ∧ distExtra d ≤ 13 := by
  decide

/-- A length code's extra bits and range. -/
theorem lenBase_bounds (c : Nat) (h1 : 257 ≤ c) (h2 : c ≤ 285) :
    lenExtra c ≤ 5 ∧ 3 ≤ lenBaseTable.getD (c - 257) 0 ∧ lenBaseTable.getD (c - 257) 0 + 2 ^ lenExtra c ≤ 259 := by
  have k : ∀ c : Fin 286, 257 ≤ c.val → lenExtra c.val ≤ 5 ∧ 3 ≤ lenBaseTable.getD (c.val - 257) 0 ∧
      lenBaseTable.getD (c.val - 257) 0 + 2 ^ lenExtra c.val ≤ 259 := by decide +kernel
  exact k ⟨c, by omega⟩ h1

/-- A length instruction runs the template with its code's base and extra bits (R343 to R372). -/
theorem exec_length (c : Nat) (i : Instr) (h1 : 257 ≤ c) (h2 : c ≤ 285) (h : decode .litLen c = .ok i) (s : State) :
    exec i s = finish s (lengthElement (lenBaseTable.getD (c - 257) 0) (lenExtra c) s) := by
  interval_cases c <;> (cases h; norm_num [lenExtra, lenBaseTable, Nat.shiftRight_eq_div_pow]; rfl)

/-- What a distance code's operation answers from any state. -/
theorem distanceOf_sat (d : Nat) (s : State) :
    (distanceOf d s).sat (fun _ t => ReadsTo s t)
      (fun k q t => k ≠ .none ∧ q = t.bitPos ∧ ReadsTo s t)
      (fun t => ReadsTo s t ∧ t.bitPos = s.bitPos ∧ t.reader.inWait = true) := by
  have legal : ∀ b e, (distanceValue b e s).sat (fun _ t => ReadsTo s t)
      (fun k q t => k ≠ .none ∧ q = t.bitPos ∧ ReadsTo s t)
      (fun t => ReadsTo s t ∧ t.bitPos = s.bitPos ∧ t.reader.inWait = true) := by
    intro b e
    refine Res.sat_bind (Res.sat_mono (readBits_sat e s) (fun _ _ h => h.1) ?_ (fun _ h => h)) fun _ _ h => h
    rintro k q t ⟨h1, h2, h3, h4⟩
    exact ⟨by rw [h1]; simp, by rw [h2, h4], h3⟩
  have illegal : (raiseHere .invalidDistanceSymbol s : Res Nat).sat (fun _ t => ReadsTo s t)
      (fun k q t => k ≠ .none ∧ q = t.bitPos ∧ ReadsTo s t)
      (fun t => ReadsTo s t ∧ t.bitPos = s.bitPos ∧ t.reader.inWait = true) :=
    ⟨by simp, rfl, .rfl' s⟩
  unfold distanceOf
  split <;> first | exact legal _ _ | exact illegal | trivial

/-! ## Copies from any state -/

/-- What a copy of `n` bytes does where it completes, whatever the history (R440, R441): it writes the history and
nothing else, `n` bytes from OUT_COUNT on, in canonical form. -/
structure CopiesTo (n : Nat) (s t : State) : Prop where
  only : t = s.withHistory t.history
  count : t.history.outCount = s.history.outCount + n
  reads : ∀ a : Nat, a < s.history.outCount ∨ s.history.outCount + n ≤ a →
    t.history.hist.read a = s.history.hist.read a
  wf : Memory.wf s.history.hist = true → Memory.wf t.history.hist = true

theorem copyLoop_sat (dist n : Nat) (s : State) :
    (copyLoop dist n s).sat (fun _ t => CopiesTo n s t) (fun _ _ _ => False) (fun _ => False) := by
  induction n generalizing s with
  | zero => exact ⟨rfl, rfl, fun _ _ => rfl, id⟩
  | succ n ih =>
    rw [copyLoop]
    unfold memRead
    split
    · rename_i v _
      refine Res.sat_mono (ih (outAppend v s)) ?_ (fun _ _ _ h => h) (fun _ h => h)
      rintro _ t ⟨h1, h2, h3, h4⟩
      refine ⟨by rw [h1]; rfl, by rw [h2]; show s.history.outCount + 1 + n = _; omega, fun a ha => ?_,
        fun hw => h4 (Memory.wf_write hw _ _)⟩
      rw [h3 a (by show a < s.history.outCount + 1 ∨ s.history.outCount + 1 + n ≤ a; omega)]
      exact Memory.read_write_other _ _ (by omega)
    · trivial

theorem copyRun_sat (dist n : Nat) (s : State) :
    (copyRun dist n s).sat (fun _ t => CopiesTo n s t) (fun _ _ _ => False) (fun _ => False) := by
  unfold copyRun
  split
  · trivial
  · exact copyLoop_sat dist n s

/-- A slice reads, and changes nothing. -/
theorem histSlice_sat (p n : Nat) (s : State) :
    (histSlice p n s).sat (fun _ t => t = s) (fun _ _ _ => False) (fun _ => False) := by
  induction n generalizing p with
  | zero => exact rfl
  | succ n ih =>
    rw [histSlice]
    unfold memRead
    split
    · rw [Res.bind_ok]
      refine Res.sat_bind (ih (p + 1)) ?_
      rintro vs t rfl; exact rfl
    · trivial

/-! ## Block end and the machine -/

/-- `BlockEnd` sends its event and selects the phase (R313). -/
theorem blockEnd_eq (s : State) :
    blockEnd s = (sendDiag .blockEnd s).setPhase (if s.seq.bfinal then .trailer else .blkhdr) := by
  unfold blockEnd; simp

theorem start_suspended (s : State) : s.start.suspended = none := by
  unfold State.start
  split
  · rfl
  · assumption

theorem start_of_not_suspended {s : State} (h : s.suspended = none) : s.start = s := by
  unfold State.start; rw [h]

theorem acceptChunk_suspended (s : State) : (acceptChunk s).suspended = s.suspended := by
  unfold acceptChunk; split <;> rfl

end Sys2Proof.Machine
end

