-- ==== Sys2Proof/Laws/PerInstr.lean ====
section
/-! SUPPORT. Statements about every instruction as syntax, one lemma for each constructor. -/

namespace Sys2Proof.Laws

open Sys2Proof

namespace RoundTrip

/-- A well-formed instruction with a stream encoding is what the decoder reads from that encoding (R126, R127, R133). -/
def Statement (i : Instr) : Prop :=
  i.wf = true → ∀ (slot : Slot) (v : Nat), encode i = some (slot, v) → decode slot v = .ok i

theorem of_encode {i : Instr} {slot : Slot} {v : Nat} (e : encode i = some (slot, v)) (d : decode slot v = .ok i) :
    Statement i := by
  intro _ slot' v' h
  rw [e] at h
  cases h
  exact d

theorem of_none {i : Instr} (e : encode i = none) : Statement i := by
  intro _ slot v h
  rw [e] at h
  cases h

theorem gzMagic : Statement .gzMagic := of_encode rfl rfl
theorem gzCm : Statement .gzCm := of_encode rfl rfl
theorem gzFlg : Statement .gzFlg := of_encode rfl rfl
theorem gzMtime : Statement .gzMtime := of_encode rfl rfl
theorem gzXfl : Statement .gzXfl := of_encode rfl rfl
theorem gzOs : Statement .gzOs := of_encode rfl rfl
theorem gzFextra : Statement .gzFextra := of_encode rfl rfl
theorem gzFnameByte : Statement .gzFnameByte := of_encode rfl rfl
theorem gzFcommentByte : Statement .gzFcommentByte := of_encode rfl rfl
theorem gzFhcrc : Statement .gzFhcrc := of_encode rfl rfl
theorem blkhdr : Statement .blkhdr := of_encode rfl rfl
theorem blkStored : Statement .blkStored := of_encode rfl rfl
theorem blkFixed : Statement .blkFixed := of_encode rfl rfl
theorem blkDynamic : Statement .blkDynamic := of_encode rfl rfl
theorem blkReserved : Statement .blkReserved := of_encode rfl rfl
theorem storedHdr : Statement .storedHdr := of_encode rfl rfl
theorem storedByte : Statement .storedByte := of_encode rfl rfl
theorem dynHdr : Statement .dynHdr := of_encode rfl rfl
theorem clLenLit (s : BitVec 4) : Statement (.clLenLit s) := by
  refine of_encode (slot := .codeLength) (v := s.toNat) rfl ?_
  have h : s.toNat ≤ 15 := by have := s.isLt; omega
  show decodeCodeLength s.toNat = _
  unfold decodeCodeLength
  rw [if_pos h, BitVec.ofNat_toNat, BitVec.setWidth_eq]
theorem clRepeatPrev : Statement .clRepeatPrev := of_encode rfl rfl
theorem clZeroShort : Statement .clZeroShort := of_encode rfl rfl
theorem clZeroLong : Statement .clZeroLong := of_encode rfl rfl
theorem lit (s : Byte) : Statement (.lit s) := by
  refine of_encode (slot := .litLen) (v := s.toNat) rfl ?_
  have h : s.toNat ≤ 255 := by have := s.isLt; omega
  show decodeLitLen s.toNat = _
  unfold decodeLitLen
  rw [if_pos h, BitVec.ofNat_toNat, BitVec.setWidth_eq]
theorem eob : Statement .eob := of_encode rfl rfl
theorem len257 : Statement .len257 := of_encode rfl rfl
theorem len258 : Statement .len258 := of_encode rfl rfl
theorem len259 : Statement .len259 := of_encode rfl rfl
theorem len260 : Statement .len260 := of_encode rfl rfl
theorem len261 : Statement .len261 := of_encode rfl rfl
theorem len262 : Statement .len262 := of_encode rfl rfl
theorem len263 : Statement .len263 := of_encode rfl rfl
theorem len264 : Statement .len264 := of_encode rfl rfl
theorem len265 : Statement .len265 := of_encode rfl rfl
theorem len266 : Statement .len266 := of_encode rfl rfl
theorem len267 : Statement .len267 := of_encode rfl rfl
theorem len268 : Statement .len268 := of_encode rfl rfl
theorem len269 : Statement .len269 := of_encode rfl rfl
theorem len270 : Statement .len270 := of_encode rfl rfl
theorem len271 : Statement .len271 := of_encode rfl rfl
theorem len272 : Statement .len272 := of_encode rfl rfl
theorem len273 : Statement .len273 := of_encode rfl rfl
theorem len274 : Statement .len274 := of_encode rfl rfl
theorem len275 : Statement .len275 := of_encode rfl rfl
theorem len276 : Statement .len276 := of_encode rfl rfl
theorem len277 : Statement .len277 := of_encode rfl rfl
theorem len278 : Statement .len278 := of_encode rfl rfl
theorem len279 : Statement .len279 := of_encode rfl rfl
theorem len280 : Statement .len280 := of_encode rfl rfl
theorem len281 : Statement .len281 := of_encode rfl rfl
theorem len282 : Statement .len282 := of_encode rfl rfl
theorem len283 : Statement .len283 := of_encode rfl rfl
theorem len284 : Statement .len284 := of_encode rfl rfl
theorem len285 : Statement .len285 := of_encode rfl rfl
theorem len286 : Statement .len286 := of_encode rfl rfl
theorem len287 : Statement .len287 := of_encode rfl rfl
theorem dist0 : Statement .dist0 := of_encode rfl rfl
theorem dist1 : Statement .dist1 := of_encode rfl rfl
theorem dist2 : Statement .dist2 := of_encode rfl rfl
theorem dist3 : Statement .dist3 := of_encode rfl rfl
theorem dist4 : Statement .dist4 := of_encode rfl rfl
theorem dist5 : Statement .dist5 := of_encode rfl rfl
theorem dist6 : Statement .dist6 := of_encode rfl rfl
theorem dist7 : Statement .dist7 := of_encode rfl rfl
theorem dist8 : Statement .dist8 := of_encode rfl rfl
theorem dist9 : Statement .dist9 := of_encode rfl rfl
theorem dist10 : Statement .dist10 := of_encode rfl rfl
theorem dist11 : Statement .dist11 := of_encode rfl rfl
theorem dist12 : Statement .dist12 := of_encode rfl rfl
theorem dist13 : Statement .dist13 := of_encode rfl rfl
theorem dist14 : Statement .dist14 := of_encode rfl rfl
theorem dist15 : Statement .dist15 := of_encode rfl rfl
theorem dist16 : Statement .dist16 := of_encode rfl rfl
theorem dist17 : Statement .dist17 := of_encode rfl rfl
theorem dist18 : Statement .dist18 := of_encode rfl rfl
theorem dist19 : Statement .dist19 := of_encode rfl rfl
theorem dist20 : Statement .dist20 := of_encode rfl rfl
theorem dist21 : Statement .dist21 := of_encode rfl rfl
theorem dist22 : Statement .dist22 := of_encode rfl rfl
theorem dist23 : Statement .dist23 := of_encode rfl rfl
theorem dist24 : Statement .dist24 := of_encode rfl rfl
theorem dist25 : Statement .dist25 := of_encode rfl rfl
theorem dist26 : Statement .dist26 := of_encode rfl rfl
theorem dist27 : Statement .dist27 := of_encode rfl rfl
theorem dist28 : Statement .dist28 := of_encode rfl rfl
theorem dist29 : Statement .dist29 := of_encode rfl rfl
theorem dist30 : Statement .dist30 := of_encode rfl rfl
theorem dist31 : Statement .dist31 := of_encode rfl rfl
theorem gzTrailer : Statement .gzTrailer := of_encode rfl rfl
theorem rb (n : Nat) : Statement (.rb n) := of_none rfl
theorem pb (n : Nat) : Statement (.pb n) := of_none rfl
theorem align : Statement .align := of_none rfl
theorem bitpos : Statement .bitpos := of_none rfl
theorem setmode (m : BitOrder) : Statement (.setmode m) := of_none rfl
theorem buildRanges (t : TableId) (pairs : List (Nat × Int)) : Statement (.buildRanges t pairs) := of_none rfl
theorem buildLengths (t : TableId) (lens : List Nat) : Statement (.buildLengths t lens) := of_none rfl
theorem find (t : TableId) : Statement (.find t) := of_none rfl
theorem append (v : Byte) : Statement (.append v) := of_none rfl
theorem copy (dist n : Nat) : Statement (.copy dist n) := of_none rfl

end RoundTrip

end Sys2Proof.Laws
end

