-- ==== Sys2Proof/Laws/Run.lean ====
section
/-! SUPPORT. What one turn of the run function (R530) answers, and the table ids of the table-view port (R498). -/

namespace Sys2Proof.Machine

open Sys2Proof

@[simp] theorem run_zero (s : State) : run 0 s = .goesOn s := rfl

/-- DONE ends the run. -/
theorem run_done {n : Nat} {s : State} (h : s.ports.done = true) : run (n + 1) s = .done s := by
  rw [run, if_pos h]

/-- ERROR ends the run. -/
theorem run_error {n : Nat} {s : State} (hd : s.ports.done = false) (he : s.ports.error = true) :
    run (n + 1) s = .error s := by
  rw [run, hd, if_neg (by simp), if_pos he]

/-- Else a step is taken, and it is the last where it leaves the block at a port with no act of the host left. -/
theorem run_next {n : Nat} {s t : State} (hd : s.ports.done = false) (he : s.ports.error = false)
    (h : step s = .next t) : run (n + 1) s = if s.host.isEmpty && t.atPort then .waits t else run n t := by
  rw [run, hd, he, h]; rfl

/-- A refused act of the host ends the run. -/
theorem run_refused {n : Nat} {s : State} {r : Refusal} (hd : s.ports.done = false) (he : s.ports.error = false)
    (h : step s = .refused r) : run (n + 1) s = .refused r := by
  rw [run, hd, he, h]; rfl

@[simp] theorem presentedBytes_nil : presentedBytes [] = 0 := rfl
@[simp] theorem presentedBytes_present (bytes : List Byte) (acts : List HostAct) :
    presentedBytes (.present bytes :: acts) = bytes.length + presentedBytes acts := rfl

/-- A table id names a table exactly for the ids of R498. -/
theorem tableOfCode_isSome (n : Nat) : (tableOfCode n).isSome = true ↔ n ≤ 2 := by
  match n with
  | 0 => decide
  | 1 => decide
  | 2 => decide
  | n + 3 => exact ⟨fun h => (by cases h), fun h => (by omega)⟩

end Sys2Proof.Machine
end

