-- ==== Sys2Proof/Tests/Slice0.lean ====
section
/-! SUPPORT. The model's own tests: ill-formed operands refused, the spec's words decoded, one step on a small state
with the value the spec's vectors give, and for each statement with hypotheses a state that meets them. -/

namespace Sys2Proof.Tests

set_option Elab.async false

open Sys2Proof Sys2Proof.Machine

/-! ## Well-formedness: each check refuses an ill-formed term -/

theorem test_wf_rb : (Instr.rb 32).wf = true ∧ (Instr.rb 33).wf = false := by decide
theorem test_wf_pb : (Instr.pb 32).wf = true ∧ (Instr.pb 33).wf = false := by decide
theorem test_wf_ranges_first_start : (Instr.buildRanges .d [(1, 5), (32, -1)]).wf = false := by decide
theorem test_wf_ranges_ascend : (Instr.buildRanges .d [(0, 5), (9, 5), (9, 5), (32, -1)]).wf = false := by decide
theorem test_wf_ranges_last_pair : (Instr.buildRanges .d [(0, 5), (32, 5)]).wf = false := by decide
theorem test_wf_ranges_capacity : (Instr.buildRanges .d [(0, 5), (33, -1)]).wf = false := by decide
theorem test_wf_ranges_fixed : (Instr.buildRanges .ll fixedLL).wf = true ∧ (Instr.buildRanges .d fixedD).wf = true := by
  decide
theorem test_wf_ranges_empty : (Instr.buildRanges .d [(0, -1)]).wf = true ∧ (Instr.buildRanges .d [(1, -1)]).wf = false ∧
    (Instr.buildRanges .d [(0, 5)]).wf = false := by decide
theorem test_wf_lengths_too_long : (Instr.buildLengths .cl [16]).wf = false := by decide
theorem test_wf_lengths_too_many : (Instr.buildLengths .cl (List.replicate 20 1)).wf = false := by decide
theorem test_wf_copy_distance :
    (Instr.copy 0 3).wf = false ∧ (Instr.copy 32769 3).wf = false ∧ (Instr.copy 32768 258).wf = true := by decide
theorem test_wf_copy_length : (Instr.copy 1 2).wf = false ∧ (Instr.copy 1 259).wf = false := by decide

/-! ## Decoding: words written out from the spec's encodings (R111 to R120, R123, R124, R126, R127) -/

theorem test_decode_header_fields :
    decodeTableWord 16 0b0001111110001011 = some .gzMagic ∧ decodeTableWord 8 0b00001000 = some .gzCm ∧
    decode (.phase .flg) 0x1A = .ok .gzFlg ∧ decodeTableWord 32 0 = some .gzMtime ∧
    decode (.phase .xfl) 0 = .ok .gzXfl ∧ decode (.phase .os) 0xFF = .ok .gzOs ∧
    decode .flags 0b00000100 = .ok .gzFextra ∧ decode (.phase .fname) 0x61 = .ok .gzFnameByte ∧
    decode (.phase .fcomment) 0x68 = .ok .gzFcommentByte ∧ decode (.phase .fhcrc) 0x1305 = .ok .gzFhcrc ∧
    decode (.phase .trailer) 0x000000047C9CA35A = .ok .gzTrailer := by decide

theorem test_decode_blocks :
    decode (.phase .blkhdr) 0b011 = .ok .blkhdr ∧ decode .header 0b001 = .ok .blkStored ∧
    decode .header 0b011 = .ok .blkFixed ∧ decode .header 0b101 = .ok .blkDynamic ∧
    decode .header 0b111 = .ok .blkReserved ∧ decode (.phase .storedHdr) 0xFFFB0004 = .ok .storedHdr ∧
    decode (.phase .storedData) 0xDE = .ok .storedByte ∧ decode (.phase .dynHdr) 0 = .ok .dynHdr := by decide

theorem test_decode_code_lengths :
    decode .codeLength 0b00000 = .ok (.clLenLit 0) ∧ decode .codeLength 0b01111 = .ok (.clLenLit 15) ∧
    decode .codeLength 0b10000 = .ok .clRepeatPrev ∧ decode .codeLength 0b10001 = .ok .clZeroShort ∧
    decode .codeLength 0b10010 = .ok .clZeroLong ∧ decode .codeLength 0b10011 = .error (.notCodeLength 19) := by decide

theorem test_decode_literals :
    decodeTableWord 9 0b000000000 = some (.lit 0) ∧ decodeTableWord 9 0b001100001 = some (.lit 0x61) ∧
    decodeTableWord 9 0b011111111 = some (.lit 0xFF) ∧ decodeTableWord 9 0b100000000 = some .eob := by decide

theorem test_decode_lengths_a :
    decodeTableWord 9 0b100000001 = some .len257 ∧
    decodeTableWord 9 0b100000010 = some .len258 ∧
    decodeTableWord 9 0b100000011 = some .len259 ∧
    decodeTableWord 9 0b100000100 = some .len260 ∧
    decodeTableWord 9 0b100000101 = some .len261 ∧
    decodeTableWord 9 0b100000110 = some .len262 ∧
    decodeTableWord 9 0b100000111 = some .len263 ∧
    decodeTableWord 9 0b100001000 = some .len264 ∧
    decodeTableWord 9 0b100001001 = some .len265 ∧
    decodeTableWord 9 0b100001010 = some .len266 ∧
    decodeTableWord 9 0b100001011 = some .len267 := by decide

theorem test_decode_lengths_b :
    decodeTableWord 9 0b100001100 = some .len268 ∧
    decodeTableWord 9 0b100001101 = some .len269 ∧
    decodeTableWord 9 0b100001110 = some .len270 ∧
    decodeTableWord 9 0b100001111 = some .len271 ∧
    decodeTableWord 9 0b100010000 = some .len272 ∧
    decodeTableWord 9 0b100010001 = some .len273 ∧
    decodeTableWord 9 0b100010010 = some .len274 ∧
    decodeTableWord 9 0b100010011 = some .len275 ∧
    decodeTableWord 9 0b100010100 = some .len276 ∧
    decodeTableWord 9 0b100010101 = some .len277 ∧
    decodeTableWord 9 0b100010110 = some .len278 := by decide

theorem test_decode_lengths_c :
    decodeTableWord 9 0b100010111 = some .len279 ∧
    decodeTableWord 9 0b100011000 = some .len280 ∧
    decodeTableWord 9 0b100011001 = some .len281 ∧
    decodeTableWord 9 0b100011010 = some .len282 ∧
    decodeTableWord 9 0b100011011 = some .len283 ∧
    decodeTableWord 9 0b100011100 = some .len284 ∧
    decodeTableWord 9 0b100011101 = some .len285 ∧
    decodeTableWord 9 0b100011110 = some .len286 ∧
    decodeTableWord 9 0b100011111 = some .len287 := by decide

theorem test_decode_distances_a :
    decode .distance 0b00000 = .ok .dist0 ∧
    decode .distance 0b00001 = .ok .dist1 ∧
    decode .distance 0b00010 = .ok .dist2 ∧
    decode .distance 0b00011 = .ok .dist3 ∧
    decode .distance 0b00100 = .ok .dist4 ∧
    decode .distance 0b00101 = .ok .dist5 ∧
    decode .distance 0b00110 = .ok .dist6 ∧
    decode .distance 0b00111 = .ok .dist7 ∧
    decode .distance 0b01000 = .ok .dist8 ∧
    decode .distance 0b01001 = .ok .dist9 ∧
    decode .distance 0b01010 = .ok .dist10 := by decide

theorem test_decode_distances_b :
    decode .distance 0b01011 = .ok .dist11 ∧
    decode .distance 0b01100 = .ok .dist12 ∧
    decode .distance 0b01101 = .ok .dist13 ∧
    decode .distance 0b01110 = .ok .dist14 ∧
    decode .distance 0b01111 = .ok .dist15 ∧
    decode .distance 0b10000 = .ok .dist16 ∧
    decode .distance 0b10001 = .ok .dist17 ∧
    decode .distance 0b10010 = .ok .dist18 ∧
    decode .distance 0b10011 = .ok .dist19 ∧
    decode .distance 0b10100 = .ok .dist20 ∧
    decode .distance 0b10101 = .ok .dist21 := by decide

theorem test_decode_distances_c :
    decode .distance 0b10110 = .ok .dist22 ∧
    decode .distance 0b10111 = .ok .dist23 ∧
    decode .distance 0b11000 = .ok .dist24 ∧
    decode .distance 0b11001 = .ok .dist25 ∧
    decode .distance 0b11010 = .ok .dist26 ∧
    decode .distance 0b11011 = .ok .dist27 ∧
    decode .distance 0b11100 = .ok .dist28 ∧
    decode .distance 0b11101 = .ok .dist29 ∧
    decode .distance 0b11110 = .ok .dist30 ∧
    decode .distance 0b11111 = .ok .dist31 := by decide

theorem test_decode_rejects :
    decode .litLen 288 = .error (.notLitLen 288) ∧ decode .distance 32 = .error (.notDistance 32) ∧
    decode .header 8 = .error (.notHeader 8) ∧ decode .flags 0x1A = .error (.noFlagCheck 0x1A) ∧
    decode (.phase .done) 0 = .error (.noElement .done) := by decide

/-- 95_test_vectors.md section 3.2. -/
theorem test_fixed_codes :
    fixedLitLenBits 0 = [false, false, true, true, false, false, false, false] ∧
    fixedLitLenBits 144 = [true, true, false, false, true, false, false, false, false] ∧
    fixedLitLenBits 279 = [false, false, true, false, true, true, true] ∧
    fixedLitLenBits 287 = [true, true, false, false, false, true, true, true] ∧
    fixedDistanceBits 29 = [true, true, true, false, true] := by decide

/-! ## Helpers: small states -/

/-- Bytes of the input. -/
def bytes (l : List Nat) : List Byte := l.map (BitVec.ofNat 8)

/-- A fresh reader in LSB-first order with these bytes, the input ended, in phase `p`. -/
def at_ (p : Phase) (l : List Nat) : State :=
  { State.reset with
    reader := { State.reset.reader with mode := .lsb }
    seq := { State.reset.seq with phase := p }
    input := bytes l
    inputEnd := true }

/-- The machine after reset with this whole input. -/
def start (l : List Nat) : State := { State.reset with input := bytes l, inputEnd := true }

/-- The input not ended. -/
def open_ (s : State) : State := { s with inputEnd := false }

/-- The fixed tables in place (R207, R208). -/
def fixed (s : State) : State :=
  s.withTables { s.tables with ll := tableOf (expandRanges fixedLL), d := tableOf (expandRanges fixedD) }

/-- A history of these bytes. -/
def history (l : List Nat) (s : State) : State := (bytes l).foldl (fun t v => outAppend v t) s

/-- What is seen of a next state. -/
def see {α : Type} (o : Host.Outcome State Fault Refusal) (f : State → α) : Option α :=
  match o with
  | .next t => some (f t)
  | .fault _ => none
  | .refused _ => none

theorem see_next {α : Type} {o : Host.Outcome State Fault Refusal} {f : State → α} {a : α} (h : see o f = some a) :
    ∃ t, o = .next t ∧ f t = a := by
  cases o with
  | next t => exact ⟨t, rfl, Option.some.inj h⟩
  | fault _ => cases h
  | refused _ => cases h

/-- Error kind, error position and bytes requested. -/
def error (t : State) : ErrKind × Nat × Nat := (t.ports.errKind, t.ports.errBitpos, t.reader.nfetch)

/-! ## The bit reader: 95_test_vectors.md section 2 -/

theorem test_rb_lsb : see (exec (.rb 3) (at_ .cm [0x4b, 0x4c])) (fun t => (t.result, t.bitPos, t.reader.acc, t.reader.cnt))
    = some (3, 3, 0x09, 5) := by decide +kernel
theorem test_rb_msb : see (exec (.rb 16) (start [0x1f, 0x8b])) (fun t => (t.result, t.bitPos)) = some (0x1F8B, 16) := by
  decide +kernel
theorem test_pb : see (exec (.pb 8) ((at_ .cm [0x4b, 0x4c]).afterRead 3)) (fun t => (t.result, t.bitPos, t.reader.nfetch))
    = some (0x89, 3, 2) := by decide +kernel
theorem test_pb_eof : see (exec (.pb 8) ((at_ .cm [0xab]).afterRead 4)) error = some (.unexpectedEof, 4, 1) := by
  decide +kernel
theorem test_align : see (exec .align ((at_ .cm [0xff, 0x12]).afterRead 3)) (fun t => (t.result, t.bitPos)) = some (5, 8) := by
  decide +kernel
theorem test_bitpos : see (exec .bitpos ((at_ .cm [1, 2, 3, 4, 5]).afterRead 33)) (fun t => t.result) = some 33 := by
  decide +kernel
theorem test_setmode : see (exec (.setmode .msb) (at_ .cm [0xff])) (fun t => t.reader.mode) = some .msb := by
  decide +kernel
theorem test_setmode_buffered :
    exec (.setmode .msb) ((at_ .cm [0xff]).afterRead 3) = .refused (.setModeBuffered 5) := rfl

/-! ## The container: section 4, P1 and P7 -/

theorem test_magic : see (step (start [0x1f, 0x8b])) (fun t => (t.bitPos, t.reader.mode, t.seq.phase))
    = some (16, .lsb, .cm) := by decide +kernel
theorem test_magic_bad : see (step (start [0x1f, 0x8c])) (fun t => (error t, statusWord t))
    = some ((.badMagic, 16, 2), 0x00000112) := by decide +kernel
theorem test_cm_bad : see (step (at_ .cm [9])) error = some (.unsupportedMethod, 8, 1) := by decide +kernel
theorem test_flg : see (step (at_ .flg [0x1A])) (fun t => (t.seq.flg, t.seq.phase)) = some (0x1A, .mtime) := by
  decide +kernel
theorem test_mtime_eof : see (step (at_ .mtime [1, 2, 3])) error = some (.unexpectedEof, 0, 3) := by decide +kernel
theorem test_os_name : see (step ((at_ .os [3]).withSeq { (at_ .os [3]).seq with flg := 0x1A }))
    (fun t => t.seq.phase) = some .fname := by decide +kernel
theorem test_os_extra : see (step ((at_ .os [0xff]).withSeq { (at_ .os [0xff]).seq with flg := 4 })) error
    = some (.unsupportedFeature, 8, 1) := by decide +kernel
theorem test_name_end : see (step ((at_ .fname [0]).withSeq { (at_ .fname [0]).seq with flg := 0x1A }))
    (fun t => t.seq.phase) = some .fcomment := by decide +kernel
theorem test_comment_end : see (step ((at_ .fcomment [0]).withSeq { (at_ .fcomment [0]).seq with flg := 0x1A }))
    (fun t => t.seq.phase) = some .fhcrc := by decide +kernel
theorem test_trailer : see (step (at_ .trailer [0x5a, 0xa3, 0x9c, 0x7c, 4, 0, 0, 0]))
    (fun t => (t.ports.trailerCrc32, t.ports.trailerIsize, t.ports.done)) = some (0x7C9CA35A, 4, true) := by
  decide +kernel

/-! ## Blocks: section 5, P1, P4 and P6 -/

theorem test_blkhdr_reserved : see (step (at_ .blkhdr [0x07])) (fun t => (error t, t.seq.bfinal, t.seq.btype))
    = some ((.invalidBlockType, 3, 1), true, 3) := by decide +kernel
theorem test_blkhdr_fixed : see (step (at_ .blkhdr [0x4b])) (fun t => (t.tables.ll.size, t.tables.d.size, t.seq.phase))
    = some (288, 32, .symbol) := by decide +kernel
theorem test_stored_hdr : see (step (at_ .storedHdr [4, 0, 0xfb, 0xff])) (fun t => (t.seq.storedRem, t.seq.phase))
    = some (4, .storedData) := by decide +kernel
theorem test_stored_mismatch : see (step (at_ .storedHdr [4, 0, 0xff, 0xff])) error = some (.lengthMismatch, 32, 4) := by
  decide +kernel
theorem test_stored_exact :
    see (step { at_ .storedHdr [4, 0, 0, 0] with params := ⟨.exactComplement, true⟩ }) error
      = some (.lengthMismatch, 32, 4) := by decide +kernel
theorem test_stored_byte :
    see (step ((at_ .storedData [0xde]).withSeq { (at_ .storedData [0xde]).seq with storedRem := 2 }))
      (fun t => (t.history.bytes, t.seq.storedRem, t.ports.outChunk)) = some ([0xde], 1, [0xde]) := by decide +kernel
theorem test_dyn_hdr : see (step ((at_ .dynHdr [0x0d, 0xc0, 0x81, 0, 0, 0, 0, 0x80, 0x20]).afterRead 3))
    (fun t => [t.seq.hlit.toNat, t.seq.hdist.toNat, t.seq.hclen.toNat, t.bitPos] ++ t.tables.cl.entries.map fun e => e.code)
    = some ([258, 1, 18, 71] ++ [18, 1, 2]) := by decide +kernel

/-- A dynamic block with `total` lengths declared and `done` (the last of them `last`) appended. -/
def inLens (total done last : Nat) (l : List Nat) : State :=
  let s := at_ .dynLens l
  s.withSeq { s.seq with
    hlit := BitVec.ofNat 9 (total - 1), hdist := 1, lensN := done
    lens := s.seq.lens.setIfInBounds (done - 1) (BitVec.ofNat 4 last) }

/-- The length list up to LENS_N. -/
def lensOf (t : State) : List Nat := (t.seq.lens.toList.take t.seq.lensN).map BitVec.toNat

theorem test_cl_lit : see (exec (.clLenLit 8) (inLens 258 0 0 [])) lensOf = some [8] := by decide +kernel
theorem test_cl_repeat : see (exec .clRepeatPrev (inLens 258 1 8 [3])) lensOf = some [8, 8, 8, 8, 8, 8, 8] := by
  decide +kernel
theorem test_cl_repeat_first : see (exec .clRepeatPrev (inLens 258 0 0 [3])) error
    = some (.invalidCodeLengthSymbol, 0, 0) := by decide +kernel
theorem test_cl_zero_short : see (exec .clZeroShort (inLens 258 0 0 [7])) lensOf = some (List.replicate 10 0) := by
  decide +kernel
theorem test_cl_zero_long : see (exec .clZeroLong (inLens 258 0 0 [0])) lensOf = some (List.replicate 11 0) := by
  decide +kernel
theorem test_cl_overrun : see (exec .clZeroLong (inLens 258 138 0 [0x7f])) error
    = some (.invalidCodeLengthSymbol, 7, 1) := by decide +kernel

/-! ## Symbols: section 6, P2, P3 and P8 -/

theorem test_lit : see (step (fixed (at_ .symbol [0x89]))) (fun t => (t.history.bytes, t.ports.outChunk, t.bitPos))
    = some ([0x61], [0x61], 8) := by decide +kernel
theorem test_eob : see (step (fixed (at_ .symbol [0x00]))) (fun t => (t.seq.phase, t.bitPos)) = some (.blkhdr, 7) := by
  decide +kernel

/-- P3: length code 259 `0000011`, then distance code 1 `00001`, after `AB`. -/
theorem test_len259_dist1 : see (step (history [0x41, 0x42] (fixed (at_ .symbol [0x60, 0x08]))))
    (fun t => (t.history.bytes, t.ports.outChunk, t.bitPos))
    = some ([0x41, 0x42, 0x41, 0x42, 0x41, 0x42, 0x41], [0x41, 0x42, 0x41, 0x42, 0x41], 12) := by decide +kernel

/-- P5: length code 258 `0000010`, distance code 1, after `xy`. -/
theorem test_len258_dist1 : see (step (history [0x78, 0x79] (fixed (at_ .symbol [0x20, 0x08]))))
    (fun t => (t.history.bytes, t.bitPos)) = some ([0x78, 0x79, 0x78, 0x79, 0x78, 0x79], 12) := by decide +kernel

/-- Section 6.1: `LEN 285` reads no extra bit. -/
theorem test_len285 : see (exec .len285 (fixed (at_ .symbol [0x00]))) error = some (.distanceTooFar, 5, 1) := by
  decide +kernel

/-- Section 6.1: `LEN 265 +1` gives 12. -/
theorem test_len265 : see (exec .len265 (history [0x5a] (fixed (at_ .symbol [0x01]))))
    (fun t => t.ports.outChunk.length) = some 12 := by decide +kernel
theorem test_len286 : see (step (fixed (at_ .symbol [0x63]))) error = some (.invalidLengthSymbol, 8, 1) := by
  decide +kernel
theorem test_dist_far : see (step (fixed (at_ .symbol [0x40, 0x00]))) error = some (.distanceTooFar, 12, 2) := by
  decide +kernel
theorem test_dist30 : see (step (fixed (at_ .symbol [0xC0, 0x07]))) error
    = some (.invalidDistanceSymbol, 12, 2) := by decide +kernel
theorem test_dist29_max : see (exec .dist29 (at_ .symbol [0xff, 0xff])) (fun t => t.result) = some 32768 := by
  decide +kernel
theorem test_dist7 : see (exec .dist7 (at_ .symbol [0x03])) (fun t => t.result) = some 16 := by decide +kernel

/-! ## Tables: section 3 -/

/-- V-HB-1. -/
theorem test_build : see (exec (.buildLengths .cl [2, 1, 3, 3]) State.reset) (fun t => t.tables.cl.entries)
    = some [⟨1, 1, 0, 0⟩, ⟨0, 2, 2, 1⟩, ⟨2, 3, 6, 3⟩, ⟨3, 3, 7, 7⟩] := by decide +kernel

/-- V-HB-6. -/
theorem test_build_malformed : see (exec (.buildLengths .cl [1, 1, 1]) State.reset)
    (fun t => (t.tables.cl.size, t.tables.cl.malformed)) = some (3, true) := by decide +kernel
theorem test_build_ranges : see (exec (.buildRanges .d fixedD) State.reset)
    (fun t => t.tables.d.entries.map fun e => e.bits) = some (List.replicate 32 5) := by decide +kernel

/-- The terminal pair alone: R201's loop does not run, and the table is empty. -/
theorem test_build_ranges_empty : see (exec (.buildRanges .d [(0, -1)]) (fixed State.reset))
    (fun t => (t.tables.d.size, t.tables.d.malformed, t.tables.ll.size)) = some (0, false, 288) := by decide +kernel

/-- A table in T_CL. -/
def withCl (lens : List Nat) (s : State) : State := s.withTables { s.tables with cl := tableOf lens }

/-- V-HF-3 and V-HF-12. -/
theorem test_find : see (exec (.find .cl) (withCl [2, 1, 3, 3] (at_ .dynLens [0x03]))) (fun t => (t.result, t.bitPos))
    = some (2, 3) := by decide +kernel
theorem test_find_none : see (exec (.find .cl) (withCl [0, 0, 0, 15, 15] (at_ .dynLens [0xff, 0xff]))) error
    = some (.symbolNotFound, 0, 2) := by decide +kernel

theorem test_append : see (exec (.append 0x42) (history [0x41] State.reset)) (fun t => t.history.bytes)
    = some [0x41, 0x42] := by decide +kernel

/-- S-OVERLAP. -/
theorem test_copy : see (exec (.copy 2 5) (history [0x41, 0x42] State.reset)) (fun t => t.history.bytes)
    = some [0x41, 0x42, 0x41, 0x42, 0x41, 0x42, 0x41] := by decide +kernel

/-! ## Reset and waits: section 10 -/

/-- V-RST-3. -/
theorem test_wait : see (step State.reset) (fun t => (t.reader.inWait, statusWord t)) = some (true, 0x00000008) := by
  decide +kernel

/-- The three ends of a run: a wait at an open port, an error at a port that answers `End`, and P_DONE. -/
theorem test_run_waits : ∃ t, State.reset.runToEnd = .waits t ∧ t.reader.inWait = true := ⟨_, rfl, rfl⟩
theorem test_run_error : ∃ t, (start []).runToEnd = .error t ∧ t.ports.errKind = .unexpectedEof := ⟨_, rfl, rfl⟩
theorem test_run_done : ∃ t, (at_ .trailer [0x5a, 0xa3, 0x9c, 0x7c, 4, 0, 0, 0]).runToEnd = .done t ∧
    t.ports.trailerIsize = 4 := ⟨_, rfl, by decide +kernel⟩

/-- A read that needs bytes the port has not given waits, and with them goes on. -/
theorem test_resume : see (step (open_ (start [0x1f]))) (fun t => see (step { t with host := [.present [0x8b]] })
    (fun u => see (step u) (fun v => (v.seq.phase, v.bitPos)))) = some (some (some (.cm, 16))) := by decide +kernel
theorem test_reset : see (step { start [0x1f, 0x8c] with host := [.reset Params.default] })
    (fun t => (statusWord t, t.reader.mode, t.input)) = some (0, .msb, []) := by decide +kernel

/-- Each table word placed at the fetch runs as the first instruction after reset. -/
theorem test_fetch_word : see (step (State.reset.withFetchWord 16 0x1F8B)) (fun t => t.seq.phase) = some .cm ∧
    see (step (State.reset.withFetchWord 9 0x061)) (fun t => t.history.bytes) = some [0x61] ∧
    see (step (State.reset.withFetchWord 9 0x11E)) (fun t => t.ports.errKind) = some .invalidLengthSymbol := by
  decide +kernel

/-! ## Hypotheses that can be met: for each statement a state and operands that meet all its hypotheses together, one
for each of its clauses, at an end of the clause's range -/

/-- A reader that buffers nothing is in order. -/
theorem empty_ok {s : State} (h : s.reader.acc = 0 ∧ s.reader.cnt = 0) : s.reader.ok := by
  unfold Reader.ok; rw [h.1, h.2]; exact ⟨Nat.one_pos, Nat.zero_le _⟩

/-- What a completed operation returned. -/
def took {α : Type} (r : Res α) : Option α :=
  match r with
  | .ok a _ => some a
  | _ => none

theorem took_ok {α : Type} {r : Res α} {a : α} (h : took r = some a) : ∃ t, r = .ok a t := by
  cases r with
  | ok b t => exact ⟨t, by rw [Option.some.inj h]⟩
  | _ => cases h

/-- A reader in the middle of a byte: three bits of the first byte taken. -/
def mid (p : Phase) (l : List Nat) : State := (at_ p l).afterRead 3

theorem mid_ok : (mid .cm [0xff, 0x12]).reader.ok := ⟨by decide +kernel, by decide +kernel⟩

/-- FLG with this value. -/
def withFlg (f : Nat) (s : State) : State := s.withSeq { s.seq with flg := BitVec.ofNat 8 f }

theorem test_witness_DecodeOfEncode : (Instr.lit 0xFF).wf = true ∧ encode (.lit 0xFF) = some (.litLen, 255) := by decide

theorem test_witness_EncodeOfDecode :
    decode .codeLength 18 = .ok .clZeroLong ∧ decode .litLen 287 = .ok .len287 ∧ decode .distance 31 = .ok .dist31 ∧
    decode .header (1 + 2 * 3) = .ok .blkReserved := by decide

theorem test_witness_ReadBitsTakesNextField :
    (at_ .cm [1, 2, 3, 4]).reader.ok ∧ 32 ≤ (at_ .cm [1, 2, 3, 4]).upcoming.length ∧
    (at_ .cm [1, 2, 3]).reader.ok ∧ (at_ .cm [1, 2, 3]).upcoming.length < 32 ∧ 32 < 33 :=
  ⟨empty_ok (by decide +kernel), by decide +kernel, empty_ok (by decide +kernel), by decide +kernel, by decide⟩

theorem test_witness_PeekBitsConsumesNothing :
    (mid .cm [0xff, 0x12]).reader.ok ∧ 13 ≤ (mid .cm [0xff, 0x12]).upcoming.length ∧
    (mid .cm [0xff, 0x12]).upcoming.length < 14 ∧ 32 < 33 :=
  ⟨mid_ok, by decide +kernel, by decide +kernel, by decide⟩

theorem test_witness_AlignReachesByteBoundary : (mid .cm [0xff, 0x12]).reader.ok := mid_ok

theorem test_witness_SetModeNeedsEmptyReader :
    (at_ .cm []).reader.cnt = 0 ∧ (mid .cm [0xff, 0x12]).reader.cnt ≠ 0 := by decide +kernel

theorem test_witness_ReadsSplit :
    (at_ .cm [0x4b, 0x4c]).reader.ok ∧ (at_ .cm [0x4b, 0x4c]).reader.mode = .lsb ∧
    (start [0x1f, 0x8b]).reader.ok ∧ (start [0x1f, 0x8b]).reader.mode = .msb ∧
    5 + 11 ≤ (at_ .cm [0x4b, 0x4c]).upcoming.length ∧ 4 + 12 ≤ (start [0x1f, 0x8b]).upcoming.length :=
  ⟨empty_ok (by decide +kernel), rfl, empty_ok (by decide +kernel), rfl, by decide +kernel, by decide +kernel⟩

theorem test_witness_ByteFieldsHaveByteOrder :
    (at_ .mtime [1, 2, 3, 4]).reader.ok ∧ (at_ .mtime [1, 2, 3, 4]).reader.cnt = 0 ∧
    (at_ .mtime [1, 2, 3, 4]).input.drop 0 = [1, 2, 3, 4] ∧ (start [0x1f, 0x8b, 8, 0]).reader.ok ∧
    (start [0x1f, 0x8b, 8, 0]).reader.cnt = 0 ∧ (start [0x1f, 0x8b, 8, 0]).input.drop 0 = [0x1f, 0x8b, 8, 0] :=
  ⟨empty_ok (by decide +kernel), by decide +kernel, by decide +kernel, empty_ok (by decide +kernel), by decide +kernel, by decide +kernel⟩

/-- Three bytes buffered in MSB-first order before the magic is read. -/
def early : State :=
  { start [0x1f, 0x8b, 8] with reader := { State.reset.reader with acc := 0x1F8B08, cnt := 24, nfetch := 3 } }

theorem test_witness_MagicSelectsLsbFirst :
    ((start [0x1f, 0x8b]).reader.ok ∧ 16 ≤ (start [0x1f, 0x8b]).upcoming.length ∧
      (start [0x1f, 0x8b]).nextField 16 = 0x1F8B ∧ ((start [0x1f, 0x8b]).afterRead 16).reader.cnt = 0) ∧
    (early.reader.ok ∧ 16 ≤ early.upcoming.length ∧ early.nextField 16 = 0x1F8B ∧ (early.afterRead 16).reader.cnt ≠ 0) ∧
    (16 ≤ (start [0x1f, 0x8c]).upcoming.length ∧ (start [0x1f, 0x8c]).nextField 16 ≠ 0x1F8B) ∧
    (start [0x1f]).upcoming.length < 16 :=
  ⟨⟨empty_ok (by decide +kernel), by decide +kernel, by decide +kernel, by decide +kernel⟩,
    ⟨⟨by decide +kernel, by decide +kernel⟩, by decide +kernel, by decide +kernel, by decide +kernel⟩,
    ⟨by decide +kernel, by decide +kernel⟩, by decide +kernel⟩

theorem test_witness_MethodMustBeEight :
    (at_ .cm [8]).reader.ok ∧ (8 ≤ (at_ .cm [8]).upcoming.length ∧ (at_ .cm [8]).nextField 8 = 8) ∧
    (8 ≤ (at_ .cm [9]).upcoming.length ∧ (at_ .cm [9]).nextField 8 ≠ 8) ∧ (at_ .cm []).upcoming.length < 8 :=
  ⟨empty_ok (by decide +kernel), by decide +kernel⟩

theorem test_witness_FlagByteIsKept :
    (at_ .flg [0x1A]).reader.ok ∧ 8 ≤ (at_ .flg [0x1A]).upcoming.length ∧ (at_ .flg []).upcoming.length < 8 :=
  ⟨empty_ok (by decide +kernel), by decide +kernel⟩

theorem test_witness_HeaderFieldsAreDiscarded :
    (at_ .mtime [1, 2, 3, 4]).reader.ok ∧ 32 ≤ (at_ .mtime [1, 2, 3, 4]).upcoming.length ∧
    (at_ .mtime [1, 2, 3]).reader.ok ∧ (at_ .mtime [1, 2, 3]).upcoming.length < 32 ∧
    (at_ .xfl [2]).reader.ok ∧ 8 ≤ (at_ .xfl [2]).upcoming.length ∧
    (at_ .xfl []).reader.ok ∧ (at_ .xfl []).upcoming.length < 8 ∧
    (at_ .fhcrc [5, 0x13]).reader.ok ∧ 16 ≤ (at_ .fhcrc [5, 0x13]).upcoming.length ∧
    (at_ .fhcrc [5]).reader.ok ∧ (at_ .fhcrc [5]).upcoming.length < 16 :=
  ⟨empty_ok (by decide +kernel), by decide +kernel, empty_ok (by decide +kernel), by decide +kernel,
    empty_ok (by decide +kernel), by decide +kernel, empty_ok (by decide +kernel), by decide +kernel,
    empty_ok (by decide +kernel), by decide +kernel, empty_ok (by decide +kernel), by decide +kernel⟩

theorem test_witness_OsByteChecksExtraFlag :
    (withFlg 0x1A (at_ .os [3])).reader.ok ∧ 8 ≤ (withFlg 0x1A (at_ .os [3])).upcoming.length ∧
    (withFlg 0x1A (at_ .os [3])).seq.flg.getLsbD 2 = false ∧ (withFlg 4 (at_ .os [3])).reader.ok ∧
    (withFlg 4 (at_ .os [3])).seq.flg.getLsbD 2 = true ∧ (withFlg 4 (at_ .os [])).upcoming.length < 8 :=
  ⟨empty_ok (by decide +kernel), by decide +kernel, by decide +kernel, empty_ok (by decide +kernel), by decide +kernel, by decide +kernel⟩

theorem test_witness_HeaderStringsEndAtZero :
    (at_ .fname [0x61]).reader.ok ∧ (8 ≤ (at_ .fname [0x61]).upcoming.length ∧ (at_ .fname [0x61]).nextField 8 ≠ 0) ∧
    (8 ≤ (at_ .fname [0]).upcoming.length ∧ (at_ .fname [0]).nextField 8 = 0) ∧ (at_ .fname []).upcoming.length < 8 :=
  ⟨empty_ok (by decide +kernel), by decide +kernel⟩

theorem test_witness_TrailerIsCapturedUnchecked :
    (mid .trailer [0, 1, 2, 3, 4, 5, 6, 7, 8]).reader.ok ∧
    (mid .trailer [0, 1, 2, 3, 4, 5, 6, 7, 8]).reader.cnt % 8 + 64
      ≤ (mid .trailer [0, 1, 2, 3, 4, 5, 6, 7, 8]).upcoming.length ∧
    (mid .trailer [0, 1, 2, 3]).upcoming.length < (mid .trailer [0, 1, 2, 3]).reader.cnt % 8 + 32 ∧
    ((mid .trailer [0, 1, 2, 3, 4]).reader.cnt % 8 + 32 ≤ (mid .trailer [0, 1, 2, 3, 4]).upcoming.length ∧
      (mid .trailer [0, 1, 2, 3, 4]).upcoming.length < (mid .trailer [0, 1, 2, 3, 4]).reader.cnt % 8 + 64) :=
  ⟨⟨by decide +kernel, by decide +kernel⟩, by decide +kernel⟩

/-- One bit left. -/
def oneBit : State := (at_ .blkhdr [0x80]).afterRead 7

theorem test_witness_BlockHeaderSelectsContinuation :
    (at_ .blkhdr [1]).reader.ok ∧ 3 ≤ (at_ .blkhdr [1]).upcoming.length ∧
    ((at_ .blkhdr [1]).afterRead 1).nextField 2 = 0 ∧ ((at_ .blkhdr [3]).afterRead 1).nextField 2 = 1 ∧
    ((at_ .blkhdr [5]).afterRead 1).nextField 2 = 2 ∧ ((at_ .blkhdr [7]).afterRead 1).nextField 2 = 3 ∧
    (at_ .blkhdr []).upcoming.length = 0 ∧ oneBit.reader.acc < 2 ^ oneBit.reader.cnt ∧ oneBit.upcoming.length = 1 :=
  ⟨empty_ok (by decide +kernel), by decide +kernel⟩

theorem test_witness_StoredHeaderChecksLength :
    (mid .storedHdr [1, 4, 0, 0xfb, 0xff]).reader.ok ∧
    (let a := (mid .storedHdr [1, 4, 0, 0xfb, 0xff]).afterRead ((mid .storedHdr [1, 4, 0, 0xfb, 0xff]).reader.cnt % 8)
     32 ≤ a.upcoming.length ∧ a.nextField 16 = 4 ∧ (a.afterRead 16).nextField 16 = 0xFFFB ∧
      4 &&& 0xFFFB = 0 ∧ 0xFFFB = 0xFFFF - 4 ∧ 4 &&& 0xFFFF ≠ 0) ∧
    (at_ .storedHdr [1]).upcoming.length < 16 ∧
    (16 ≤ (at_ .storedHdr [1, 2, 3]).upcoming.length ∧ (at_ .storedHdr [1, 2, 3]).upcoming.length < 32) :=
  ⟨⟨by decide +kernel, by decide +kernel⟩, by decide +kernel⟩

/-- A stored block with this many bytes to go. -/
def storedLeft (n : Nat) (l : List Nat) : State :=
  (at_ .storedData l).withSeq { (at_ .storedData l).seq with storedRem := BitVec.ofNat 16 n }

theorem test_witness_StoredByteIsCopied :
    (storedLeft 2 [0xde]).reader.ok ∧ (storedLeft 2 [0xde]).seq.storedRem ≠ 0 ∧
    (storedLeft 2 [0xde]).seq.storedRem ≠ 1 ∧ (storedLeft 1 [0xde]).seq.storedRem = 1 ∧
    8 ≤ (storedLeft 2 [0xde]).upcoming.length ∧ (storedLeft 2 []).upcoming.length < 8 :=
  ⟨empty_ok (by decide +kernel), by decide +kernel⟩

theorem test_witness_DynamicHeaderBuildsCodeLengthTable :
    (at_ .dynHdr [0, 0, 0, 0]).reader.ok ∧ ((at_ .dynHdr [0, 0, 0, 0]).afterRead 10).nextField 4 + 4 = 4 ∧
    14 + 3 * 4 ≤ (at_ .dynHdr [0, 0, 0, 0]).upcoming.length ∧ (at_ .dynHdr []).upcoming.length < 5 ∧
    (at_ .dynHdr [0]).upcoming.length = 8 ∧ ((at_ .dynHdr [0, 0]).afterRead 3).upcoming.length = 13 ∧
    (at_ .dynHdr [0, 0, 0]).upcoming.length = 24 :=
  ⟨empty_ok (by decide +kernel), by decide +kernel⟩

theorem test_witness_CodeLengthLiteralAppendsOne :
    (inLens 320 319 1 []).seq.hlit.toNat ≤ 319 ∧
    ((inLens 258 257 1 []).seq.hlit.toNat ≤ 288 ∧ (inLens 258 257 1 []).seq.hdist.toNat ≤ 32 ∧
      (inLens 258 257 1 []).seq.lensN < lensTotal (inLens 258 257 1 []).seq) ∧
    lensTotal (inLens 258 258 1 []).seq ≤ (inLens 258 258 1 []).seq.lensN := by decide +kernel

theorem test_witness_RepeatPreviousLength :
    (inLens 258 255 1 [0]).reader.ok ∧ (inLens 258 0 0 [0]).seq.lensN = 0 ∧
    ((inLens 258 255 1 [0]).seq.lensN ≠ 0 ∧ 2 ≤ (inLens 258 255 1 [0]).upcoming.length ∧
      (inLens 258 255 1 [0]).seq.lensN + (3 + (inLens 258 255 1 [0]).nextField 2)
        ≤ lensTotal (inLens 258 255 1 [0]).seq) ∧
    ((inLens 258 256 1 [0]).seq.lensN ≤ 320 ∧
      lensTotal (inLens 258 256 1 [0]).seq < (inLens 258 256 1 [0]).seq.lensN + (3 + (inLens 258 256 1 [0]).nextField 2)) ∧
    (inLens 258 1 1 []).upcoming.length < 2 :=
  ⟨empty_ok (by decide +kernel), by decide +kernel⟩

theorem test_witness_ZeroRunsAppendZeros :
    (inLens 258 255 1 [0]).reader.ok ∧ (inLens 258 255 1 [0]).seq.hlit.toNat ≤ 288 ∧
    (inLens 258 255 1 [0]).seq.lensN + (3 + (inLens 258 255 1 [0]).nextField 3) ≤ lensTotal (inLens 258 255 1 [0]).seq ∧
    lensTotal (inLens 258 256 1 [0]).seq < (inLens 258 256 1 [0]).seq.lensN + (3 + (inLens 258 256 1 [0]).nextField 3) ∧
    (inLens 258 247 1 [0]).seq.lensN + (11 + (inLens 258 247 1 [0]).nextField 7)
      ≤ lensTotal (inLens 258 247 1 [0]).seq ∧
    lensTotal (inLens 258 248 1 [0]).seq < (inLens 258 248 1 [0]).seq.lensN + (11 + (inLens 258 248 1 [0]).nextField 7) ∧
    7 ≤ (inLens 258 247 1 [0]).upcoming.length ∧ (inLens 258 0 0 []).upcoming.length < 3 :=
  ⟨empty_ok (by decide +kernel), by decide +kernel⟩

theorem test_witness_EndOfBlockSelectsPhase :
    (at_ .symbol []).seq.bfinal = false ∧ { (at_ .symbol []).seq with bfinal := true }.bfinal = true := by decide

/-- The distance tables of two symbols: 0 and `d`, one bit each. -/
def twoDist (d : Nat) : List Nat := [1] ++ List.replicate (d - 1) 0 ++ [1]

/-- T_D holding symbols 0 and `d`, one byte in the history. -/
def inCopy (d : Nat) (l : List Nat) : State :=
  let s := history [0x41] (at_ .symbol l)
  s.withTables { s.tables with d := tableOf (twoDist d) }

/-- `LEN 284 +31`, `DIST 0`: 258 bytes at distance 1, the most and the least. -/
theorem test_witness_LengthElementCopies :
    decode .litLen 284 = .ok .len284 ∧ (inCopy 29 [0x1f]).reader.ok ∧ (inCopy 29 [0x1f]).reader.mode = .lsb ∧
    (inCopy 29 [0x1f]).history.dense ∧ (inCopy 29 [0x1f]).tables.d.malformed = false ∧
    mkEntry 0 1 0 ∈ (inCopy 29 [0x1f]).tables.d.entries ∧
    (inCopy 29 [0x1f]).upcoming
      = [true, true, true, true, true] ++ entryBits (mkEntry 0 1 0) ++ [] ++ [false, false] ∧
    lenExtra 284 = 5 ∧ distExtra 0 = 0 ∧ lenBaseTable.getD (284 - 257) 0 + 31 = 258 ∧ distBase 0 = 1 ∧
    (inCopy 29 [0x1f]).history.outCount = 1 :=
  ⟨rfl, empty_ok (by decide +kernel), rfl, by unfold History.dense; decide +kernel, by decide +kernel⟩

theorem test_witness_LengthElementErrors :
    decode .litLen 265 = .ok .len265 ∧ (inCopy 30 []).upcoming.length < lenExtra 265 ∧
    (inCopy 30 [0x02]).reader.ok ∧ (inCopy 30 [0x02]).tables.d.malformed = false ∧
    mkEntry 30 1 1 ∈ (inCopy 30 [0x02]).tables.d.entries ∧ mkEntry 31 1 1 ∈ (inCopy 31 [0x02]).tables.d.entries ∧
    (inCopy 30 [0x02]).upcoming = [false] ++ entryBits (mkEntry 30 1 1) ++ List.replicate 6 false ∧
    (6 < distExtra 29 ∧ mkEntry 29 1 1 ∈ (inCopy 29 [0x02]).tables.d.entries ∧
      (inCopy 29 [0x02]).upcoming = [false] ++ entryBits (mkEntry 29 1 1) ++ List.replicate 6 false) ∧
    (distExtra 1 ≤ 6 ∧ mkEntry 1 1 1 ∈ (inCopy 1 [0x02]).tables.d.entries ∧
      (inCopy 1 [0x02]).upcoming = [false] ++ entryBits (mkEntry 1 1 1) ++ List.replicate 6 false ∧
      (inCopy 1 [0x02]).history.outCount < distBase 1 + 0) :=
  ⟨rfl, by decide +kernel, empty_ok (by decide +kernel), by decide +kernel⟩

theorem test_witness_LengthElementErrors_malformed :
    ((at_ .symbol [0]).withTables { (at_ .symbol [0]).tables with d := tableOf [1, 1, 1] }).tables.d.malformed = true ∧
    lenExtra 257 ≤ (at_ .symbol [0]).upcoming.length := by decide +kernel

/-- T_D with these lengths. -/
def withD (lens : List Nat) (s : State) : State := s.withTables { s.tables with d := tableOf lens }

/-- Behind the one extra bit of `LEN_265`: an empty T_D, a bit that is no code of T_D, and a bit that begins only the
longer code of T_D with no bit behind it. -/
theorem test_witness_LengthElementErrors_no_code :
    lenExtra 265 = 1 ∧ (withD [0] (at_ .symbol [0])).reader.ok ∧ (withD [0] (at_ .symbol [0])).reader.mode = .lsb ∧
    1 ≤ (withD [0] (at_ .symbol [0])).upcoming.length ∧ (tableOf [0]).malformed = false ∧ (tableOf [0]).entries = [] ∧
    (tableOf [1]).malformed = false ∧
    (∀ e ∈ (tableOf [1]).entries, e.bits ≤ ((withD [1] (at_ .symbol [0x02])).afterRead 1).upcoming.length ∧
      ((withD [1] (at_ .symbol [0x02])).afterRead 1).upcoming.take e.bits ≠ entryBits e) ∧
    (tableOf [1, 2]).malformed = false ∧
    (let u := (withD [1, 2] ((at_ .symbol [0x80]).afterRead 6)).afterRead 1
     (∀ e ∈ (tableOf [1, 2]).entries, e.bits ≤ u.upcoming.length → u.upcoming.take e.bits ≠ entryBits e) ∧
      u.upcoming.length < (mkEntry 1 2 2).bits ∧ mkEntry 1 2 2 ∈ (tableOf [1, 2]).entries) :=
  ⟨by decide, empty_ok (by decide +kernel), rfl, by decide +kernel⟩

theorem test_witness_DistanceSymbolsGiveDistance :
    decode .distance 0 = .ok .dist0 ∧ decode .distance 29 = .ok .dist29 ∧ (at_ .symbol [0xff, 0xff]).reader.ok ∧
    distExtra 29 ≤ (at_ .symbol [0xff, 0xff]).upcoming.length ∧ (at_ .symbol [0xff]).upcoming.length < distExtra 29 :=
  ⟨rfl, rfl, empty_ok (by decide +kernel), by decide +kernel⟩

/-- Distance 32768 is symbol 29 with its 13 bits all 1, and a state in which they stand next; length 257 is symbol 284
with 30 in its 5 bits, and a state in which they and the code of distance symbol 0 stand next. -/
theorem test_witness_RangesCoverExactlyOnce :
    (decode .distance 29 = .ok .dist29 ∧ (at_ .symbol [0xff, 0x1f]).reader.ok ∧
      (at_ .symbol [0xff, 0x1f]).reader.mode = .lsb ∧
      (at_ .symbol [0xff, 0x1f]).upcoming = List.replicate 13 true ++ List.replicate 3 false) ∧
    (decode .litLen 284 = .ok .len284 ∧ (inCopy 29 [0x1e]).reader.ok ∧ (inCopy 29 [0x1e]).reader.mode = .lsb ∧
      (inCopy 29 [0x1e]).history.dense ∧ 1 ≤ (inCopy 29 [0x1e]).history.outCount ∧
      (tableOf (twoDist 29)).malformed = false ∧ mkEntry 0 1 0 ∈ (tableOf (twoDist 29)).entries ∧
      (inCopy 29 [0x1e]).upcoming
        = [false, true, true, true, true] ++ entryBits (mkEntry 0 1 0) ++ [false, false]) :=
  ⟨⟨rfl, empty_ok (by decide +kernel), rfl, by decide +kernel⟩,
    ⟨rfl, empty_ok (by decide +kernel), rfl, by unfold History.dense; decide +kernel, by decide +kernel⟩⟩

theorem test_witness_CopyRepeatsHistory :
    (history [0x41, 0x42] State.reset).history.dense ∧ 2 ≤ (history [0x41, 0x42] State.reset).history.outCount ∧
    (history [0x41, 0x42] State.reset).history.outCount < 3 :=
  ⟨by unfold History.dense; decide +kernel, by decide +kernel⟩

theorem test_witness_BuildLengthsAssignsCanonicalCodes :
    lengthsOk .cl (List.replicate 19 15) = true ∧ lengthsOk .cl [16] = false := by decide

theorem test_witness_BuildRangesExpandsPairs :
    (rangesOk fixedD = true ∧ rangesSize fixedD ≤ Config.tableSlots .d) ∧
    (fixedLL[3]? = some (280, 8) ∧ fixedLL[4]? = some (288, -1)) ∧
    (rangesOk [(0, 5), (33, -1)] = true ∧ Config.tableSlots .d < rangesSize [(0, 5), (33, -1)]) ∧
    rangesOk [(1, 5), (32, -1)] = false ∧ (rangesOk [(0, -1)] = true ∧ rangesSize [(0, -1)] ≤ Config.tableSlots .d) := by
  decide

theorem test_witness_CodesAreUniquelyDecodable :
    (tableOf [2, 1, 3, 3]).malformed = false ∧ mkEntry 2 3 6 ∈ (tableOf [2, 1, 3, 3]).entries ∧
    entryBits (mkEntry 2 3 6) = entryBits (mkEntry 2 3 6) ++ [] := by decide +kernel

theorem test_witness_MalformedIffOversubscribed :
    (∀ b ∈ [1, 1, 15], b ≤ 15) ∧ (tableOf [1, 1, 15]).malformed = true ∧ (tableOf [1, 1]).malformed = false := by
  decide +kernel

theorem test_witness_FindReturnsMatchingCode :
    (withCl [2, 1, 3, 3] (at_ .dynLens [7])).reader.ok ∧ (withCl [2, 1, 3, 3] (at_ .dynLens [7])).reader.mode = .lsb ∧
    (tableOf [2, 1, 3, 3]).malformed = false ∧ mkEntry 3 3 7 ∈ (tableOf [2, 1, 3, 3]).entries ∧
    (withCl [2, 1, 3, 3] (at_ .dynLens [7])).upcoming = entryBits (mkEntry 3 3 7) ++ List.replicate 5 false :=
  ⟨empty_ok (by decide +kernel), rfl, by decide +kernel⟩

theorem test_witness_FindInMalformedTableRaises :
    ((withCl [1, 1, 1] (at_ .dynLens [])).tables.get .cl).malformed = true := by decide +kernel

theorem test_witness_FindWithoutMatch :
    (withCl [0, 0] (at_ .dynLens [0])).reader.ok ∧ (tableOf [0, 0]).malformed = false ∧ (tableOf [0, 0]).entries = [] ∧
    (∀ e ∈ (tableOf [1]).entries, e.bits ≤ (withCl [1] (at_ .dynLens [1])).upcoming.length ∧
      (withCl [1] (at_ .dynLens [1])).upcoming.take e.bits ≠ entryBits e) ∧
    (∀ e ∈ (tableOf [1, 2]).entries, e.bits ≤ (withCl [1, 2] oneBit).upcoming.length →
      (withCl [1, 2] oneBit).upcoming.take e.bits ≠ entryBits e) ∧
    (∃ e ∈ (tableOf [1, 2]).entries, (withCl [1, 2] oneBit).upcoming.length < e.bits) ∧
    (∃ e ∈ (tableOf [0, 0, 0, 15, 15]).entries,
      (withCl [0, 0, 0, 15, 15] (at_ .dynLens [0])).upcoming.length < e.bits) :=
  ⟨empty_ok (by decide +kernel), by decide +kernel⟩

theorem test_witness_FixedCodesDecode :
    (fixed (at_ .symbol [0xe3])).reader.ok ∧ (fixed (at_ .symbol [0xe3])).reader.mode = .lsb ∧
    (fixed (at_ .symbol [0xe3])).upcoming = fixedLitLenBits 287 ++ [] ∧
    (fixed (at_ .symbol [0x1f])).upcoming = fixedDistanceBits 31 ++ [false, false, false] :=
  ⟨empty_ok (by decide +kernel), rfl, by decide +kernel⟩

theorem test_witness_ErrorsArePrecise :
    (at_ .cm [9]).reader.ok ∧ (at_ .cm [9]).ports.error = false ∧
    ∃ t, exec .gzCm (at_ .cm [9]) = .next t ∧ t.ports.error = true :=
  ⟨empty_ok (by decide +kernel), rfl, see_next (by decide +kernel)⟩

theorem test_witness_TerminalPhasesIdle :
    ((at_ .done []).host = [] ∧ (at_ .done []).suspended = none ∧ (at_ .done []).ports.outPend = false ∧
      (at_ .done []).seq.phase = .done) ∧
    ((at_ .error []).host = [] ∧ (at_ .error []).suspended = none ∧ (at_ .error []).ports.outPend = false ∧
      (at_ .error []).seq.phase = .error) := by decide +kernel

/-- A chunk pending. -/
def pending (auto : Bool) : State := { emit [0x61] (at_ .symbol []) with autoAccept := auto }

theorem test_witness_PendingChunkBlocks :
    (pending false).host = [] ∧ (pending false).suspended = none ∧ (pending false).ports.outPend = true ∧
    (pending false).autoAccept = false ∧ (pending true).ports.outPend = true ∧ (pending true).autoAccept = true := by
  decide +kernel

theorem test_witness_HostActsAtThePorts :
    State.reset.inputEnd = false ∧ (start []).inputEnd = true ∧ (pending true).ports.outPend = true ∧
    State.reset.ports.outPend = false := by decide +kernel

theorem test_witness_TableViewShowsEntries :
    ((fixed State.reset).tables.get .d).malformed = false ∧
    ((fixed State.reset).tables.get .d).entries[31]? = some (mkEntry 31 5 31) ∧
    ((fixed State.reset).tables.get .d).size ≤ 32 ∧ 2 < 3 := by decide +kernel

theorem test_witness_StepRunsDecodedInstruction :
    ((at_ .cm [8]).host = [] ∧ (at_ .cm [8]).suspended = none ∧ (at_ .cm [8]).ports.outPend = false ∧
      decode (.phase (at_ .cm [8]).seq.phase) 0 = .ok .gzCm) ∧
    (∃ t, findNextSymbol .cl (withCl [2, 1, 3, 3] (at_ .dynLens [3])) = .ok 2 t) ∧
    decode .codeLength 2 = .ok (.clLenLit 2) ∧
    (∃ t, findNextSymbol .ll (fixed (at_ .symbol [0x89])) = .ok 0x61 t) ∧ decode .litLen 0x61 = .ok (.lit 0x61) :=
  ⟨by decide +kernel, took_ok (by decide +kernel), by decide, took_ok (by decide +kernel), by decide⟩

/-- A match that raises: an empty table, a malformed one, the end of the input inside a code, and a match that waits. -/
def raised {α : Type} (r : Res α) : Option (ErrKind × Nat) :=
  match r with
  | .raise k q _ => some (k, q)
  | _ => none

theorem raised_eq {α : Type} {r : Res α} {a : ErrKind × Nat} (h : raised r = some a) : ∃ t, r = .raise a.1 a.2 t := by
  cases r with
  | raise k q t => exact ⟨t, by rw [← Option.some.inj h]⟩
  | _ => cases h

/-- Whether an operation waits. -/
def waiting {α : Type} (r : Res α) : Bool :=
  match r with
  | .wait _ => true
  | _ => false

theorem waiting_eq {α : Type} {r : Res α} (h : waiting r = true) : ∃ t, r = .wait t := by
  cases r with
  | wait t => exact ⟨t, rfl⟩
  | _ => cases h

theorem test_witness_StepRunsDecodedInstruction_no_symbol :
    ((at_ .dynLens []).seq.phase = .dynLens ∧ ((at_ .dynLens []).tables.get .cl).entries = [] ∧
      ((withCl [1, 1, 1] (at_ .dynLens [])).tables.get .cl).malformed = true) ∧
    (∃ t, findNextSymbol .cl (withCl [1] (at_ .dynLens [1])) = .raise .symbolNotFound 0 t) ∧
    (∃ t, findNextSymbol .ll (fixed (at_ .symbol [])) = .raise .unexpectedEof 0 t) ∧
    (∃ t, findNextSymbol .ll (open_ (fixed (at_ .symbol []))) = .wait t) ∧
    (open_ (fixed (at_ .symbol []))).host = [] ∧ (open_ (fixed (at_ .symbol []))).suspended = none ∧
    (open_ (fixed (at_ .symbol []))).ports.outPend = false ∧ (open_ (fixed (at_ .symbol []))).seq.phase = .symbol :=
  ⟨by decide +kernel, raised_eq (a := (.symbolNotFound, 0)) (by decide +kernel),
    raised_eq (a := (.unexpectedEof, 0)) (by decide +kernel), waiting_eq (by decide +kernel), by decide +kernel⟩

/-- A step whose symbol match finds no code, and one whose match waits. -/
theorem test_step_no_symbol : see (step (withCl [1] (at_ .dynLens [1]))) error = some (.symbolNotFound, 0, 1) ∧
    see (step (open_ (fixed (at_ .symbol [])))) (fun t => (t.reader.inWait, t.seq.phase, t.suspended.isSome))
      = some (true, .symbol, true) := by decide +kernel

/-- The reset state with the whole magic at the port is sound: a state other than the reset state itself. -/
theorem begin_inv : Inv (start [0x1f, 0x8b]) where
  sound := {
    readerOk := empty_ok (by decide +kernel)
    inputLeft := by decide +kernel
    buffered := by decide +kernel
    fewBits := by decide +kernel
    notWaiting := by decide +kernel
    order := by decide +kernel
    header := by
      intro p h
      cases h
      decide +kernel
    aligned := by decide +kernel
    oneFlag := by decide +kernel
    kindLegal := by decide +kernel
    positionLegal := by decide +kernel
    positionNow := by decide +kernel
    trailerLegal := by decide +kernel
    donePhase := by decide +kernel
    errorPhase := by decide +kernel
    terminalFree := by decide +kernel
    chunkSize := by decide +kernel
    offered := by decide +kernel
    dense := by unfold History.dense; decide +kernel
    outputBound := by decide +kernel
    builtCl := ⟨[], by decide, by decide⟩
    builtLl := ⟨[], by decide, by decide⟩
    builtD := ⟨[], by decide, by decide⟩
    storedLeft := by decide +kernel
    counts := by decide +kernel
    finalBlock := by decide +kernel }
  waiting := by intro b h; cases h

theorem test_witness_EveryStepKeepsSoundness :
    Inv (start [0x1f, 0x8b]) ∧ ∃ t, step (start [0x1f, 0x8b]) = .next t ∧ t.seq.phase = .cm :=
  ⟨begin_inv, see_next (by decide +kernel)⟩

theorem test_witness_SoundMachineNeverStops :
    Inv (start [0x1f, 0x8b]) ∧ (start [0x1f, 0x8b]).host = [] ∧ (start [0x1f, 0x8b]).inputEnd = true ∧
    (start [0x1f, 0x8b]).autoAccept = true := ⟨begin_inv, rfl, rfl, rfl⟩

theorem test_witness_EveryElementConsumesInput :
    Inv (start [0x1f, 0x8b]) ∧ (start [0x1f, 0x8b]).start.ports.outPend = false ∧
    terminal (start [0x1f, 0x8b]).start.seq.phase = false ∧
    ∃ t, step (start [0x1f, 0x8b]) = .next t ∧ (t.suspended, t.ports.error) = (none, false) :=
  ⟨begin_inv, rfl, rfl, see_next (by decide +kernel)⟩

theorem test_witness_WaitResumesTheElement :
    State.reset.host = [] ∧ ∃ t, step State.reset = .next t ∧ t.suspended.isSome = true :=
  ⟨rfl, see_next (by decide +kernel)⟩

theorem test_witness_OutcomeNeedsOnlyFetchedBytes :
    ∃ t, exec (.rb 3) (at_ .cm [7, 1, 2]) = .next t ∧
      (t.suspended, t.ports.errKind, t.reader.nfetch) = (none, .none, 1) ∧
      (bytes [7]).take 1 = (at_ .cm [7, 1, 2]).input.take 1 ∧ 1 ≤ (at_ .cm [7, 1, 2]).input.length :=
  let ⟨t, h, h'⟩ := see_next (f := fun t => (t.suspended, t.ports.errKind, t.reader.nfetch)) (a := (none, .none, 1))
    (o := exec (.rb 3) (at_ .cm [7, 1, 2])) (by decide +kernel)
  ⟨t, h, h', by decide +kernel, by decide +kernel⟩

theorem test_witness_DiagnosticsHaveNoEffect : (at_ .blkhdr [0x4b]).host = [] ∧
    (at_ .blkhdr [0x4b]).params.diagPresent = true ∧
    see (step (at_ .blkhdr [0x4b])) (fun t => t.diag.map DiagEvent.kind)
      = some [.blockStart, .tableBuilt, .tableBuilt] := by decide +kernel

theorem test_witness_RegistersChangeOnlyByTheirWriters :
    (∃ t, exec (.append 1) State.reset = .next t ∧ t.seq.phase = .magic) ∧ encode (.append 1) = none ∧
    writesMode (.append 1) = false ∧ writesHeader (.append 1) = false ∧ writesFlg (.append 1) = false ∧
    writesStoredRem (.append 1) = false ∧ writesCounts (.append 1) = false ∧ writesLens (.append 1) = false ∧
    writesTable .d (.append 1) = false ∧ offersChunk (.append 1) = false ∧ writesDone (.append 1) = false :=
  ⟨see_next (by decide +kernel), by decide⟩

theorem test_witness_HistoryIsAppendOnly :
    (history [0x41] State.reset).reader.ok ∧
    (∃ t, exec (.append 1) (history [0x41] State.reset) = .next t ∧ t.history.outCount = 2) ∧
    storeCount (.append 1) (history [0x41] State.reset) = 1 ∧ writesHistory (.rb 1) = false ∧
    Memory.wf (history [0x41] State.reset).history.hist = true :=
  ⟨empty_ok (by decide +kernel), see_next (by decide +kernel), by decide +kernel⟩

end Sys2Proof.Tests
end

section
/-! PROOFS. The walk through one element from a sound state (R8, R94, R485, R521): no operation of an element ends in a
fault or a refusal, a raise and a wait leave the block as error entry and the wait need it, and a completed element
leaves a sound state further on in the input. -/

namespace Sys2Proof.Machine

open Sys2Proof

/-! ## Operations that end without a fault or a refusal -/

/-- An answer that is no fault and no refusal, its three cases meeting their conditions: completed, raised (at a
position), waiting. -/
def Res.ends {α : Type} (r : Res α) (done : α → State → Prop) (raised : ErrKind → Nat → State → Prop)
    (waits : State → Prop) : Prop :=
  match r with
  | .ok a t => done a t
  | .raise k q t => raised k q t
  | .wait t => waits t
  | .fault _ => False
  | .refused _ => False

/-! ## The reader between two reads -/

/-- What holds of the reader wherever an element stands: it is in order, no byte is taken beyond the input, what it has
still to hand out is the input from the bit position on, and it shows no wait (R31, R54, R85, R86). -/
structure ReaderTied (t : State) : Prop where
  ok : t.reader.ok
  inputLeft : t.reader.nfetch ≤ t.input.length
  buffered : t.upcoming = t.inputBits.drop t.bitPos
  notWaiting : t.reader.inWait = false

theorem ReaderTied.congr {s t : State} (h : ReaderTied s) (hr : t.reader = s.reader) (hi : t.input = s.input) :
    ReaderTied t := by
  obtain ⟨h1, h2, h3, h4⟩ := h
  refine ⟨by rw [hr]; exact h1, by rw [hr, hi]; exact h2, ?_, by rw [hr]; exact h4⟩
  unfold State.upcoming State.inputBits State.bitPos at h3 ⊢
  rw [hr, hi]; exact h3

theorem bytesFor_le_left {n : Nat} {s : State} (hn : n ≤ s.upcoming.length) :
    s.reader.bytesFor n ≤ s.input.length - s.reader.nfetch := by
  rw [length_upcoming] at hn
  unfold Reader.bytesFor
  omega

theorem ReaderTied.afterRead {n : Nat} {s : State} (h : ReaderTied s) (hn : n ≤ s.upcoming.length) :
    ReaderTied (s.afterRead n) where
  ok := afterRead_ok h.ok hn
  inputLeft := by
    have := bytesFor_le_left hn
    have := h.inputLeft
    show s.reader.nfetch + s.reader.bytesFor n ≤ s.input.length
    omega
  buffered := by
    rw [afterRead_upcoming hn, afterRead_bitPos h.ok, h.buffered, List.drop_drop]
    rfl
  notWaiting := by rw [afterRead_reader, h.notWaiting]; rfl

theorem ReaderTied.afterRefill {n : Nat} {s : State} (h : ReaderTied s) (hn : n ≤ s.upcoming.length) :
    ReaderTied (s.afterRefill n) where
  ok := afterRefill_ok h.ok hn
  inputLeft := by
    have := bytesFor_le_left hn
    have := h.inputLeft
    show s.reader.nfetch + s.reader.bytesFor n ≤ s.input.length
    omega
  buffered := by
    rw [afterRefill_upcoming hn, afterRefill_bitPos, h.buffered]
    rfl
  notWaiting := by rw [afterRefill_reader, h.notWaiting]; rfl

theorem ReaderTied.afterShort {s : State} (h : ReaderTied s) (he : s.inputEnd = true) : ReaderTied s.afterShort where
  ok := afterShort_ok h.ok
  inputLeft := by
    have := h.inputLeft
    show s.reader.nfetch + (s.input.length - s.reader.nfetch) ≤ s.input.length
    omega
  buffered := by
    rw [afterShort_upcoming, afterShort_bitPos, h.buffered]
    rfl
  notWaiting := by rw [afterShort_reader, he]; rfl

/-- With no bit buffered, in either bit order, the reader has the bytes not yet requested to hand out. -/
theorem ReaderTied.of_empty {t : State} (hc : t.reader.cnt = 0) (ha : t.reader.acc = 0)
    (hl : t.reader.nfetch ≤ t.input.length) (hw : t.reader.inWait = false) : ReaderTied t where
  ok := ⟨by rw [hc, ha]; decide, by omega⟩
  inputLeft := hl
  buffered := by
    have hb : t.reader.buffered = [] := List.eq_nil_of_length_eq_zero (by rw [length_buffered, hc])
    rw [State.upcoming, hb, List.nil_append, drop_flatMap_byteBits]
    show _ = (t.input.flatMap (byteBits t.reader.mode)).drop (8 * t.reader.nfetch - t.reader.cnt)
    rw [hc]; rfl
  notWaiting := hw

/-- More bytes behind the input present no other bits to the reader before its end (R80). -/
theorem ReaderTied.present {s : State} (h : ReaderTied s) (bytes : List Byte) :
    ReaderTied { s with input := s.input ++ bytes } where
  ok := h.ok
  inputLeft := by
    have := h.inputLeft
    show s.reader.nfetch ≤ (s.input ++ bytes).length
    rw [List.length_append]; omega
  buffered := by
    have hb := h.buffered
    have hpos : s.bitPos ≤ s.inputBits.length := by
      have hl := h.inputLeft
      rw [State.inputBits, length_flatMap_byteBits]
      show 8 * s.reader.nfetch - s.reader.cnt ≤ _
      omega
    unfold State.upcoming State.inputBits at hb ⊢
    show s.reader.buffered ++ ((s.input ++ bytes).drop s.reader.nfetch).flatMap _ =
      ((s.input ++ bytes).flatMap _).drop s.bitPos
    rw [List.drop_append_of_le_length h.inputLeft, List.flatMap_append, List.flatMap_append, ← List.append_assoc, hb]
    exact (List.drop_append_of_le_length hpos).symm
  notWaiting := h.notWaiting

theorem ReaderTied.bitPos_le {s : State} (h : ReaderTied s) : s.bitPos ≤ 8 * s.input.length := by
  have := h.inputLeft
  show 8 * s.reader.nfetch - s.reader.cnt ≤ _
  omega

theorem Sound.tied {s : State} (h : Sound s) : ReaderTied s := ⟨h.readerOk, h.inputLeft, h.buffered, h.notWaiting⟩

/-! ## States inside an element -/

/-- `t` differs from `s` in the block only, not in the parameters or the host's side of the ports. -/
def SameHost (s t : State) : Prop := t = { s with toBlock := t.toBlock }

theorem SameHost.params {s t : State} (h : SameHost s t) : t.params = s.params := by rw [h]
theorem SameHost.input {s t : State} (h : SameHost s t) : t.input = s.input := by rw [h]
theorem SameHost.inputEnd {s t : State} (h : SameHost s t) : t.inputEnd = s.inputEnd := by rw [h]
theorem SameHost.host {s t : State} (h : SameHost s t) : t.host = s.host := by rw [h]
theorem SameHost.autoAccept {s t : State} (h : SameHost s t) : t.autoAccept = s.autoAccept := by rw [h]
theorem SameHost.accepted {s t : State} (h : SameHost s t) : t.accepted = s.accepted := by rw [h]
theorem SameHost.suspended {s t : State} (h : SameHost s t) : t.suspended = s.suspended := by rw [h]

/-- A write of the block is seen by the block only. -/
theorem SameHost.writes {s t : State} (h : SameHost s t) (b : Block) : SameHost s { t with toBlock := b } := by
  rw [SameHost, h]

/-- `t` stands inside the element that began in `s`, with nothing appended and no table built: the element has written
registers of the reader and of the sequencer other than MODE and PHASE, and has gone forward in the input. -/
structure Inside (s t : State) : Prop where
  sameHost : SameHost s t
  ports : t.ports = s.ports
  history : t.history = s.history
  tables : t.tables = s.tables
  phase : t.seq.phase = s.seq.phase
  mode : t.reader.mode = s.reader.mode
  forward : s.bitPos ≤ t.bitPos

/-- A state inside an element from which its next read starts: at most 7 bits are buffered (R35). -/
structure Midway (s t : State) : Prop extends Inside s t where
  tied : ReaderTied t
  few : t.reader.cnt ≤ 7

/-- Where an element of `s` raises: at the bit position, with a kind (R485, R486). -/
def RaisesIn (s : State) (k : ErrKind) (q : Nat) (t : State) : Prop :=
  k ≠ .none ∧ q = t.bitPos ∧ ReaderTied t ∧ Inside s t

/-- Where an element of `s` waits: the port has not ended, and IN_WAIT shows the wait (R521). -/
def WaitsIn (s t : State) : Prop := s.inputEnd = false ∧ t.reader.inWait = true ∧ Inside s t

theorem Inside.withReader {s t : State} (h : Inside s t) {r : Reader} (hm : r.mode = t.reader.mode)
    (hp : t.bitPos ≤ r.bitPos) : Inside s (t.withReader r) where
  sameHost := h.sameHost.writes _
  ports := h.ports
  history := h.history
  tables := h.tables
  phase := h.phase
  mode := hm.trans h.mode
  forward := Nat.le_trans h.forward hp

theorem Midway.refl {s : State} (ht : ReaderTied s) (hf : s.reader.cnt ≤ 7) : Midway s s :=
  ⟨⟨rfl, rfl, rfl, rfl, rfl, rfl, Nat.le_refl _⟩, ht, hf⟩

theorem Midway.withSeq {s t : State} (h : Midway s t) {q : Sequencer} (hp : q.phase = t.seq.phase) :
    Midway s (t.withSeq q) :=
  ⟨⟨h.sameHost.writes _, h.ports, h.history, h.tables, hp.trans h.phase, h.mode, h.forward⟩, h.tied.congr rfl rfl, h.few⟩

theorem Midway.withDiag {s t : State} (h : Midway s t) (d : List DiagEvent) : Midway s (t.withDiag d) :=
  ⟨⟨h.sameHost.writes _, h.ports, h.history, h.tables, h.phase, h.mode, h.forward⟩, h.tied.congr rfl rfl, h.few⟩

theorem Midway.afterDiag {s t : State} (h : Midway s t) (k : DiagKind) : Midway s (sendDiag k t) := by
  obtain ⟨d, hd⟩ := sendDiag_withDiag k t
  rw [hd]; exact h.withDiag d

theorem Midway.afterRead {s t : State} (h : Midway s t) {n : Nat} (hn : n ≤ t.upcoming.length) :
    Midway s (t.afterRead n) where
  toInside := h.toInside.withReader rfl (by
    have := afterRead_bitPos (n := n) h.tied.ok
    show t.bitPos ≤ (t.afterRead n).bitPos
    omega)
  tied := h.tied.afterRead hn
  few := by
    have := h.few
    show t.reader.cnt + 8 * t.reader.bytesFor n - n ≤ 7
    unfold Reader.bytesFor
    omega

/-! ## Raises and waits -/

theorem Midway.raisesHere {α : Type} {s t : State} (h : Midway s t) {k : ErrKind} (hk : k ≠ .none)
    {D : α → State → Prop} : (raiseHere k t : Res α).ends D (RaisesIn s) (WaitsIn s) :=
  ⟨hk, rfl, h.tied, h.toInside⟩

theorem Inside.afterShort {s t : State} (h : Inside s t) : Inside s t.afterShort :=
  h.withReader rfl (Nat.le_of_eq (afterShort_bitPos t).symm)

/-- An operation that is short of input raises if the port has ended and waits if not (R471, R521). -/
theorem Midway.short {α : Type} {s t : State} (h : Midway s t) {D : α → State → Prop} :
    (if t.inputEnd then .raise .unexpectedEof t.bitPos t.afterShort else .wait t.afterShort : Res α).ends
      D (RaisesIn s) (WaitsIn s) := by
  split
  next he =>
    exact ⟨by decide, (afterShort_bitPos t).symm, h.tied.afterShort he, h.toInside.afterShort⟩
  next he =>
    have he' : t.inputEnd = false := by simpa using he
    exact ⟨h.sameHost.inputEnd ▸ he', by rw [afterShort_reader, he']; rfl, h.toInside.afterShort⟩

theorem Res.ends_bind_short {α β : Type} {s t : State} {r : Res α} {f : α → State → Res β} (h : Midway s t)
    (hr : r = if t.inputEnd then .raise .unexpectedEof t.bitPos t.afterShort else .wait t.afterShort)
    {D : β → State → Prop} : (r.bind f).ends D (RaisesIn s) (WaitsIn s) := by
  have hs := h.short (α := β) (D := D)
  subst hr
  cases he : t.inputEnd <;> (rw [he] at hs; exact hs)

/-! ## Reads, alignments and matches inside an element -/

section
variable {β : Type} {s t : State} {D : β → State → Prop}

/-- A read inside an element, and what follows it (R165). -/
theorem Midway.ends_readBits {n : Nat} {f : Nat → State → Res β} (h : Midway s t) (h32 : n ≤ 32)
    (hf : ∀ v u, Midway s u → u.seq = t.seq → u.bitPos = t.bitPos + n → v < 2 ^ n →
      (f v u).ends D (RaisesIn s) (WaitsIn s)) :
    ((readBits n t).bind f).ends D (RaisesIn s) (WaitsIn s) := by
  by_cases hn : n ≤ t.upcoming.length
  · rw [readBits_eq h.tied.ok.1 h32 hn, Res.bind_ok]
    exact hf _ _ (h.afterRead hn) rfl (afterRead_bitPos h.tied.ok) (nextField_lt n t)
  · exact Res.ends_bind_short h (readBits_short h.tied.ok.1 h32 (by omega))

/-- An alignment inside an element, and what follows it (R167). -/
theorem Midway.ends_alignToByte {f : Nat → State → Res β} (h : Midway s t)
    (hf : ∀ v u, Midway s u → u.seq = t.seq → t.bitPos ≤ u.bitPos → u.bitPos % 8 = 0 →
      (f v u).ends D (RaisesIn s) (WaitsIn s)) :
    ((alignToByte t).bind f).ends D (RaisesIn s) (WaitsIn s) := by
  have hb : t.bitPos = 8 * t.reader.nfetch - t.reader.cnt := rfl
  have hle := h.tied.ok.2
  have hp := afterRead_bitPos (n := t.reader.cnt % 8) h.tied.ok
  rw [alignToByte_eq h.tied.ok.1, Res.bind_ok]
  exact hf _ _ (h.afterRead (align_le t)) rfl (by omega) (by omega)

/-- A match in a built table inside an element, and what follows it: a found symbol has at least one bit and stands for
a code of the table's alphabet (R210). -/
theorem Midway.ends_findNextSymbol {id : TableId} {f : Nat → State → Res β} (h : Midway s t)
    (hb : (t.tables.get id).built id)
    (hf : ∀ v u, Midway s u → u.seq = t.seq → t.bitPos < u.bitPos → v < Config.tableSlots id →
      (f v u).ends D (RaisesIn s) (WaitsIn s)) :
    ((findNextSymbol id t).bind f).ends D (RaisesIn s) (WaitsIn s) := by
  obtain ⟨lens, hlens, ht⟩ := hb
  rw [findNextSymbol_eq h.tied.ok.1 ht]
  split
  · exact ⟨by decide, rfl, h.tied, h.toInside⟩
  unfold searched
  split
  next hnone =>
    have hle : lastBits 0 (tableOf lens).entries ≤ t.upcoming.length := by
      refine lastBits_le (Nat.zero_le _) fun e he => ?_
      have := List.find?_eq_none.mp hnone e he
      simp at this; omega
    exact ⟨by decide, (afterRefill_bitPos _ t).symm, h.tied.afterRefill hle,
      h.toInside.withReader rfl (Nat.le_of_eq (afterRefill_bitPos _ t).symm)⟩
  next e hfind =>
    have he := List.mem_of_find?_eq_some hfind
    have hbits := (tableOf_mem he).2.1
    have hslots : lens.length ≤ Config.tableSlots id := by
      unfold lengthsOk at hlens
      simp only [Bool.and_eq_true, decide_eq_true_eq] at hlens
      exact hlens.1
    by_cases hn : e.bits ≤ t.upcoming.length
    · rw [if_pos hn, Res.bind_ok]
      have hp := afterRead_bitPos (n := e.bits) h.tied.ok
      exact hf _ _ ((h.afterRead hn).afterDiag _) (by simp) (by rw [sendDiag_bitPos]; omega)
        (Nat.lt_of_lt_of_le (tableOf_code_lt he) hslots)
    · rw [if_neg hn]
      exact Res.ends_bind_short h rfl

end

end Sys2Proof.Machine
end

section
/-! PROOFS. What an element that completes leaves: the parts of the invariant, each from what the element wrote. -/

namespace Sys2Proof.Machine

open Sys2Proof

/-! ## The parts of the invariant -/

/-- The block runs: its phase is not terminal and no chunk is pending, so the next step is an element. -/
structure Running (s : State) : Prop where
  sound : Sound s
  phase : terminal s.seq.phase = false
  free : s.ports.outPend = false
  fresh : s.suspended = none

/-- The part of `Sound` that is about PHASE, for a phase that runs an element. -/
structure PhaseSound (t : State) : Prop where
  running : terminal t.seq.phase = false
  order : t.reader.mode = .msb ↔ t.seq.phase = .magic
  header : ∀ p, headerPos t.seq.phase = some p → t.bitPos = p
  aligned : byteAligned t.seq.phase = true → t.bitPos % 8 = 0
  storedLeft : t.seq.phase = .storedData → t.seq.storedRem ≠ 0
  counts : t.seq.phase = .dynLens →
    257 ≤ t.seq.hlit.toNat ∧ t.seq.hlit.toNat ≤ 288 ∧ 1 ≤ t.seq.hdist.toNat ∧ t.seq.hdist.toNat ≤ 32 ∧
    4 ≤ t.seq.hclen.toNat ∧ t.seq.hclen.toNat ≤ 19 ∧ t.seq.lensN < lensTotal t.seq
  finalBlock : t.seq.phase = .trailer → t.seq.bfinal = true

theorem PhaseSound.congr {s t : State} (h : PhaseSound s) (hr : t.reader = s.reader) (hq : t.seq = s.seq) :
    PhaseSound t := by
  have hb : t.bitPos = s.bitPos := congrArg Reader.bitPos hr
  obtain ⟨h1, h2, h3, h4, h5, h6, h7⟩ := h
  constructor <;> simp only [hr, hq, hb] <;> assumption

/-- The part of `Sound` that is about the history and the chunks offered. -/
structure OutputSound (t : State) : Prop where
  chunkSize : t.ports.outPend = true → 1 ≤ t.ports.outChunk.length ∧ t.ports.outChunk.length ≤ 258
  offered : t.accepted.flatten ++ (if t.ports.outPend then t.ports.outChunk else []) = t.history.bytes
  dense : t.history.dense
  outputBound : t.history.outCount ≤ 129 * t.bitPos

/-- Every table store is as a build leaves it (R50, R84). -/
def Tables.built (ts : Tables) : Prop := ∀ id, (ts.get id).built id

/-- What an element of `s` leaves when it completes in a phase that runs on: the parts of the invariant, the status
registers as they were, and a bit position further on (R36). -/
structure CompletesTo (s t : State) : Prop where
  sameHost : SameHost s t
  tied : ReaderTied t
  few : t.reader.cnt ≤ 7
  forward : s.bitPos < t.bitPos
  phase : PhaseSound t
  output : OutputSound t
  tables : t.tables.built
  status : t.ports = { s.ports with outPend := t.ports.outPend, outChunk := t.ports.outChunk }

theorem Tables.built_of {cl ll d : Table} (hc : cl.built .cl) (hl : ll.built .ll) (hd : d.built .d) :
    Tables.built ⟨cl, ll, d⟩
  | .cl => hc
  | .ll => hl
  | .d => hd

theorem Sound.tablesBuilt {s : State} (h : Sound s) : s.tables.built := Tables.built_of h.builtCl h.builtLl h.builtD

theorem Sound.outputSound {s : State} (h : Sound s) : OutputSound s :=
  ⟨h.chunkSize, h.offered, h.dense, h.outputBound⟩

section
variable {s : State} (hs : Running s)
include hs

theorem Running.noError : s.ports.error = false := by
  have h := hs.phase
  rw [Bool.eq_false_iff]
  intro he
  rw [hs.sound.errorPhase.mp he] at h
  cases h

theorem Running.notDone : s.ports.done = false := by
  have h := hs.phase
  rw [Bool.eq_false_iff]
  intro he
  rw [hs.sound.donePhase.mp he] at h
  cases h

theorem Running.midway : Midway s s := .refl hs.sound.tied (hs.sound.fewBits hs.noError)

/-- After the magic, the reader is in LSB-first order (R90, R252). -/
theorem Running.lsb (hp : s.seq.phase ≠ .magic) : s.reader.mode = .lsb := by
  have h := hs.sound.order hs.noError
  cases hm : s.reader.mode with
  | lsb => rfl
  | msb => exact absurd (h.mp hm) hp

theorem CompletesTo.sound {t : State} (h : CompletesTo s t) : Sound t where
  readerOk := h.tied.ok
  inputLeft := h.tied.inputLeft
  buffered := h.tied.buffered
  fewBits _ := h.few
  notWaiting := h.tied.notWaiting
  order _ := h.phase.order
  header := h.phase.header
  aligned := h.phase.aligned
  oneFlag := by rw [h.status]; exact hs.sound.oneFlag
  kindLegal := by rw [h.status]; exact hs.sound.kindLegal
  positionLegal := by rw [h.status]; exact hs.sound.positionLegal
  positionNow he := by
    rw [h.status] at he
    exact absurd he (by simp [hs.noError])
  trailerLegal := by rw [h.status]; exact hs.sound.trailerLegal
  donePhase := by
    have hr := h.phase.running
    rw [h.status]
    simp only [hs.notDone, Bool.false_eq_true, false_iff]
    intro hp; rw [hp] at hr; cases hr
  errorPhase := by
    have hr := h.phase.running
    rw [h.status]
    simp only [hs.noError, Bool.false_eq_true, false_iff]
    intro hp; rw [hp] at hr; cases hr
  terminalFree hp := by rw [h.phase.running] at hp; cases hp
  chunkSize := h.output.chunkSize
  offered := h.output.offered
  dense := h.output.dense
  outputBound := h.output.outputBound
  builtCl := h.tables .cl
  builtLl := h.tables .ll
  builtD := h.tables .d
  storedLeft := h.phase.storedLeft
  counts := h.phase.counts
  finalBlock hp := by
    have hr := h.phase.running
    rcases hp with hp | hp
    · exact h.phase.finalBlock hp
    · rw [hp] at hr; cases hr

/-- An element that raises leaves a sound state in P_ERROR (R485, R486). -/
theorem RaisesIn.sound {k : ErrKind} {q : Nat} {t : State} (h : RaisesIn s k q t) : Sound (errorEntry k q t) := by
  obtain ⟨hk, rfl, ht, hi⟩ := h
  have hs' := hs.sound
  exact {
    readerOk := ht.ok
    inputLeft := ht.inputLeft
    buffered := ht.buffered
    fewBits := nofun
    notWaiting := ht.notWaiting
    order := nofun
    header := nofun
    aligned := nofun
    oneFlag := by simp [hi.ports, hs.notDone]
    kindLegal := by simp [hk]
    positionLegal := nofun
    positionNow _ := rfl
    trailerLegal := by simpa [hi.ports] using hs'.trailerLegal
    donePhase := by simp [hi.ports, hs.notDone]
    errorPhase := by simp
    terminalFree _ := by simp [hi.ports, hs.free]
    chunkSize := by simp [hi.ports, hs.free]
    offered := by simpa [hi.ports, hs.free, hi.history, hi.sameHost.accepted] using hs'.offered
    dense := by simpa [hi.history] using hs'.dense
    outputBound := by
      have h1 := hs'.outputBound
      have h2 := hi.forward
      show t.history.outCount ≤ 129 * t.bitPos
      rw [hi.history]; omega
    builtCl := by simpa [hi.tables] using hs'.builtCl
    builtLl := by simpa [hi.tables] using hs'.builtLl
    builtD := by simpa [hi.tables] using hs'.builtD
    storedLeft := nofun
    counts := nofun
    finalBlock := by simp }

/-- An element that waits leaves a state that stands for the block it began in (R521). -/
theorem WaitsIn.start_suspend {t : State} (h : WaitsIn s t) : (suspend s t).start = s := by
  obtain ⟨-, -, hi⟩ := h
  rw [State.start_of_some (suspend_suspended s t), suspend, hi.sameHost, ← hs.fresh]

theorem WaitsIn.inv {t : State} (h : WaitsIn s t) : Inv (suspend s t) where
  sound := by rw [h.start_suspend hs]; exact hs.sound
  waiting b hb := by
    obtain ⟨-, hw, hi⟩ := h
    cases hb
    exact ⟨hw, hs.free, hi.ports, hi.history, hi.tables, hi.phase⟩

/-! ## What a completed element wrote -/

theorem Midway.outputSound {t : State} (h : Midway s t) : OutputSound t where
  chunkSize := by rw [h.ports, hs.free]; nofun
  offered := by rw [h.ports, h.history, h.sameHost.accepted]; exact hs.sound.offered
  dense := by rw [h.history]; exact hs.sound.dense
  outputBound := by
    have h1 := hs.sound.outputBound
    have h2 := h.forward
    rw [h.history]; omega

theorem Midway.tablesBuilt {t : State} (h : Midway s t) : t.tables.built := by
  rw [h.tables]; exact hs.sound.tablesBuilt

/-- An element that completes with a write of the sequencer's registers only. -/
theorem Midway.completes {t : State} (h : Midway s t) {q : Sequencer} (hf : s.bitPos < t.bitPos)
    (hp : PhaseSound (t.withSeq q)) : CompletesTo s (t.withSeq q) where
  sameHost := h.sameHost.writes _
  tied := h.tied.congr rfl rfl
  few := h.few
  forward := hf
  phase := hp
  output := by
    obtain ⟨h1, h2, h3, h4⟩ := h.outputSound hs
    exact ⟨h1, h2, h3, h4⟩
  tables := h.tablesBuilt hs
  status := by rw [State.withSeq_ports, h.ports]

/-- An element that completes with built tables in the stores. -/
theorem Midway.completesBuilding {t : State} (h : Midway s t) {ts : Tables} {d : List DiagEvent} {q : Sequencer}
    (hf : s.bitPos < t.bitPos) (hp : PhaseSound (t.withSeq q)) (hts : ts.built) :
    CompletesTo s (((t.withTables ts).withDiag d).withSeq q) := by
  obtain ⟨h1, h2, h3, h4, h5, h6, -, h8⟩ := h.completes hs hf hp
  exact {
    sameHost := h.sameHost.writes _
    tied := h2.congr rfl rfl
    few := h3
    forward := h4
    phase := hp.congr rfl rfl
    output := ⟨h6.chunkSize, h6.offered, h6.dense, h6.outputBound⟩
    tables := hts
    status := h8 }

/-- An element that completes with bytes appended to the history and offered as a chunk, at most 129 of them for each
bit it took (R446). -/
theorem Midway.completesAppending {t : State} (h : Midway s t) {bs : List Byte} {d : List DiagEvent} {q : Sequencer}
    (hf : s.bitPos < t.bitPos) (hp : PhaseSound (t.withSeq q)) (h1 : 1 ≤ bs.length) (h258 : bs.length ≤ 258)
    (hb : bs.length ≤ 129 * (t.bitPos - s.bitPos)) :
    CompletesTo s (emit bs (((t.withHistory (appendAll bs t).history).withDiag d).withSeq q)) where
  sameHost := h.sameHost.writes _
  tied := h.tied.congr rfl rfl
  few := h.few
  forward := hf
  phase := hp.congr rfl rfl
  output := by
    have hd : t.history.dense := by rw [h.history]; exact hs.sound.dense
    have hoff := hs.sound.offered
    have hbound := hs.sound.outputBound
    refine ⟨fun _ => ⟨h1, h258⟩, ?_, appendAll_dense hd, ?_⟩
    · show t.accepted.flatten ++ bs = (appendAll bs t).history.bytes
      rw [appendAll_bytes hd, h.sameHost.accepted, h.history, ← hoff, hs.free]
      simp
    · show (appendAll bs t).history.outCount ≤ 129 * t.bitPos
      rw [appendAll_outCount, h.history]
      omega
  tables := h.tablesBuilt hs
  status := by simp [h.ports]

end

end Sys2Proof.Machine
end

section
/-! PROOFS. The elements of the container and of the block headers, each from a sound state in its phase. -/

namespace Sys2Proof.Machine

open Sys2Proof

@[simp] theorem State.withSeq_bitPos (s : State) (q : Sequencer) : (s.withSeq q).bitPos = s.bitPos := rfl
@[simp] theorem State.setPhase_bitPos (s : State) (p : Phase) : (s.setPhase p).bitPos = s.bitPos := rfl

/-- An element of `s` completed in `t`: the next state is sound, and the bit position has moved forward (R36). -/
structure Done (s t : State) : Prop where
  sound : Sound t
  forward : s.bitPos < t.bitPos
  sameHost : SameHost s t

/-- An element of `s` ends without a fault or a refusal: completed, raised or waiting. -/
def Finishes (s : State) (r : Res Unit) : Prop := r.ends (fun _ t => Done s t) (RaisesIn s) (WaitsIn s)

theorem CompletesTo.done {s t : State} (hs : Running s) (h : CompletesTo s t) : Done s t :=
  ⟨h.sound hs, h.forward, h.sameHost⟩

/-- The phases about whose registers the invariant says nothing but where their element starts. -/
def plainPhase : Phase → Bool
  | .magic | .storedData | .dynLens | .trailer | .done | .error => false
  | _ => true

theorem not_terminal_of_plain {p : Phase} (h : plainPhase p = true) : terminal p = false := by
  revert h; cases p <;> decide

theorem PhaseSound.of_plain {t : State} (hm : t.reader.mode = .lsb) (hp : plainPhase t.seq.phase = true)
    (hh : ∀ p, headerPos t.seq.phase = some p → t.bitPos = p)
    (ha : byteAligned t.seq.phase = true → t.bitPos % 8 = 0) : PhaseSound t := by
  have hne : ∀ p, plainPhase p = false → t.seq.phase ≠ p := by
    rintro p h rfl; rw [h] at hp; cases hp
  exact {
    running := not_terminal_of_plain hp
    order := by simp [hm, hne .magic rfl]
    header := hh
    aligned := ha
    storedLeft := fun h => absurd h (hne _ rfl)
    counts := fun h => absurd h (hne _ rfl)
    finalBlock := fun h => absurd h (hne _ rfl) }

section
variable {s u : State} (hs : Running s)
include hs

theorem Midway.lsb (hu : Midway s u) (hne : s.seq.phase ≠ .magic) : u.reader.mode = .lsb :=
  hu.mode.trans (hs.lsb hne)

/-- An element behind the magic that completes in a plain phase. -/
theorem Midway.doneIn (hu : Midway s u) (hne : s.seq.phase ≠ .magic) (hf : s.bitPos < u.bitPos) {q : Sequencer}
    (hp : plainPhase q.phase = true) (hh : ∀ p, headerPos q.phase = some p → u.bitPos = p)
    (ha : byteAligned q.phase = true → u.bitPos % 8 = 0) : Done s (u.withSeq q) := by
  have hm : u.reader.mode = .lsb := hu.lsb hs hne
  exact (hu.completes (q := q) hs hf (.of_plain hm hp hh ha)).done hs

/-- The phase that `BlockEnd` selects (R313). -/
theorem Midway.blockEnd_phaseSound (hu : Midway s u) (hne : s.seq.phase ≠ .magic) :
    PhaseSound (u.setPhase (if u.seq.bfinal then .trailer else .blkhdr)) := by
  have hm := hu.lsb hs hne
  cases hb : u.seq.bfinal
  · exact .of_plain hm rfl nofun nofun
  · exact {
      running := rfl
      order := by simp [hm]
      header := nofun
      aligned := nofun
      storedLeft := nofun
      counts := nofun
      finalBlock _ := hb }

/-! ## The container -/

/-- `GZ_MAGIC` (R251, R252): the 16 bits start at bit 0, so none is buffered when the order changes. -/
theorem gzMagic_finishes (hp : s.seq.phase = .magic) : Finishes s (gzMagic s) := by
  have hpos : s.bitPos = 0 := hs.sound.header 0 (by rw [hp]; rfl)
  refine hs.midway.ends_readBits (by decide) fun v u hu _ hb _ => ?_
  split
  · exact hu.raisesHere (by decide)
  have hcnt : u.reader.cnt = 0 := by
    have h1 : 8 * u.reader.nfetch - u.reader.cnt = s.bitPos + 16 := hb
    have h2 := hu.tied.ok.2
    have h3 := hu.few
    omega
  have hset : setMode .lsb u = .ok () (u.withReader { u.reader with mode := .lsb, acc := 0 }) := if_pos hcnt
  rw [hset, Res.bind_ok]
  refine CompletesTo.done hs {
    sameHost := hu.sameHost.writes _
    tied := .of_empty hcnt rfl hu.tied.inputLeft hu.tied.notWaiting
    few := hu.few
    forward := by show s.bitPos < u.bitPos; omega
    phase := .of_plain rfl rfl (fun p h => ?_) fun _ => ?_
    output := ?_
    tables := hu.tablesBuilt hs
    status := by simp [hu.ports] }
  · cases h; show u.bitPos = 16; omega
  · show u.bitPos % 8 = 0; omega
  · obtain ⟨h1, h2, h3, h4⟩ := hu.outputSound hs
    exact ⟨h1, h2, h3, h4⟩

theorem gzCm_finishes (hp : s.seq.phase = .cm) : Finishes s (gzCm s) := by
  have hpos : s.bitPos = 16 := hs.sound.header 16 (by rw [hp]; rfl)
  refine hs.midway.ends_readBits (by decide) fun v u hu _ hb _ => ?_
  split
  · exact hu.raisesHere (by decide)
  · exact hu.doneIn hs (by simp [hp]) (by omega) rfl (fun p h => by cases h; omega) fun _ => by omega

theorem gzFlg_finishes (hp : s.seq.phase = .flg) : Finishes s (gzFlg s) := by
  have hpos : s.bitPos = 24 := hs.sound.header 24 (by rw [hp]; rfl)
  refine hs.midway.ends_readBits (by decide) fun v u hu _ hb _ => ?_
  exact hu.doneIn hs (by simp [hp]) (by omega) rfl (fun p h => by cases h; omega) fun _ => by omega

/-- A header field that is skipped (R256, R257, R262). -/
theorem skipField_finishes {n : Nat} {p : Phase} (hne : s.seq.phase ≠ .magic) (h1 : 1 ≤ n) (h32 : n ≤ 32)
    (hp : plainPhase p = true) (hh : ∀ q, headerPos p = some q → s.bitPos + n = q)
    (ha : byteAligned p = true → (s.bitPos + n) % 8 = 0) : Finishes s (skipField n p s) := by
  refine hs.midway.ends_readBits h32 fun v u hu _ hb _ => ?_
  rw [← hb] at hh ha
  exact hu.doneIn hs hne (by omega) hp hh ha

omit hs in
/-- The header phases that NextHdrPhase selects are plain ones, with no fixed place (R263). -/
theorem nextHdrPhase_plain (a : Phase) (f : BitVec 8) :
    plainPhase (nextHdrPhase a f) = true ∧ headerPos (nextHdrPhase a f) = none := by
  unfold nextHdrPhase
  split
  · exact ⟨rfl, rfl⟩
  split
  · exact ⟨rfl, rfl⟩
  split
  · exact ⟨rfl, rfl⟩
  · exact ⟨rfl, rfl⟩

/-- A byte-aligned element that completes in the phase of the next header field. -/
theorem Midway.doneInNextHdr (hu : Midway s u) (hne : s.seq.phase ≠ .magic) (hf : s.bitPos < u.bitPos)
    (h8 : u.bitPos % 8 = 0) (a : Phase) (f : BitVec 8) : Done s (u.setPhase (nextHdrPhase a f)) := by
  obtain ⟨h1, h2⟩ := nextHdrPhase_plain a f
  exact hu.doneIn hs hne hf h1 (fun p h => by rw [show headerPos (nextHdrPhase a f) = none from h2] at h; cases h)
    fun _ => h8

theorem gzOs_finishes (hp : s.seq.phase = .os) : Finishes s (gzOs s) := by
  have hpos : s.bitPos = 72 := hs.sound.header 72 (by rw [hp]; rfl)
  refine hs.midway.ends_readBits (by decide) fun v u hu _ hb _ => ?_
  unfold gzFextra
  split
  · exact hu.raisesHere (by decide)
  · exact hu.doneInNextHdr hs (by simp [hp]) (by omega) (by omega) _ _

/-- One byte of a header string (R260, R261). -/
theorem stringByte_finishes {p : Phase} (hp : s.seq.phase = p) (hstr : p = .fname ∨ p = .fcomment) :
    Finishes s (stringByte p s) := by
  have hne : s.seq.phase ≠ .magic := by rcases hstr with rfl | rfl <;> simp [hp]
  have h8 : s.bitPos % 8 = 0 := hs.sound.aligned (by rcases hstr with rfl | rfl <;> rw [hp] <;> rfl)
  refine hs.midway.ends_readBits (by decide) fun v u hu hq hb _ => ?_
  show Done s (if v = 0 then _ else _)
  split
  · exact hu.doneInNextHdr hs hne (by omega) (by omega) _ _
  · refine hu.doneIn (q := u.seq) hs hne (by omega) ?_ ?_ fun _ => by omega
    · rw [hq, hp]; rcases hstr with rfl | rfl <;> rfl
    · rw [hq, hp]; rcases hstr with rfl | rfl <;> nofun

/-- `GZ_TRAILER` (R270): the fields stand behind the alignment, and the block is done. -/
theorem gzTrailer_finishes (hp : s.seq.phase = .trailer) : Finishes s (gzTrailer s) := by
  refine hs.midway.ends_alignToByte fun _ t ht hqt hbt _ => ?_
  refine ht.ends_readBits (by decide) fun crc u hu hqu hbu _ => ?_
  refine hu.ends_readBits (by decide) fun isize v hv hqv hbv _ => ?_
  have hlsb := hv.lsb hs (by simp [hp])
  have hfin : v.seq.bfinal = true := by
    rw [hqv, hqu, hqt]; exact hs.sound.finalBlock (.inl hp)
  have herr : v.ports.error = false := by rw [hv.ports]; exact hs.noError
  have hfree : v.ports.outPend = false := by rw [hv.ports]; exact hs.free
  obtain ⟨h1, h2, h3, h4⟩ := hv.outputSound hs
  exact {
    forward := by show s.bitPos < v.bitPos; omega
    sameHost := hv.sameHost.writes _
    sound := {
      readerOk := hv.tied.ok
      inputLeft := hv.tied.inputLeft
      buffered := hv.tied.buffered
      fewBits _ := hv.few
      notWaiting := hv.tied.notWaiting
      order _ := by simp [complete, hlsb]
      header := nofun
      aligned := nofun
      oneFlag := by simp [complete, herr]
      kindLegal := by simpa [complete, hv.ports] using hs.sound.kindLegal
      positionLegal := by simpa [complete, hv.ports] using hs.sound.positionLegal
      positionNow := by simp [complete, herr]
      trailerLegal := nofun
      donePhase := by simp [complete]
      errorPhase := by simp [complete, herr]
      terminalFree _ := hfree
      chunkSize := h1
      offered := h2
      dense := h3
      outputBound := h4
      builtCl := hv.tablesBuilt hs .cl
      builtLl := hv.tablesBuilt hs .ll
      builtD := hv.tablesBuilt hs .d
      storedLeft := nofun
      counts := nofun
      finalBlock _ := hfin } }

end

end Sys2Proof.Machine
end

section
/-! PROOFS. The block elements and the symbols, each from a sound state in its phase. -/

namespace Sys2Proof.Machine

open Sys2Proof

/-! ## Blocks -/

/-- Two builds leave the stores of the second and the events of both (R209, R495). -/
theorem sendDiag_builds (s : State) (ts ts' : Tables) :
    ∃ d, sendDiag .tableBuilt ((sendDiag .tableBuilt (s.withTables ts)).withTables ts')
      = (s.withTables ts').withDiag d := by
  obtain ⟨d, hd⟩ := sendDiag_withDiag .tableBuilt (s.withTables ts)
  rw [hd]
  exact sendDiag_withDiag .tableBuilt _

/-- `BlockEnd` (R313), whatever the sink. -/
theorem blockEnd_withDiag (s : State) :
    ∃ d, blockEnd s = (s.withDiag d).setPhase (if s.seq.bfinal then .trailer else .blkhdr) := by
  obtain ⟨d, hd⟩ := sendDiag_withDiag .blockEnd s
  exact ⟨d, by rw [blockEnd_eq, hd]⟩

section
variable {s u : State} (hs : Running s)
include hs

/-- Both block tables built, and the first symbol next: the end of `BLK_FIXED` (R293) and of `LensComplete` (R310). -/
theorem Midway.doneBuilding (hu : Midway s u) (hne : s.seq.phase ≠ .magic) (hf : s.bitPos < u.bitPos) {ll dt : Table}
    (hll : ll.built .ll) (hdt : dt.built .d) :
    Done s ((sendDiag .tableBuilt ((sendDiag .tableBuilt (u.withTables { u.tables with ll := ll })).withTables
      { u.tables with ll := ll, d := dt })).setPhase .symbol) := by
  have hm : u.reader.mode = .lsb := hu.lsb hs hne
  have hcl := hu.tablesBuilt hs .cl
  obtain ⟨d, hd⟩ := sendDiag_builds u { u.tables with ll := ll } { u.tables with ll := ll, d := dt }
  rw [hd]
  exact (hu.completesBuilding (q := { u.seq with phase := .symbol }) hs hf (.of_plain hm rfl nofun nofun)
    (Tables.built_of hcl hll hdt)).done hs

/-- `BLKHDR` (R291) with the continuation its type selects. -/
theorem blkhdr_finishes (hp : s.seq.phase = .blkhdr) : Finishes s (blkhdr s) := by
  have hne : s.seq.phase ≠ .magic := by simp [hp]
  refine (hs.midway.afterDiag _).ends_readBits (by decide) fun f t ht hqt hbt _ => ?_
  refine ht.ends_readBits (by decide) fun ty u hu hqu hbu _ => ?_
  rw [sendDiag_bitPos] at hbt
  have hv : Midway s (u.withSeq { u.seq with bfinal := f == 1, btype := BitVec.ofNat 2 ty }) := hu.withSeq rfl
  have hf : s.bitPos < (u.withSeq { u.seq with bfinal := f == 1, btype := BitVec.ofNat 2 ty }).bitPos := by
    rw [State.withSeq_bitPos]; omega
  dsimp only
  generalize u.withSeq _ = v at hv hf ⊢
  split
  · exact hv.doneIn hs hne hf rfl nofun nofun
  · rw [blkFixed_eq]
    have hll := fixedLL_built
    have hdt := fixedD_built
    generalize tableOf (expandRanges fixedLL) = ll at hll ⊢
    generalize tableOf (expandRanges fixedD) = dt at hdt ⊢
    exact hv.doneBuilding hs hne hf hll hdt
  · exact hv.doneIn hs hne hf rfl nofun nofun
  · exact hv.raisesHere (by decide)

omit hs in
theorem ofNat_sixteen_ne_zero {n : Nat} (h0 : n ≠ 0) (hn : n < 2 ^ 16) : BitVec.ofNat 16 n ≠ 0 := by
  intro h
  have := congrArg BitVec.toNat h
  simp at this
  omega

/-- `STORED_HDR` (R296, R298). -/
theorem storedHdr_finishes (hp : s.seq.phase = .storedHdr) : Finishes s (storedHdr s) := by
  have hne : s.seq.phase ≠ .magic := by simp [hp]
  refine hs.midway.ends_alignToByte fun _ t ht _ hbt h8 => ?_
  refine ht.ends_readBits (by decide) fun len u hu _ hbu hlen => ?_
  refine hu.ends_readBits (by decide) fun nlen v hv _ hbv _ => ?_
  have hf : s.bitPos < v.bitPos := by omega
  split
  · have hw : Midway s (v.withSeq { v.seq with storedRem := BitVec.ofNat 16 len }) := hv.withSeq rfl
    show Done s (if len = 0 then _ else _)
    split
    · obtain ⟨d, hd⟩ := blockEnd_withDiag (v.withSeq { v.seq with storedRem := BitVec.ofNat 16 len })
      rw [hd]
      exact ((hw.withDiag d).completes hs hf ((hw.withDiag d).blockEnd_phaseSound hs hne)).done hs
    next h0 =>
      refine (hw.completes (q := { v.seq with storedRem := BitVec.ofNat 16 len, phase := .storedData }) hs hf {
        running := rfl
        order := ?_
        header := nofun
        aligned _ := ?_
        storedLeft _ := ofNat_sixteen_ne_zero h0 hlen
        counts := nofun
        finalBlock := nofun }).done hs
      · have hm := hv.lsb hs hne
        simp [hm]
      · show v.bitPos % 8 = 0; omega
  · exact hv.raisesHere (by decide)

/-- `STORED_BYTE` (R297). -/
theorem storedByte_finishes (hp : s.seq.phase = .storedData) : Finishes s (storedByte s) := by
  have hne : s.seq.phase ≠ .magic := by simp [hp]
  have h8 : s.bitPos % 8 = 0 := hs.sound.aligned (by rw [hp]; rfl)
  refine hs.midway.ends_readBits (by decide) fun b u hu hq hb _ => ?_
  have hf : s.bitPos < u.bitPos := by omega
  have hq' : Midway s (u.withSeq { u.seq with storedRem := u.seq.storedRem - 1 }) := hu.withSeq rfl
  have hend := hq'.blockEnd_phaseSound hs hne
  show Done s (emit [BitVec.ofNat 8 b] (if u.seq.storedRem - 1 = 0 then _ else _))
  split
  · obtain ⟨d, hd⟩ := blockEnd_withDiag
      ((outAppend (BitVec.ofNat 8 b) u).withSeq { u.seq with storedRem := u.seq.storedRem - 1 })
    rw [show (outAppend (BitVec.ofNat 8 b) u).seq = u.seq from rfl, hd]
    exact (hu.completesAppending (bs := [BitVec.ofNat 8 b]) hs hf hend (by simp) (by simp)
      (by rw [List.length_singleton]; omega)).done hs
  next hrem =>
    refine (hu.completesAppending (bs := [BitVec.ofNat 8 b]) (d := u.diag)
      (q := { u.seq with storedRem := u.seq.storedRem - 1 }) hs hf {
        running := ?_
        order := ?_
        header := ?_
        aligned _ := ?_
        storedLeft _ := hrem
        counts := ?_
        finalBlock := ?_ } (by simp) (by simp) (by rw [List.length_singleton]; omega)).done hs
    · simp [hq, hp, terminal]
    · simp [hq, hp, hu.lsb hs hne]
    · simp [hq, hp, headerPos]
    · show u.bitPos % 8 = 0; omega
    · simp [hq, hp]
    · simp [hq, hp]

end

end Sys2Proof.Machine
end

section
/-! PROOFS. The dynamic block's header and code-length symbols, and the literal/length symbols. -/

namespace Sys2Proof.Machine

open Sys2Proof

/-! ## The dynamic block -/

/-- The loop of `CodeLengthLengths` inside an element: it writes CL_LEN (R302). -/
theorem Midway.ends_readClLens {slots : List Nat} {f : Unit → State → Res Unit} {s t : State} {D : Unit → State → Prop}
    (h : Midway s t)
    (hf : ∀ u, Midway s u → t.bitPos ≤ u.bitPos → u.seq = { t.seq with clLen := u.seq.clLen } →
      (f () u).ends D (RaisesIn s) (WaitsIn s)) :
    ((readClLens slots t).bind f).ends D (RaisesIn s) (WaitsIn s) := by
  induction slots generalizing t with
  | nil => exact hf t h (Nat.le_refl _) rfl
  | cons slot slots ih =>
    rw [readClLens, Res.bind_assoc]
    refine h.ends_readBits (by decide) fun v u hu hq hb _ => ?_
    refine ih (hu.withSeq rfl) fun w hw hbw hqw => hf w hw ?_ ?_
    · rw [State.withSeq_bitPos] at hbw; omega
    · rw [hqw, State.withSeq_seq, hq]

section
variable {s u : State} (hs : Running s)
include hs

/-- `CodeLengthLengths` inside an element: it writes CL_LEN and builds T_CL (R302). -/
theorem Midway.ends_codeLengthLengths {f : Unit → State → Res Unit} {D : Unit → State → Prop} (hu : Midway s u)
    (hf : ∀ t d ts, Midway s t → u.bitPos ≤ t.bitPos → t.seq = { u.seq with clLen := t.seq.clLen } → ts.built →
      (f () ((t.withTables ts).withDiag d)).ends D (RaisesIn s) (WaitsIn s)) :
    ((codeLengthLengths u).bind f).ends D (RaisesIn s) (WaitsIn s) := by
  unfold codeLengthLengths
  rw [Res.bind_assoc]
  refine Midway.ends_readClLens (hu.withSeq rfl) fun t ht hb hq => ?_
  rw [buildFromLengths_eq (clLens_ok t.seq), Res.bind_ok]
  obtain ⟨d, hd⟩ := sendDiag_withDiag .tableBuilt
    (t.withTables (t.tables.set .cl (tableOf (t.seq.clLen.toList.map BitVec.toNat))))
  rw [hd]
  have hbuilt := ht.tablesBuilt hs
  exact hf t d _ ht hb hq (Tables.built_of ⟨_, clLens_ok t.seq, rfl⟩ (hbuilt .ll) (hbuilt .d))

/-- `DYN_HDR` (R300): the counts read are in their ranges (R44), and LENS is empty (R303). -/
theorem dynHdr_finishes (hp : s.seq.phase = .dynHdr) : Finishes s (dynHdr s) := by
  have hne : s.seq.phase ≠ .magic := by simp [hp]
  refine hs.midway.ends_readBits (by decide) fun a t ht hqt hbt ha => ?_
  refine Midway.ends_readBits (ht.withSeq rfl) (by decide) fun b u hu hqu hbu hb => ?_
  refine Midway.ends_readBits (hu.withSeq rfl) (by decide) fun c v hv hqv hbv hc => ?_
  refine Midway.ends_codeLengthLengths hs (hv.withSeq rfl) fun w d ts hw hbw hqw hts => ?_
  simp only [State.withSeq_bitPos] at hbu hbv hbw
  have hlsb := hw.lsb hs hne
  have hlit : w.seq.hlit.toNat = a + 257 := by
    rw [hqw, State.withSeq_seq, hqv, State.withSeq_seq, hqu, State.withSeq_seq]
    simp; omega
  have hdist : w.seq.hdist.toNat = b + 1 := by
    rw [hqw, State.withSeq_seq, hqv, State.withSeq_seq]
    simp; omega
  have hclen : w.seq.hclen.toNat = c + 4 := by
    rw [hqw, State.withSeq_seq]
    simp; omega
  refine (hw.completesBuilding (q := { w.seq with lensN := 0, phase := .dynLens }) hs (by omega) {
    running := rfl
    order := by simp [hlsb]
    header := nofun
    aligned := nofun
    storedLeft := nofun
    counts _ := ?_
    finalBlock := nofun } hts).done hs
  simp only [State.withSeq_seq, lensTotal, hlit, hdist, hclen]
  omega

/-- `Append(v, r)` (R316) as the end of a code-length element: an overrun raises, and otherwise the list grows or is
complete. -/
theorem Midway.appendLens_finishes (hu : Midway s u) (hp : s.seq.phase = .dynLens) (hq : u.seq = s.seq)
    (hf : s.bitPos < u.bitPos) (v : BitVec 4) (r : Nat) : Finishes s (appendLens v r u) := by
  have hne : s.seq.phase ≠ .magic := by simp [hp]
  have hm := hu.lsb hs hne
  obtain ⟨c1, c2, c3, c4, c5, c6, -⟩ := hs.sound.counts hp
  rw [← hq] at c1 c2 c3 c4 c5 c6
  by_cases hover : lensTotal u.seq < u.seq.lensN + r
  · rw [appendLens_over hover]
    exact hu.raisesHere (by decide)
  rw [appendLens_eq c2 c4 (by omega)]
  show Done s (lensAppended v r u)
  unfold lensAppended
  generalize lensWith u.seq.lens v u.seq.lensN r = lens
  dsimp only
  split
  · have hw : Midway s (u.withSeq { u.seq with lens := lens, lensN := u.seq.lensN + r }) := hu.withSeq rfl
    have hll : lengthsOk .ll ((lens.toList.map BitVec.toNat).take u.seq.hlit.toNat) = true := by
      rw [← List.map_take]; exact nibbles_ok _ _ (by rw [List.length_take]; show min _ _ ≤ 288; omega)
    have hd : lengthsOk .d
        (((lens.toList.map BitVec.toNat).drop u.seq.hlit.toNat).take u.seq.hdist.toNat) = true := by
      rw [← List.map_drop, ← List.map_take]
      exact nibbles_ok _ _ (by rw [List.length_take]; show min _ _ ≤ 32; omega)
    have h := hw.doneBuilding hs hne hf ⟨_, hll, rfl⟩ ⟨_, hd, rfl⟩
    simpa using h
  next hpart =>
    exact (hu.completes (q := { u.seq with lens := lens, lensN := u.seq.lensN + r }) hs hf {
      running := by simp [hq, hp, terminal]
      order := by simp [hq, hp, hm]
      header := by simp [hq, hp, headerPos]
      aligned := by simp [hq, hp, byteAligned, headerPos]
      storedLeft := by simp [hq, hp]
      counts _ := ⟨c1, c2, c3, c4, c5, c6, by
        show u.seq.lensN + r < lensTotal u.seq
        omega⟩
      finalBlock := by simp [hq, hp] }).done hs

omit hs in
/-- A repeat count (R305 to R307), and the append it is for. -/
theorem Midway.repeatCount_finishes (hu : Midway s u) (hq : u.seq = s.seq)
    (hf : s.bitPos < u.bitPos) {base extra : Nat} (h32 : extra ≤ 32) {g : Nat → State → Res Unit}
    (hg : ∀ r t, Midway s t → t.seq = s.seq → s.bitPos < t.bitPos → Finishes s (g r t)) :
    Finishes s ((repeatCount base extra u).bind g) := by
  unfold repeatCount
  rw [Res.bind_assoc]
  exact hu.ends_readBits h32 fun e t ht hqt hbt _ => hg _ t ht (hqt.trans hq) (by omega)

/-- `CL_REPEAT_PREV` (R305): the previous length stands in LENS, since LENS_N is below HLIT + HDIST. -/
theorem Midway.clRepeatPrev_finishes (hu : Midway s u) (hp : s.seq.phase = .dynLens) (hq : u.seq = s.seq)
    (hf : s.bitPos < u.bitPos) : Finishes s (clRepeatPrev u) := by
  obtain ⟨-, c2, -, c4, -, -, c7⟩ := hs.sound.counts hp
  unfold clRepeatPrev
  split
  · exact hu.raisesHere (by decide)
  refine hu.repeatCount_finishes hq hf (by decide) fun r t ht hqt hft => ?_
  have hlt : t.seq.lensN - 1 < 320 := by
    rw [hqt]; unfold lensTotal at c7; omega
  rw [Vector.getElem?_eq_getElem hlt]
  exact ht.appendLens_finishes hs hp hqt hft _ r

/-! ## Literal/length symbols -/

theorem Midway.symbol_phaseSound (hu : Midway s u) (hp : s.seq.phase = .symbol) : PhaseSound u := by
  have hpu : u.seq.phase = .symbol := hu.phase.trans hp
  exact .of_plain (hu.lsb hs (by simp [hp])) (by rw [hpu]; rfl) (by rw [hpu]; nofun) (by rw [hpu]; nofun)

/-- Bytes appended and offered as a chunk: the end of a literal and of a length element (R341, R343, R445). -/
theorem Midway.doneAppending (hu : Midway s u) (hp : s.seq.phase = .symbol) (hf : s.bitPos < u.bitPos)
    {bs : List Byte} (h1 : 1 ≤ bs.length) (h258 : bs.length ≤ 258) (hb : bs.length ≤ 129 * (u.bitPos - s.bitPos)) :
    Done s (emit bs (appendAll bs u)) := by
  rw [appendAll_eq]
  exact (hu.completesAppending (d := u.diag) (q := u.seq) hs hf (hu.symbol_phaseSound hs hp) h1 h258 hb).done hs

theorem Midway.litSymbol_finishes (hu : Midway s u) (hp : s.seq.phase = .symbol) (hf : s.bitPos < u.bitPos) (v : Byte) :
    Finishes s (litSymbol v u) :=
  hu.doneAppending (bs := [v]) hs hp hf (by simp) (by simp) (by rw [List.length_singleton]; omega)

theorem Midway.eobSymbol_finishes (hu : Midway s u) (hp : s.seq.phase = .symbol) (hf : s.bitPos < u.bitPos) :
    Finishes s (eobSymbol u) := by
  obtain ⟨d, hd⟩ := blockEnd_withDiag u
  show Done s (blockEnd u)
  rw [hd]
  exact ((hu.withDiag d).completes hs hf ((hu.withDiag d).blockEnd_phaseSound hs (by simp [hp]))).done hs

omit hs in
/-- A distance symbol inside an element, and what follows it: a legal one gives at least 1 (R375). -/
theorem Midway.ends_distanceOf {d : Nat} {f : Nat → State → Res Unit} {D : Unit → State → Prop} (hu : Midway s u)
    (hd : d < 32) (hf : ∀ dist t, Midway s t → u.bitPos ≤ t.bitPos → 1 ≤ dist →
      (f dist t).ends D (RaisesIn s) (WaitsIn s)) :
    ((distanceOf d u).bind f).ends D (RaisesIn s) (WaitsIn s) := by
  by_cases h29 : d ≤ 29
  · obtain ⟨h1, -, h13⟩ := distBase_bounds d h29
    rw [distanceOf_eq d h29, distanceValue, Res.bind_assoc]
    exact hu.ends_readBits (by omega) fun e t ht _ hb _ => hf _ t ht (by omega) (by omega)
  · obtain rfl | rfl : d = 30 ∨ d = 31 := by omega
    · exact hu.raisesHere (by decide)
    · exact hu.raisesHere (by decide)

/-- A length element (R343): the copy runs within the history (R441, R444), and the run it offers is what it
appended. -/
theorem Midway.lengthElement_finishes (hu : Midway s u) (hp : s.seq.phase = .symbol) (hf : s.bitPos < u.bitPos)
    {base extra : Nat} (h5 : extra ≤ 5) (h3 : 3 ≤ base) (h259 : base + 2 ^ extra ≤ 259) :
    Finishes s (lengthElement base extra u) := by
  unfold lengthElement lengthValue
  rw [Res.bind_assoc]
  refine hu.ends_readBits (by omega) fun e t ht _ hbt he => ?_
  rw [Res.bind_ok]
  refine ht.ends_findNextSymbol (ht.tablesBuilt hs .d) fun d v hv _ hbv hd => ?_
  refine hv.ends_distanceOf hd fun dist w hw hbw h1 => ?_
  split
  · exact hw.raisesHere (by decide)
  next hfar =>
    have hdense : w.history.dense := by rw [hw.history]; exact hs.sound.dense
    have hslice := histSlice_appendAll (vs := copyBytes dist (base + e) w.history.bytes) hdense
    rw [length_copyBytes] at hslice
    rw [copyRun_eq hdense h1 (by omega), Res.bind_ok, hslice, Res.bind_ok]
    refine hw.doneAppending hs hp (by omega) ?_ ?_ ?_ <;> rw [length_copyBytes] <;> omega

end

end Sys2Proof.Machine
end

section
/-! PROOFS. One step of the machine from a state that meets the invariant: what it answers, and that the answer meets the
invariant again (R7, R80, R82, R485, R520, R521, R533). -/

namespace Sys2Proof.Machine

open Sys2Proof

/-! ## One element -/

/-- What one element of `s` leaves as the next state. -/
inductive ElementStep (s : State) : State → Prop where
  | done {t : State} (h : Done s t) : ElementStep s t
  | raised {k : ErrKind} {q : Nat} {t : State} (h : RaisesIn s k q t) : ElementStep s (errorEntry k q t)
  | waits {t : State} (h : WaitsIn s t) : ElementStep s (suspend s t)

/-- An instruction fetched inside the element of `s`: its operation, from the state behind its code, ends. -/
def Fetched (s : State) (i : Instr) (t : State) : Prop := ∃ r, exec i t = finish t r ∧ Finishes s r

theorem decode_litLen_ok {v : Nat} (hv : v < 288) : ∃ i, decode .litLen v = .ok i := by
  cases h : decode .litLen v with
  | ok i => exact ⟨i, rfl⟩
  | error e =>
    by_cases h255 : v ≤ 255
    · simp [decode, decodeLitLen, h255] at h
    · interval_cases v <;> cases h

section
variable {s t : State} (hs : Running s)
include hs

/-- Every code-length symbol of T_CL has its instruction (R119, R316). -/
theorem Midway.fetched_codeLength (ht : Midway s t) (hp : s.seq.phase = .dynLens) (hq : t.seq = s.seq)
    (hf : s.bitPos < t.bitPos) {v : Nat} (hv : v < 19) : ∃ i, decode .codeLength v = .ok i ∧ Fetched s i t := by
  by_cases h15 : v ≤ 15
  · exact ⟨.clLenLit (BitVec.ofNat 4 v), if_pos h15, _, rfl, ht.appendLens_finishes hs hp hq hf _ 1⟩
  obtain rfl | rfl | rfl : v = 16 ∨ v = 17 ∨ v = 18 := by omega
  · exact ⟨.clRepeatPrev, rfl, _, rfl, ht.clRepeatPrev_finishes hs hp hq hf⟩
  · exact ⟨.clZeroShort, rfl, _, rfl, ht.repeatCount_finishes hq hf (by decide)
      fun r u hu hqu hfu => hu.appendLens_finishes hs hp hqu hfu 0 r⟩
  · exact ⟨.clZeroLong, rfl, _, rfl, ht.repeatCount_finishes hq hf (by decide)
      fun r u hu hqu hfu => hu.appendLens_finishes hs hp hqu hfu 0 r⟩

/-- Every literal/length symbol of T_LL has its instruction (R120, R340). -/
theorem Midway.fetched_litLen (ht : Midway s t) (hp : s.seq.phase = .symbol) (hf : s.bitPos < t.bitPos) {v : Nat}
    (hv : v < 288) : ∃ i, decode .litLen v = .ok i ∧ Fetched s i t := by
  by_cases h255 : v ≤ 255
  · exact ⟨.lit (BitVec.ofNat 8 v), if_pos h255, _, rfl, ht.litSymbol_finishes hs hp hf _⟩
  by_cases hlen : 257 ≤ v ∧ v ≤ 285
  · obtain ⟨i, hi⟩ := decode_litLen_ok hv
    obtain ⟨h5, h3, h259⟩ := lenBase_bounds v hlen.1 hlen.2
    exact ⟨i, hi, _, exec_length v i hlen.1 hlen.2 hi t, ht.lengthElement_finishes hs hp hf h5 h3 h259⟩
  obtain rfl | rfl | rfl : v = 256 ∨ v = 286 ∨ v = 287 := by omega
  · exact ⟨.eob, rfl, _, rfl, ht.eobSymbol_finishes hs hp hf⟩
  · exact ⟨.len286, rfl, _, rfl, ht.raisesHere (by decide)⟩
  · exact ⟨.len287, rfl, _, rfl, ht.raisesHere (by decide)⟩

/-- A fetch in a sound state raises, waits, or gives an instruction whose operation ends (R126, R316, R340). -/
theorem fetch_ends : (fetch s).ends (Fetched s) (RaisesIn s) (WaitsIn s) := by
  have hrun := hs.phase
  unfold fetch
  cases hp : s.seq.phase with
  | magic => exact ⟨_, rfl, gzMagic_finishes hs hp⟩
  | cm => exact ⟨_, rfl, gzCm_finishes hs hp⟩
  | flg => exact ⟨_, rfl, gzFlg_finishes hs hp⟩
  | mtime =>
    have hpos : s.bitPos = 32 := hs.sound.header 32 (by rw [hp]; rfl)
    exact ⟨_, rfl, skipField_finishes hs (by simp [hp]) (by decide) (by decide) rfl
      (fun q h => by cases h; rw [hpos]) fun _ => by rw [hpos]⟩
  | xfl =>
    have hpos : s.bitPos = 64 := hs.sound.header 64 (by rw [hp]; rfl)
    exact ⟨_, rfl, skipField_finishes hs (by simp [hp]) (by decide) (by decide) rfl
      (fun q h => by cases h; rw [hpos]) fun _ => by rw [hpos]⟩
  | os => exact ⟨_, rfl, gzOs_finishes hs hp⟩
  | fname => exact ⟨_, rfl, stringByte_finishes hs hp (.inl rfl)⟩
  | fcomment => exact ⟨_, rfl, stringByte_finishes hs hp (.inr rfl)⟩
  | fhcrc =>
    exact ⟨_, rfl, skipField_finishes hs (by simp [hp]) (by decide) (by decide) rfl nofun nofun⟩
  | blkhdr => exact ⟨_, rfl, blkhdr_finishes hs hp⟩
  | storedHdr => exact ⟨_, rfl, storedHdr_finishes hs hp⟩
  | storedData => exact ⟨_, rfl, storedByte_finishes hs hp⟩
  | dynHdr => exact ⟨_, rfl, dynHdr_finishes hs hp⟩
  | dynLens =>
    refine hs.midway.ends_findNextSymbol (hs.sound.tablesBuilt .cl) fun v t ht hq hf hv => ?_
    obtain ⟨i, hi, h⟩ := ht.fetched_codeLength hs hp hq hf hv
    rw [hi]; exact h
  | symbol =>
    refine hs.midway.ends_findNextSymbol (hs.sound.tablesBuilt .ll) fun v t ht hq hf hv => ?_
    obtain ⟨i, hi, h⟩ := ht.fetched_litLen hs hp hf hv
    rw [hi]; exact h
  | trailer => exact ⟨_, rfl, gzTrailer_finishes hs hp⟩
  | done => rw [hp] at hrun; cases hrun
  | error => rw [hp] at hrun; cases hrun

/-- Where an instruction waits inside the element of `s`, the element goes on from `s` (R521). -/
theorem Finishes.elementStep {r : Res Unit} (h : Finishes s r) (t : State) :
    ∃ u, resumeFrom s (finish t r) = .next u ∧ ElementStep s u := by
  cases r with
  | ok a u =>
    have hu : Done s u := h
    have hsusp : u.suspended = none := hu.sameHost.suspended.trans hs.fresh
    exact ⟨u, by simp [finish, resumeFrom, hsusp], .done hu⟩
  | raise k q u =>
    have hu : RaisesIn s k q u := h
    have hsusp : u.suspended = none := hu.2.2.2.sameHost.suspended.trans hs.fresh
    exact ⟨errorEntry k q u, by simp [finish, resumeFrom, hsusp], .raised hu⟩
  | wait u => exact ⟨suspend s u, rfl, .waits h⟩
  | fault f => exact h.elim
  | refused f => exact h.elim

/-- One element from a sound state, fetched and run to its end, always has a next state (R8). -/
theorem runElement_next : ∃ u, runElement s = .next u ∧ ElementStep s u := by
  have h := fetch_ends hs
  unfold runElement
  cases hf : fetch s with
  | ok i t =>
    rw [hf] at h
    obtain ⟨r, hr, hfin⟩ := h
    dsimp only
    rw [hr]
    exact hfin.elementStep hs t
  | raise k q t => rw [hf] at h; exact ⟨_, rfl, .raised h⟩
  | wait t => rw [hf] at h; exact ⟨_, rfl, .waits h⟩
  | fault f => rw [hf] at h; exact h.elim
  | refused r => rw [hf] at h; exact h.elim

end

/-! ## The invariant along a step -/

theorem Inv.of_sound {t : State} (h : Sound t) (hn : t.suspended = none) : Inv t where
  sound := by rw [State.start_of_none hn]; exact h
  waiting b hb := by rw [hn] at hb; cases hb

theorem ElementStep.inv {s t : State} (hs : Running s) (h : ElementStep s t) : Inv t := by
  cases h with
  | done h => exact .of_sound h.sound (h.sameHost.suspended.trans hs.fresh)
  | raised h => exact .of_sound (h.sound hs) (h.2.2.2.sameHost.suspended.trans hs.fresh)
  | waits h => exact h.inv hs

/-- The accept hands the pending chunk over (R82). -/
theorem Sound.accept {s : State} (h : Sound s) : Sound (acceptChunk s) := by
  unfold acceptChunk
  split
  next hp =>
    exact { h with
      terminalFree := fun _ => rfl
      chunkSize := nofun
      offered := by
        have ho := h.offered
        simpa [hp] using ho }
  · exact h

/-- What one step of the block leaves from the state its element starts from (R7, R82, R488, R533). -/
inductive BlockStep (s : State) : State → Prop where
  | idle (h : terminal s.seq.phase = true) : BlockStep s s
  | blocked (h : s.ports.outPend = true) (ha : s.autoAccept = false) : BlockStep s s
  | accepts (h : s.ports.outPend = true) (ha : s.autoAccept = true) : BlockStep s (acceptChunk s)
  | element {t : State} (hs : Running s) (h : ElementStep s t) : BlockStep s t

theorem blockStep_next {s : State} (hi : Inv s) : ∃ t, blockStep s = .next t ∧ BlockStep s.start t := by
  unfold blockStep
  cases hp : s.start.ports.outPend with
  | true =>
    cases ha : s.start.autoAccept with
    | true => exact ⟨_, rfl, .accepts hp ha⟩
    | false => exact ⟨_, rfl, .blocked hp ha⟩
  | false =>
    cases ht : terminal s.start.seq.phase with
    | true => exact ⟨_, rfl, .idle ht⟩
    | false =>
      have hs : Running s.start := ⟨hi.sound, ht, hp, State.start_suspended s⟩
      obtain ⟨t, ht, h⟩ := runElement_next hs
      exact ⟨t, ht, .element hs h⟩

theorem BlockStep.inv {s t : State} (hs : Sound s) (hn : s.suspended = none) (h : BlockStep s t) : Inv t := by
  cases h with
  | idle => exact .of_sound hs hn
  | blocked => exact .of_sound hs hn
  | accepts => exact .of_sound hs.accept ((acceptChunk_suspended s).trans hn)
  | element hr h => exact h.inv hr

/-- What the host presents and how the consumer accepts, with the acts still to come. -/
structure SameSchedule (s t : State) : Prop where
  input : t.input = s.input
  inputEnd : t.inputEnd = s.inputEnd
  host : t.host = s.host
  autoAccept : t.autoAccept = s.autoAccept

theorem SameHost.schedule {s t : State} (h : SameHost s t) : SameSchedule s t :=
  ⟨h.input, h.inputEnd, h.host, h.autoAccept⟩

theorem acceptChunk_schedule (s : State) : SameSchedule s (acceptChunk s) := by
  unfold acceptChunk
  split
  · exact ⟨rfl, rfl, rfl, rfl⟩
  · exact ⟨rfl, rfl, rfl, rfl⟩

theorem start_schedule (s : State) : SameSchedule s s.start :=
  ⟨s.start_input, s.start_inputEnd, s.start_host, s.start_autoAccept⟩

theorem BlockStep.schedule {s t : State} (h : BlockStep s t) : SameSchedule s t := by
  cases h with
  | idle => exact ⟨rfl, rfl, rfl, rfl⟩
  | blocked => exact ⟨rfl, rfl, rfl, rfl⟩
  | accepts => exact acceptChunk_schedule s
  | element hr h =>
    cases h with
    | done h => exact h.sameHost.schedule
    | raised h => exact (h.2.2.2.sameHost.writes _).schedule
    | waits h =>
      obtain ⟨h1, h2, h3, h4⟩ := h.2.2.sameHost.schedule
      exact ⟨h1, h2, h3, h4⟩

/-- A block step that leaves an element suspended left it at its start, at a port that has not ended (R521). -/
theorem BlockStep.of_suspended {s t : State} (h : BlockStep s t) (hn : s.suspended = none)
    (ht : t.suspended.isSome = true) : t.start = s ∧ t.inputEnd = false := by
  have he := h.schedule.inputEnd
  cases h with
  | idle => rw [hn] at ht; cases ht
  | blocked => rw [hn] at ht; cases ht
  | accepts => rw [acceptChunk_suspended, hn] at ht; cases ht
  | element hr h =>
    cases h with
    | done h => rw [h.sameHost.suspended, hn] at ht; cases ht
    | raised h => rw [errorEntry_suspended, h.2.2.2.sameHost.suspended, hn] at ht; cases ht
    | waits h => exact ⟨h.start_suspend hr, he.trans h.1⟩

/-! ## The host's acts -/

/-- The block an element starts from is no matter of the host's side of the ports. -/
theorem start_toBlock {s t : State} (hb : t.toBlock = s.toBlock) (hn : t.suspended = s.suspended) :
    t.start.toBlock = s.start.toBlock := by
  unfold State.start
  rw [hn]
  cases s.suspended
  · exact hb
  · rfl

/-- With the same block and the same chunks accepted, soundness is a matter of the input that the reader stands in. -/
theorem Sound.of_sameBlock {s t : State} (h : Sound s) (hb : t.toBlock = s.toBlock) (ha : t.accepted = s.accepted)
    (ht : ReaderTied t) : Sound t := by
  obtain ⟨b, params, input, inputEnd, host, autoAccept, accepted, suspended⟩ := t
  subst hb ha
  exact { h with
    readerOk := ht.ok
    inputLeft := ht.inputLeft
    buffered := ht.buffered
    notWaiting := ht.notWaiting }

/-- An act that writes neither the block nor the chunks accepted keeps the invariant if the reader stands in the new
input as it did in the old one. -/
theorem Inv.of_sameBlock {s t : State} (hi : Inv s) (hb : t.toBlock = s.toBlock) (hn : t.suspended = s.suspended)
    (ha : t.accepted = s.accepted) (ht : ReaderTied t.start) : Inv t where
  sound := hi.sound.of_sameBlock (start_toBlock hb hn) (by simp [ha]) ht
  waiting b h := by
    have hw := hi.waiting b (hn ▸ h)
    unfold waitsFor at hw ⊢
    rw [hb]; exact hw

/-- The acts still to come are no matter of the invariant, and neither is the end of the input (R80). -/
theorem Inv.of_sameInput {s t : State} (hi : Inv s) (hb : t.toBlock = s.toBlock) (hn : t.suspended = s.suspended)
    (ha : t.accepted = s.accepted) (hin : t.input = s.input) : Inv t :=
  hi.of_sameBlock hb hn ha
    (hi.sound.tied.congr (congrArg Block.reader (start_toBlock hb hn)) (by simp [hin]))

/-- More input keeps the invariant (R80). -/
theorem Inv.present {s : State} (hi : Inv s) (bytes : List Byte) : Inv { s with input := s.input ++ bytes } := by
  refine hi.of_sameBlock rfl rfl rfl ((hi.sound.tied.present bytes).congr ?_ ?_)
  · exact congrArg Block.reader (start_toBlock rfl rfl)
  · simp

theorem Inv.start_ports {s : State} (hi : Inv s) : s.start.ports = s.ports := by
  cases hb : s.suspended with
  | none => rw [State.start_of_none hb]
  | some b =>
    obtain ⟨-, -, hports, -⟩ := hi.waiting b hb
    rw [State.start_of_some hb, hports]

theorem Inv.start_phase {s : State} (hi : Inv s) : s.start.seq.phase = s.seq.phase := by
  cases hb : s.suspended with
  | none => rw [State.start_of_none hb]
  | some b =>
    obtain ⟨-, -, -, -, -, hphase⟩ := hi.waiting b hb
    rw [State.start_of_some hb, hphase]

/-- A state that waits for input has no chunk pending (R521). -/
theorem Inv.fresh_of_outPend {s : State} (hi : Inv s) (h : s.ports.outPend = true) : s.suspended = none := by
  cases hb : s.suspended with
  | none => rfl
  | some b =>
    obtain ⟨-, hfree, hports, -⟩ := hi.waiting b hb
    rw [hports, hfree] at h; cases h

theorem acceptChunk_of_free {s : State} (h : s.ports.outPend = false) : acceptChunk s = s := by
  unfold acceptChunk; rw [h]; rfl

/-- The accept keeps the invariant (R82). -/
theorem Inv.accept {s : State} (hi : Inv s) : Inv (acceptChunk s) := by
  cases hp : s.ports.outPend with
  | false => rw [acceptChunk_of_free hp]; exact hi
  | true =>
    have hn := hi.fresh_of_outPend hp
    have hs := hi.sound
    rw [State.start_of_none hn] at hs
    exact .of_sound hs.accept ((acceptChunk_suspended s).trans hn)

/-- Reset leaves a sound state, whatever it finds (R60, R520). -/
theorem resetState_inv (p : Params) (s : State) : Inv (resetState p s) := by
  have hbuilt : ∀ id, Table.built id ⟨[], false⟩ := fun id => ⟨[], by cases id <;> decide, rfl⟩
  refine .of_sound ?_ rfl
  have ht : ReaderTied (resetState p s) := .of_empty rfl rfl (Nat.le_refl 0) rfl
  exact {
    readerOk := ht.ok
    inputLeft := ht.inputLeft
    buffered := ht.buffered
    fewBits _ := Nat.zero_le 7
    notWaiting := rfl
    order _ := ⟨fun _ => rfl, fun _ => rfl⟩
    header q h := by cases h; rfl
    aligned _ := rfl
    oneFlag := by simp [resetState, State.reset, Block.reset]
    kindLegal := ⟨fun _ => rfl, fun _ => rfl⟩
    positionLegal _ := rfl
    positionNow := nofun
    trailerLegal _ := ⟨rfl, rfl⟩
    donePhase := by simp [resetState, State.reset, Block.reset]
    errorPhase := by simp [resetState, State.reset, Block.reset]
    terminalFree := nofun
    chunkSize := nofun
    offered := rfl
    dense := rfl
    outputBound := Nat.zero_le _
    builtCl := hbuilt _
    builtLl := hbuilt _
    builtD := hbuilt _
    storedLeft := nofun
    counts := nofun
    finalBlock := by simp [resetState, State.reset, Block.reset] }

/-! ## The steps that are left -/

/-- The steps of the block that its input and its pending chunk leave to take: an element and a handshake for each bit
of the input (R534). -/
def State.work (s : State) : Nat := 2 * (8 * s.input.length - s.start.bitPos) + s.start.ports.outPend.toNat

/-- The steps left, with those that the host's acts still to come bring: one for each act, and the block's for each
byte they present. -/
def State.budget (s : State) : Nat := s.host.length + 16 * presentedBytes s.host + s.work

theorem work_of_fresh {s : State} (h : s.suspended = none) :
    s.work = 2 * (8 * s.input.length - s.bitPos) + s.ports.outPend.toNat := by
  unfold State.work; rw [State.start_of_none h]

theorem work_start (s : State) : s.start.work = s.work := by
  unfold State.work
  rw [State.start_of_none s.start_suspended, State.start_input]

theorem budget_le_runLimit (s : State) : s.budget + 2 ≤ s.runLimit := by
  have := Bool.toNat_le s.start.ports.outPend
  unfold State.budget State.work State.runLimit
  omega

/-- The same block with more input has the steps for that input to take besides. -/
theorem work_present {s t : State} {n : Nat} (hb : t.toBlock = s.toBlock) (hn : t.suspended = s.suspended)
    (hl : t.input.length = s.input.length + n) : t.work ≤ s.work + 16 * n := by
  have h := start_toBlock hb hn
  unfold State.work State.bitPos
  rw [h, hl]
  omega

theorem acceptChunk_work_lt {s : State} (hn : s.suspended = none) (h : s.ports.outPend = true) :
    (acceptChunk s).work < s.work := by
  rw [work_of_fresh hn, work_of_fresh ((acceptChunk_suspended s).trans hn)]
  unfold acceptChunk
  rw [if_pos h, h]
  show 2 * (8 * s.input.length - s.bitPos) + 0 < _ + 1
  omega

/-- No step of the block adds to the steps left; one of a running block that neither raises nor ends at a port takes
one away, since an element consumes input (R36, R534). -/
theorem BlockStep.work {s t : State} (hn : s.suspended = none) (h : BlockStep s t) :
    t.work ≤ s.work ∧
      (terminal s.seq.phase = false → t.ports.error = false → t.atPort = false → t.work < s.work) := by
  cases h with
  | idle h => exact ⟨Nat.le_refl _, fun hr => by rw [h] at hr; cases hr⟩
  | blocked h ha => exact ⟨Nat.le_refl _, fun _ _ hp => by simp [State.atPort, h, ha] at hp⟩
  | accepts h ha =>
    have hlt := acceptChunk_work_lt hn h
    exact ⟨Nat.le_of_lt hlt, fun _ _ _ => hlt⟩
  | element hr h =>
    cases h with
    | done h =>
      have hlt : t.work < s.work := by
        have h1 := h.forward
        have h2 := h.sound.tied.bitPos_le
        have h3 := Bool.toNat_le t.ports.outPend
        rw [work_of_fresh hn, work_of_fresh (h.sameHost.suspended.trans hn), h.sameHost.input, hr.free]
        rw [h.sameHost.input] at h2
        show _ < _ + 0
        omega
      exact ⟨Nat.le_of_lt hlt, fun _ _ _ => hlt⟩
    | @raised k q u h =>
      obtain ⟨-, -, -, hi⟩ := h
      refine ⟨?_, nofun⟩
      have hf := hi.forward
      have hu : (errorEntry k q u).suspended = none := hi.sameHost.suspended.trans hn
      rw [work_of_fresh hn, work_of_fresh hu, errorEntry_input, errorEntry_ports, hi.sameHost.input, hi.ports]
      show 2 * (_ - u.bitPos) + s.ports.outPend.toNat ≤ _
      omega
    | @waits u h =>
      refine ⟨?_, fun _ _ hp => by simp [State.atPort] at hp⟩
      unfold State.work
      rw [h.start_suspend hr, suspend_input, h.2.2.sameHost.input, State.start_of_none hn]

/-- What an act of the host does: it keeps the invariant and adds steps only for the bytes it presents, or it is one of
the two refused ones (R525; notes/assumptions/17). -/
theorem hostAct_next {s : State} (hi : Inv s) (a : HostAct) :
    (∃ t, hostAct a s = .next t ∧ Inv t ∧ t.host = s.host ∧ t.work ≤ s.work + 16 * presentedBytes [a]) ∨
    hostAct a s = .refused .parameterChanged ∨ hostAct a s = .refused .inputAfterEnd := by
  cases a with
  | reset p => exact .inl ⟨_, rfl, resetState_inv p s, rfl, Nat.zero_le _⟩
  | present bytes =>
    cases he : s.inputEnd with
    | true => exact .inr (.inr (if_pos he))
    | false =>
      refine .inl ⟨_, if_neg (by simp [he]), hi.present bytes, rfl, ?_⟩
      exact work_present rfl rfl (by simp)
  | finish =>
    exact .inl ⟨_, rfl, hi.of_sameInput rfl rfl rfl rfl, rfl, work_present (n := 0) rfl rfl rfl⟩
  | accept =>
    refine .inl ⟨_, rfl, hi.accept, (acceptChunk_schedule s).host, ?_⟩
    cases hp : s.ports.outPend with
    | false => rw [acceptChunk_of_free hp]; exact Nat.le_add_right _ _
    | true => exact Nat.le_add_right_of_le (Nat.le_of_lt (acceptChunk_work_lt (hi.fresh_of_outPend hp) hp))
  | pass => exact .inl ⟨s, rfl, hi, rfl, Nat.le_add_right _ _⟩
  | setParams p => exact .inr (.inl rfl)

end Sys2Proof.Machine
end

section
/-! PROOFS. One step of the machine, and the run of a decode to its end (R530, R534). -/

namespace Sys2Proof.Machine

open Sys2Proof

/-! ## One step of the machine -/

/-- What a step of the machine leaves: the invariant, one act of the host fewer, and fewer steps to take where the host
had an act; where it had none, what a step of the block leaves. -/
structure StepTo (s t : State) : Prop where
  inv : Inv t
  host : t.host = s.host.tail
  budget : s.host ≠ [] → t.budget < s.budget
  block : s.host = [] → BlockStep s.start t

theorem presentedBytes_cons (a : HostAct) (acts : List HostAct) :
    presentedBytes (a :: acts) = presentedBytes [a] + presentedBytes acts := by
  cases a <;> simp [presentedBytes]

/-- Taking an act off the list takes the step it is for, and those for the bytes it presents. -/
theorem budget_lt_of_act {s t : State} {a : HostAct} {acts : List HostAct} (h : s.host = a :: acts)
    (ht : t.host = acts) (hw : t.work ≤ s.work + 16 * presentedBytes [a]) : t.budget < s.budget := by
  unfold State.budget
  rw [h, ht, presentedBytes_cons a, List.length_cons]
  omega

theorem step_of_no_act {s : State} (h : s.host = []) : step s = blockStep s := by
  unfold step machineStep; rw [h]

theorem step_of_act {s : State} {a : HostAct} {acts : List HostAct} (h : s.host = a :: acts) (ha : a ≠ .pass) :
    step s = hostAct a { s with host := acts } := by
  unfold step machineStep; rw [h]
  cases a with
  | pass => exact absurd rfl ha
  | _ => rfl

theorem step_of_pass {s : State} {acts : List HostAct} (h : s.host = .pass :: acts) :
    step s = blockStep { s with host := acts } := by
  unfold step machineStep; rw [h]

/-- The machine's step from a state that meets the invariant: a next state, or the refusal of an act of the host (R8,
R525; notes/assumptions/17). -/
theorem step_next_or_refused {s : State} (hi : Inv s) :
    (∃ t, step s = .next t ∧ StepTo s t) ∨
    (s.host ≠ [] ∧ (step s = .refused .parameterChanged ∨ step s = .refused .inputAfterEnd)) := by
  cases hh : s.host with
  | nil =>
    obtain ⟨t, ht, hb⟩ := blockStep_next hi
    refine .inl ⟨t, (step_of_no_act hh).trans ht, hb.inv hi.sound s.start_suspended, ?_, absurd hh, fun _ => hb⟩
    rw [hb.schedule.host, s.start_host, hh, List.tail_nil]
  | cons a acts =>
    have hne : s.host ≠ [] := by simp [hh]
    have hi' : Inv { s with host := acts } := hi.of_sameInput rfl rfl rfl rfl
    have hw' : State.work { s with host := acts } ≤ s.work := work_present (n := 0) rfl rfl rfl
    by_cases ha : a = .pass
    · subst ha
      obtain ⟨t, ht, hb⟩ := blockStep_next hi'
      have hw := (hb.work (State.start_suspended _)).1
      rw [work_start] at hw
      have hhost : t.host = acts := hb.schedule.host.trans (State.start_host _)
      exact .inl ⟨t, (step_of_pass hh).trans ht, hb.inv hi'.sound (State.start_suspended _), by rw [hhost, hh]; rfl,
        fun _ => budget_lt_of_act hh hhost (by omega), fun h => absurd h hne⟩
    · rw [step_of_act hh ha]
      rcases hostAct_next hi' a with ⟨t, ht, hit, hhost, hw⟩ | hr
      · exact .inl ⟨t, ht, hit, by rw [hhost, hh]; rfl, fun _ => budget_lt_of_act hh hhost (by omega),
          fun h => absurd h hne⟩
      · exact .inr ⟨by simp, hr⟩

/-- With no act of the host, a step that leaves the block at a port leaves it where a further step changes nothing: at a
byte that the port has not answered, or at a chunk that is not accepted (R521, R533). -/
theorem StepTo.atPort {s t : State} (h : StepTo s t) (hh : s.host = []) (hs : step s = .next t)
    (hp : t.atPort = true) :
    step t = .next t ∧
      (t.suspended.isSome = true ∧ t.inputEnd = false ∨ t.ports.outPend = true ∧ t.autoAccept = false) := by
  have hb := h.block hh
  have hht : t.host = [] := by rw [h.host, hh]; rfl
  cases hn : t.suspended with
  | some b =>
    obtain ⟨hstart, hend⟩ := hb.of_suspended s.start_suspended (by rw [hn]; rfl)
    refine ⟨?_, .inl ⟨rfl, hend⟩⟩
    rw [step_of_no_act hh] at hs
    rw [step_of_no_act hht, ← hs]
    unfold blockStep
    rw [hstart]
  | none =>
    obtain ⟨hpend, hauto⟩ : t.ports.outPend = true ∧ t.autoAccept = false := by
      simpa [State.atPort, hn] using hp
    refine ⟨?_, .inr ⟨hpend, hauto⟩⟩
    rw [step_of_no_act hht]
    unfold blockStep
    rw [State.start_of_none hn, hpend, hauto]
    rfl

/-! ## The run -/

/-- How a run from `s` may end (R530): done, in error, in a wait with the host's acts used up, or at an act of the host
that is refused. -/
def EndsWell (s : State) : RunEnd → Prop
  | .done t => t.ports.done = true ∧ t.seq.phase = .done
  | .error t => t.ports.error = true ∧ t.seq.phase = .error
  | .waits t => t.host = [] ∧ step t = .next t ∧
      (t.suspended.isSome = true ∧ t.inputEnd = false ∨ t.ports.outPend = true ∧ t.autoAccept = false) ∧
      (s.host = [] → t.inputEnd = s.inputEnd ∧ t.autoAccept = s.autoAccept)
  | .goesOn _ => False
  | .fault _ => False
  | .refused r => s.host ≠ [] ∧ (r = .parameterChanged ∨ r = .inputAfterEnd)

theorem Inv.done_phase {s : State} (hi : Inv s) (h : s.ports.done = true) : s.seq.phase = .done := by
  rw [← hi.start_phase]
  exact hi.sound.donePhase.mp (by rw [hi.start_ports]; exact h)

theorem Inv.error_phase {s : State} (hi : Inv s) (h : s.ports.error = true) : s.seq.phase = .error := by
  rw [← hi.start_phase]
  exact hi.sound.errorPhase.mp (by rw [hi.start_ports]; exact h)

theorem terminal_eq_false {p : Phase} (hd : p ≠ .done) (he : p ≠ .error) : terminal p = false := by
  cases p with
  | done => exact absurd rfl hd
  | error => exact absurd rfl he
  | _ => rfl

theorem Inv.running_phase {s : State} (hi : Inv s) (hd : s.ports.done = false) (he : s.ports.error = false) :
    terminal s.start.seq.phase = false := by
  have hports := hi.start_ports
  refine terminal_eq_false (fun h => ?_) fun h => ?_
  · have := hi.sound.donePhase.mpr h
    rw [hports, hd] at this; cases this
  · have := hi.sound.errorPhase.mpr h
    rw [hports, he] at this; cases this

/-- A run that ends well behind a step ends well from before it. -/
theorem StepTo.endsWell {s t : State} (h : StepTo s t) {e : RunEnd} (he : EndsWell t e) : EndsWell s e := by
  cases e with
  | waits u =>
    obtain ⟨h1, h2, h3, h4⟩ := he
    refine ⟨h1, h2, h3, fun hh => ?_⟩
    have hb := (h.block hh).schedule
    obtain ⟨h5, h6⟩ := h4 (by rw [h.host, hh]; rfl)
    exact ⟨by rw [h5, hb.inputEnd, s.start_inputEnd], by rw [h6, hb.autoAccept, s.start_autoAccept]⟩
  | refused r => exact ⟨fun hh => he.1 (by rw [h.host, hh]; rfl), he.2⟩
  | done u => exact he
  | error u => exact he
  | goesOn u => exact he
  | fault f => exact he

/-- A step of a running machine that neither ends the decode nor leaves the block at a port takes from the budget. -/
theorem StepTo.budget_lt {s t : State} (h : StepTo s t) (hi : Inv s) (hd : s.ports.done = false)
    (he : s.ports.error = false) (het : t.ports.error = false) (hp : (s.host.isEmpty && t.atPort) = false) :
    t.budget < s.budget := by
  by_cases hh : s.host = []
  · have hp' : t.atPort = false := by simpa [hh] using hp
    have hw := ((h.block hh).work s.start_suspended).2 (hi.running_phase hd he) het hp'
    rw [work_start] at hw
    unfold State.budget
    rw [h.host, hh]
    show 0 + 16 * 0 + t.work < 0 + 16 * 0 + s.work
    omega
  · exact h.budget hh

/-- A run with the steps of its budget, one for the end of the decode and one to see it, ends well (R530, R534). -/
theorem run_endsWell {n : Nat} {s : State} (hi : Inv s) (h1 : 1 ≤ n)
    (hn : s.ports.done = false → s.ports.error = false → s.budget + 2 ≤ n) : EndsWell s (run n s) := by
  induction n generalizing s with
  | zero => omega
  | succ n ih =>
    cases hd : s.ports.done with
    | true => rw [run_done hd]; exact ⟨hd, hi.done_phase hd⟩
    | false =>
      cases he : s.ports.error with
      | true => rw [run_error hd he]; exact ⟨he, hi.error_phase he⟩
      | false =>
        have hb := hn hd he
        rcases step_next_or_refused hi with ⟨t, ht, hst⟩ | ⟨hh, hr | hr⟩
        · rw [run_next hd he ht]
          split
          next hp =>
            obtain ⟨hempty, hport⟩ : s.host = [] ∧ t.atPort = true := by simpa using hp
            obtain ⟨hsame, hwait⟩ := hst.atPort hempty ht hport
            have hsch := (hst.block hempty).schedule
            exact ⟨by rw [hst.host, hempty]; rfl, hsame, hwait, fun _ =>
              ⟨by rw [hsch.inputEnd, s.start_inputEnd], by rw [hsch.autoAccept, s.start_autoAccept]⟩⟩
          next hp =>
            refine hst.endsWell (ih hst.inv (by omega) fun _ het => ?_)
            have := hst.budget_lt hi hd he het (by simpa using hp)
            omega
        · rw [run_refused hd he hr]; exact ⟨hh, .inl rfl⟩
        · rw [run_refused hd he hr]; exact ⟨hh, .inr rfl⟩

/-- The run function's bound is enough (R534). -/
theorem runToEnd_endsWell {s : State} (hi : Inv s) : EndsWell s s.runToEnd := by
  have h := budget_le_runLimit s
  exact run_endsWell hi (by omega) fun _ _ => h

/-- The four ways a run ends well (R530). -/
theorem EndsWell.cases {s : State} {e : RunEnd} (h : EndsWell s e) :
    (∃ t, e = .done t ∧ t.ports.done = true ∧ t.seq.phase = .done) ∨
    (∃ t, e = .error t ∧ t.ports.error = true ∧ t.seq.phase = .error) ∨
    (∃ t, e = .waits t ∧ t.host = [] ∧ step t = .next t ∧
      (t.suspended.isSome = true ∧ t.inputEnd = false ∨ t.ports.outPend = true ∧ t.autoAccept = false)) ∨
    (s.host ≠ [] ∧ (e = .refused .parameterChanged ∨ e = .refused .inputAfterEnd)) := by
  cases e with
  | done t => exact .inl ⟨t, rfl, h⟩
  | error t => exact .inr (.inl ⟨t, rfl, h⟩)
  | waits t =>
    obtain ⟨hhost, hstep, hwait, -⟩ := h
    exact .inr (.inr (.inl ⟨t, rfl, hhost, hstep, hwait⟩))
  | goesOn t => exact h.elim
  | fault f => exact h.elim
  | refused r =>
    obtain ⟨hne, rfl | rfl⟩ := h
    · exact .inr (.inr (.inr ⟨hne, .inl rfl⟩))
    · exact .inr (.inr (.inr ⟨hne, .inr rfl⟩))

/-- With the input ended and every chunk accepted there is nothing to wait for, and no act to refuse. -/
theorem EndsWell.done_or_error {s : State} {e : RunEnd} (h : EndsWell s e) (hh : s.host = [])
    (hend : s.inputEnd = true) (hauto : s.autoAccept = true) : ∃ t, e = .done t ∨ e = .error t := by
  cases e with
  | done t => exact ⟨t, .inl rfl⟩
  | error t => exact ⟨t, .inr rfl⟩
  | waits t =>
    obtain ⟨-, -, hwait, hsame⟩ := h
    obtain ⟨hendt, hautot⟩ := hsame hh
    rcases hwait with ⟨-, hw⟩ | ⟨-, hw⟩
    · rw [hendt, hend] at hw; cases hw
    · rw [hautot, hauto] at hw; cases hw
  | goesOn t => exact h.elim
  | fault f => exact h.elim
  | refused r => exact absurd hh h.1

/-- Settles O54: the walk through each element keeps the invariant and meets no fault and no refusal, and each step of
a running block takes from a budget that the input and the host's acts bound. -/
theorem soundMachineNeverStops : Obligations.SoundMachineNeverStops := by
  unfold Obligations.SoundMachineNeverStops
  refine ⟨fun s hi hh => ?_, fun s hi => (runToEnd_endsWell hi).cases,
    fun s hi hh hend hauto => (runToEnd_endsWell hi).done_or_error hh hend hauto⟩
  rcases step_next_or_refused hi with ⟨t, ht, -⟩ | ⟨hne, -⟩
  · exact ⟨t, ht⟩
  · exact absurd hh hne

end Sys2Proof.Machine
end

section
/-! PROOFS. Reset and what the host can read (R55, R60, R520), SETMODE (R169), and the invariant and the bit position
along one step (R36, R57, R534). -/

namespace Sys2Proof.Machine

open Sys2Proof

/-! ## The invariant -/

/-- Settles O53: each step from a state that meets the invariant is an act of the host or a step of the block, and both
keep it. -/
theorem everyStepKeepsSoundness : Obligations.EveryStepKeepsSoundness := by
  unfold Obligations.EveryStepKeepsSoundness
  intro s t hi hst
  rcases step_next_or_refused hi with ⟨u, hu, h⟩ | ⟨-, hr | hr⟩
  · rw [hu] at hst
    cases hst
    exact h.inv
  · rw [hr] at hst; cases hst
  · rw [hr] at hst; cases hst

/-- Settles O52: the machine after reset is what the host's reset leaves. -/
theorem resetStateIsSound : Obligations.ResetStateIsSound :=
  resetState_inv Params.default State.reset

/-! ## The bit position along a step -/

theorem acceptChunk_bitPos (s : State) : (acceptChunk s).bitPos = s.bitPos := by
  unfold acceptChunk; split <;> rfl

/-- One element never moves the bit position back, and one that completes moves it forward (R36). -/
theorem ElementStep.bitPos {s t : State} (h : ElementStep s t) :
    s.bitPos ≤ t.bitPos ∧ (t.suspended = none → t.ports.error = false → s.bitPos < t.bitPos) := by
  cases h with
  | done h => exact ⟨Nat.le_of_lt h.forward, fun _ _ => h.forward⟩
  | raised h =>
    obtain ⟨-, -, -, hi⟩ := h
    exact ⟨hi.forward, nofun⟩
  | waits h =>
    obtain ⟨-, -, hi⟩ := h
    exact ⟨hi.forward, nofun⟩

/-- One step of the block never moves the bit position back, and moves it forward unless it is idle, a handshake, a wait
or a raise (R36, R534). -/
theorem BlockStep.bitPos {s t : State} (h : BlockStep s t) :
    s.bitPos ≤ t.bitPos ∧
    (s.ports.outPend = false → terminal s.seq.phase = false → t.suspended = none → t.ports.error = false →
      s.bitPos < t.bitPos) := by
  cases h with
  | idle h => exact ⟨Nat.le_refl _, fun _ hrun => by rw [h] at hrun; cases hrun⟩
  | blocked h => exact ⟨Nat.le_refl _, fun hfree => by rw [h] at hfree; cases hfree⟩
  | accepts h => exact ⟨Nat.le_of_eq (acceptChunk_bitPos s).symm, fun hfree => by rw [h] at hfree; cases hfree⟩
  | element _ h => exact ⟨h.bitPos.1, fun _ _ => h.bitPos.2⟩

/-- Settles O55: with no act of the host a step is a step of the block. -/
theorem everyElementConsumesInput : Obligations.EveryElementConsumesInput := by
  unfold Obligations.EveryElementConsumesInput
  intro s t hi hh hst
  obtain ⟨u, hu, h⟩ := blockStep_next hi
  rw [step_of_no_act hh, hu] at hst
  cases hst
  exact h.bitPos

/-! ## SETMODE -/

theorem setMode_of_empty {m : BitOrder} {s : State} (h : s.reader.cnt = 0) :
    setMode m s = .ok () (s.withReader { s.reader with mode := m, acc := 0 }) := if_pos h

theorem setMode_of_buffered {m : BitOrder} {s : State} (h : s.reader.cnt ≠ 0) :
    setMode m s = .refused (.setModeBuffered s.reader.cnt) := if_neg h

/-- Settles O8: SETMODE is SetMode of R169, and writes neither NFETCH nor CNT. -/
theorem setModeNeedsEmptyReader : Obligations.SetModeNeedsEmptyReader := by
  unfold Obligations.SetModeNeedsEmptyReader
  refine fun m s => ⟨fun h => ⟨_, ?_, rfl, rfl⟩, fun h => ?_⟩
  · show finish s (setMode m s) = _
    rw [setMode_of_empty h]; rfl
  · show finish s (setMode m s) = _
    rw [setMode_of_buffered h]; rfl

/-! ## Reset and the status file -/

theorem eq_zero_of_mem_replicate {w : Nat} (n : Nat) (v : BitVec w) (hv : v ∈ (Vector.replicate n 0#w).toList) :
    v = 0#w := by
  rw [Vector.toList_replicate] at hv
  exact List.eq_of_mem_replicate hv

/-- Settles O48: the host's reset answers `resetState`, whatever state it finds. -/
theorem resetRestoresEveryRegister : Obligations.ResetRestoresEveryRegister := by
  unfold Obligations.ResetRestoresEveryRegister
  intro s p acts
  refine ⟨resetState p { s with host := acts }, step_of_act rfl (a := .reset p) (by simp), rfl, rfl, rfl, rfl, rfl,
    rfl, rfl, rfl, rfl, rfl, fun v hv => ?clLen, fun v hv => ?lens, rfl, fun id => ?tables, rfl, rfl, rfl, rfl, rfl,
    rfl, rfl, rfl, rfl, rfl, rfl, rfl, rfl, rfl⟩
  case clLen => exact eq_zero_of_mem_replicate 19 v hv
  case lens => exact eq_zero_of_mem_replicate 320 v hv
  case tables => cases id <;> exact ⟨rfl, rfl⟩

/-- The fields of STATUS (R56), from bit 0 up. The word's width is a numeral and not the sum of its fields' widths, which
`simp` does not see through, so `rw` takes off the first field. -/
theorem statusWord_fields (s : State) :
    (statusWord s).getLsbD 0 = s.ports.done ∧ (statusWord s).getLsbD 1 = s.ports.error ∧
    (statusWord s).getLsbD 2 = s.ports.outPend ∧ (statusWord s).getLsbD 3 = s.reader.inWait ∧
    (statusWord s).extractLsb' 4 5 = phaseCode s.seq.phase ∧ (statusWord s).getLsbD 9 = s.seq.bfinal ∧
    (statusWord s).extractLsb' 10 2 = s.seq.btype ∧ (statusWord s).extractLsb' 12 20 = 0 := by
  unfold statusWord
  refine ⟨?_, ?_, ?_, ?_, ?phase, ?_, ?btype, ?zeros⟩
  case phase =>
    rw [BitVec.extractLsb'_append_eq_of_le (by decide)]
    simp (disch := decide) only [BitVec.extractLsb'_append_eq_of_le, BitVec.extractLsb'_append_eq_of_add_le,
      BitVec.extractLsb'_eq_self, Nat.reduceSub]
  case btype =>
    rw [BitVec.extractLsb'_append_eq_of_le (by decide)]
    simp (disch := decide) only [BitVec.extractLsb'_append_eq_of_le, BitVec.extractLsb'_append_eq_of_add_le,
      BitVec.extractLsb'_eq_self, Nat.reduceSub]
  case zeros =>
    rw [BitVec.extractLsb'_append_eq_of_le (by decide)]
    simp (disch := decide) only [BitVec.extractLsb'_append_eq_of_le, BitVec.extractLsb'_eq_self, Nat.reduceSub]
  all_goals
    simp only [BitVec.getLsbD_append, BitVec.getLsbD_ofBool]
    simp

/-- Settles O49: the status file and the codes by evaluation, the fields of STATUS by their places in the word. -/
theorem statusFileReadsRegisters : Obligations.StatusFileReadsRegisters := by
  unfold Obligations.StatusFileReadsRegisters
  exact ⟨fun _ => ⟨rfl, rfl, rfl, rfl, rfl, rfl, rfl⟩, statusWord_fields, rfl, rfl⟩

end Sys2Proof.Machine
end

section
/-! PROOFS. What an instruction leaves of the registers (R58): each operation it is made of writes no register that is not
the instruction's to write, and so neither does the instruction, whether it completes, raises or waits. -/

namespace Sys2Proof.Machine

open Sys2Proof

/-! ## The registers that are not the instruction's to write -/

/-- The sequencer's registers that `i` does not write are in `q'` as in `q`; PHASE is left out. -/
structure LeavesSeq (i : Instr) (q q' : Sequencer) : Prop where
  header : writesHeader i = false → q'.bfinal = q.bfinal ∧ q'.btype = q.btype
  flg : writesFlg i = false → q'.flg = q.flg
  storedRem : writesStoredRem i = false → q'.storedRem = q.storedRem
  counts : writesCounts i = false →
    q'.hlit = q.hlit ∧ q'.hdist = q.hdist ∧ q'.hclen = q.hclen ∧ q'.clLen = q.clLen
  lens : writesLens i = false → q'.lens = q.lens
  lensN : writesLens i = false → writesCounts i = false → q'.lensN = q.lensN

/-- What `i` leaves of `s`, whether it completes, raises or waits: the registers it does not write, apart from those
that error entry writes, and what is beside the block. -/
structure Leaves (i : Instr) (s t : State) : Prop where
  mode : writesMode i = false → t.reader.mode = s.reader.mode
  seq : LeavesSeq i s.seq t.seq
  tables : ∀ id, writesTable id i = false → t.tables.get id = s.tables.get id
  chunk : offersChunk i = false → t.ports.outPend = s.ports.outPend ∧ t.ports.outChunk = s.ports.outChunk
  done : writesDone i = false → t.ports.done = s.ports.done ∧ t.ports.trailerCrc32 = s.ports.trailerCrc32 ∧
    t.ports.trailerIsize = s.ports.trailerIsize
  params : t.params = s.params
  input : t.input = s.input
  inputEnd : t.inputEnd = s.inputEnd
  host : t.host = s.host
  autoAccept : t.autoAccept = s.autoAccept
  accepted : t.accepted = s.accepted
  fetched : s.reader.nfetch ≤ t.reader.nfetch

/-- `t` stands within the instruction `i` that began in `s`: it has not raised, so the registers that error entry writes
are as they were too, and a micro-operation has not written the sequencer's. -/
structure Within (i : Instr) (s t : State) : Prop extends Leaves i s t where
  status : t.ports.error = s.ports.error ∧ t.ports.errKind = s.ports.errKind ∧ t.ports.errBitpos = s.ports.errBitpos
  micro : encode i = none → t.seq = s.seq

/-- Wherever the operation `r` ends without a fault or a refusal, it stands within the instruction `i` of `s`. -/
def Res.stays {α : Type} (i : Instr) (s : State) (r : Res α) : Prop :=
  r.sat (fun _ t => Within i s t) (fun _ _ t => Within i s t) (fun t => Within i s t)

theorem LeavesSeq.refl (i : Instr) (q : Sequencer) : LeavesSeq i q q :=
  ⟨fun _ => ⟨rfl, rfl⟩, fun _ => rfl, fun _ => rfl, fun _ => ⟨rfl, rfl, rfl, rfl⟩, fun _ => rfl, fun _ _ => rfl⟩

theorem LeavesSeq.trans {i : Instr} {q q' q'' : Sequencer} (h : LeavesSeq i q q') (h' : LeavesSeq i q' q'') :
    LeavesSeq i q q'' where
  header hn := ⟨(h'.header hn).1.trans (h.header hn).1, (h'.header hn).2.trans (h.header hn).2⟩
  flg hn := (h'.flg hn).trans (h.flg hn)
  storedRem hn := (h'.storedRem hn).trans (h.storedRem hn)
  counts hn := by
    obtain ⟨h1, h2, h3, h4⟩ := h.counts hn
    obtain ⟨h1', h2', h3', h4'⟩ := h'.counts hn
    exact ⟨h1'.trans h1, h2'.trans h2, h3'.trans h3, h4'.trans h4⟩
  lens hn := (h'.lens hn).trans (h.lens hn)
  lensN hn hn' := (h'.lensN hn hn').trans (h.lensN hn hn')

theorem Within.refl (i : Instr) (s : State) : Within i s s where
  mode _ := rfl
  seq := .refl i s.seq
  tables _ _ := rfl
  chunk _ := ⟨rfl, rfl⟩
  done _ := ⟨rfl, rfl, rfl⟩
  params := rfl
  input := rfl
  inputEnd := rfl
  host := rfl
  autoAccept := rfl
  accepted := rfl
  fetched := Nat.le_refl _
  status := ⟨rfl, rfl, rfl⟩
  micro _ := rfl

theorem Within.ok {α : Type} {i : Instr} {s t : State} (h : Within i s t) (a : α) : (Res.ok a t).stays i s := h

theorem Within.raises {α : Type} {i : Instr} {s t : State} (h : Within i s t) (k : ErrKind) :
    (raiseHere k t : Res α).stays i s := h

theorem Res.stays.bind {α β : Type} {i : Instr} {s : State} {r : Res α} {f : α → State → Res β} (h : r.stays i s)
    (hf : ∀ a t, Within i s t → (f a t).stays i s) : (r.bind f).stays i s :=
  Res.sat_bind h hf

/-! ## Writes of a register group -/

section
variable {i : Instr} {s t u : State}

theorem Within.withReader (h : Within i s t) {r : Reader} (hm : writesMode i = false → r.mode = t.reader.mode)
    (hf : t.reader.nfetch ≤ r.nfetch) : Within i s (t.withReader r) :=
  { h with
    mode := fun hn => (hm hn).trans (h.mode hn)
    fetched := Nat.le_trans h.fetched hf }

theorem Within.withSeq (h : Within i s t) (he : encode i ≠ none) {q : Sequencer} (hq : LeavesSeq i t.seq q) :
    Within i s (t.withSeq q) :=
  { h with
    seq := h.seq.trans hq
    micro := fun hn => absurd hn he }

theorem Within.setPhase (h : Within i s t) (he : encode i ≠ none) (p : Phase) : Within i s (t.setPhase p) :=
  h.withSeq he { LeavesSeq.refl i t.seq with }

theorem Tables.get_set_of_ne (ts : Tables) {id id' : TableId} (h : id' ≠ id) (tb : Table) :
    (ts.set id tb).get id' = ts.get id' := by
  revert h
  cases id <;> cases id' <;> simp [Tables.get, Tables.set]

theorem Within.setTable (h : Within i s t) {id : TableId} (hw : writesTable id i = true) (tb : Table) :
    Within i s (t.withTables (t.tables.set id tb)) :=
  { h with
    tables := fun id' hn => by
      have hne : id' ≠ id := by rintro rfl; rw [hw] at hn; cases hn
      exact (Tables.get_set_of_ne t.tables hne tb).trans (h.tables id' hn) }

theorem Within.withDiag (h : Within i s t) (d : List DiagEvent) : Within i s (t.withDiag d) := { h with }

theorem Within.withHistory (h : Within i s t) (hist : History) : Within i s (t.withHistory hist) := { h with }

theorem Within.withResult (h : Within i s t) (v : Nat) : Within i s (t.withResult v) := { h with }

theorem Within.sendDiag (h : Within i s t) (k : DiagKind) : Within i s (sendDiag k t) := by
  obtain ⟨d, hd⟩ := sendDiag_withDiag k t
  rw [hd]; exact h.withDiag d

theorem Within.emit (h : Within i s t) (hw : offersChunk i = true) (c : List Byte) : Within i s (emit c t) :=
  { h with chunk := fun hn => by rw [hw] at hn; cases hn }

theorem Within.complete (h : Within i s t) (he : encode i ≠ none) (hw : writesDone i = true) (crc isize : Nat) :
    Within i s (complete crc isize t) := by
  refine Within.setPhase (t := t.withPorts _) ?_ he .done
  exact { h with done := fun hn => by rw [hw] at hn; cases hn }

theorem Within.blockEnd (h : Within i s t) (he : encode i ≠ none) : Within i s (blockEnd t) :=
  (h.sendDiag .blockEnd).setPhase he _

theorem Within.reads (h : Within i s t) (hr : ReadsTo t u) : Within i s u := by
  rw [hr.only]
  exact h.withReader (fun _ => hr.mode) hr.fetched

theorem Within.matches (h : Within i s t) (hm : MatchesTo t u) : Within i s u := by
  rw [hm.only]
  exact (h.withReader (fun _ => hm.mode) hm.fetched).withDiag _

/-! ## The shared operations -/

theorem Within.readBits (h : Within i s t) (n : Nat) : (readBits n t).stays i s :=
  Res.sat_mono (readBits_sat n t) (fun _ _ hr => h.reads hr.1) (fun _ _ _ ⟨_, _, hr, _⟩ => h.reads hr)
    fun _ hr => h.reads hr.1

theorem Within.peekBits (h : Within i s t) (n : Nat) : (peekBits n t).stays i s :=
  Res.sat_mono (peekBits_sat n t) (fun _ _ hr => h.reads hr.1) (fun _ _ _ ⟨_, _, hr, _⟩ => h.reads hr)
    fun _ hr => h.reads hr.1

theorem Within.alignToByte (h : Within i s t) : (alignToByte t).stays i s :=
  Res.sat_mono (alignToByte_sat t) (fun _ _ hr => h.reads hr) (fun _ _ _ ⟨_, _, hr, _⟩ => h.reads hr)
    fun _ hr => h.reads hr.1

theorem Within.findNextSymbol (h : Within i s t) (id : TableId) : (findNextSymbol id t).stays i s :=
  Res.sat_mono (findNextSymbol_sat id t) (fun _ _ hm => h.matches hm.1) (fun _ _ _ ⟨_, _, hr, _⟩ => h.reads hr)
    fun _ hr => h.reads hr.1

theorem Within.distanceOf (h : Within i s t) (d : Nat) : (distanceOf d t).stays i s :=
  Res.sat_mono (distanceOf_sat d t) (fun _ _ hr => h.reads hr) (fun _ _ _ ⟨_, _, hr⟩ => h.reads hr)
    fun _ hr => h.reads hr.1

/-- A base plus extra bits: a distance (R375), and in the same words a length (R343) and a repeat count (R305). -/
theorem Within.distanceValue (h : Within i s t) (base extra : Nat) : (distanceValue base extra t).stays i s :=
  (h.readBits extra).bind fun _ _ hu => hu

theorem Within.setMode (h : Within i s t) (hw : writesMode i = true) (m : BitOrder) : (setMode m t).stays i s := by
  unfold Machine.setMode
  split
  · exact h.withReader (fun hn => by rw [hw] at hn; cases hn) (Nat.le_refl _)
  · trivial

theorem Within.buildFromLengths (h : Within i s t) {id : TableId} (hw : writesTable id i = true) (lens : List Nat) :
    (buildFromLengths id lens t).stays i s := by
  unfold Machine.buildFromLengths
  split
  · exact (h.setTable hw _).sendDiag _
  · trivial

theorem Within.buildFromRanges (h : Within i s t) {id : TableId} (hw : writesTable id i = true)
    (pairs : List (Nat × Int)) : (buildFromRanges id pairs t).stays i s := by
  unfold Machine.buildFromRanges
  split
  · exact h.buildFromLengths hw _
  · trivial

theorem Within.copyRun (h : Within i s t) (dist n : Nat) : (copyRun dist n t).stays i s :=
  Res.sat_mono (copyRun_sat dist n t) (fun _ _ hc => by rw [hc.only]; exact h.withHistory _) (fun _ _ _ => False.elim)
    fun _ => False.elim

theorem Within.histSlice (h : Within i s t) (p n : Nat) : (histSlice p n t).stays i s :=
  Res.sat_mono (histSlice_sat p n t) (fun _ _ hu => by rw [hu]; exact h) (fun _ _ _ => False.elim) fun _ => False.elim

/-- An operation that returns a value leaves it in `result`, which is no register. -/
theorem Res.stays.value {r : Res Nat} (h : r.stays i s) :
    (r.bind fun v t => .ok () (t.withResult v) : Res Unit).stays i s :=
  h.bind fun v _ ht => ht.withResult v

/-! ## The operations of several elements -/

theorem Within.skipField (h : Within i s t) (he : encode i ≠ none) (n : Nat) (p : Phase) :
    (skipField n p t).stays i s :=
  (h.readBits n).bind fun _ _ hu => hu.setPhase he p

theorem Within.stringByte (h : Within i s t) (he : encode i ≠ none) (p : Phase) : (stringByte p t).stays i s := by
  refine (h.readBits 8).bind fun b u hu => ?_
  show Within i s (if b = 0 then _ else _)
  split
  · exact hu.setPhase he _
  · exact hu

theorem Within.gzFextra (h : Within i s t) : (gzFextra t).stays i s := by
  unfold Machine.gzFextra
  split
  · exact h
  · exact h

/-- `BLK_FIXED` (R293). The answer is named, so that no unifier evaluates the two fixed tables. -/
theorem Within.blkFixed (h : Within i s t) (he : encode i ≠ none) (hll : writesTable .ll i = true)
    (hd : writesTable .d i = true) : ∃ u, blkFixed t = .ok () u ∧ Within i s u := by
  rw [blkFixed_eq]
  generalize tableOf (expandRanges fixedLL) = ll
  generalize tableOf (expandRanges fixedD) = dt
  obtain ⟨d, hd'⟩ := sendDiag_builds t { t.tables with ll := ll } { t.tables with ll := ll, d := dt }
  rw [hd']
  exact ⟨_, rfl, (((h.setTable hll ll).setTable hd dt).withDiag d).setPhase he .symbol⟩

theorem Within.lensComplete (h : Within i s t) (he : encode i ≠ none) (hll : writesTable .ll i = true)
    (hd : writesTable .d i = true) : (lensComplete t).stays i s :=
  (h.buildFromLengths hll _).bind fun _ _ hu => (hu.buildFromLengths hd _).bind fun _ _ hv => hv.setPhase he .symbol

/-- `Append(v, r)` (R316) writes LENS and LENS_N, and builds the block tables when the list is complete (R310). -/
theorem Within.appendLens (h : Within i s t) (he : encode i ≠ none) (hw : writesLens i = true)
    (hll : writesTable .ll i = true) (hd : writesTable .d i = true) (v : BitVec 4) (r : Nat) :
    (appendLens v r t).stays i s := by
  unfold Machine.appendLens
  split
  · exact h
  split
  · trivial
  have hu : Within i s (t.withSeq
      { t.seq with lens := fillLens t.seq.lens v t.seq.lensN r, lensN := t.seq.lensN + r }) :=
    h.withSeq he { LeavesSeq.refl i t.seq with
      lens := fun hn => by rw [hw] at hn; cases hn
      lensN := fun hn => by rw [hw] at hn; cases hn }
  dsimp only
  generalize t.withSeq _ = u at hu ⊢
  split
  · exact hu.lensComplete he hll hd
  · exact hu

theorem Within.lengthElement (h : Within i s t) (hw : offersChunk i = true) (base extra : Nat) :
    (lengthElement base extra t).stays i s := by
  refine (h.distanceValue base extra).bind fun n t ht => ?_
  refine (ht.findNextSymbol .d).bind fun d u hu => (hu.distanceOf d).bind fun dist v hv => ?_
  split
  · exact hv
  · exact (hv.copyRun dist n).bind fun _ w hw' => (hw'.histSlice _ n).bind fun run x hx => hx.emit hw run

end

/-! ## The elements -/

section
variable (s : State)

theorem gzMagic_stays : (gzMagic s).stays .gzMagic s := by
  refine ((Within.refl _ s).readBits 16).bind fun v t ht => ?_
  split
  · exact ht
  · exact (ht.setMode rfl .lsb).bind fun _ _ hu => hu.setPhase nofun .cm

theorem gzCm_stays : (gzCm s).stays .gzCm s := by
  refine ((Within.refl _ s).readBits 8).bind fun v t ht => ?_
  split
  · exact ht
  · exact ht.setPhase nofun .flg

theorem gzFlg_stays : (gzFlg s).stays .gzFlg s := by
  refine ((Within.refl _ s).readBits 8).bind fun _ t ht => Within.setPhase (ht.withSeq nofun ?_) nofun .mtime
  exact { LeavesSeq.refl _ t.seq with flg := nofun }

theorem gzOs_stays : (gzOs s).stays .gzOs s :=
  ((Within.refl _ s).readBits 8).bind fun _ _ ht => ht.gzFextra.bind fun _ _ hu => hu.setPhase nofun _

theorem gzTrailer_stays : (gzTrailer s).stays .gzTrailer s :=
  (Within.refl _ s).alignToByte.bind fun _ _ ht => (ht.readBits 32).bind fun crc _ hu =>
    (hu.readBits 32).bind fun isize _ hv => hv.complete nofun rfl crc isize

theorem blkhdr_stays : (blkhdr s).stays .blkhdr s := by
  refine (((Within.refl _ s).sendDiag .blockStart).readBits 1).bind fun f t ht => ?_
  refine (ht.readBits 2).bind fun ty u hu => ?_
  have hv : Within .blkhdr s (u.withSeq { u.seq with bfinal := f == 1, btype := BitVec.ofNat 2 ty }) :=
    hu.withSeq nofun { LeavesSeq.refl _ u.seq with header := nofun }
  dsimp only
  generalize u.withSeq _ = v at hv ⊢
  split
  · exact hv.setPhase nofun .storedHdr
  · have hfixed := hv.blkFixed nofun rfl rfl
    generalize blkFixed v = r at hfixed ⊢
    obtain ⟨w, rfl, hw⟩ := hfixed
    exact hw.ok ()
  · exact hv.setPhase nofun .dynHdr
  · exact hv

theorem storedHdr_stays : (storedHdr s).stays .storedHdr s := by
  refine (Within.refl _ s).alignToByte.bind fun _ t ht => (ht.readBits 16).bind fun len u hu => ?_
  refine (hu.readBits 16).bind fun nlen v hv => ?_
  split
  · have hw : Within .storedHdr s (v.withSeq { v.seq with storedRem := BitVec.ofNat 16 len }) :=
      hv.withSeq nofun { LeavesSeq.refl _ v.seq with storedRem := nofun }
    show Within .storedHdr s (if len = 0 then _ else _)
    split
    · exact hw.blockEnd nofun
    · exact hw.setPhase nofun .storedData
  · exact hv

theorem storedByte_stays : (storedByte s).stays .storedByte s := by
  refine ((Within.refl _ s).readBits 8).bind fun b t ht => Within.emit ?_ rfl _
  have hu : Within .storedByte s (outAppend (BitVec.ofNat 8 b) t) := ht.withHistory _
  generalize outAppend (BitVec.ofNat 8 b) t = u at hu ⊢
  have hw : Within .storedByte s (u.withSeq { u.seq with storedRem := u.seq.storedRem - 1 }) :=
    hu.withSeq nofun { LeavesSeq.refl _ u.seq with storedRem := nofun }
  split
  · exact hw.blockEnd nofun
  · exact hw

/-- DYN_HDR writes the counts, CL_LEN and LENS_N (R300, R302, R303). -/
theorem leavesSeq_dynHdr (q : Sequencer) (hlit : BitVec 9) (hdist : BitVec 6) (hclen : BitVec 5)
    (clLen : Vector (BitVec 3) 19) (lensN : Nat) : LeavesSeq .dynHdr q
      { q with hlit := hlit, hdist := hdist, hclen := hclen, clLen := clLen, lensN := lensN } :=
  { LeavesSeq.refl _ q with
    counts := nofun
    lensN := nofun }

/-- The loop of `CodeLengthLengths` (R302). -/
theorem readClLens_stays {t : State} (h : Within .dynHdr s t) (slots : List Nat) :
    (readClLens slots t).stays .dynHdr s := by
  induction slots generalizing t with
  | nil => exact h
  | cons slot slots ih =>
    exact (h.readBits 3).bind fun _ _ hu => ih (hu.withSeq nofun (leavesSeq_dynHdr _ _ _ _ _ _))

theorem codeLengthLengths_stays {t : State} (h : Within .dynHdr s t) : (codeLengthLengths t).stays .dynHdr s :=
  (readClLens_stays s (h.withSeq nofun (leavesSeq_dynHdr _ _ _ _ _ _)) _).bind fun _ _ hu => hu.buildFromLengths rfl _

theorem dynHdr_stays : (dynHdr s).stays .dynHdr s := by
  refine ((Within.refl _ s).readBits 5).bind fun a t ht => ?_
  refine ((ht.withSeq nofun (leavesSeq_dynHdr _ _ _ _ _ _)).readBits 5).bind fun b u hu => ?_
  refine ((hu.withSeq nofun (leavesSeq_dynHdr _ _ _ _ _ _)).readBits 4).bind fun c v hv => ?_
  refine (codeLengthLengths_stays s (hv.withSeq nofun (leavesSeq_dynHdr _ _ _ _ _ _))).bind fun _ w hw => ?_
  exact Within.setPhase (hw.withSeq nofun (leavesSeq_dynHdr _ _ _ _ _ _)) nofun .dynLens

theorem clRepeatPrev_stays : (clRepeatPrev s).stays .clRepeatPrev s := by
  unfold clRepeatPrev
  split
  · exact .refl _ s
  refine ((Within.refl _ s).distanceValue 3 2).bind fun r t ht => ?_
  split
  · exact ht.appendLens nofun rfl rfl rfl _ r
  · trivial

/-! ## Every instruction -/

/-- Every instruction's operation stays within what the instruction writes. -/
theorem exec_stays (i : Instr) : ∃ r, exec i s = finish s r ∧ r.stays i s := by
  have h := Within.refl i s
  cases i with
  | gzMagic => exact ⟨_, rfl, gzMagic_stays s⟩
  | gzCm => exact ⟨_, rfl, gzCm_stays s⟩
  | gzFlg => exact ⟨_, rfl, gzFlg_stays s⟩
  | gzMtime | gzXfl | gzFhcrc => exact ⟨_, rfl, h.skipField nofun _ _⟩
  | gzOs => exact ⟨_, rfl, gzOs_stays s⟩
  | gzFextra => exact ⟨_, rfl, h.gzFextra⟩
  | gzFnameByte | gzFcommentByte => exact ⟨_, rfl, h.stringByte nofun _⟩
  | blkhdr => exact ⟨_, rfl, blkhdr_stays s⟩
  | blkStored | blkDynamic => exact ⟨_, rfl, (h.setPhase nofun _).ok ()⟩
  | blkFixed =>
    obtain ⟨u, hu, hw⟩ := h.blkFixed nofun rfl rfl
    exact ⟨blkFixed s, rfl, by rw [hu]; exact hw.ok ()⟩
  | blkReserved | len286 | len287 => exact ⟨_, rfl, h.raises _⟩
  | storedHdr => exact ⟨_, rfl, storedHdr_stays s⟩
  | storedByte => exact ⟨_, rfl, storedByte_stays s⟩
  | dynHdr => exact ⟨_, rfl, dynHdr_stays s⟩
  | clLenLit v => exact ⟨_, rfl, h.appendLens nofun rfl rfl rfl v 1⟩
  | clRepeatPrev => exact ⟨_, rfl, clRepeatPrev_stays s⟩
  | clZeroShort | clZeroLong =>
    exact ⟨_, rfl, (h.distanceValue _ _).bind fun r _ ht => ht.appendLens nofun rfl rfl rfl 0 r⟩
  | lit v => exact ⟨_, rfl, (Within.emit (h.withHistory _) rfl [v]).ok ()⟩
  | eob => exact ⟨_, rfl, (h.blockEnd nofun).ok ()⟩
  | len257 | len258 | len259 | len260 | len261 | len262 | len263 | len264 | len265 | len266 | len267 | len268 | len269
  | len270 | len271 | len272 | len273 | len274 | len275 | len276 | len277 | len278 | len279 | len280 | len281 | len282
  | len283 | len284 | len285 => exact ⟨_, rfl, h.lengthElement rfl _ _⟩
  -- a read of no bits evaluates to its answer, so these four name their operation
  | dist0 => exact ⟨_, rfl, Res.stays.value (r := dist0 s) (h.distanceValue _ _)⟩
  | dist1 => exact ⟨_, rfl, Res.stays.value (r := dist1 s) (h.distanceValue _ _)⟩
  | dist2 => exact ⟨_, rfl, Res.stays.value (r := dist2 s) (h.distanceValue _ _)⟩
  | dist3 => exact ⟨_, rfl, Res.stays.value (r := dist3 s) (h.distanceValue _ _)⟩
  | dist4 | dist5 | dist6 | dist7 | dist8 | dist9 | dist10 | dist11 | dist12 | dist13
  | dist14 | dist15 | dist16 | dist17 | dist18 | dist19 | dist20 | dist21 | dist22 | dist23 | dist24 | dist25 | dist26
  | dist27 | dist28 | dist29 =>
    refine ⟨_, rfl, ?_⟩
    exact Res.stays.value (h.distanceValue _ _)
  | dist30 | dist31 => exact ⟨_, rfl, (h.raises _).value⟩
  | gzTrailer => exact ⟨_, rfl, gzTrailer_stays s⟩
  | rb n => exact ⟨_, rfl, (h.readBits n).value⟩
  | pb n => exact ⟨_, rfl, (h.peekBits n).value⟩
  | align => exact ⟨_, rfl, h.alignToByte.value⟩
  | bitpos => exact ⟨_, rfl, (h.withResult _).ok ()⟩
  | setmode m => exact ⟨_, rfl, h.setMode rfl m⟩
  | buildRanges t pairs => exact ⟨_, rfl, h.buildFromRanges (by simp [writesTable]) pairs⟩
  | buildLengths t lens => exact ⟨_, rfl, h.buildFromLengths (by simp [writesTable]) lens⟩
  | find t => exact ⟨_, rfl, (h.findNextSymbol t).value⟩
  | append v => exact ⟨_, rfl, (h.withHistory _).ok ()⟩
  | copy dist n => exact ⟨_, rfl, h.copyRun dist n⟩

end

/-- A next state of an instruction: what the instruction does not write is left, and unless it is in P_ERROR so are the
registers that error entry writes. -/
theorem exec_leaves {i : Instr} {s t : State} (h : exec i s = .next t) :
    Leaves i s t ∧ (t.seq.phase ≠ .error → Within i s t) := by
  obtain ⟨r, hr, hs⟩ := exec_stays s i
  rw [hr] at h
  refine finish_next (P := fun t => Leaves i s t ∧ (t.seq.phase ≠ .error → Within i s t)) h
    (Res.sat_mono hs (fun _ u hu => ?done) (fun k q u hu => ?raised) fun u hu => ?waits)
  case done => exact ⟨hu.toLeaves, fun _ => hu⟩
  case raised => exact ⟨{ hu with seq := { hu.seq with } }, fun hp => absurd rfl hp⟩
  case waits => exact ⟨{ hu with }, fun _ => { hu with }⟩

/-- Settles O59: by the walk through each instruction's operations. -/
theorem registersChangeOnlyByTheirWriters : Obligations.RegistersChangeOnlyByTheirWriters := by
  unfold Obligations.RegistersChangeOnlyByTheirWriters
  intro i s t h
  obtain ⟨hl, hw⟩ := exec_leaves h
  exact ⟨hl.mode, hl.seq.header, hl.seq.flg, hl.seq.storedRem, hl.seq.counts, hl.seq.lens, hl.seq.lensN, hl.tables,
    hl.chunk, hl.done, fun hp => (hw hp).status, fun he hp => (hw hp).micro he, hl.params, hl.input, hl.inputEnd,
    hl.host, hl.autoAccept, hl.accepted, hl.fetched⟩

end Sys2Proof.Machine
end

section
/-! PROOFS. A read of two adjacent fields as one (R171), and fields of whole bytes (R87, R88). -/

namespace Sys2Proof.Machine

open Sys2Proof

/-! ## Reads by RB -/

/-- RB with its bits there (R165). -/
theorem exec_rb_eq {n : Nat} {s : State} (hs : s.reader.ok) (h32 : n ≤ 32) (hn : n ≤ s.upcoming.length) :
    exec (.rb n) s = .next ((s.afterRead n).withResult (s.nextField n)) := by
  show finishValue s (readBits n s) = _
  rw [readBits_eq hs.1 h32 hn]; rfl

/-- What a read leaves is a matter of the reader and the input, not of the last value returned. -/
theorem afterRead_withResult (m v : Nat) (s : State) :
    (s.withResult v).afterRead m = (s.afterRead m).withResult v := rfl

/-! ## Adjacent fields (R171) -/

/-- The field behind the first `n` bits is the next one after a read of them. -/
theorem nextField_afterRead {n : Nat} (m : Nat) {s : State} (hn : n ≤ s.upcoming.length) :
    (s.afterRead n).nextField m = fieldValue s.reader.mode ((s.upcoming.drop n).take m) := by
  unfold State.nextField
  rw [afterRead_upcoming hn]; rfl

/-- In LSB-first order the earlier field is the lower part (R85). -/
theorem nextField_add_lsb {n m : Nat} {s : State} (hmode : s.reader.mode = .lsb) (hn : n ≤ s.upcoming.length) :
    s.nextField (n + m) = s.nextField n ||| ((s.afterRead n).nextField m <<< n) := by
  have hlow := nextField_lt n s
  rw [nextField_afterRead m hn]
  unfold State.nextField at hlow ⊢
  rw [hmode] at hlow ⊢
  rw [List.take_add, fieldValue_lsb_append, List.length_take_of_le hn, Nat.or_comm, Nat.shiftLeft_eq,
    Nat.mul_comm _ (2 ^ n), ← Nat.two_pow_add_eq_or_of_lt hlow, Nat.add_comm]

/-- In MSB-first order the earlier field is the upper part (R86). -/
theorem nextField_add_msb {n m : Nat} {s : State} (hmode : s.reader.mode = .msb) (h : n + m ≤ s.upcoming.length) :
    s.nextField (n + m) = (s.nextField n <<< m) ||| (s.afterRead n).nextField m := by
  have hlow := nextField_lt m (s.afterRead n)
  have hm : ((s.upcoming.drop n).take m).length = m := by rw [List.length_take, List.length_drop]; omega
  rw [nextField_afterRead m (by omega)] at hlow ⊢
  unfold State.nextField
  rw [hmode] at hlow ⊢
  rw [List.take_add, fieldValue_msb_append, hm, Nat.shiftLeft_eq, Nat.mul_comm _ (2 ^ m),
    ← Nat.two_pow_add_eq_or_of_lt hlow]

/-- Settles O9: two reads leave what one read of both widths leaves, and the value of two fields is that of their bits
in a row. -/
theorem readsSplit : Obligations.ReadsSplit := by
  unfold Obligations.ReadsSplit
  intro n m s hs h32 hlen
  have hn : n ≤ s.upcoming.length := by omega
  have hm : m ≤ (s.afterRead n).upcoming.length := by rw [length_afterRead hn]; omega
  refine ⟨_, _, _, exec_rb_eq hs (by omega) hn,
    exec_rb_eq (s := (s.afterRead n).withResult (s.nextField n)) (afterRead_ok hs hn) (by omega) hm,
    exec_rb_eq hs h32 hlen, ?reader, fun hmode => nextField_add_lsb hmode hn, fun hmode => nextField_add_msb hmode hlen⟩
  case reader =>
    rw [afterRead_withResult, afterRead_afterRead hn]
    rfl

/-! ## Fields of whole bytes (R87, R88) -/

/-- With no bits buffered, a field of `k` bytes is the next `k` bytes of the input. -/
theorem nextField_bytes {k : Nat} {s : State} (hc : s.reader.cnt = 0) {bs rest : List Byte}
    (hin : s.input.drop s.reader.nfetch = bs ++ rest) (hk : bs.length = k) :
    s.nextField (8 * k) = fieldValue s.reader.mode (bs.flatMap (byteBits s.reader.mode)) := by
  have hb : s.reader.buffered = [] := List.eq_nil_of_length_eq_zero (by rw [length_buffered, hc])
  unfold State.nextField State.upcoming
  rw [hb, List.nil_append, hin, List.flatMap_append, List.take_left']
  rw [length_flatMap_byteBits, hk]

/-- In LSB-first order the first byte is the lowest (R87). -/
theorem fieldValue_bytes_lsb (b : Byte) (bs : List Byte) :
    fieldValue .lsb ((b :: bs).flatMap (byteBits .lsb))
      = b.toNat + 2 ^ 8 * fieldValue .lsb (bs.flatMap (byteBits .lsb)) := by
  have hb : fieldValue .lsb (byteBits .lsb b) = b.toNat :=
    (fieldValue_lsbBits 8 b.toNat).trans (Nat.mod_eq_of_lt b.isLt)
  rw [List.flatMap_cons, fieldValue_lsb_append, hb, length_byteBits]

/-- In MSB-first order the first byte is the highest (R88). -/
theorem fieldValue_bytes_msb (b : Byte) (bs : List Byte) :
    fieldValue .msb ((b :: bs).flatMap (byteBits .msb))
      = b.toNat * 2 ^ (8 * bs.length) + fieldValue .msb (bs.flatMap (byteBits .msb)) := by
  have hb : fieldValue .msb (byteBits .msb b) = b.toNat :=
    (fieldValue_msbBits 8 b.toNat).trans (Nat.mod_eq_of_lt b.isLt)
  rw [List.flatMap_cons, fieldValue_msb_append, hb, length_flatMap_byteBits]

/-- Settles O10: RB returns the value of the next bytes, each byte's weight given by the bit order. -/
theorem byteFieldsHaveByteOrder : Obligations.ByteFieldsHaveByteOrder := by
  unfold Obligations.ByteFieldsHaveByteOrder
  intro s b₀ b₁ b₂ b₃ rest hs hc hin
  have hlen : 32 ≤ s.upcoming.length := by
    have := congrArg List.length hin
    rw [List.length_drop] at this
    simp only [List.length_cons] at this
    rw [length_upcoming]; omega
  have h32 : s.nextField 32 = fieldValue s.reader.mode ([b₀, b₁, b₂, b₃].flatMap (byteBits s.reader.mode)) :=
    nextField_bytes (k := 4) hc hin rfl
  have h16 : s.nextField 16 = fieldValue s.reader.mode ([b₀, b₁].flatMap (byteBits s.reader.mode)) :=
    nextField_bytes (k := 2) hc hin rfl
  rw [exec_rb_eq hs (by omega) hlen, exec_rb_eq hs (by omega) (by omega), h32, h16]
  refine ⟨fun hmode => ⟨?four, ?two⟩, fun hmode => ?big⟩
  case four =>
    congr 2
    rw [hmode]
    simp only [fieldValue_bytes_lsb, List.flatMap_nil, fieldValue_nil]
    omega
  case two =>
    congr 2
    rw [hmode]
    simp only [fieldValue_bytes_lsb, List.flatMap_nil, fieldValue_nil]
    omega
  case big =>
    congr 2
    rw [hmode]
    simp only [fieldValue_bytes_msb, List.flatMap_nil, fieldValue_nil, List.length_cons, List.length_nil]
    omega

end Sys2Proof.Machine
end

section
/-! PROOFS. The handshakes at the ports: a pending chunk (R82, R533) and the host's acts (R80, R493, R525). -/

namespace Sys2Proof.Machine

open Sys2Proof

/-- The accept clears OUT_PEND and puts the chunk behind those accepted (R82). -/
theorem acceptChunk_of_pending {s : State} (h : s.ports.outPend = true) :
    acceptChunk s = { s.withPorts { s.ports with outPend := false } with
      accepted := s.accepted ++ [s.ports.outChunk] } := if_pos h

/-- With a chunk pending, a step of the block is the accept or nothing (R533). -/
theorem blockStep_of_pending {s : State} (hn : s.suspended = none) (h : s.ports.outPend = true) :
    blockStep s = .next (if s.autoAccept then acceptChunk s else s) := by
  unfold blockStep
  rw [State.start_of_none hn, if_pos h]

/-- Settles O46: with no act of the host a step is the block's, which a pending chunk keeps from its elements. -/
theorem pendingChunkBlocks : Obligations.PendingChunkBlocks := by
  unfold Obligations.PendingChunkBlocks
  intro s hh hn hp
  rw [step_of_no_act hh, blockStep_of_pending hn hp]
  refine ⟨fun ha => ?_, fun ha => ?_⟩
  · rw [ha]; rfl
  · rw [ha, ← acceptChunk_of_pending hp]; rfl

/-- The acts still to come are no matter of the accept. -/
theorem acceptChunk_host (acts : List HostAct) (s : State) :
    acceptChunk { s with host := acts } = { acceptChunk s with host := acts } := by
  unfold acceptChunk
  split <;> rfl

/-- Settles O47: a step with an act of the host is that act, and letting the block move is the block's own step. -/
theorem hostActsAtThePorts : Obligations.HostActsAtThePorts := by
  unfold Obligations.HostActsAtThePorts
  intro s acts bytes p
  have haccept : step { s with host := .accept :: acts } = .next { acceptChunk s with host := acts } := by
    rw [← acceptChunk_host acts]; rfl
  refine ⟨fun he => ?presents, fun he => ?presentsLate, rfl, fun hp => ?accepts, fun hp => ?acceptsNothing, rfl, rfl⟩
  case presents =>
    rw [step_of_act (s := { s with host := .present bytes :: acts }) rfl (by simp)]
    exact if_neg (by simp [he])
  case presentsLate =>
    rw [step_of_act (s := { s with host := .present bytes :: acts }) rfl (by simp)]
    exact if_pos he
  case accepts => rw [haccept, acceptChunk_of_pending hp]
  case acceptsNothing => rw [haccept, acceptChunk_of_free hp]

end Sys2Proof.Machine
end

section
/-! PROOFS. What an instruction has written where it raises or waits (R94, R485, R486), and what it appends to the
history where it completes (R440, R448). -/

namespace Sys2Proof.Machine

open Sys2Proof

/-! ## Before an element can no longer fail -/

/-- `t` stands inside the element that began in `s`, where the element may still raise or wait: it has written nothing
but what R94 lets a failing element write, the reader's registers, BFINAL, BTYPE, the counts, CL_LEN and events behind
those already sent. -/
structure MayFail (s t : State) : Prop extends Inside s t where
  readerOk : t.reader.ok
  result : t.result = s.result
  flg : t.seq.flg = s.seq.flg
  storedRem : t.seq.storedRem = s.seq.storedRem
  lens : t.seq.lens = s.seq.lens
  lensN : t.seq.lensN = s.seq.lensN
  events : s.diag <+: t.diag

/-- An element of `s` raises with a kind, at the position it stands at (R485, R486). -/
def RaisesPrecisely (s : State) (k : ErrKind) (q : Nat) (t : State) : Prop := k ≠ .none ∧ q = t.bitPos ∧ MayFail s t

/-- The operation `r`, run inside the element of `s`, completes as `D` says, or raises or waits with no more written
than R94 lets it. -/
def Res.failsIn {α : Type} (s : State) (r : Res α) (D : α → State → Prop) : Prop :=
  r.sat D (RaisesPrecisely s) (MayFail s)

/-- The operation `r` neither raises nor waits. -/
def Res.noFail {α : Type} (r : Res α) (D : α → State → Prop) : Prop := r.sat D (fun _ _ _ => False) fun _ => False

section
variable {α β : Type} {s : State} {r : Res α} {f : α → State → Res β} {D D' : α → State → Prop}
  {E : β → State → Prop}

theorem Res.failsIn.bind (h : r.failsIn s D) (hf : ∀ a t, D a t → (f a t).failsIn s E) : (r.bind f).failsIn s E :=
  Res.sat_bind h hf

theorem Res.failsIn.ok {a : α} {t : State} (h : D a t) : (Res.ok a t).failsIn s D := h

theorem Res.failsIn.mono (h : r.failsIn s D) (hd : ∀ a t, D a t → D' a t) : r.failsIn s D' :=
  Res.sat_mono h hd (fun _ _ _ h => h) fun _ h => h

theorem Res.noFail.bind (h : r.noFail D) (hf : ∀ a t, D a t → (f a t).noFail E) : (r.bind f).noFail E :=
  Res.sat_bind h hf

theorem Res.noFail.mono (h : r.noFail D) (hd : ∀ a t, D a t → D' a t) : r.noFail D' :=
  Res.sat_mono h hd (fun _ _ _ h => h) fun _ h => h

theorem Res.noFail.failsIn (h : r.noFail D) : r.failsIn s D :=
  Res.sat_mono h (fun _ _ h => h) (fun _ _ _ => False.elim) fun _ => False.elim

end

section
variable {s t u : State}

theorem MayFail.refl (hs : s.reader.ok) : MayFail s s where
  sameHost := rfl
  ports := rfl
  history := rfl
  tables := rfl
  phase := rfl
  mode := rfl
  forward := Nat.le_refl _
  readerOk := hs
  result := rfl
  flg := rfl
  storedRem := rfl
  lens := rfl
  lensN := rfl
  events := ⟨[], List.append_nil _⟩

theorem MayFail.withDiag (h : MayFail s t) {d : List DiagEvent} (hd : t.diag <+: d) : MayFail s (t.withDiag d) :=
  { h with
    sameHost := h.sameHost.writes _
    events := h.events.trans hd }

theorem MayFail.withReader (h : MayFail s t) {r : Reader} (hm : r.mode = t.reader.mode) (ho : r.ok)
    (hp : t.bitPos ≤ r.bitPos) : MayFail s (t.withReader r) :=
  { h with
    toInside := h.toInside.withReader hm hp
    readerOk := ho }

/-- The registers of the block header, the counts and CL_LEN may be written before an error (R94). -/
theorem MayFail.writesHeader (h : MayFail s t) (bfinal : Bool) (btype : BitVec 2) (hlit : BitVec 9) (hdist : BitVec 6)
    (hclen : BitVec 5) (clLen : Vector (BitVec 3) 19) :
    MayFail s (t.withSeq { t.seq with
      bfinal := bfinal, btype := btype, hlit := hlit, hdist := hdist, hclen := hclen, clLen := clLen }) :=
  { h with sameHost := h.sameHost.writes _ }

theorem MayFail.reads (h : MayFail s t) (hr : ReadsTo t u) : MayFail s u := by
  rw [hr.only]
  exact h.withReader hr.mode (hr.ok h.readerOk) (hr.pos h.readerOk)

theorem MayFail.matches (h : MayFail s t) (hm : MatchesTo t u) : MayFail s u := by
  rw [hm.only]
  exact (h.withReader hm.mode (hm.ok h.readerOk) (hm.pos h.readerOk)).withDiag hm.events

theorem MayFail.raises {α : Type} (h : MayFail s t) {k : ErrKind} (hk : k ≠ .none) {D : α → State → Prop} :
    (raiseHere k t : Res α).failsIn s D := ⟨hk, rfl, h⟩

/-! ## Reading and matching -/

/-- A read whose value is a field of the input (R165). -/
theorem MayFail.readField (h : MayFail s t) (n : Nat) :
    (readBits n t).failsIn s fun v u => v = t.nextField n ∧ MayFail s u :=
  Res.sat_mono (readBits_sat n t) (fun _ _ ⟨hr, _, hv⟩ => ⟨hv h.readerOk, h.reads hr⟩)
    (fun _ _ _ ⟨hk, hq, hr, hp⟩ => ⟨hk ▸ nofun, hq.trans hp.symm, h.reads hr⟩) fun _ ⟨hr, _⟩ => h.reads hr

theorem MayFail.readBits (h : MayFail s t) (n : Nat) : (readBits n t).failsIn s fun _ u => MayFail s u :=
  (h.readField n).mono fun _ _ hu => hu.2

theorem MayFail.peekBits (h : MayFail s t) (n : Nat) : (peekBits n t).failsIn s fun _ u => MayFail s u :=
  Res.sat_mono (peekBits_sat n t) (fun _ _ ⟨hr, _⟩ => h.reads hr)
    (fun _ _ _ ⟨hk, hq, hr, hp⟩ => ⟨hk ▸ nofun, hq.trans hp.symm, h.reads hr⟩) fun _ ⟨hr, _⟩ => h.reads hr

theorem MayFail.alignToByte (h : MayFail s t) : (alignToByte t).failsIn s fun _ u => MayFail s u :=
  (h.readBits _).bind fun _ _ hu => hu

theorem MayFail.findNextSymbol (h : MayFail s t) (id : TableId) :
    (findNextSymbol id t).failsIn s fun _ u => MayFail s u :=
  Res.sat_mono (findNextSymbol_sat id t) (fun _ _ ⟨hm, _⟩ => h.matches hm)
    (fun _ _ _ ⟨hk, hq, hr, hp⟩ => ⟨by rcases hk with rfl | rfl <;> nofun, hq.trans hp.symm, h.reads hr⟩)
    fun _ ⟨hr, _⟩ => h.reads hr

theorem MayFail.distanceOf (h : MayFail s t) (d : Nat) : (distanceOf d t).failsIn s fun _ u => MayFail s u :=
  Res.sat_mono (distanceOf_sat d t) (fun _ _ hr => h.reads hr) (fun _ _ _ ⟨hk, hq, hr⟩ => ⟨hk, hq, h.reads hr⟩)
    fun _ ⟨hr, _⟩ => h.reads hr

/-- A base plus extra bits: a distance (R375), and in the same words a length (R343) and a repeat count (R305). -/
theorem MayFail.distanceValue (h : MayFail s t) (base extra : Nat) :
    (distanceValue base extra t).failsIn s fun v u => v = base + t.nextField extra ∧ MayFail s u :=
  (h.readField extra).bind fun _ _ ⟨hv, hu⟩ => ⟨congrArg (base + ·) hv, hu⟩

/-- What may still fail behind such a field does not hang on its value. -/
theorem MayFail.distance (h : MayFail s t) (base extra : Nat) :
    (Machine.distanceValue base extra t).failsIn s fun _ u => MayFail s u :=
  (h.distanceValue base extra).mono fun _ _ hu => hu.2

/-! ## What a completed operation leaves of the history -/

/-- The history is as it was, and so is ERROR. -/
def KeepsHistory (s t : State) : Prop := t.history = s.history ∧ t.ports.error = s.ports.error

/-- The history is as it was or has `n` bytes more, from OUT_COUNT on, in canonical form (R440, R448); ERROR is as it
was. -/
structure Grows (n : Nat) (s t : State) : Prop where
  error : t.ports.error = s.ports.error
  count : t.history = s.history ∨ t.history.outCount = s.history.outCount + n
  reads : ∀ a : Nat, a < s.history.outCount ∨ s.history.outCount + n ≤ a →
    t.history.hist.read a = s.history.hist.read a
  wf : Memory.wf s.history.hist = true → Memory.wf t.history.hist = true

/-- What the instruction `i` of `s` leaves of the history. -/
structure Stores (i : Instr) (s t : State) : Prop extends Grows (storeCount i s) s t where
  none : writesHistory i = false → t.history = s.history

theorem KeepsHistory.trans (h : KeepsHistory s t) (h' : KeepsHistory t u) : KeepsHistory s u :=
  ⟨h'.1.trans h.1, h'.2.trans h.2⟩

theorem KeepsHistory.grows (h : KeepsHistory s t) (n : Nat) : Grows n s t where
  error := h.2
  count := .inl h.1
  reads _ _ := by rw [h.1]
  wf hw := by rw [h.1]; exact hw

theorem KeepsHistory.stores (h : KeepsHistory s t) (i : Instr) : Stores i s t := ⟨h.grows _, fun _ => h.1⟩

theorem MayFail.keepsHistory (h : MayFail s t) : KeepsHistory s t := ⟨h.history, congrArg Ports.error h.ports⟩

theorem CopiesTo.grows {n : Nat} (hc : CopiesTo n t u) (h : KeepsHistory s t) : Grows n s u where
  error := by rw [hc.only]; exact h.2
  count := .inr (by rw [hc.count, h.1])
  reads := by rw [← h.1]; exact hc.reads
  wf := by rw [← h.1]; exact hc.wf

/-- `OutAppend` is a copy of one byte (R440). -/
theorem outAppend_copiesTo (v : Byte) (s : State) : CopiesTo 1 s (outAppend v s) where
  only := rfl
  count := rfl
  reads _ ha := Memory.read_write_other _ _ (by omega)
  wf hw := Memory.wf_write hw _ _

theorem Grows.stores {i : Instr} {n : Nat} (h : Grows n s t) (hw : writesHistory i = true) (hn : storeCount i s = n) :
    Stores i s t := by
  subst hn
  exact ⟨h, fun hn => by rw [hw] at hn; cases hn⟩

theorem Grows.keeps {n : Nat} (h : Grows n s t) (hk : KeepsHistory t u) : Grows n s u where
  error := hk.2.trans h.error
  count := by rw [hk.1]; exact h.count
  reads := by rw [hk.1]; exact h.reads
  wf := by rw [hk.1]; exact h.wf

/-! ## Operations that write tables or registers and cannot fail -/

theorem sendDiag_keepsHistory (k : DiagKind) (s : State) : KeepsHistory s (sendDiag k s) := by simp [KeepsHistory]

theorem setPhase_keepsHistory (p : Phase) (s : State) : KeepsHistory s (s.setPhase p) := ⟨rfl, rfl⟩

theorem blockEnd_keepsHistory (s : State) : KeepsHistory s (blockEnd s) := sendDiag_keepsHistory .blockEnd s

theorem emit_keepsHistory (c : List Byte) (s : State) : KeepsHistory s (emit c s) := ⟨rfl, rfl⟩

/-- What STORED_BYTE does behind its append: it counts the byte, and ends the block after the last (R297). -/
def countStored (s : State) : State :=
  if s.seq.storedRem - 1 = 0 then blockEnd (s.withSeq { s.seq with storedRem := s.seq.storedRem - 1 })
  else s.withSeq { s.seq with storedRem := s.seq.storedRem - 1 }

theorem storedByte_eq (s : State) : storedByte s = (readBits 8 s).bind fun b t =>
    .ok () (emit [BitVec.ofNat 8 b] (countStored (outAppend (BitVec.ofNat 8 b) t))) := rfl

theorem countStored_keepsHistory (s : State) : KeepsHistory s (countStored s) := by
  unfold countStored
  split
  · exact blockEnd_keepsHistory (s.withSeq _)
  · exact ⟨rfl, rfl⟩

theorem setMode_noFail (m : BitOrder) (s : State) : (setMode m s).noFail fun _ t => KeepsHistory s t := by
  unfold setMode
  split
  · exact ⟨rfl, rfl⟩
  · trivial

theorem buildFromLengths_noFail (id : TableId) (lens : List Nat) (s : State) :
    (buildFromLengths id lens s).noFail fun _ t => KeepsHistory s t := by
  unfold buildFromLengths
  split
  · exact sendDiag_keepsHistory .tableBuilt _
  · trivial

theorem buildFromRanges_noFail (id : TableId) (pairs : List (Nat × Int)) (s : State) :
    (buildFromRanges id pairs s).noFail fun _ t => KeepsHistory s t := by
  unfold buildFromRanges
  split
  · exact buildFromLengths_noFail id _ s
  · trivial

/-- `BLK_FIXED` (R293). The answer is named, so that no unifier evaluates the two fixed tables. -/
theorem blkFixed_keepsHistory (s : State) : ∃ t, blkFixed s = .ok () t ∧ KeepsHistory s t := by
  rw [blkFixed_eq]
  generalize tableOf (expandRanges fixedLL) = ll
  generalize tableOf (expandRanges fixedD) = d
  exact ⟨_, rfl, by simp [KeepsHistory]⟩

theorem lensComplete_noFail (s : State) : (lensComplete s).noFail fun _ t => KeepsHistory s t :=
  (buildFromLengths_noFail .ll _ s).bind fun _ t ht =>
    (buildFromLengths_noFail .d _ t).bind fun _ _ hu => ht.trans hu

/-! ## The elements -/

theorem MayFail.skipField (h : MayFail s t) (n : Nat) (p : Phase) :
    (skipField n p t).failsIn s fun _ u => KeepsHistory s u :=
  (h.readBits n).bind fun _ _ hu => hu.keepsHistory

theorem MayFail.stringByte (h : MayFail s t) (p : Phase) : (stringByte p t).failsIn s fun _ u => KeepsHistory s u := by
  refine (h.readBits 8).bind fun b u hu => ?_
  show KeepsHistory s (if b = 0 then _ else _)
  split <;> exact hu.keepsHistory

theorem MayFail.gzFextra (h : MayFail s t) : (gzFextra t).failsIn s fun _ u => MayFail s u := by
  unfold Machine.gzFextra
  split
  · exact h.raises (by decide)
  · exact h

theorem MayFail.gzMagic (h : MayFail s t) : (gzMagic t).failsIn s fun _ u => KeepsHistory s u := by
  refine (h.readBits 16).bind fun v u hu => ?_
  split
  · exact hu.raises (by decide)
  · exact Res.noFail.failsIn ((setMode_noFail .lsb u).bind fun _ _ hw => hu.keepsHistory.trans hw)

theorem MayFail.gzCm (h : MayFail s t) : (gzCm t).failsIn s fun _ u => KeepsHistory s u := by
  refine (h.readBits 8).bind fun v u hu => ?_
  split
  · exact hu.raises (by decide)
  · exact hu.keepsHistory

theorem MayFail.gzFlg (h : MayFail s t) : (gzFlg t).failsIn s fun _ u => KeepsHistory s u :=
  (h.readBits 8).bind fun _ _ hu => hu.keepsHistory

theorem MayFail.gzOs (h : MayFail s t) : (gzOs t).failsIn s fun _ u => KeepsHistory s u :=
  (h.readBits 8).bind fun _ _ hu => hu.gzFextra.bind fun _ _ hw => hw.keepsHistory

theorem MayFail.gzTrailer (h : MayFail s t) : (gzTrailer t).failsIn s fun _ u => KeepsHistory s u :=
  h.alignToByte.bind fun _ _ ht => (ht.readBits 32).bind fun _ _ hu => (hu.readBits 32).bind fun _ _ hw =>
    hw.keepsHistory

theorem MayFail.blkhdr (h : MayFail s t) : (blkhdr t).failsIn s fun _ u => KeepsHistory s u := by
  have hstart : MayFail s (sendDiag .blockStart t) := h.matches (sendDiag_matchesTo _ t)
  refine (hstart.readBits 1).bind fun f u hu => (hu.readBits 2).bind fun ty v hv => ?_
  have hw : MayFail s (v.withSeq { v.seq with bfinal := f == 1, btype := BitVec.ofNat 2 ty }) :=
    hv.writesHeader _ _ _ _ _ _
  dsimp only
  generalize v.withSeq _ = w at hw ⊢
  split
  · exact hw.keepsHistory
  · have hfixed := blkFixed_keepsHistory w
    generalize blkFixed w = r at hfixed ⊢
    obtain ⟨x, rfl, hx⟩ := hfixed
    exact hw.keepsHistory.trans hx
  · exact hw.keepsHistory
  · exact hw.raises (by decide)

theorem MayFail.storedHdr (h : MayFail s t) : (storedHdr t).failsIn s fun _ u => KeepsHistory s u := by
  refine h.alignToByte.bind fun _ u hu => (hu.readBits 16).bind fun len v hv => ?_
  refine (hv.readBits 16).bind fun nlen w hw => ?_
  split
  · show KeepsHistory s (if len = 0 then _ else _)
    split
    · exact hw.keepsHistory.trans (blockEnd_keepsHistory (w.withSeq _))
    · exact hw.keepsHistory
  · exact hw.raises (by decide)

/-- `STORED_BYTE` appends its one byte (R297). -/
theorem MayFail.storedByte (h : MayFail s t) : (storedByte t).failsIn s fun _ u => Grows 1 s u := by
  rw [storedByte_eq]
  refine (h.readBits 8).bind fun b u hu => .ok ?_
  have happ : Grows 1 s (outAppend (BitVec.ofNat 8 b) u) := (outAppend_copiesTo _ u).grows hu.keepsHistory
  exact happ.keeps ((countStored_keepsHistory _).trans (emit_keepsHistory _ _))

/-- The loop of `CodeLengthLengths` (R302). -/
theorem MayFail.readClLens (h : MayFail s t) (slots : List Nat) :
    (readClLens slots t).failsIn s fun _ u => MayFail s u := by
  induction slots generalizing t with
  | nil => exact h
  | cons slot slots ih => exact (h.readBits 3).bind fun _ _ hu => ih (hu.writesHeader _ _ _ _ _ _)

theorem MayFail.codeLengthLengths (h : MayFail s t) :
    (codeLengthLengths t).failsIn s fun _ u => KeepsHistory s u :=
  ((h.writesHeader _ _ _ _ _ _).readClLens _).bind fun _ u hu =>
    ((buildFromLengths_noFail .cl _ u).mono fun _ _ hw => hu.keepsHistory.trans hw).failsIn

theorem MayFail.dynHdr (h : MayFail s t) : (dynHdr t).failsIn s fun _ u => KeepsHistory s u :=
  (h.readBits 5).bind fun _ _ ha => ((ha.writesHeader _ _ _ _ _ _).readBits 5).bind fun _ _ hb =>
    ((hb.writesHeader _ _ _ _ _ _).readBits 4).bind fun _ _ hc =>
      (hc.writesHeader _ _ _ _ _ _).codeLengthLengths.bind fun _ _ hw => hw

/-- `Append(v, r)` raises before it writes LENS (R309, R316). -/
theorem MayFail.appendLens (h : MayFail s t) (v : BitVec 4) (r : Nat) :
    (appendLens v r t).failsIn s fun _ u => KeepsHistory s u := by
  unfold Machine.appendLens
  split
  · exact h.raises (by decide)
  split
  · trivial
  have hu : KeepsHistory s (t.withSeq
      { t.seq with lens := fillLens t.seq.lens v t.seq.lensN r, lensN := t.seq.lensN + r }) := h.keepsHistory
  dsimp only
  generalize t.withSeq _ = u at hu ⊢
  split
  · exact ((lensComplete_noFail u).mono fun _ _ hw => hu.trans hw).failsIn
  · exact hu

theorem MayFail.clRepeatPrev (h : MayFail s t) : (clRepeatPrev t).failsIn s fun _ u => KeepsHistory s u := by
  unfold Machine.clRepeatPrev
  split
  · exact h.raises (by decide)
  refine (h.distanceValue 3 2).bind fun r u hu => ?_
  split
  · exact hu.2.appendLens _ r
  · trivial

/-- A length element raises and waits before it copies, and appends its length (R343, R441). -/
theorem MayFail.lengthElement (h : MayFail s t) (base extra : Nat) :
    (lengthElement base extra t).failsIn s fun _ u => Grows (base + t.nextField extra) s u := by
  refine (h.distanceValue base extra).bind fun n u ⟨hn, hu⟩ => ?_
  subst hn
  refine (hu.findNextSymbol .d).bind fun d v hv => (hv.distanceOf d).bind fun dist w hw => ?_
  split
  · exact hw.raises (by decide)
  refine Res.noFail.failsIn (Res.noFail.bind (copyRun_sat dist _ w) fun _ x hx => ?_)
  refine Res.noFail.bind (histSlice_sat _ _ x) fun run y hy => ?_
  subst hy
  exact (hx.grows hw.keepsHistory).keeps (emit_keepsHistory run y)

/-- An operation that returns a value leaves it in `result` when it completes, and not before. -/
theorem Res.failsIn.value {r : Res Nat} (h : r.failsIn s fun _ t => MayFail s t) :
    (r.bind fun v t => .ok () (t.withResult v) : Res Unit).failsIn s fun _ t => KeepsHistory s t :=
  h.bind fun _ _ ht => ht.keepsHistory

end

/-! ## Every instruction -/

theorem Res.failsIn.stores {s : State} {r : Res Unit} (h : r.failsIn s fun _ t => KeepsHistory s t) (i : Instr) :
    r.failsIn s fun _ t => Stores i s t :=
  h.mono fun _ _ ht => ht.stores i

/-- What every instruction's operation has written where it raises or waits, and what it appends where it completes. -/
theorem exec_failsIn (i : Instr) {s : State} (hs : s.reader.ok) :
    ∃ r, exec i s = finish s r ∧ r.failsIn s fun _ t => Stores i s t := by
  have h := MayFail.refl hs
  cases i with
  | gzMagic => exact ⟨_, rfl, h.gzMagic.stores _⟩
  | gzCm => exact ⟨_, rfl, h.gzCm.stores _⟩
  | gzFlg => exact ⟨_, rfl, h.gzFlg.stores _⟩
  | gzMtime | gzXfl | gzFhcrc => exact ⟨_, rfl, (h.skipField _ _).stores _⟩
  | gzOs => exact ⟨_, rfl, h.gzOs.stores _⟩
  | gzFextra => exact ⟨_, rfl, h.gzFextra.mono fun _ _ ht => ht.keepsHistory.stores _⟩
  | gzFnameByte | gzFcommentByte => exact ⟨_, rfl, (h.stringByte _).stores _⟩
  | blkhdr => exact ⟨_, rfl, h.blkhdr.stores _⟩
  | blkStored => exact ⟨blkStored s, rfl, .ok ((setPhase_keepsHistory _ s).stores _)⟩
  | blkDynamic => exact ⟨blkDynamic s, rfl, .ok ((setPhase_keepsHistory _ s).stores _)⟩
  | blkFixed =>
    obtain ⟨t, ht, hk⟩ := blkFixed_keepsHistory s
    exact ⟨blkFixed s, rfl, by rw [ht]; exact .ok (hk.stores _)⟩
  | blkReserved | len286 | len287 => exact ⟨_, rfl, h.raises (by decide)⟩
  | storedHdr => exact ⟨_, rfl, h.storedHdr.stores _⟩
  | storedByte => exact ⟨_, rfl, h.storedByte.mono fun _ _ ht => ht.stores rfl rfl⟩
  | dynHdr => exact ⟨_, rfl, h.dynHdr.stores _⟩
  | clLenLit v => exact ⟨_, rfl, (h.appendLens v 1).stores _⟩
  | clRepeatPrev => exact ⟨_, rfl, h.clRepeatPrev.stores _⟩
  | clZeroShort | clZeroLong =>
    exact ⟨_, rfl, ((h.distanceValue _ _).bind fun r _ ⟨_, ht⟩ => ht.appendLens 0 r).stores _⟩
  | lit v =>
    have happ := (outAppend_copiesTo v s).grows h.keepsHistory
    exact ⟨litSymbol v s, rfl, .ok ((happ.keeps (emit_keepsHistory [v] _)).stores rfl rfl)⟩
  | eob => exact ⟨eobSymbol s, rfl, .ok ((blockEnd_keepsHistory s).stores _)⟩
  | len257 | len258 | len259 | len260 | len261 | len262 | len263 | len264 | len265 | len266 | len267 | len268 | len269
  | len270 | len271 | len272 | len273 | len274 | len275 | len276 | len277 | len278 | len279 | len280 | len281 | len282
  | len283 | len284 | len285 => exact ⟨_, rfl, (h.lengthElement _ _).mono fun _ _ ht => ht.stores rfl rfl⟩
  -- a read of no bits evaluates to its answer, so these four name their operation
  | dist0 => exact ⟨_, rfl, Res.failsIn.stores (Res.failsIn.value (r := dist0 s) (h.distance _ _)) _⟩
  | dist1 => exact ⟨_, rfl, Res.failsIn.stores (Res.failsIn.value (r := dist1 s) (h.distance _ _)) _⟩
  | dist2 => exact ⟨_, rfl, Res.failsIn.stores (Res.failsIn.value (r := dist2 s) (h.distance _ _)) _⟩
  | dist3 => exact ⟨_, rfl, Res.failsIn.stores (Res.failsIn.value (r := dist3 s) (h.distance _ _)) _⟩
  | dist4 | dist5 | dist6 | dist7 | dist8 | dist9 | dist10 | dist11 | dist12 | dist13
  | dist14 | dist15 | dist16 | dist17 | dist18 | dist19 | dist20 | dist21 | dist22 | dist23 | dist24 | dist25 | dist26
  | dist27 | dist28 | dist29 =>
    exact ⟨_, rfl, Res.failsIn.stores (Res.failsIn.value (h.distance _ _)) _⟩
  | dist30 | dist31 => exact ⟨_, rfl, h.raises (by decide)⟩
  | gzTrailer => exact ⟨_, rfl, h.gzTrailer.stores _⟩
  | rb n => exact ⟨_, rfl, (h.readBits n).value.stores _⟩
  | pb n => exact ⟨_, rfl, (h.peekBits n).value.stores _⟩
  | align => exact ⟨_, rfl, h.alignToByte.value.stores _⟩
  | bitpos => exact ⟨_, rfl, (Res.failsIn.value (r := .ok s.bitPos s) (.ok h)).stores _⟩
  | setmode m => exact ⟨_, rfl, (setMode_noFail m s).failsIn.stores _⟩
  | buildRanges t pairs => exact ⟨_, rfl, (buildFromRanges_noFail t pairs s).failsIn.stores _⟩
  | buildLengths t lens => exact ⟨_, rfl, (buildFromLengths_noFail t lens s).failsIn.stores _⟩
  | find t => exact ⟨_, rfl, (h.findNextSymbol t).value.stores _⟩
  | append v => exact ⟨_, rfl, .ok (a := ()) (((outAppend_copiesTo v s).grows h.keepsHistory).stores rfl rfl)⟩
  | copy dist n =>
    exact ⟨_, rfl, Res.noFail.failsIn (Res.noFail.mono (copyRun_sat dist n s) fun _ _ ht =>
      (ht.grows h.keepsHistory).stores rfl rfl)⟩

/-- A next state of the instruction `i` of `s`: what it leaves when it completes, or error entry or a wait with no more
written than R94 lets it. -/
inductive AnswerOf (i : Instr) (s : State) : State → Prop where
  | done {t : State} (h : Stores i s t) : AnswerOf i s t
  | raised {k : ErrKind} {q : Nat} {t : State} (h : RaisesPrecisely s k q t) : AnswerOf i s (errorEntry k q t)
  | waits {t : State} (h : MayFail s t) : AnswerOf i s (suspend s t)

theorem exec_answer {i : Instr} {s t : State} (hs : s.reader.ok) (h : exec i s = .next t) : AnswerOf i s t := by
  obtain ⟨r, hr, hf⟩ := exec_failsIn i hs
  rw [hr] at h
  exact finish_next (P := AnswerOf i s) h
    (Res.sat_mono hf (fun _ _ => .done) (fun _ _ _ => .raised) fun _ => .waits)

/-! ## Errors are precise (R94, R485, R486, R491) -/

/-- After error entry the sequencer is as it was but for PHASE and what R94 lets a failing element write. -/
theorem MayFail.errorEntry_seq {s t : State} (h : MayFail s t) (k : ErrKind) (q : Nat) :
    (errorEntry k q t).seq = { s.seq with
      phase := .error, bfinal := t.seq.bfinal, btype := t.seq.btype,
      hlit := t.seq.hlit, hdist := t.seq.hdist, hclen := t.seq.hclen, clLen := t.seq.clLen } := by
  simp only [Machine.errorEntry_seq, ← h.flg, ← h.storedRem, ← h.lens, ← h.lensN]

/-- Settles O44: of an instruction's three ways to a next state only error entry sets ERROR. -/
theorem errorsArePrecise : Obligations.ErrorsArePrecise := by
  unfold Obligations.ErrorsArePrecise
  intro i s t hs hclear h herr
  cases exec_answer hs h with
  | done hdone => rw [hdone.error, hclear] at herr; cases herr
  | waits hu => rw [suspend_ports, hu.ports, hclear] at herr; cases herr
  | @raised k q u hr =>
    obtain ⟨hk, rfl, hu⟩ := hr
    have hh := hu.sameHost
    exact ⟨rfl, hk, rfl, by rw [errorEntry_ports, hu.ports], hu.history, hu.tables, hu.result,
      hu.errorEntry_seq k u.bitPos, hu.mode, hu.forward, hu.events, hh.params, hh.input, hh.inputEnd, hh.host,
      hh.autoAccept, hh.accepted, hh.suspended⟩

/-! ## The history is append-only (R83, R440, R448) -/

/-- A raise and a wait store nothing. -/
theorem AnswerOf.stores {i : Instr} {s t : State} (h : AnswerOf i s t) : t.history = s.history ∨ Stores i s t := by
  cases h with
  | done h => exact .inr h
  | raised h => exact .inl h.2.2.history
  | waits h => exact .inl h.history

/-- Settles O60: an instruction leaves the history as it is, or appends what its operation stores. -/
theorem historyIsAppendOnly : Obligations.HistoryIsAppendOnly := by
  unfold Obligations.HistoryIsAppendOnly
  intro i s t hs h
  obtain hsame | hstores := (exec_answer hs h).stores
  · exact ⟨fun _ => hsame, .inl hsame, fun _ _ => by rw [hsame], fun hw => by rw [hsame]; exact hw⟩
  · exact ⟨hstores.none, hstores.count, hstores.reads, hstores.wf⟩

end Sys2Proof.Machine
end

section
/-! PROOFS. No byte is asked for ahead of need (R103, R170, R528): each operation that ends without running out of input
does the same with any other input that agrees on the bytes it has fetched by then. -/

namespace Sys2Proof.Machine

open Sys2Proof

/-! ## Operations with another input -/

/-- `t` has fetched bytes of the input of `s` behind those that `s` had fetched (R33). -/
def Fetches (s t : State) : Prop := t.input = s.input ∧ s.reader.nfetch ≤ t.reader.nfetch

/-- The bytes that `t` has fetched are the first ones of `bytes` too. -/
structure Agrees (bytes : List Byte) (t : State) : Prop where
  fetched : bytes.take t.reader.nfetch = t.input.take t.reader.nfetch
  inside : t.reader.nfetch ≤ t.input.length

/-- `r` is what an operation answers from `s`, and `r'` what it answers with `bytes` as its input: where `r` completes,
or raises another error than UnexpectedEof, having fetched no byte on which the inputs differ, `r'` is the same. -/
structure Res.follows {α : Type} (bytes : List Byte) (ended : Bool) (s : State) (r r' : Res α) : Prop where
  sat : r.sat (fun a t => Fetches s t ∧ (Agrees bytes t → r' = .ok a (t.withInput bytes ended)))
    (fun k q t => Fetches s t ∧ (k ≠ .unexpectedEof → Agrees bytes t → r' = .raise k q (t.withInput bytes ended)))
    (fun _ => True)

theorem Fetches.input {s t : State} (h : Fetches s t) : t.input = s.input := h.1

theorem Fetches.nfetch {s t : State} (h : Fetches s t) : s.reader.nfetch ≤ t.reader.nfetch := h.2

theorem Fetches.refl (s : State) : Fetches s s := ⟨rfl, Nat.le_refl _⟩

theorem Fetches.withReader (s : State) {r : Reader} (h : s.reader.nfetch ≤ r.nfetch) : Fetches s (s.withReader r) :=
  ⟨rfl, h⟩

theorem Fetches.trans {s t u : State} (h : Fetches s t) (h' : Fetches t u) : Fetches s u :=
  ⟨h'.input.trans h.input, Nat.le_trans h.nfetch h'.nfetch⟩

/-- Inputs that agree on the bytes fetched later agree on those fetched before. -/
theorem Fetches.agrees {bytes : List Byte} {s t : State} (h : Fetches s t) (ha : Agrees bytes t) : Agrees bytes s where
  fetched := by
    have hf := congrArg (List.take s.reader.nfetch) ha.fetched
    rwa [List.take_take, List.take_take, Nat.min_eq_left h.nfetch, h.input] at hf
  inside := by
    have hi := ha.inside
    rw [h.input] at hi
    exact Nat.le_trans h.nfetch hi

section
variable {α β : Type} {bytes : List Byte} {ended : Bool} {s t : State}

theorem Res.follows.ok (h : Fetches s t) (a : α) :
    (Res.ok a t).follows bytes ended s (.ok a (t.withInput bytes ended)) := ⟨⟨h, fun _ => rfl⟩⟩

theorem Res.follows.raise (h : Fetches s t) (k : ErrKind) (q : Nat) :
    (Res.raise k q t : Res α).follows bytes ended s (.raise k q (t.withInput bytes ended)) := ⟨⟨h, fun _ _ => rfl⟩⟩

theorem Res.follows.unexpectedEof (h : Fetches s t) (q : Nat) {r' : Res α} :
    (Res.raise .unexpectedEof q t : Res α).follows bytes ended s r' := ⟨⟨h, fun hk => absurd rfl hk⟩⟩

theorem Res.follows.wait {r' : Res α} : (Res.wait t : Res α).follows bytes ended s r' := ⟨trivial⟩

theorem Res.follows.fault {e : Fault} {r' : Res α} : (Res.fault e).follows bytes ended s r' := ⟨trivial⟩

theorem Res.follows.refused {e : Refusal} {r' : Res α} : (Res.refused e).follows bytes ended s r' := ⟨trivial⟩

theorem Res.follows.raiseHere (k : ErrKind) :
    (raiseHere k s : Res α).follows bytes ended s (raiseHere k (s.withInput bytes ended)) :=
  .raise (.refl s) k s.bitPos

/-- What runs on from `t` is reached only with inputs that agree on the bytes fetched by then. -/
theorem Res.follows.of_agrees {r r' r'' : Res α} (h : Fetches s t) (hr : r.follows bytes ended t r')
    (he : Agrees bytes t → r'' = r') : r.follows bytes ended s r'' :=
  ⟨Res.sat_mono hr.sat (fun _ _ ⟨hf, hd⟩ => ⟨h.trans hf, fun ha => (he (hf.agrees ha)).trans (hd ha)⟩)
    (fun _ _ _ ⟨hf, hd⟩ => ⟨h.trans hf, fun hk ha => (he (hf.agrees ha)).trans (hd hk ha)⟩) fun _ h => h⟩

/-- An operation is seen from the state before a fetch as from the state behind it. -/
theorem Res.follows.of_fetches {r r' : Res α} (h : Fetches s t) (hr : r.follows bytes ended t r') :
    r.follows bytes ended s r' :=
  .of_agrees h hr fun _ => rfl

/-- A test that does not look at the input takes the same branch. -/
theorem Res.follows.ite {c c' : Prop} [Decidable c] [Decidable c'] {r₁ r₂ r₁' r₂' : Res α} (hc : c ↔ c')
    (h₁ : r₁.follows bytes ended s r₁') (h₂ : r₂.follows bytes ended s r₂') :
    (if c then r₁ else r₂).follows bytes ended s (if c' then r₁' else r₂') := by
  by_cases h : c
  · rw [if_pos h, if_pos (hc.mp h)]; exact h₁
  · rw [if_neg h, if_neg (fun h' => h (hc.mpr h'))]; exact h₂

/-- Operations in sequence: the later one has fetched all bytes that the earlier one has. -/
theorem Res.follows.bind {r r' : Res α} {f : α → State → Res β} (h : r.follows bytes ended s r')
    (hf : ∀ a t, (f a t).follows bytes ended t (f a (t.withInput bytes ended))) :
    (r.bind f).follows bytes ended s (r'.bind f) := by
  cases r with
  | ok a t =>
    obtain ⟨hst, hr'⟩ := h.sat
    exact .of_agrees hst (hf a t) fun ha => by rw [hr' ha]; rfl
  | raise k q t =>
    obtain ⟨hst, hr'⟩ := h.sat
    exact ⟨hst, fun hk ha => by rw [hr' hk ha]; rfl⟩
  | wait t => exact .wait
  | fault e => exact .fault
  | refused e => exact .refused

end

/-! ## The reader (R164 to R167) -/

section
variable {bytes : List Byte} {ended : Bool} (s : State)

/-- A byte that has been fetched stands in every input that agrees. -/
theorem Agrees.getElem? {bytes : List Byte} {t : State} (h : Agrees bytes t) {n : Nat} (hn : n < t.reader.nfetch) :
    bytes[n]? = t.input[n]? := by
  rw [← List.getElem?_take_of_lt hn, h.fetched, List.getElem?_take_of_lt hn]

theorem inByte_of_some {s : State} {b : Byte} (hb : s.input[s.reader.nfetch]? = some b) :
    inByte s = some (some b) := by
  simp only [inByte, hb]

theorem inByte_of_none {s : State} (hb : s.input[s.reader.nfetch]? = none) :
    inByte s = if s.inputEnd then some none else none := by
  simp only [inByte, hb]

/-- An input that agrees on the byte a request fetches gives the same answer to it. -/
theorem inByte_of_agrees {b : Byte} (hb : s.input[s.reader.nfetch]? = some b)
    (ha : Agrees bytes (s.withReader (s.reader.takeByte b))) : inByte (s.withInput bytes ended) = some (some b) :=
  inByte_of_some ((ha.getElem? (Nat.lt_succ_self s.reader.nfetch)).trans hb)

theorem refillLoop_follows (fuel n p0 : Nat) :
    (refillLoop fuel n p0 s).follows bytes ended s (refillLoop fuel n p0 (s.withInput bytes ended)) := by
  induction fuel generalizing s with
  | zero => exact .ok (.refl s) ()
  | succ fuel ih =>
    rw [refillLoop, refillLoop]
    refine .ite Iff.rfl ?_ (.ok (.refl s) ())
    cases hb : s.input[s.reader.nfetch]? with
    | some b =>
      have hstep : Fetches s (s.withReader (s.reader.takeByte b)) := .withReader s (Nat.le_succ _)
      rw [inByte_of_some hb]
      exact .of_agrees hstep (ih _) fun ha => by rw [inByte_of_agrees s hb ha]; rfl
    | none =>
      rw [inByte_of_none hb]
      cases s.inputEnd
      · exact .wait
      · exact .unexpectedEof (Fetches.withReader s (r := { s.reader with inWait := false }) (Nat.le_refl _)) p0

theorem readBits_follows (n : Nat) :
    (readBits n s).follows bytes ended s (readBits n (s.withInput bytes ended)) := by
  unfold readBits
  refine .ite Iff.rfl .refused ?_
  exact (refillLoop_follows s n n s.bitPos).bind fun _ t =>
      .ok (Fetches.withReader t (r := t.reader.drop n) (Nat.le_refl _)) _

theorem peekBits_follows (n : Nat) :
    (peekBits n s).follows bytes ended s (peekBits n (s.withInput bytes ended)) := by
  unfold peekBits
  refine .ite Iff.rfl .refused ?_
  exact (refillLoop_follows s n n s.bitPos).bind fun _ t => .ok (.refl t) _

theorem alignToByte_follows : (alignToByte s).follows bytes ended s (alignToByte (s.withInput bytes ended)) :=
  (readBits_follows s _).bind fun _ t => .ok (.refl t) _

theorem setMode_follows (m : BitOrder) :
    (setMode m s).follows bytes ended s (setMode m (s.withInput bytes ended)) := by
  unfold setMode
  refine .ite Iff.rfl ?_ .refused
  exact .ok (Fetches.withReader s (r := { s.reader with mode := m, acc := 0 }) (Nat.le_refl _)) ()

/-! ## Diagnostics, tables and the history: nothing of the input -/

theorem fetches_setPhase (p : Phase) : Fetches s (s.setPhase p) := .refl s

theorem fetches_withSeq (q : Sequencer) : Fetches s (s.withSeq q) := .refl s

theorem fetches_withTables (t : Tables) : Fetches s (s.withTables t) := .refl s

theorem fetches_emit (c : List Byte) : Fetches s (emit c s) := .refl s

theorem fetches_complete (crc isize : Nat) : Fetches s (complete crc isize s) := .refl s

theorem fetches_withResult (v : Nat) : Fetches s (s.withResult v) := .refl s

@[simp] theorem State.withInput_seq (bytes : List Byte) (ended : Bool) : (s.withInput bytes ended).seq = s.seq := rfl

theorem withSeq_withInput (q : Sequencer) :
    (s.withInput bytes ended).withSeq q = (s.withSeq q).withInput bytes ended := rfl

theorem withTables_withInput (t : Tables) :
    (s.withInput bytes ended).withTables t = (s.withTables t).withInput bytes ended := rfl

theorem sendDiag_withInput (k : DiagKind) :
    sendDiag k (s.withInput bytes ended) = (sendDiag k s).withInput bytes ended := by
  unfold sendDiag
  split
  · rw [if_pos (by assumption)]; rfl
  · rw [if_neg (by assumption)]

theorem fetches_sendDiag (k : DiagKind) : Fetches s (sendDiag k s) :=
  ⟨sendDiag_input k s, Nat.le_of_eq (congrArg Reader.nfetch (sendDiag_reader k s).symm)⟩

theorem blockEnd_withInput : blockEnd (s.withInput bytes ended) = (blockEnd s).withInput bytes ended := by
  rw [blockEnd_eq, blockEnd_eq, sendDiag_withInput]; rfl

theorem fetches_blockEnd : Fetches s (blockEnd s) := fetches_sendDiag s .blockEnd

theorem buildFromLengths_follows (id : TableId) (lens : List Nat) :
    (buildFromLengths id lens s).follows bytes ended s (buildFromLengths id lens (s.withInput bytes ended)) := by
  unfold buildFromLengths
  refine .ite Iff.rfl ?_ .refused
  rw [withTables_withInput, sendDiag_withInput]
  exact .ok ((fetches_withTables s _).trans (fetches_sendDiag _ _)) ()

theorem buildFromRanges_follows (id : TableId) (pairs : List (Nat × Int)) :
    (buildFromRanges id pairs s).follows bytes ended s (buildFromRanges id pairs (s.withInput bytes ended)) := by
  unfold buildFromRanges
  exact .ite Iff.rfl (buildFromLengths_follows s id _) .refused

theorem memRead_follows (a : Nat) : (memRead a s).follows bytes ended s (memRead a (s.withInput bytes ended)) := by
  cases hv : s.history.hist.read a with
  | some v =>
    rw [memRead_eq hv, memRead_eq (s := s.withInput bytes ended) hv]
    exact .ok (.refl s) v
  | none =>
    unfold memRead
    rw [hv]
    exact .fault

theorem fetches_outAppend (v : Byte) : Fetches s (outAppend v s) := ⟨rfl, Nat.le_refl _⟩

theorem outAppend_withInput (v : Byte) :
    outAppend v (s.withInput bytes ended) = (outAppend v s).withInput bytes ended := rfl

theorem copyLoop_follows (dist n : Nat) :
    (copyLoop dist n s).follows bytes ended s (copyLoop dist n (s.withInput bytes ended)) := by
  induction n generalizing s with
  | zero => exact .ok (.refl s) ()
  | succ n ih =>
    exact (memRead_follows s _).bind fun v t => .of_fetches (fetches_outAppend t v) (ih (outAppend v t))

theorem copyRun_follows (dist n : Nat) :
    (copyRun dist n s).follows bytes ended s (copyRun dist n (s.withInput bytes ended)) := by
  unfold copyRun
  exact .ite Iff.rfl .refused (copyLoop_follows s dist n)

theorem histSlice_follows (p n : Nat) :
    (histSlice p n s).follows bytes ended s (histSlice p n (s.withInput bytes ended)) := by
  induction n generalizing p s with
  | zero => exact .ok (.refl s) []
  | succ n ih =>
    exact (memRead_follows s _).bind fun v t => (ih t (p + 1)).bind fun _ u => .ok (.refl u) _

/-! ## The symbol match (R210) -/

theorem cachedPeek_follows (cache : Option (Nat × Nat)) (n : Nat) :
    (cachedPeek cache n s).follows bytes ended s (cachedPeek cache n (s.withInput bytes ended)) := by
  unfold cachedPeek
  split
  · split
    · exact .ok (.refl s) _
    · exact peekBits_follows s n
  · exact peekBits_follows s n

theorem findLoop_follows (p0 : Nat) (es : List Entry) (cache : Option (Nat × Nat)) :
    (findLoop p0 es cache s).follows bytes ended s (findLoop p0 es cache (s.withInput bytes ended)) := by
  induction es generalizing cache s with
  | nil => exact .raise (.refl s) .symbolNotFound p0
  | cons e es ih =>
    refine (cachedPeek_follows s cache e.bits).bind fun cv t => ?_
    split
    · refine (readBits_follows t e.bits).bind fun _ u => ?_
      rw [sendDiag_withInput]
      exact .ok (fetches_sendDiag u _) _
    · exact ih t _

theorem findNextSymbol_follows (id : TableId) :
    (findNextSymbol id s).follows bytes ended s (findNextSymbol id (s.withInput bytes ended)) := by
  unfold findNextSymbol
  exact .ite Iff.rfl (.raiseHere _) (findLoop_follows s _ _ _)

/-! ## The elements -/

/-- A base plus extra bits: a distance (R375), and in the same words a length (R343) and a repeat count (R305). -/
theorem distanceValue_follows (base extra : Nat) :
    (distanceValue base extra s).follows bytes ended s (distanceValue base extra (s.withInput bytes ended)) :=
  (readBits_follows s extra).bind fun _ t => .ok (.refl t) _

theorem distanceOf_follows (d : Nat) :
    (distanceOf d s).follows bytes ended s (distanceOf d (s.withInput bytes ended)) := by
  by_cases hd : d ≤ 29
  · rw [distanceOf_eq d hd, distanceOf_eq d hd]
    exact distanceValue_follows s _ _
  by_cases hd' : d ≤ 31
  · obtain rfl | rfl : d = 30 ∨ d = 31 := by omega
    · exact .raiseHere _
    · exact .raiseHere _
  · unfold distanceOf
    split <;> first | omega | exact .refused

theorem lengthElement_follows (base extra : Nat) :
    (lengthElement base extra s).follows bytes ended s (lengthElement base extra (s.withInput bytes ended)) := by
  refine (distanceValue_follows s base extra).bind fun n t => ?_
  refine (findNextSymbol_follows t .d).bind fun d u => ?_
  refine (distanceOf_follows u d).bind fun dist v => ?_
  refine .ite Iff.rfl (.raiseHere _) ?_
  refine (copyRun_follows v dist n).bind fun _ w => ?_
  exact (histSlice_follows w _ n).bind fun run x => .ok (fetches_emit x run) ()

theorem skipField_follows (n : Nat) (p : Phase) :
    (skipField n p s).follows bytes ended s (skipField n p (s.withInput bytes ended)) :=
  (readBits_follows s n).bind fun _ t => .ok (fetches_setPhase t p) ()

theorem stringByte_follows (p : Phase) :
    (stringByte p s).follows bytes ended s (stringByte p (s.withInput bytes ended)) := by
  refine (readBits_follows s 8).bind fun b t => ?_
  split
  · exact .ok (fetches_setPhase t _) ()
  · exact .ok (.refl t) ()

theorem gzMagic_follows : (gzMagic s).follows bytes ended s (gzMagic (s.withInput bytes ended)) := by
  refine (readBits_follows s 16).bind fun v t => ?_
  exact .ite Iff.rfl (.raiseHere _) <|
    (setMode_follows t .lsb).bind fun _ u => .ok (fetches_setPhase u .cm) ()

theorem gzCm_follows : (gzCm s).follows bytes ended s (gzCm (s.withInput bytes ended)) := by
  refine (readBits_follows s 8).bind fun v t => ?_
  exact .ite Iff.rfl (.raiseHere _) (.ok (fetches_setPhase t .flg) ())

theorem gzFlg_follows : (gzFlg s).follows bytes ended s (gzFlg (s.withInput bytes ended)) :=
  (readBits_follows s 8).bind fun v t =>
    .ok (fetches_withSeq t { t.seq with flg := BitVec.ofNat 8 v, phase := .mtime }) ()

theorem gzFextra_follows : (gzFextra s).follows bytes ended s (gzFextra (s.withInput bytes ended)) := by
  unfold gzFextra
  exact .ite Iff.rfl (.raiseHere _) (.ok (.refl s) ())

theorem gzOs_follows : (gzOs s).follows bytes ended s (gzOs (s.withInput bytes ended)) :=
  (readBits_follows s 8).bind fun _ t =>
    (gzFextra_follows t).bind fun _ u => .ok (fetches_setPhase u _) ()

theorem gzTrailer_follows : (gzTrailer s).follows bytes ended s (gzTrailer (s.withInput bytes ended)) :=
  (alignToByte_follows s).bind fun _ t => (readBits_follows t 32).bind fun crc u =>
    (readBits_follows u 32).bind fun isize v => .ok (fetches_complete v crc isize) ()

theorem blkFixed_follows : (blkFixed s).follows bytes ended s (blkFixed (s.withInput bytes ended)) :=
  Res.follows.bind (buildFromRanges_follows s .ll fixedLL) fun _ t =>
    (buildFromRanges_follows t .d fixedD).bind fun _ u => .ok (fetches_setPhase u .symbol) ()

theorem blkhdr_follows : (blkhdr s).follows bytes ended s (blkhdr (s.withInput bytes ended)) := by
  unfold blkhdr
  rw [sendDiag_withInput]
  refine .of_fetches (fetches_sendDiag s .blockStart) ?_
  generalize sendDiag .blockStart s = s'
  refine (readBits_follows s' 1).bind fun f t => (readBits_follows t 2).bind fun ty u => ?_
  refine .of_fetches (fetches_withSeq u { u.seq with bfinal := f == 1, btype := BitVec.ofNat 2 ty }) ?_
  dsimp only
  rw [withSeq_withInput]
  dsimp only [State.withInput_seq]
  generalize u.withSeq _ = v
  split
  · exact .ok (fetches_setPhase v .storedHdr) ()
  · exact blkFixed_follows v
  · exact .ok (fetches_setPhase v .dynHdr) ()
  · exact .raiseHere _

theorem storedHdr_follows : (storedHdr s).follows bytes ended s (storedHdr (s.withInput bytes ended)) := by
  refine (alignToByte_follows s).bind fun _ t => (readBits_follows t 16).bind fun len u => ?_
  refine (readBits_follows u 16).bind fun nlen v => ?_
  refine .ite Iff.rfl ?_ (.raiseHere _)
  dsimp only
  split
  · rw [withSeq_withInput, blockEnd_withInput]
    exact .ok ((fetches_withSeq v _).trans (fetches_blockEnd _)) ()
  · exact .ok (fetches_withSeq v { v.seq with storedRem := BitVec.ofNat 16 len, phase := .storedData }) ()

theorem fetches_countStored : Fetches s (countStored s) := by
  unfold countStored
  split
  · exact fetches_blockEnd (s.withSeq _)
  · exact fetches_withSeq s _

theorem countStored_withInput : countStored (s.withInput bytes ended) = (countStored s).withInput bytes ended := by
  unfold countStored
  rw [withSeq_withInput, blockEnd_withInput]
  exact (apply_ite (State.withInput · bytes ended) _ _ _).symm

theorem storedByte_follows : (storedByte s).follows bytes ended s (storedByte (s.withInput bytes ended)) := by
  rw [storedByte_eq, storedByte_eq]
  refine (readBits_follows s 8).bind fun b t => ?_
  rw [outAppend_withInput, countStored_withInput]
  exact .of_fetches (fetches_outAppend t _) (.ok ((fetches_countStored _).trans (fetches_emit _ _)) ())

/-- The loop of `CodeLengthLengths` (R302). -/
theorem readClLens_follows (slots : List Nat) :
    (readClLens slots s).follows bytes ended s (readClLens slots (s.withInput bytes ended)) := by
  induction slots generalizing s with
  | nil => exact .ok (.refl s) ()
  | cons slot slots ih =>
    refine (readBits_follows s 3).bind fun v t => ?_
    exact .of_fetches (fetches_withSeq t _) (ih (t.withSeq _))

theorem codeLengthLengths_follows :
    (codeLengthLengths s).follows bytes ended s (codeLengthLengths (s.withInput bytes ended)) := by
  refine Res.follows.bind ?_ fun _ t => buildFromLengths_follows t .cl _
  exact .of_fetches (fetches_withSeq s _) (readClLens_follows (s.withSeq _) _)

theorem dynHdr_follows : (dynHdr s).follows bytes ended s (dynHdr (s.withInput bytes ended)) := by
  refine (readBits_follows s 5).bind fun a t => ?_
  refine Res.follows.bind (.of_fetches (fetches_withSeq t _) (readBits_follows (t.withSeq _) 5)) fun b u => ?_
  refine Res.follows.bind (.of_fetches (fetches_withSeq u _) (readBits_follows (u.withSeq _) 4)) fun c v => ?_
  refine Res.follows.bind (.of_fetches (fetches_withSeq v _) (codeLengthLengths_follows (v.withSeq _))) fun _ w => ?_
  exact .ok (fetches_withSeq w { w.seq with lensN := 0, phase := .dynLens }) ()

theorem lensComplete_follows : (lensComplete s).follows bytes ended s (lensComplete (s.withInput bytes ended)) :=
  (buildFromLengths_follows s .ll _).bind fun _ t =>
    (buildFromLengths_follows t .d _).bind fun _ u => .ok (fetches_setPhase u .symbol) ()

theorem appendLens_follows (v : BitVec 4) (r : Nat) :
    (appendLens v r s).follows bytes ended s (appendLens v r (s.withInput bytes ended)) := by
  unfold appendLens
  refine .ite Iff.rfl (.raiseHere _) (.ite Iff.rfl .fault ?_)
  refine .of_fetches (fetches_withSeq s
    { s.seq with lens := fillLens s.seq.lens v s.seq.lensN r, lensN := s.seq.lensN + r }) ?_
  exact .ite Iff.rfl (lensComplete_follows (s.withSeq _)) (.ok (.refl (s.withSeq _)) ())

theorem clRepeatPrev_follows : (clRepeatPrev s).follows bytes ended s (clRepeatPrev (s.withInput bytes ended)) := by
  unfold clRepeatPrev
  refine .ite Iff.rfl (.raiseHere _) ?_
  refine (distanceValue_follows s 3 2).bind fun r t => ?_
  dsimp only [State.withInput_seq]
  split
  · exact appendLens_follows t _ r
  · exact .fault

/-- An operation that returns a value leaves it in `result`, whatever the input. -/
theorem Res.follows.value {bytes : List Byte} {ended : Bool} {s : State} {r r' : Res Nat}
    (h : r.follows bytes ended s r') :
    (r.bind fun v t => .ok () (t.withResult v) : Res Unit).follows bytes ended s
      (r'.bind fun v t => .ok () (t.withResult v)) :=
  h.bind fun v t => .ok (fetches_withResult t v) ()

end

/-! ## Every instruction -/

/-- Every instruction's operation follows with any other input. -/
theorem exec_follows (i : Instr) : ∃ op : State → Res Unit, (∀ s, exec i s = finish s (op s)) ∧
    ∀ bytes ended s, (op s).follows bytes ended s (op (s.withInput bytes ended)) := by
  cases i with
  | gzMagic => exact ⟨_, fun _ => rfl, fun _ _ s => gzMagic_follows s⟩
  | gzCm => exact ⟨_, fun _ => rfl, fun _ _ s => gzCm_follows s⟩
  | gzFlg => exact ⟨_, fun _ => rfl, fun _ _ s => gzFlg_follows s⟩
  | gzMtime | gzXfl | gzFhcrc => exact ⟨_, fun _ => rfl, fun _ _ s => skipField_follows s _ _⟩
  | gzOs => exact ⟨_, fun _ => rfl, fun _ _ s => gzOs_follows s⟩
  | gzFextra => exact ⟨_, fun _ => rfl, fun _ _ s => gzFextra_follows s⟩
  | gzFnameByte | gzFcommentByte => exact ⟨_, fun _ => rfl, fun _ _ s => stringByte_follows s _⟩
  | blkhdr => exact ⟨_, fun _ => rfl, fun _ _ s => blkhdr_follows s⟩
  | blkStored => exact ⟨blkStored, fun _ => rfl, fun _ _ s => .ok (fetches_setPhase s _) ()⟩
  | blkFixed => exact ⟨blkFixed, fun _ => rfl, fun _ _ s => blkFixed_follows s⟩
  | blkDynamic => exact ⟨blkDynamic, fun _ => rfl, fun _ _ s => .ok (fetches_setPhase s _) ()⟩
  | blkReserved | len286 | len287 => exact ⟨_, fun _ => rfl, fun _ _ _ => .raiseHere _⟩
  | storedHdr => exact ⟨_, fun _ => rfl, fun _ _ s => storedHdr_follows s⟩
  | storedByte => exact ⟨_, fun _ => rfl, fun _ _ s => storedByte_follows s⟩
  | dynHdr => exact ⟨_, fun _ => rfl, fun _ _ s => dynHdr_follows s⟩
  | clLenLit v => exact ⟨_, fun _ => rfl, fun _ _ s => appendLens_follows s v 1⟩
  | clRepeatPrev => exact ⟨_, fun _ => rfl, fun _ _ s => clRepeatPrev_follows s⟩
  | clZeroShort | clZeroLong =>
    exact ⟨_, fun _ => rfl, fun _ _ s => (distanceValue_follows s _ _).bind fun r t =>
      appendLens_follows t 0 r⟩
  | lit v => exact ⟨litSymbol v, fun _ => rfl, fun _ _ s =>
      .of_fetches (fetches_outAppend s v) (.ok (fetches_emit (outAppend v s) [v]) ())⟩
  | eob =>
    refine ⟨eobSymbol, fun _ => rfl, fun _ _ s => ?_⟩
    rw [eobSymbol, eobSymbol, blockEnd_withInput]
    exact .ok (fetches_blockEnd s) ()
  | len257 | len258 | len259 | len260 | len261 | len262 | len263 | len264 | len265 | len266 | len267 | len268 | len269
  | len270 | len271 | len272 | len273 | len274 | len275 | len276 | len277 | len278 | len279 | len280 | len281 | len282
  | len283 | len284 | len285 => exact ⟨_, fun _ => rfl, fun _ _ s => lengthElement_follows s _ _⟩
  -- a read of no bits evaluates to its answer, so these four name their operation
  | dist0 => exact ⟨_, fun _ => rfl, fun _ _ s =>
      Res.follows.value (r := dist0 s) (distanceValue_follows s _ _)⟩
  | dist1 => exact ⟨_, fun _ => rfl, fun _ _ s =>
      Res.follows.value (r := dist1 s) (distanceValue_follows s _ _)⟩
  | dist2 => exact ⟨_, fun _ => rfl, fun _ _ s =>
      Res.follows.value (r := dist2 s) (distanceValue_follows s _ _)⟩
  | dist3 => exact ⟨_, fun _ => rfl, fun _ _ s =>
      Res.follows.value (r := dist3 s) (distanceValue_follows s _ _)⟩
  | dist4 | dist5 | dist6 | dist7 | dist8 | dist9 | dist10 | dist11 | dist12 | dist13
  | dist14 | dist15 | dist16 | dist17 | dist18 | dist19 | dist20 | dist21 | dist22 | dist23 | dist24 | dist25 | dist26
  | dist27 | dist28 | dist29 =>
    exact ⟨_, fun _ => rfl, fun _ _ s => (distanceValue_follows s _ _).value⟩
  | dist30 | dist31 => exact ⟨_, fun _ => rfl, fun _ _ _ => (Res.follows.raiseHere _).value⟩
  | gzTrailer => exact ⟨_, fun _ => rfl, fun _ _ s => gzTrailer_follows s⟩
  | rb n => exact ⟨_, fun _ => rfl, fun _ _ s => (readBits_follows s n).value⟩
  | pb n => exact ⟨_, fun _ => rfl, fun _ _ s => (peekBits_follows s n).value⟩
  | align => exact ⟨_, fun _ => rfl, fun _ _ s => (alignToByte_follows s).value⟩
  | bitpos => exact ⟨_, fun _ => rfl, fun _ _ s => (Res.follows.ok (.refl s) s.bitPos).value⟩
  | setmode m => exact ⟨_, fun _ => rfl, fun _ _ s => setMode_follows s m⟩
  | buildRanges t pairs => exact ⟨_, fun _ => rfl, fun _ _ s => buildFromRanges_follows s t pairs⟩
  | buildLengths t lens => exact ⟨_, fun _ => rfl, fun _ _ s => buildFromLengths_follows s t lens⟩
  | find t => exact ⟨_, fun _ => rfl, fun _ _ s => (findNextSymbol_follows s t).value⟩
  | append v => exact ⟨_, fun _ => rfl, fun _ _ s => .ok (fetches_outAppend s v) ()⟩
  | copy dist n => exact ⟨_, fun _ => rfl, fun _ _ s => copyRun_follows s dist n⟩

/-- An operation that completes, or raises another error than UnexpectedEof, ends its instruction with the other input
as it does with the first. -/
theorem Res.follows.finish_eq {bytes : List Byte} {ended : Bool} {s t : State} {r r' : Res Unit}
    (hr : r.follows bytes ended s r') (h : finish s r = .next t) (hn : t.suspended = none)
    (hk : t.ports.errKind ≠ .unexpectedEof) (hf : bytes.take t.reader.nfetch = s.input.take t.reader.nfetch)
    (hl : t.reader.nfetch ≤ s.input.length) :
    finish (s.withInput bytes ended) r' = .next (t.withInput bytes ended) := by
  cases r with
  | ok a u =>
    obtain ⟨hu, hr⟩ := hr.sat
    obtain rfl : u = t := by injection h
    rw [← hu.input] at hf hl
    rw [hr ⟨hf, hl⟩]; rfl
  | raise k q u =>
    obtain ⟨hu, hr⟩ := hr.sat
    obtain rfl : errorEntry k q u = t := by injection h
    rw [← hu.input] at hf hl
    rw [hr hk ⟨hf, hl⟩]; rfl
  | wait u =>
    obtain rfl : suspend s u = t := by injection h
    cases hn
  | fault e => cases h
  | refused e => cases h

/-- Settles O57: by the walk through each instruction's operations with both inputs. -/
theorem outcomeNeedsOnlyFetchedBytes : Obligations.OutcomeNeedsOnlyFetchedBytes := by
  unfold Obligations.OutcomeNeedsOnlyFetchedBytes
  intro i s t bytes ended h hn hk hf hl
  obtain ⟨op, hop, hfollows⟩ := exec_follows i
  rw [hop] at h ⊢
  exact (hfollows bytes ended s).finish_eq h hn hk hf hl

end Sys2Proof.Machine
end

section
/-! PROOFS. The decoder and the encoder against each other (R115, R119, R120, R126, R127, R133), the words written out
from the spec, and the fixed codes (R123, R124). -/

namespace Sys2Proof.Machine

open Sys2Proof Sys2Proof.Laws

/-! ## Encoded, then decoded -/

/-- Settles O2: a symbol that is an argument is its own value; every other row's value is decoded as it stands. -/
theorem decodeOfEncode : Obligations.DecodeOfEncode := by
  unfold Obligations.DecodeOfEncode
  intro i slot v hwf he
  cases i with
  | clLenLit s => exact RoundTrip.clLenLit s hwf slot v he
  | lit s => exact RoundTrip.lit s hwf slot v he
  | rb | pb | align | bitpos | setmode | buildRanges | buildLengths | find | append | copy => cases he
  | _ => cases he; rfl

/-- Settles O1: each word by evaluation of the decoder. -/
theorem specWordsDecode : Obligations.SpecWordsDecode := by
  unfold Obligations.SpecWordsDecode
  decide

/-! ## Decoded, then encoded -/

theorem decode_codeLength_ok_iff {v : Nat} : (∃ i, decode .codeLength v = .ok i) ↔ v ≤ 18 := by
  constructor
  · rintro ⟨i, h⟩
    by_contra hv
    obtain ⟨k, rfl⟩ : ∃ k, v = k + 19 := ⟨v - 19, by omega⟩
    simp [decode, decodeCodeLength] at h
  · intro hv
    by_cases h15 : v ≤ 15
    · exact ⟨_, if_pos h15⟩
    · interval_cases v <;> exact ⟨_, rfl⟩

theorem decode_litLen_ok_iff {v : Nat} : (∃ i, decode .litLen v = .ok i) ↔ v ≤ 287 := by
  constructor
  · rintro ⟨i, h⟩
    by_contra hv
    obtain ⟨k, rfl⟩ : ∃ k, v = k + 288 := ⟨v - 288, by omega⟩
    simp [decode, decodeLitLen] at h
  · exact fun hv => decode_litLen_ok (by omega)

theorem decode_distance_ok_iff {v : Nat} : (∃ i, decode .distance v = .ok i) ↔ v ≤ 31 := by
  constructor
  · rintro ⟨i, h⟩
    by_contra hv
    obtain ⟨k, rfl⟩ : ∃ k, v = k + 32 := ⟨v - 32, by omega⟩
    cases h
  · intro hv
    interval_cases v <;> exact ⟨_, rfl⟩

theorem decode_header_ok_iff {v : Nat} : (∃ i, decode .header v = .ok i) ↔ v < 8 := by
  constructor
  · rintro ⟨i, h⟩
    by_contra hv
    rw [decode, decodeHeader, if_pos (by omega)] at h
    cases h
  · intro hv
    interval_cases v <;> exact ⟨_, rfl⟩

theorem encode_of_decode_codeLength {v : Nat} {i : Instr} (h : decode .codeLength v = .ok i) :
    encode i = some (.codeLength, v) := by
  have hv : v ≤ 18 := decode_codeLength_ok_iff.mp ⟨i, h⟩
  interval_cases v <;> (cases h; rfl)

theorem decode_litLen_literal {v : Nat} (hv : v ≤ 255) : decode .litLen v = .ok (.lit (BitVec.ofNat 8 v)) := if_pos hv

theorem encode_of_decode_litLen {v : Nat} {i : Instr} (h : decode .litLen v = .ok i) :
    encode i = some (.litLen, v) := by
  have hv : v ≤ 287 := decode_litLen_ok_iff.mp ⟨i, h⟩
  by_cases h255 : v ≤ 255
  · rw [decode_litLen_literal h255] at h
    cases h
    simp [encode, Nat.mod_eq_of_lt (show v < 256 by omega)]
  · interval_cases v <;> (cases h; rfl)

theorem encode_of_decode_distance {v : Nat} {i : Instr} (h : decode .distance v = .ok i) :
    encode i = some (.distance, v) := by
  have hv : v ≤ 31 := decode_distance_ok_iff.mp ⟨i, h⟩
  interval_cases v <;> (cases h; rfl)

/-- Settles O3: each alphabet's values that decode are found first; within them each is its instruction's own. -/
theorem encodeOfDecode : Obligations.EncodeOfDecode := by
  unfold Obligations.EncodeOfDecode
  refine ⟨fun _ _ => encode_of_decode_codeLength, fun _ _ => encode_of_decode_litLen,
    fun _ _ => encode_of_decode_distance, fun _ => decode_codeLength_ok_iff, fun _ => decode_litLen_ok_iff,
    fun _ => decode_distance_ok_iff, fun _ => decode_header_ok_iff, fun f t hf ht => ?_⟩
  show decodeHeader (f + 2 * t) = decodeHeader (2 * t)
  rw [decodeHeader, decodeHeader, if_neg (by omega), if_neg (by omega), show (f + 2 * t) / 2 = 2 * t / 2 by omega]

/-! ## The fixed codes (R123, R124) -/

/-- FIND where a code of a well-formed table stands next (R210). -/
theorem exec_find_of_match {id : TableId} {s : State} (hs : s.reader.ok) (hmode : s.reader.mode = .lsb)
    {lens : List Nat} (ht : s.tables.get id = tableOf lens) (hmal : (tableOf lens).malformed = false) {e : Entry}
    (he : e ∈ (tableOf lens).entries) {rest : List Bool} (hu : s.upcoming = entryBits e ++ rest) :
    exec (.find id) s = .next ((sendDiag .symbolMatch (s.afterRead e.bits)).withResult e.code) := by
  show finishValue s (findNextSymbol id s) = _
  rw [findNextSymbol_match hs.1 hmode ht hmal he hu]
  rfl

theorem fixedLL_wellFormed : (tableOf (expandRanges fixedLL)).malformed = false := by decide +kernel

theorem fixedD_wellFormed : (tableOf (expandRanges fixedD)).malformed = false := by decide +kernel

/-- The entry that R123 gives literal/length symbol `v`. -/
def fixedLitLenEntry (v : Nat) : Entry := mkEntry v (fixedLitLenCode v).1 (fixedLitLenCode v).2

/-- The entry that R124 gives distance symbol `d`. -/
def fixedDistanceEntry (d : Nat) : Entry := mkEntry d (fixedDistanceCode d).1 (fixedDistanceCode d).2

/-- The fixed literal/length table holds the codes of R123, the shorter first. -/
theorem fixedLL_entries : (tableOf (expandRanges fixedLL)).entries =
    (List.range' 256 24 ++ List.range' 0 144 ++ List.range' 280 8 ++ List.range' 144 112).map fixedLitLenEntry := by
  decide +kernel

/-- The fixed distance table holds the codes of R124. -/
theorem fixedD_entries : (tableOf (expandRanges fixedD)).entries = (List.range' 0 32).map fixedDistanceEntry := by
  decide +kernel

theorem fixedLitLenEntry_mem {v : Nat} (hv : v ≤ 287) :
    fixedLitLenEntry v ∈ (tableOf (expandRanges fixedLL)).entries := by
  rw [fixedLL_entries]
  refine List.mem_map_of_mem ?_
  simp only [List.mem_append, List.mem_range'_1]
  omega

theorem fixedDistanceEntry_mem {d : Nat} (hd : d ≤ 31) :
    fixedDistanceEntry d ∈ (tableOf (expandRanges fixedD)).entries := by
  rw [fixedD_entries]
  exact List.mem_map_of_mem (List.mem_range'_1.mpr (by omega))

/-- Settles O43: the fixed tables hold the fixed codes, and a code that stands next is found. -/
theorem fixedCodesDecode : Obligations.FixedCodesDecode := by
  unfold Obligations.FixedCodesDecode
  refine fun s rest hs hmode => ⟨fun v hv ht hu => ?_, fun d hd ht hu => ?_⟩
  · rw [fixedLitLenBits, length_msbBits]
    exact exec_find_of_match (id := .ll) (e := fixedLitLenEntry v) hs hmode ht fixedLL_wellFormed
      (fixedLitLenEntry_mem hv) hu
  · exact exec_find_of_match (id := .d) (e := fixedDistanceEntry d) hs hmode ht fixedD_wellFormed
      (fixedDistanceEntry_mem hd) hu

end Sys2Proof.Machine
end

section
/-! PROOFS. Distances and lengths: what the symbols with their extra bits stand for (R343, R375), and that their ranges
cover each distance and each length (R132, R408 to R413). -/

namespace Sys2Proof.Machine

open Sys2Proof

/-! ## Ranges one after another -/

/-- `x` is the base of `c` plus the number that the extra bits of `c` hold, least significant bit first (R125). -/
structure BasePlusBits (base extra : Nat → Nat) (c : Nat) (bits : List Bool) (x : Nat) : Prop where
  width : bits.length = extra c
  value : x = base c + fieldValue .lsb bits

theorem BasePlusBits.lt {base extra : Nat → Nat} {c x : Nat} {bits : List Bool}
    (h : BasePlusBits base extra c bits x) : x < base c + 2 ^ extra c := by
  have := fieldValue_lt .lsb bits
  rw [h.width] at this
  rw [h.value]; omega

/-- The extra bits of a code are settled by the number they give. -/
theorem BasePlusBits.bits_unique {base extra : Nat → Nat} {c x : Nat} {bits bits' : List Bool}
    (h : BasePlusBits base extra c bits x) (h' : BasePlusBits base extra c bits' x) : bits' = bits :=
  fieldValue_lsb_inj (h'.width.trans h.width.symm) (Nat.add_left_cancel (h'.value.symm.trans h.value))

/-- Each code's range begins where the range of the code before ends. -/
def Consecutive (base extra : Nat → Nat) (a b : Nat) : Prop :=
  ∀ c, a ≤ c → c < b → base (c + 1) = base c + 2 ^ extra c

section
variable {base extra : Nat → Nat} {a b : Nat}

/-- A later code's range lies behind an earlier one's. -/
theorem Consecutive.range_before (h : Consecutive base extra a b) {c c' : Nat} (hc : a ≤ c) (hlt : c < c')
    (hc' : c' ≤ b) : base c + 2 ^ extra c ≤ base c' := by
  induction c', hlt using Nat.le_induction with
  | base => rw [h c hc hc']
  | succ k hk ih =>
    rw [h k (by omega) hc']
    exact (ih (by omega)).trans (Nat.le_add_right _ _)

/-- Every number from the first base to the end of the last range is in some code's range. -/
theorem Consecutive.exists_range (h : Consecutive base extra a b) (hab : a ≤ b) {x : Nat} (hlo : base a ≤ x)
    (hhi : x < base b + 2 ^ extra b) : ∃ c, a ≤ c ∧ c ≤ b ∧ base c ≤ x ∧ x < base c + 2 ^ extra c := by
  induction b, hab using Nat.le_induction with
  | base => exact ⟨a, Nat.le_refl _, Nat.le_refl _, hlo, hhi⟩
  | succ k hk ih =>
    by_cases hx : base (k + 1) ≤ x
    · exact ⟨k + 1, by omega, Nat.le_refl _, hx, hhi⟩
    · have hend := h k hk (Nat.lt_succ_self k)
      obtain ⟨c, h1, h2, h3⟩ := ih (fun c h1 h2 => h c h1 (by omega)) (by omega)
      exact ⟨c, h1, by omega, h3⟩

/-- Every number from the first base to the end of the last range is given by some code with its extra bits. -/
theorem Consecutive.exists_code (h : Consecutive base extra a b) (hab : a ≤ b) {x : Nat} (hlo : base a ≤ x)
    (hhi : x < base b + 2 ^ extra b) : ∃ c bits, a ≤ c ∧ c ≤ b ∧ BasePlusBits base extra c bits x := by
  obtain ⟨c, h1, h2, h3, h4⟩ := h.exists_range hab hlo hhi
  refine ⟨c, lsbBits (extra c) (x - base c), h1, h2, length_lsbBits _ _, ?_⟩
  rw [fieldValue_lsbBits, Nat.mod_eq_of_lt (by omega)]
  omega

/-- No number is given by two codes. -/
theorem Consecutive.code_unique (h : Consecutive base extra a b) {c c' x : Nat} {bits bits' : List Bool}
    (hc : a ≤ c) (hcb : c ≤ b) (hc' : a ≤ c') (hcb' : c' ≤ b) (hx : BasePlusBits base extra c bits x)
    (hx' : BasePlusBits base extra c' bits' x) : c' = c ∧ bits' = bits := by
  have hlt := hx.lt
  have hlt' := hx'.lt
  have hlo := hx.value
  have hlo' := hx'.value
  obtain hcc | rfl | hcc := Nat.lt_trichotomy c c'
  · have := h.range_before hc hcc hcb'
    omega
  · exact ⟨rfl, hx.bits_unique hx'⟩
  · have := h.range_before hc' hcc hcb
    omega

end

/-! ## A state with given bits ahead -/

/-- The reset state with `bits` buffered, in LSB-first order, and no input behind them. -/
def buffering (bits : List Bool) : State :=
  State.reset.withReader
    { acc := fieldValue .lsb bits, cnt := bits.length, nfetch := bits.length, mode := .lsb, inWait := false }

theorem buffering_ok (bits : List Bool) : (buffering bits).reader.ok :=
  ⟨fieldValue_lt .lsb bits, show bits.length ≤ 8 * bits.length by omega⟩

theorem buffering_upcoming (bits : List Bool) : (buffering bits).upcoming = bits := by
  show lsbBits bits.length (fieldValue .lsb bits) ++ (([] : List Byte).drop bits.length).flatMap (byteBits .lsb) = bits
  rw [lsbBits_fieldValue, List.drop_nil, List.flatMap_nil, List.append_nil]

/-- Any bits can stand ahead, with any value left by the last micro-operation. -/
theorem exists_state_ahead (bits : List Bool) (v : Nat) :
    ∃ s : State, s.reader.ok ∧ s.reader.mode = .lsb ∧ s.upcoming = bits ∧ s.result = v :=
  ⟨(buffering bits).withResult v, buffering_ok bits, rfl, buffering_upcoming bits, rfl⟩

/-- Bits that are cut off by dropping no more than follows them are as many as are dropped. -/
theorem length_eq_of_drop_append {bits rest : List Bool} {n : Nat} (hn : n ≤ rest.length)
    (h : (bits ++ rest).drop n = rest) : bits.length = n := by
  have := congrArg List.length h
  rw [List.length_drop, List.length_append] at this
  omega

theorem nextField_of_append {s : State} {bits rest : List Bool} (hmode : s.reader.mode = .lsb)
    (hu : s.upcoming = bits ++ rest) : s.nextField bits.length = fieldValue .lsb bits := by
  rw [State.nextField, hmode, hu, List.take_left]

theorem afterRead_of_append {s : State} {bits rest : List Bool} (hu : s.upcoming = bits ++ rest) :
    (s.afterRead bits.length).upcoming = rest := by
  rw [afterRead_upcoming (by rw [hu, List.length_append]; omega), hu, List.drop_left]

/-! ## Distances -/

/-- A legal distance symbol's instruction runs its operation by the tables (R375). -/
theorem exec_distance {d : Nat} {i : Instr} (hd : d ≤ 29) (hi : decode .distance d = .ok i) (s : State) :
    exec i s = finishValue s (distanceValue (distBase d) (distExtra d) s) := by
  rw [← distanceOf_eq d hd]
  interval_cases d <;> (cases hi; rfl)

/-- A legal distance symbol with its extra bits there (R375). -/
theorem exec_distance_eq {d : Nat} {i : Instr} {s : State} (hd : d ≤ 29) (hi : decode .distance d = .ok i)
    (hs : s.reader.ok) (hn : distExtra d ≤ s.upcoming.length) :
    exec i s = .next ((s.afterRead (distExtra d)).withResult (distBase d + s.nextField (distExtra d))) := by
  have h13 := (distBase_bounds d hd).2.2
  rw [exec_distance hd hi, distanceValue, readBits_eq hs.1 (by omega) hn]
  rfl

/-- An illegal distance symbol's instruction raises where it stands (R406, R407). -/
theorem exec_illegal_distance {d : Nat} {i : Instr} (hd : d = 30 ∨ d = 31) (hi : decode .distance d = .ok i)
    (s : State) : exec i s = .next (errorEntry .invalidDistanceSymbol s.bitPos s) := by
  obtain rfl | rfl := hd <;> (cases hi; rfl)

/-- What a distance symbol stands for: `DIST_BASE` plus its extra bits (R125, R375). -/
theorem givesDistance_iff {d dist : Nat} {bits : List Bool} :
    givesDistance d bits dist ↔ d ≤ 29 ∧ BasePlusBits distBase distExtra d bits dist := by
  constructor
  · rintro ⟨i, hi, h⟩
    have h31 : d ≤ 31 := decode_distance_ok_iff.mp ⟨i, hi⟩
    obtain ⟨rest, hrest⟩ : ∃ rest : List Bool, rest.length = 13 := ⟨List.replicate 13 false, rfl⟩
    obtain ⟨s, hs, hmode, hu, hlast⟩ := exists_state_ahead (bits ++ rest) (dist + 1)
    obtain ⟨t, ht, hres, hup⟩ := h s rest hs hmode hu
    by_cases hd : d ≤ 29
    · have h13 : distExtra d ≤ rest.length := hrest ▸ (distBase_bounds d hd).2.2
      have hn : distExtra d ≤ s.upcoming.length := by rw [hu, List.length_append]; omega
      rw [exec_distance_eq hd hi hs hn] at ht
      injection ht with ht
      subst ht
      have hdrop : (s.afterRead (distExtra d)).upcoming = rest := hup
      rw [afterRead_upcoming hn, hu] at hdrop
      have hw := length_eq_of_drop_append h13 hdrop
      refine ⟨hd, hw, ?_⟩
      rw [← hres, ← nextField_of_append hmode hu, hw]
      rfl
    · rw [exec_illegal_distance (by omega) hi] at ht
      injection ht with ht
      subst ht
      exact absurd (hlast.symm.trans hres) (Nat.succ_ne_self dist)
  · rintro ⟨hd, hw, hv⟩
    obtain ⟨i, hi⟩ := decode_distance_ok_iff.mpr (show d ≤ 31 by omega)
    refine ⟨i, hi, fun s rest hs hmode hu => ?_⟩
    have hexec := exec_distance_eq hd hi hs (by rw [hu, List.length_append]; omega)
    rw [← hw, nextField_of_append hmode hu, hw, ← hv, ← hw] at hexec
    exact ⟨_, hexec, rfl, afterRead_of_append hu⟩

theorem distances_consecutive : Consecutive distBase distExtra 0 29 := fun _ _ _ => rfl

/-! ## Lengths -/

/-- LEN_BASE of a length code (R409). -/
def lenBase (c : Nat) : Nat := lenBaseTable.getD (c - 257) 0

/-- Where the extra bits of a length and a distance code stand next, the bits behind both (R343). -/
theorem afterRead_length_and_code {s : State} {lenBits rest : List Bool} {e : Entry}
    (hu : s.upcoming = lenBits ++ (entryBits e ++ rest)) : (s.afterRead (lenBits.length + e.bits)).upcoming = rest := by
  have h := afterRead_of_append (bits := lenBits ++ entryBits e) (by rw [hu, List.append_assoc])
  rwa [List.length_append, entryBits, length_msbBits] at h

/-- A length element whose fields stand next and whose distance is there completes (R343, R441, R445). -/
theorem lengthElement_eq {base dist n : Nat} {s : State} {lens : List Nat} {e : Entry}
    {lenBits distBits rest : List Bool} {run : List Byte}
    (hs : s.reader.ok) (hmode : s.reader.mode = .lsb) (hdense : s.history.dense)
    (ht : s.tables.d = tableOf lens) (hmal : (tableOf lens).malformed = false) (he : e ∈ (tableOf lens).entries)
    (hcode : e.code ≤ 29) (hu : s.upcoming = lenBits ++ (entryBits e ++ (distBits ++ rest)))
    (h32 : lenBits.length ≤ 32) (hw : distBits.length = distExtra e.code)
    (hdist : dist = distBase e.code + fieldValue .lsb distBits) (hout : dist ≤ s.history.outCount)
    (hn : n = base + fieldValue .lsb lenBits) (hrun : run = copyBytes dist n s.history.bytes) :
    lengthElement base lenBits.length s = .ok () (emit run (appendAll run
      ((sendDiag .symbolMatch (s.afterRead (lenBits.length + e.bits))).afterRead distBits.length))) := by
  obtain ⟨hpos, -, h13⟩ := distBase_bounds e.code hcode
  have hebits : (entryBits e).length = e.bits := length_msbBits _ _
  have hlen : lenBits.length ≤ s.upcoming.length := by rw [hu, List.length_append]; omega
  have hboth : lenBits.length + e.bits ≤ s.upcoming.length := by
    rw [hu, List.length_append, List.length_append]; omega
  have hlength : readBits lenBits.length s = .ok (fieldValue .lsb lenBits) (s.afterRead lenBits.length) := by
    rw [readBits_eq hs.1 h32 hlen, nextField_of_append hmode hu]
  have hfind : findNextSymbol .d (s.afterRead lenBits.length) =
      .ok e.code (sendDiag .symbolMatch (s.afterRead (lenBits.length + e.bits))) := by
    rw [findNextSymbol_match (id := .d) (afterRead_ok hs hlen).1 hmode ht hmal he (afterRead_of_append hu),
      afterRead_afterRead hlen]
  -- `v` stands behind the distance symbol's code, `x` behind all the fields
  generalize hv : sendDiag .symbolMatch (s.afterRead (lenBits.length + e.bits)) = v at hfind ⊢
  have hok : v.reader.ok := hv ▸ sendDiag_ok (afterRead_ok hs hboth)
  have hmode' : v.reader.mode = .lsb := by rw [← hv, sendDiag_reader]; exact hmode
  have hu' : v.upcoming = distBits ++ rest := by rw [← hv, sendDiag_upcoming, afterRead_length_and_code hu]
  have hdistance : distanceOf e.code v = .ok dist (v.afterRead distBits.length) := by
    rw [distanceOf_eq _ hcode, distanceValue, ← hw,
      readBits_eq hok.1 (by omega) (by rw [hu', List.length_append]; omega), nextField_of_append hmode' hu', hdist]
    rfl
  have hhist : (v.afterRead distBits.length).history = s.history := by
    rw [State.afterRead_history, ← hv, sendDiag_history, State.afterRead_history]
  generalize v.afterRead distBits.length = x at hdistance hhist ⊢
  rw [← hhist] at hdense hout hrun
  have hcopy : copyRun dist n x = .ok () (appendAll run x) := by rw [copyRun_eq hdense (by omega) hout, hrun]
  have hslice : histSlice ((appendAll run x).history.outCount - n) n (appendAll run x) = .ok run (appendAll run x) := by
    have hl : run.length = n := by rw [hrun, length_copyBytes]
    rw [← hl]
    exact histSlice_appendAll hdense
  rw [lengthElement, lengthValue, hlength, Res.bind_ok, Res.bind_ok, hfind, Res.bind_ok, hdistance, Res.bind_ok,
    if_neg (by omega), ← hn, hcopy, Res.bind_ok, hslice, Res.bind_ok]

theorem appendAll_upcoming (vs : List Byte) (s : State) : (appendAll vs s).upcoming = s.upcoming := by
  rw [appendAll_eq]; rfl

/-- A length instruction whose fields stand next and whose distance is there appends its length and consumes exactly
those fields (R343). -/
theorem exec_length_completes {c : Nat} {i : Instr} {s : State} {lens : List Nat} {e : Entry}
    {lenBits distBits rest : List Bool} (h1 : 257 ≤ c) (h2 : c ≤ 285) (hi : decode .litLen c = .ok i)
    (hs : s.reader.ok) (hmode : s.reader.mode = .lsb) (hdense : s.history.dense)
    (ht : s.tables.d = tableOf lens) (hmal : (tableOf lens).malformed = false) (he : e ∈ (tableOf lens).entries)
    (hcode : e.code ≤ 29) (hu : s.upcoming = lenBits ++ (entryBits e ++ (distBits ++ rest)))
    (hl : lenBits.length = lenExtra c) (hw : distBits.length = distExtra e.code)
    (hout : distBase e.code + fieldValue .lsb distBits ≤ s.history.outCount) :
    ∃ t : State, exec i s = .next t ∧
      t.history.outCount = s.history.outCount + (lenBase c + fieldValue .lsb lenBits) ∧ t.upcoming = rest := by
  have hexec : exec i s = finish s (lengthElement (lenBase c) (lenExtra c) s) := exec_length c i h1 h2 hi s
  have h32 : lenBits.length ≤ 32 := by have := (lenBase_bounds c h1 h2).1; omega
  rw [← hl, lengthElement_eq hs hmode hdense ht hmal he hcode hu h32 hw rfl hout rfl rfl] at hexec
  refine ⟨_, hexec, ?count, ?ahead⟩
  case count =>
    rw [emit_history, appendAll_outCount, length_copyBytes, State.afterRead_history, sendDiag_history,
      State.afterRead_history]
  case ahead =>
    show (appendAll _ _).upcoming = rest
    rw [appendAll_upcoming]
    exact afterRead_of_append (by rw [sendDiag_upcoming, afterRead_length_and_code hu])

/-- A symbol that is no length, alone or with an error, reads no bit (R341, R342, R373, R374). -/
theorem exec_nonlength_upcoming {c : Nat} {i : Instr} {s t : State} (hc : ¬ (257 ≤ c ∧ c ≤ 285))
    (hi : decode .litLen c = .ok i) (h : exec i s = .next t) : t.upcoming = s.upcoming := by
  have h287 : c ≤ 287 := decode_litLen_ok_iff.mp ⟨i, hi⟩
  by_cases h255 : c ≤ 255
  · rw [decode_litLen_literal h255] at hi
    cases hi
    cases h
    rfl
  obtain rfl | rfl | rfl : c = 256 ∨ c = 286 ∨ c = 287 := by omega
  · cases hi
    cases h
    rw [blockEnd_eq]
    exact sendDiag_upcoming .blockEnd s
  · cases hi
    cases h
    rfl
  · cases hi
    cases h
    rfl

/-- A state with `bits` ahead in which every length element completes: two bytes of history, and a T_D whose two codes
are one bit each and stand for the distances 1 and 2. -/
def lengthProbe (bits : List Bool) : State :=
  ((buffering bits).withHistory ⟨[(0, 0), (1, 0)], 2⟩).withTables { State.reset.tables with d := tableOf [1, 1] }

/-- The code of one bit for distance symbol 0 or 1. -/
def bitEntry (b : Bool) : Entry := mkEntry b.toNat 1 b.toNat

theorem bitEntry_mem (b : Bool) : bitEntry b ∈ (tableOf [1, 1]).entries := by
  cases b <;> decide

theorem entryBits_bitEntry (b : Bool) : entryBits (bitEntry b) = [b] := by
  cases b <;> rfl

theorem exists_append_cons {bits : List Bool} {n : Nat} (h : n < bits.length) :
    ∃ front b rest, bits = front ++ b :: rest ∧ front.length = n :=
  ⟨bits.take n, bits[n], bits.drop (n + 1), by rw [List.getElem_cons_drop, List.take_append_drop],
    by rw [List.length_take]; omega⟩

/-- In the probe a length element reads its extra bits and one more. -/
theorem exec_lengthProbe {c : Nat} {i : Instr} (h1 : 257 ≤ c) (h2 : c ≤ 285) (hi : decode .litLen c = .ok i)
    {lenBits rest : List Bool} {b : Bool} (hl : lenBits.length = lenExtra c) :
    ∃ t : State, exec i (lengthProbe (lenBits ++ b :: rest)) = .next t ∧
      t.history.outCount = 2 + (lenBase c + fieldValue .lsb lenBits) ∧ t.upcoming = rest := by
  refine exec_length_completes (s := lengthProbe (lenBits ++ b :: rest)) (lens := [1, 1]) (e := bitEntry b)
    (distBits := []) h1 h2 hi (buffering_ok _) rfl rfl rfl (by decide) (bitEntry_mem b)
    ?code ?ahead hl ?width ?there
  case code => cases b <;> decide
  case ahead => rw [entryBits_bitEntry]; exact buffering_upcoming _
  case width => cases b <;> rfl
  case there =>
    cases b with
    | false => exact Nat.le_succ 1
    | true => exact Nat.le_refl 2

/-- What a literal/length symbol stands for, if it is a length: `LEN_BASE` plus its extra bits (R125, R343). -/
theorem givesLength_iff {c n : Nat} {bits : List Bool} :
    givesLength c bits n ↔ (257 ≤ c ∧ c ≤ 285) ∧ BasePlusBits lenBase lenExtra c bits n := by
  constructor
  · rintro ⟨i, hi, h⟩
    obtain ⟨rest, hrest⟩ : ∃ rest : List Bool, rest.length = 6 := ⟨List.replicate 6 false, rfl⟩
    have hu : (lengthProbe (bits ++ false :: rest)).upcoming = bits ++ false :: rest := buffering_upcoming _
    obtain ⟨t, ht, hcount, hup⟩ := h (lengthProbe (bits ++ false :: rest)) [1, 1] (bitEntry false) rest
      (buffering_ok _) rfl rfl (Nat.le_succ 1) rfl (by decide) (bitEntry_mem false) rfl
      (by rw [hu, entryBits_bitEntry, List.append_assoc]; rfl)
    by_cases hc : 257 ≤ c ∧ c ≤ 285
    · have hlong : lenExtra c < (bits ++ false :: rest).length := by
        have := (lenBase_bounds c hc.1 hc.2).1
        rw [List.length_append, List.length_cons, hrest]; omega
      obtain ⟨lenBits, b, rest', hsplit, hl⟩ := exists_append_cons hlong
      obtain ⟨t', ht', hcount', hup'⟩ := exec_lengthProbe hc.1 hc.2 hi (rest := rest') (b := b) hl
      rw [← hsplit, ht] at ht'
      injection ht' with ht'
      subst ht'
      obtain rfl : rest' = rest := hup'.symm.trans hup
      obtain ⟨rfl, -⟩ := List.append_inj' hsplit rfl
      exact ⟨hc, hl, Nat.add_left_cancel (hcount.symm.trans hcount')⟩
    · have hsame := congrArg List.length (hup.symm.trans (exec_nonlength_upcoming hc hi ht))
      rw [hu, List.length_append, List.length_cons] at hsame
      omega
  · rintro ⟨⟨h1, h2⟩, hl, hv⟩
    obtain ⟨i, hi⟩ := decode_litLen_ok_iff.mpr (show c ≤ 287 by omega)
    refine ⟨i, hi, fun s lens e rest hs hmode hdense hout ht hmal he hcode hu => ?_⟩
    rw [hv]
    exact exec_length_completes (distBits := []) h1 h2 hi hs hmode hdense ht hmal he (by omega)
      (by rw [hu, List.append_assoc]; rfl) hl (by rw [hcode]; rfl) (by rw [hcode]; exact hout)

theorem lengths_consecutive : Consecutive lenBase lenExtra 257 284 := by
  intro c h1 h2
  interval_cases c <;> rfl

/-- Settles O33: the symbols' ranges stand one behind another, those of the lengths up to LEN_284's; LEN_285 gives once
more the last number of that one. -/
theorem rangesCoverExactlyOnce : Obligations.RangesCoverExactlyOnce := by
  unfold Obligations.RangesCoverExactlyOnce
  simp only [givesDistance_iff, givesLength_iff]
  have h284 : BasePlusBits lenBase lenExtra 284 (List.replicate 5 true) 258 := ⟨rfl, rfl⟩
  have h285 : BasePlusBits lenBase lenExtra 285 [] 258 := ⟨rfl, rfl⟩
  refine ⟨fun dist h1 h2 => ?distances, fun n h1 h2 => ?lengths, fun c bits => ⟨?only, ?both⟩⟩
  case distances =>
    obtain ⟨d, bits, hd0, hd, hx⟩ := distances_consecutive.exists_code (Nat.zero_le 29) h1
      (show dist < 24577 + 2 ^ 13 by omega)
    refine ⟨d, bits, ⟨hd, hx⟩, ?_⟩
    rintro d' bits' ⟨hd', hx'⟩
    exact distances_consecutive.code_unique hd0 hd (Nat.zero_le d') hd' hx hx'
  case lengths =>
    obtain ⟨c, bits, hc1, hc2, hx⟩ := lengths_consecutive.exists_code (by decide) h1 (show n < 227 + 2 ^ 5 by omega)
    refine ⟨c, bits, ⟨⟨hc1, by omega⟩, hx⟩, ?_⟩
    rintro c' bits' ⟨⟨hc1', hc2'⟩, hx'⟩
    have hne : c' ≠ 285 := by
      rintro rfl
      have : n = 258 + _ := hx'.value
      omega
    exact lengths_consecutive.code_unique hc1 hc2 hc1' (by omega) hx hx'
  case only =>
    rintro ⟨⟨hc1, hc2⟩, hx⟩
    by_cases hc : c = 285
    · subst hc
      exact .inr ⟨rfl, h285.bits_unique hx⟩
    · exact .inl (lengths_consecutive.code_unique (by decide) (by decide) hc1 (by omega) h284 hx)
  case both =>
    rintro (⟨rfl, rfl⟩ | ⟨rfl, rfl⟩)
    · exact ⟨by decide, h284⟩
    · exact ⟨by decide, h285⟩

end Sys2Proof.Machine
end

section
/-! PROOFS. A step of the block runs the instruction that the decoder gives, or is what the symbol match answers where it
gives none (R126, R210, R316, R340, R521). -/

namespace Sys2Proof.Machine

open Sys2Proof

/-! ## Elements that suspend nothing -/

/-- Wherever an operation completes or raises, no element is suspended. (A structure, so that no unifier evaluates the
operation.) -/
structure Res.unsuspended {α : Type} (r : Res α) : Prop where
  sat : r.sat (fun _ t => t.suspended = none) (fun _ _ t => t.suspended = none) fun _ => True

/-- An instruction that suspends nothing but itself goes on, inside its element, as by itself (R521). -/
theorem resumeFrom_finish (s : State) {r : Res Unit} (h : r.unsuspended) :
    resumeFrom s (finish s r) = finish s r := by
  cases r with
  | ok a t =>
    have ht : t.suspended = none := h.sat
    simp [finish, resumeFrom, ht]
  | raise k q t =>
    have ht : t.suspended = none := h.sat
    simp [finish, resumeFrom, ht]
  | wait t => rfl
  | fault f => rfl
  | refused r => rfl

theorem Res.unsuspended.bind {α β : Type} {r : Res α} {f : α → State → Res β} (h : r.unsuspended)
    (hf : ∀ a t, t.suspended = none → (f a t).unsuspended) : (r.bind f).unsuspended :=
  ⟨Res.sat_bind h.sat fun a t ht => (hf a t ht).sat⟩

theorem ReadsTo.suspended {s t : State} (h : ReadsTo s t) : t.suspended = s.suspended := by
  rw [h.only]; rfl

section
variable {s : State} (hs : s.suspended = none)
include hs

theorem ok_unsuspended {α : Type} (a : α) : (Res.ok a s).unsuspended := ⟨hs⟩

theorem raiseHere_unsuspended {α : Type} (k : ErrKind) : (raiseHere k s : Res α).unsuspended := ⟨hs⟩

theorem withSeq_unsuspended (q : Sequencer) : (s.withSeq q).suspended = none := hs

theorem withTables_unsuspended (ts : Tables) : (s.withTables ts).suspended = none := hs

theorem sendDiag_unsuspended (k : DiagKind) : (sendDiag k s).suspended = none :=
  (sendDiag_suspended k s).trans hs

theorem readBits_unsuspended (n : Nat) : (readBits n s).unsuspended :=
  ⟨Res.sat_mono (readBits_sat n s) (fun _ _ h => h.1.suspended.trans hs) (fun _ _ _ h => h.2.2.1.suspended.trans hs)
    fun _ _ => trivial⟩

theorem alignToByte_unsuspended : (alignToByte s).unsuspended :=
  (readBits_unsuspended hs _).bind fun _ _ ht => ⟨ht⟩

theorem setMode_unsuspended (m : BitOrder) : (setMode m s).unsuspended := by
  unfold setMode
  split
  · exact ⟨hs⟩
  · exact ⟨trivial⟩

theorem buildFromLengths_unsuspended (id : TableId) (lens : List Nat) : (buildFromLengths id lens s).unsuspended := by
  unfold buildFromLengths
  split
  · exact ok_unsuspended (sendDiag_unsuspended (withTables_unsuspended hs _) _) ()
  · exact ⟨trivial⟩

theorem buildFromRanges_unsuspended (id : TableId) (pairs : List (Nat × Int)) :
    (buildFromRanges id pairs s).unsuspended := by
  unfold buildFromRanges
  split
  · exact buildFromLengths_unsuspended hs id _
  · exact ⟨trivial⟩

theorem blockEnd_unsuspended : (blockEnd s).suspended = none :=
  sendDiag_unsuspended hs .blockEnd

/-! ## The element of each phase -/

theorem skipField_unsuspended (n : Nat) (p : Phase) : (skipField n p s).unsuspended :=
  (readBits_unsuspended hs n).bind fun _ _ ht => ⟨ht⟩

theorem stringByte_unsuspended (p : Phase) : (stringByte p s).unsuspended := by
  refine (readBits_unsuspended hs 8).bind fun b t ht => ok_unsuspended ?_ ()
  split
  · exact ht
  · exact ht

theorem gzMagic_unsuspended : (gzMagic s).unsuspended := by
  refine (readBits_unsuspended hs 16).bind fun v t ht => ?_
  split
  · exact raiseHere_unsuspended ht _
  · exact (setMode_unsuspended ht .lsb).bind fun _ _ hu => ⟨hu⟩

theorem gzCm_unsuspended : (gzCm s).unsuspended := by
  refine (readBits_unsuspended hs 8).bind fun v t ht => ?_
  split
  · exact raiseHere_unsuspended ht _
  · exact ⟨ht⟩

theorem gzFlg_unsuspended : (gzFlg s).unsuspended :=
  (readBits_unsuspended hs 8).bind fun _ _ ht => ⟨ht⟩

theorem gzFextra_unsuspended : (gzFextra s).unsuspended := by
  unfold gzFextra
  split
  · exact raiseHere_unsuspended hs _
  · exact ⟨hs⟩

theorem gzOs_unsuspended : (gzOs s).unsuspended :=
  (readBits_unsuspended hs 8).bind fun _ _ ht => (gzFextra_unsuspended ht).bind fun _ _ hu => ⟨hu⟩

theorem gzTrailer_unsuspended : (gzTrailer s).unsuspended :=
  (alignToByte_unsuspended hs).bind fun _ _ ht => (readBits_unsuspended ht 32).bind fun _ _ hu =>
    (readBits_unsuspended hu 32).bind fun _ _ hv => ⟨hv⟩

theorem blkFixed_unsuspended : (blkFixed s).unsuspended :=
  (buildFromRanges_unsuspended hs .ll fixedLL).bind fun _ _ ht =>
    (buildFromRanges_unsuspended ht .d fixedD).bind fun _ _ hu => ⟨hu⟩

theorem blkhdr_unsuspended : (blkhdr s).unsuspended := by
  refine (readBits_unsuspended (sendDiag_unsuspended hs .blockStart) 1).bind fun f t ht => ?_
  refine (readBits_unsuspended ht 2).bind fun ty u hu => ?_
  dsimp only
  split
  · exact ⟨hu⟩
  · exact blkFixed_unsuspended hu
  · exact ⟨hu⟩
  · exact raiseHere_unsuspended (withSeq_unsuspended hu _) _

theorem storedHdr_unsuspended : (storedHdr s).unsuspended := by
  refine (alignToByte_unsuspended hs).bind fun _ t ht => (readBits_unsuspended ht 16).bind fun len u hu => ?_
  refine (readBits_unsuspended hu 16).bind fun nlen v hv => ?_
  split
  · refine ok_unsuspended ?_ ()
    split
    · exact blockEnd_unsuspended hv
    · exact hv
  · exact raiseHere_unsuspended hv _

theorem storedByte_unsuspended : (storedByte s).unsuspended := by
  refine (readBits_unsuspended hs 8).bind fun b t ht => ok_unsuspended ?_ ()
  show (if _ then blockEnd _ else _ : State).suspended = none
  split
  · exact blockEnd_unsuspended ht
  · exact ht

theorem readClLens_unsuspended (slots : List Nat) : (readClLens slots s).unsuspended := by
  induction slots generalizing s with
  | nil => exact ⟨hs⟩
  | cons slot slots ih => exact (readBits_unsuspended hs 3).bind fun _ _ ht => ih ht

theorem codeLengthLengths_unsuspended : (codeLengthLengths s).unsuspended :=
  (readClLens_unsuspended (withSeq_unsuspended hs _) _).bind fun _ _ ht => buildFromLengths_unsuspended ht .cl _

theorem dynHdr_unsuspended : (dynHdr s).unsuspended := by
  refine (readBits_unsuspended hs 5).bind fun a t ht => ?_
  refine (readBits_unsuspended (withSeq_unsuspended ht _) 5).bind fun b u hu => ?_
  refine (readBits_unsuspended (withSeq_unsuspended hu _) 4).bind fun c v hv => ?_
  exact (codeLengthLengths_unsuspended (withSeq_unsuspended hv _)).bind fun _ _ hw => ⟨hw⟩

/-- The element of a phase with one element (R126) suspends nothing but itself. -/
theorem exec_phase_unsuspended {p : Phase} {v : Nat} {i : Instr} (h : decode (.phase p) v = .ok i) :
    ∃ r, exec i s = finish s r ∧ r.unsuspended := by
  cases p with
  | magic => cases h; exact ⟨_, rfl, gzMagic_unsuspended hs⟩
  | cm => cases h; exact ⟨_, rfl, gzCm_unsuspended hs⟩
  | flg => cases h; exact ⟨_, rfl, gzFlg_unsuspended hs⟩
  | mtime | xfl | fhcrc => cases h; exact ⟨_, rfl, skipField_unsuspended hs _ _⟩
  | os => cases h; exact ⟨_, rfl, gzOs_unsuspended hs⟩
  | fname | fcomment => cases h; exact ⟨_, rfl, stringByte_unsuspended hs _⟩
  | blkhdr => cases h; exact ⟨_, rfl, blkhdr_unsuspended hs⟩
  | storedHdr => cases h; exact ⟨_, rfl, storedHdr_unsuspended hs⟩
  | storedData => cases h; exact ⟨_, rfl, storedByte_unsuspended hs⟩
  | dynHdr => cases h; exact ⟨_, rfl, dynHdr_unsuspended hs⟩
  | trailer => cases h; exact ⟨_, rfl, gzTrailer_unsuspended hs⟩
  | dynLens | symbol | done | error => cases h

end

/-! ## What is fetched -/

theorem fetch_phase {s : State} {i : Instr} (h : decode (.phase s.seq.phase) 0 = .ok i) : fetch s = .ok i s := by
  unfold fetch
  cases hp : s.seq.phase with
  | dynLens | symbol | done | error => rw [hp] at h; cases h
  | _ => rw [hp] at h; cases h; rfl

theorem fetch_codeLength {s t : State} {v : Nat} {i : Instr} (hp : s.seq.phase = .dynLens)
    (hf : findNextSymbol .cl s = .ok v t) (hi : decode .codeLength v = .ok i) : fetch s = .ok i t := by
  unfold fetch
  rw [hp]
  dsimp only
  rw [hf, Res.bind_ok, hi]

theorem fetch_litLen {s t : State} {v : Nat} {i : Instr} (hp : s.seq.phase = .symbol)
    (hf : findNextSymbol .ll s = .ok v t) (hi : decode .litLen v = .ok i) : fetch s = .ok i t := by
  unfold fetch
  rw [hp]
  dsimp only
  rw [hf, Res.bind_ok, hi]

/-- In a phase whose element starts with a symbol, the fetch starts with the match of that symbol (R316, R340). -/
theorem fetch_starts_with_match {s : State} {id : TableId}
    (hp : s.seq.phase = .dynLens ∧ id = .cl ∨ s.seq.phase = .symbol ∧ id = .ll) :
    ∃ f, fetch s = (findNextSymbol id s).bind f := by
  unfold fetch
  obtain ⟨hp, rfl⟩ | ⟨hp, rfl⟩ := hp <;> (rw [hp]; exact ⟨_, rfl⟩)

/-- A malformed or an empty table gives no symbol, whatever the input (R212, R213). -/
theorem findNextSymbol_of_malformed_or_empty {id : TableId} {s : State}
    (h : (s.tables.get id).malformed = true ∨ (s.tables.get id).entries = []) :
    findNextSymbol id s = .raise .symbolNotFound s.bitPos s := by
  unfold findNextSymbol
  split
  · rfl
  next hm =>
    rw [h.resolve_left hm]
    rfl

/-! ## One step -/

/-- With no act of the host, none suspended and none pending, a step of a running phase is its element (R7, R533). -/
theorem step_of_running {s : State} (hh : s.host = []) (hn : s.suspended = none) (hp : s.ports.outPend = false)
    (ht : terminal s.seq.phase = false) : step s = runElement s := by
  rw [step_of_no_act hh, blockStep, State.start_of_none hn, if_neg (by rw [hp]; decide), if_neg (by rw [ht]; decide)]

/-- Settles O51: a step of a running phase is its element, by what is fetched. -/
theorem stepRunsDecodedInstruction : Obligations.StepRunsDecodedInstruction := by
  unfold Obligations.StepRunsDecodedInstruction
  intro s hh hn hp
  have hstep := step_of_running hh hn hp
  refine ⟨fun i hi => ?phase, fun v t i hphase hf hi => ?codeLength, fun v t i hphase hf hi => ?litLen,
    fun id hid => ?noSymbol⟩
  case phase =>
    have ht : terminal s.seq.phase = false := by
      refine terminal_eq_false ?_ ?_ <;> (intro hphase; rw [hphase] at hi; cases hi)
    obtain ⟨r, hr, hsusp⟩ := exec_phase_unsuspended hn hi
    rw [hstep ht, runElement, fetch_phase hi]
    show resumeFrom s (exec i s) = exec i s
    rw [hr, resumeFrom_finish s hsusp]
  case codeLength => rw [hstep (by rw [hphase]; rfl), runElement, fetch_codeLength hphase hf hi]
  case litLen => rw [hstep (by rw [hphase]; rfl), runElement, fetch_litLen hphase hf hi]
  case noSymbol =>
    have ht : terminal s.seq.phase = false := by
      obtain ⟨hphase, -⟩ | ⟨hphase, -⟩ := hid <;> (rw [hphase]; rfl)
    obtain ⟨f, hfetch⟩ := fetch_starts_with_match hid
    have hfind : exec (.find id) s = finishValue s (findNextSymbol id s) := rfl
    have hsat := findNextSymbol_sat id s
    have hraise : ∀ k q t, findNextSymbol id s = .raise k q t → step s = .next (errorEntry k q t) := by
      intro k q t hf
      rw [hstep ht, runElement, hfetch, hf]
      rfl
    refine ⟨fun k q t hf => ?_, fun t hf => ?_, fun hempty => ?_⟩
    · rw [hf] at hfind hsat
      obtain ⟨hk, hq, -, hpos⟩ := hsat
      exact ⟨hraise k q t hf, (hraise k q t hf).trans hfind.symm, hk, hq, hpos⟩
    · rw [hf] at hfind hsat
      have hwait : step s = .next (suspend s t) := by
        rw [hstep ht, runElement, hfetch, hf]
        rfl
      exact ⟨hwait, hwait.trans hfind.symm, hsat.2.1⟩
    · exact hraise _ _ _ (findNextSymbol_of_malformed_or_empty hempty)

end Sys2Proof.Machine
end

section
/-! PROOFS. The bit reader's primitives as instructions: ReadBits (R165), PeekBits (R166), AlignToByte (R167) and BitPos
(R168). -/

namespace Sys2Proof.Machine

open Sys2Proof

/-! ## Reads and peeks -/

/-- `ReadBits(n)` above 32 bits (R162). -/
theorem readBits_of_too_wide {n : Nat} (s : State) (h : 32 < n) : readBits n s = .refused (.readTooWide n) := if_pos h

/-- `PeekBits(n)` above 32 bits (R162). -/
theorem peekBits_of_too_wide {n : Nat} (s : State) (h : 32 < n) : peekBits n s = .refused (.readTooWide n) := if_pos h

/-- Settles O4: RB is ReadBits, whose answer is the state after a read, the short one, or the refusal. -/
theorem readBitsTakesNextField : Obligations.ReadBitsTakesNextField := by
  unfold Obligations.ReadBitsTakesNextField
  refine fun n s hs => ⟨fun h32 hn => ?there, fun h32 hn => ?short, fun h32 => ?wide⟩
  case there => exact ⟨exec_rb_eq hs h32 hn, afterRead_upcoming hn, afterRead_bitPos hs, nextField_lt n s⟩
  case short => exact finish_short s (readBits_short hs.1 h32 hn)
  case wide =>
    show finishValue s (readBits n s) = _
    rw [readBits_of_too_wide s h32]; rfl

/-- PB with its bits there (R166). -/
theorem exec_pb_eq {n : Nat} {s : State} (hs : s.reader.ok) (h32 : n ≤ 32) (hn : n ≤ s.upcoming.length) :
    exec (.pb n) s = .next ((s.afterRefill n).withResult (s.nextField n)) := by
  show finishValue s (peekBits n s) = _
  rw [peekBits_eq hs.1 h32 hn]; rfl

/-- Settles O5: PB is PeekBits, which leaves the state after the refill: the same bits to come, more of them buffered. -/
theorem peekBitsConsumesNothing : Obligations.PeekBitsConsumesNothing := by
  unfold Obligations.PeekBitsConsumesNothing
  refine fun n s hs => ⟨fun h32 hn => ?there, fun h32 hn => ?short, fun h32 => ?wide⟩
  case there => exact ⟨exec_pb_eq hs h32 hn, afterRefill_upcoming hn, afterRefill_bitPos n s⟩
  case short => exact finish_short s (peekBits_short hs.1 h32 hn)
  case wide =>
    show finishValue s (peekBits n s) = _
    rw [peekBits_of_too_wide s h32]; rfl

/-! ## ALIGN and BITPOS -/

/-- ALIGN is a read of the rest of the current byte, which returns how many bits that was (R167). -/
theorem exec_align_eq {s : State} (hs : s.reader.ok) :
    exec .align s = .next ((s.afterRead (s.reader.cnt % 8)).withResult (s.reader.cnt % 8)) := by
  show finishValue s (alignToByte s) = _
  rw [alignToByte_eq hs.1]; rfl

/-- A read of buffered bits requests no byte (R164). -/
theorem afterRead_nfetch_of_le {n : Nat} {s : State} (h : n ≤ s.reader.cnt) :
    (s.afterRead n).reader.nfetch = s.reader.nfetch := by
  rw [afterRead_reader]
  show s.reader.nfetch + s.reader.bytesFor n = _
  rw [bytesFor_of_le h, Nat.add_zero]

/-- CNT mod 8 bits behind the bit position is a byte boundary: NFETCH whole bytes were fetched (R36, R167). -/
theorem bitPos_add_align {s : State} (hs : s.reader.ok) : (s.bitPos + s.reader.cnt % 8) % 8 = 0 := by
  have hcnt := hs.2
  show (8 * s.reader.nfetch - s.reader.cnt + s.reader.cnt % 8) % 8 = 0
  omega

/-- Settles O6: ALIGN reads the CNT mod 8 bits before the next byte boundary, all of them buffered. -/
theorem alignReachesByteBoundary : Obligations.AlignReachesByteBoundary := by
  unfold Obligations.AlignReachesByteBoundary
  intro s hs
  have hpos : ((s.afterRead (s.reader.cnt % 8)).withResult (s.reader.cnt % 8)).bitPos
      = s.bitPos + s.reader.cnt % 8 := afterRead_bitPos hs
  have hlt : s.reader.cnt % 8 < 8 := Nat.mod_lt _ (by decide)
  refine ⟨_, exec_align_eq hs, rfl, ?boundary, ?ge, ?lt, hpos, afterRead_nfetch_of_le (Nat.mod_le _ _)⟩
  case boundary => rw [hpos]; exact bitPos_add_align hs
  case ge => omega
  case lt => omega

/-- Settles O7: BITPOS returns the bit position, which is this difference, from the state as it is. -/
theorem bitPosReadsPosition : Obligations.BitPosReadsPosition := by
  unfold Obligations.BitPosReadsPosition
  exact fun _ => rfl

end Sys2Proof.Machine
end

section
/-! PROOFS. The table builder (R201 to R208): the canonical assignment step by step, and the expansion of a bootstrap
list. -/

namespace Sys2Proof.Machine

open Sys2Proof

/-! ## The canonical assignment (R203, R204) -/

/-- The symbol of `y` is the one that R204 gives the entry stored right behind `x`. -/
def CanonicalAfter (x y : Entry) : Prop := y.symbol = (x.symbol + 1) <<< (y.bits - x.bits)

theorem assignAfter_isChain (e : Entry) (l : List (Nat × Nat)) :
    (e :: assignAfter e.bits e.symbol l).IsChain CanonicalAfter := by
  induction l generalizing e with
  | nil => exact .singleton e
  | cons c l ih => exact .cons_cons rfl (ih (mkEntry c.1 c.2 ((e.symbol + 1) <<< (c.2 - e.bits))))

/-- Each entry's symbol follows from the one before it (R204). -/
theorem tableOf_isChain (lens : List Nat) : (tableOf lens).entries.IsChain CanonicalAfter := by
  show (assignSymbols (sortedLengths lens)).IsChain _
  cases sortedLengths lens with
  | nil => exact .nil
  | cons c l => exact assignAfter_isChain (mkEntry c.1 c.2 0) l

theorem tableOf_first_symbol {lens : List Nat} {e : Entry} (h : (tableOf lens).entries[0]? = some e) :
    e.symbol = 0 := by
  change (assignSymbols (sortedLengths lens))[0]? = some e at h
  cases hl : sortedLengths lens with
  | nil => rw [hl] at h; cases h
  | cons c l => rw [hl] at h; cases h; rfl

theorem tableOf_next_symbol {lens : List Nat} {k : Nat} {x y : Entry} (hx : (tableOf lens).entries[k]? = some x)
    (hy : (tableOf lens).entries[k + 1]? = some y) : CanonicalAfter x y := by
  obtain ⟨_, rfl⟩ := List.getElem?_eq_some_iff.mp hx
  obtain ⟨hk, rfl⟩ := List.getElem?_eq_some_iff.mp hy
  exact (tableOf_isChain lens).getElem k hk

theorem tableOf_malformed_iff (lens : List Nat) :
    (tableOf lens).malformed = true ↔ ∃ e ∈ (tableOf lens).entries, 2 ^ e.bits ≤ e.symbol := by
  show ((tableOf lens).entries.any fun e => decide (2 ^ e.bits ≤ e.symbol)) = true ↔ _
  simp only [List.any_eq_true, decide_eq_true_eq]

/-- The reversed symbol, LSB first, is the symbol's wire bits (R89, R205). -/
theorem lsbBits_rev (b x : Nat) : lsbBits b (rev x b) = msbBits b x := by
  have h := lsbBits_fieldValue (msbBits b x)
  rwa [length_msbBits, fieldValue_lsb_msbBits] at h

/-! ## BUILD_LENGTHS -/

theorem lengthsOk_iff {id : TableId} {lens : List Nat} :
    lengthsOk id lens = true ↔ lens.length ≤ Config.tableSlots id ∧ ∀ b ∈ lens, b ≤ 15 := by
  simp only [lengthsOk, Bool.and_eq_true, List.all_eq_true, decide_eq_true_eq]
  rfl

/-- The stored entries are the used codes, where each length is in R202's range. -/
theorem tableOf_has_iff {lens : List Nat} (h : ∀ b ∈ lens, b ≤ 15) (c b : Nat) :
    (∃ e ∈ (tableOf lens).entries, e.code = c ∧ e.bits = b) ↔ lens[c]? = some b ∧ 1 ≤ b := by
  have hmem : (c, b) ∈ (tableOf lens).entries.map (fun e => (e.code, e.bits)) ↔
      lens[c]? = some b ∧ 1 ≤ b ∧ b ≤ 15 := by rw [tableOf_codes, mem_sortedLengths]
  simp only [List.mem_map, Prod.mk.injEq] at hmem
  rw [hmem]
  exact ⟨fun ⟨hc, h1, _⟩ => ⟨hc, h1⟩, fun ⟨hc, h1⟩ => ⟨hc, h1, h b (List.mem_of_getElem? hc)⟩⟩

theorem exec_buildLengths_eq {id : TableId} {lens : List Nat} (h : lengthsOk id lens = true) (s : State) :
    exec (.buildLengths id lens) s =
      .next (sendDiag .tableBuilt (s.withTables (s.tables.set id (tableOf lens)))) := by
  show finish s (buildFromLengths id lens s) = _
  rw [buildFromLengths_eq h]; rfl

theorem buildFromLengths_refused {id : TableId} {lens : List Nat} (h : lengthsOk id lens = false) (s : State) :
    buildFromLengths id lens s = .refused (.badLengthList id) := by
  unfold buildFromLengths
  rw [if_neg (by simp [h])]

/-- Settles O36: the stored entries are those of `tableOf`, part by part. -/
theorem buildLengthsAssignsCanonicalCodes : Obligations.BuildLengthsAssignsCanonicalCodes := by
  unfold Obligations.BuildLengthsAssignsCanonicalCodes
  refine fun id lens s => ⟨fun h => ?built, fun h => ?refused⟩
  case built =>
    refine ⟨tableOf lens, exec_buildLengths_eq h s, tableOf_has_iff (lengthsOk_iff.mp h).2, tableOf_sorted lens,
      fun _ => tableOf_first_symbol, fun _ _ _ => tableOf_next_symbol, fun e he => ?_, tableOf_malformed_iff lens⟩
    rw [tableOf_rev lens e he]
    exact ⟨rev_lt _ _, lsbBits_rev _ _⟩
  case refused =>
    show finish s (buildFromLengths id lens s) = _
    rw [buildFromLengths_refused h]; rfl

/-! ## BUILD_RANGES -/

/-- Two adjacent pairs of a bootstrap list: the start ascends, and the first pair's length is within R202's range. -/
def RangeStep (p q : Nat × Int) : Prop := p.1 < q.1 ∧ p.2 ≤ 15

theorem rangesRise_isChain {at_ : Nat} {b : Int} (hb : b ≤ 15) {ps : List (Nat × Int)}
    (h : rangesRise at_ ps = true) : ((at_, b) :: ps).IsChain RangeStep := by
  induction ps generalizing at_ b with
  | nil => cases h
  | cons p ps ih =>
    obtain ⟨start, len⟩ := p
    cases ps with
    | nil =>
      simp only [rangesRise, Bool.and_eq_true, decide_eq_true_eq] at h
      exact .cons_cons ⟨h.1, hb⟩ (.singleton _)
    | cons q qs =>
      simp only [rangesRise, Bool.and_eq_true, decide_eq_true_eq] at h
      obtain ⟨⟨⟨hlt, _⟩, hlen⟩, hrest⟩ := h
      exact .cons_cons ⟨hlt, hb⟩ (ih hlen hrest)

/-- What the operand form of R201 says of a bootstrap list. -/
theorem rangesOk_isChain {pairs : List (Nat × Int)} (h : rangesOk pairs = true) :
    ∃ (b : Int) (ps : List (Nat × Int)), pairs = (0, b) :: ps ∧ pairs.IsChain RangeStep := by
  unfold rangesOk at h
  split at h
  next b => exact ⟨b, [], rfl, .singleton _⟩
  next b ps _ =>
    simp only [Bool.and_eq_true, decide_eq_true_eq] at h
    exact ⟨b, ps, rfl, rangesRise_isChain h.1.2 h.2⟩
  next => cases h

theorem rangesSize_cons_cons (p q : Nat × Int) (ps : List (Nat × Int)) :
    rangesSize (p :: q :: ps) = rangesSize (q :: ps) := rfl

/-- The expansion is as long as the codes from the first start to the last. -/
theorem length_expandRanges {p : Nat × Int} {ps : List (Nat × Int)} (h : (p :: ps).IsChain RangeStep) :
    p.1 + (expandRanges (p :: ps)).length = rangesSize (p :: ps) := by
  induction ps generalizing p with
  | nil => rfl
  | cons q ps ih =>
    obtain ⟨start, len⟩ := q
    rw [List.isChain_cons_cons] at h
    obtain ⟨⟨hlt, _⟩, hrest⟩ := h
    rw [expandRanges, List.length_append, List.length_replicate, rangesSize_cons_cons, ← ih hrest]
    omega

/-- Every length of the expansion is in R202's range. -/
theorem expandRanges_le {pairs : List (Nat × Int)} (h : pairs.IsChain RangeStep) :
    ∀ b ∈ expandRanges pairs, b ≤ 15 := by
  induction pairs with
  | nil => simp [expandRanges]
  | cons p ps ih =>
    cases ps with
    | nil => simp [expandRanges]
    | cons q ps =>
      rw [List.isChain_cons_cons] at h
      obtain ⟨⟨_, hlen⟩, hrest⟩ := h
      intro b hb
      rw [expandRanges, List.mem_append, List.mem_replicate] at hb
      obtain ⟨_, rfl⟩ | hb := hb
      · omega
      · exact ih hrest b hb

/-- The code `v` from one pair's start on, and before the next one's, has that pair's length (R201). -/
theorem expandRanges_getElem? {p : Nat × Int} {ps : List (Nat × Int)} (h : (p :: ps).IsChain RangeStep)
    {k v v₀ v₁ : Nat} {b₀ b₁ : Int} (h₀ : (p :: ps)[k]? = some (v₀, b₀))
    (h₁ : (p :: ps)[k + 1]? = some (v₁, b₁)) (hge : v₀ ≤ v) (hlt : v < v₁) :
    p.1 ≤ v ∧ (expandRanges (p :: ps))[v - p.1]? = some b₀.toNat := by
  induction k generalizing p ps with
  | zero =>
    obtain _ | ⟨q, ps⟩ := ps
    · cases h₁
    · cases h₀
      cases h₁
      refine ⟨hge, ?_⟩
      rw [expandRanges, List.getElem?_append_left (by rw [List.length_replicate]; omega),
        List.getElem?_replicate_of_lt (by omega)]
  | succ k ih =>
    obtain _ | ⟨q, ps⟩ := ps
    · cases h₁
    · rw [List.isChain_cons_cons] at h
      obtain ⟨⟨hstart, _⟩, hrest⟩ := h
      obtain ⟨hq, hget⟩ := ih hrest h₀ h₁
      refine ⟨by omega, ?_⟩
      rw [expandRanges, List.getElem?_append_right (by rw [List.length_replicate]; omega), List.length_replicate,
        show v - p.1 - (q.1 - p.1) = v - q.1 by omega, hget]

/-- BUILD_RANGES with a list of the operand form is BUILD_LENGTHS with its expansion (R201). -/
theorem exec_buildRanges_eq (id : TableId) {pairs : List (Nat × Int)} (h : rangesOk pairs = true) (s : State) :
    exec (.buildRanges id pairs) s = finish s (buildFromLengths id (expandRanges pairs) s) := by
  show finish s (buildFromRanges id pairs s) = _
  rw [buildFromRanges, if_pos h]

/-- The expansion fits a store exactly when its size does. -/
theorem lengthsOk_expandRanges {id : TableId} {pairs : List (Nat × Int)} (h : rangesOk pairs = true) :
    lengthsOk id (expandRanges pairs) = decide (rangesSize pairs ≤ Config.tableSlots id) := by
  obtain ⟨b, ps, rfl, hchain⟩ := rangesOk_isChain h
  have hlen := length_expandRanges hchain
  rw [Bool.eq_iff_iff, lengthsOk_iff, decide_eq_true_eq, ← hlen, Nat.zero_add]
  exact and_iff_left (expandRanges_le hchain)

/-- Settles O37: BUILD_RANGES is BUILD_LENGTHS with the list's expansion, which gives each range its pair's length. -/
theorem buildRangesExpandsPairs : Obligations.BuildRangesExpandsPairs := by
  unfold Obligations.BuildRangesExpandsPairs
  refine fun id pairs s => ⟨fun h hsize => ?built, fun h hsize => ?tooLarge, fun h => ?badForm⟩
  case built =>
    have hok : lengthsOk id (expandRanges pairs) = true := by rw [lengthsOk_expandRanges h, decide_eq_true hsize]
    refine ⟨expandRanges pairs, (exec_buildRanges_eq id h s).trans (exec_buildLengths_eq hok s), ?_⟩
    obtain ⟨b, ps, rfl, hchain⟩ := rangesOk_isChain h
    exact ⟨by rw [← length_expandRanges hchain, Nat.zero_add],
      fun _ _ _ _ _ _ h₀ h₁ hge hlt => (expandRanges_getElem? hchain h₀ h₁ hge hlt).2⟩
  case tooLarge =>
    have hno : lengthsOk id (expandRanges pairs) = false := by
      rw [lengthsOk_expandRanges h, decide_eq_false (by omega)]
    rw [exec_buildRanges_eq id h, buildFromLengths_refused hno]; rfl
  case badForm =>
    show finish s (buildFromRanges id pairs s) = _
    rw [buildFromRanges, if_neg (by simp [h])]; rfl

/-! ## The fixed tables -/

/-- Settles O20: both tables are closed terms, built and compared by evaluation. -/
theorem fixedTablesAsListed : Obligations.FixedTablesAsListed := by
  unfold Obligations.FixedTablesAsListed
  exact ⟨by decide +kernel, by decide +kernel⟩

end Sys2Proof.Machine
end

section
/-! PROOFS. The codes of a table (R206, R216): the code space they take up, and that none of a well-formed table begins
another. -/

namespace Sys2Proof.Machine

open Sys2Proof

/-! ## The code space (R206) -/

/-- The part of the `2 ^ 15` codes of 15 bits that begin with one code of length `b`; length 0 is no code. -/
def codeSpace (b : Nat) : Nat := if b = 0 then 0 else 2 ^ (15 - b)

theorem codeSpace_of_pos {b : Nat} (h : 1 ≤ b) : codeSpace b = 2 ^ (15 - b) := if_neg (by omega)

/-- The code space that the lengths of a list of codes take up. -/
def codeSpaceOf (l : List (Nat × Nat)) : Nat := (l.map fun c => codeSpace c.2).sum

/-- Shifted to the next length and increased by one, a symbol is the end of the code space taken up so far (R204). -/
theorem next_symbol_end {prev b : Nat} (sym : Nat) (h : prev ≤ b) (h15 : b ≤ 15) :
    ((sym + 1) <<< (b - prev) + 1) * 2 ^ (15 - b) = (sym + 1) * 2 ^ (15 - prev) + 2 ^ (15 - b) := by
  rw [Nat.shiftLeft_eq, Nat.add_mul, Nat.mul_assoc, ← Nat.pow_add, show b - prev + (15 - b) = 15 - prev by omega,
    Nat.one_mul]

/-- A symbol that does not fit its length is followed by symbols that do not fit theirs. -/
theorem next_symbol_overflows {prev b sym : Nat} (h : prev ≤ b) (hsym : 2 ^ prev ≤ sym) :
    2 ^ b ≤ (sym + 1) <<< (b - prev) := by
  rw [Nat.shiftLeft_eq, show 2 ^ b = 2 ^ prev * 2 ^ (b - prev) by rw [← Nat.pow_add, Nat.add_sub_cancel' h]]
  exact Nat.mul_le_mul_right _ (by omega)

/-- A symbol fits its length as long as its end does not lie beyond the code space. -/
theorem symbol_overflows_iff {b : Nat} (sym : Nat) (h15 : b ≤ 15) :
    2 ^ b ≤ sym ↔ 2 ^ 15 < (sym + 1) * 2 ^ (15 - b) := by
  rw [show 2 ^ 15 = 2 ^ b * 2 ^ (15 - b) by rw [← Nat.pow_add, Nat.add_sub_cancel' h15],
    Nat.mul_lt_mul_right (Nat.two_pow_pos _), Nat.lt_succ_iff]

/-- Some symbol from `sym` on does not fit its length exactly when the code space up to the end of `sym`, with that of
the codes behind it, exceeds the whole. -/
theorem assignAfter_overflows_iff {prev sym : Nat} {l : List (Nat × Nat)} (hs : l.Pairwise fun x y => x.2 ≤ y.2)
    (h1 : 1 ≤ prev) (h15 : prev ≤ 15) (hl : ∀ x ∈ l, prev ≤ x.2 ∧ x.2 ≤ 15) :
    (2 ^ prev ≤ sym ∨ ∃ e ∈ assignAfter prev sym l, 2 ^ e.bits ≤ e.symbol) ↔
      2 ^ 15 < (sym + 1) * 2 ^ (15 - prev) + codeSpaceOf l := by
  induction l generalizing prev sym with
  | nil => simpa [assignAfter, codeSpaceOf] using symbol_overflows_iff sym h15
  | cons c l ih =>
    obtain ⟨c, b⟩ := c
    rw [List.pairwise_cons] at hs
    obtain ⟨hb, hb15⟩ := hl (c, b) List.mem_cons_self
    have hspace : codeSpaceOf ((c, b) :: l) = 2 ^ (15 - b) + codeSpaceOf l := by
      rw [codeSpaceOf, List.map_cons, List.sum_cons, codeSpace_of_pos (by omega)]; rfl
    have hrest := ih (sym := (sym + 1) <<< (b - prev)) hs.2 (by omega) hb15
      fun x hx => ⟨hs.1 x hx, (hl x (List.mem_cons_of_mem _ hx)).2⟩
    rw [next_symbol_end sym hb hb15, Nat.add_assoc, ← hspace] at hrest
    rw [← hrest, assignAfter]
    simp only [List.mem_cons, exists_eq_or_imp]
    exact ⟨fun h => h.elim (fun h => .inl (next_symbol_overflows hb h)) id, .inr⟩

/-- MALFORMED says that the used codes take up more than the code space (R206). -/
theorem tableOf_malformed_iff_codeSpace (lens : List Nat) :
    (tableOf lens).malformed = true ↔ 2 ^ 15 < codeSpaceOf (sortedLengths lens) := by
  have hs : (sortedLengths lens).Pairwise fun x y => x.2 ≤ y.2 := (sortedLengths_pairwise lens).imp fun h => by omega
  have hr : ∀ x ∈ sortedLengths lens, 1 ≤ x.2 ∧ x.2 ≤ 15 := fun _ hx => (mem_sortedLengths.mp hx).2
  rw [tableOf_malformed_iff]
  show (∃ e ∈ assignSymbols (sortedLengths lens), _) ↔ _
  generalize sortedLengths lens = l at hs hr
  cases l with
  | nil => simp [assignSymbols, codeSpaceOf]
  | cons c l =>
    obtain ⟨c, b⟩ := c
    rw [List.pairwise_cons] at hs
    obtain ⟨hb1, hb15⟩ := hr (c, b) List.mem_cons_self
    have h := assignAfter_overflows_iff (sym := 0) hs.2 hb1 hb15
      fun x hx => ⟨hs.1 x hx, (hr x (List.mem_cons_of_mem _ hx)).2⟩
    rw [Nat.zero_add, Nat.one_mul, ← codeSpace_of_pos hb1] at h
    simp only [assignSymbols, List.mem_cons, exists_eq_or_imp]
    exact h

/-- The sorted list is the used codes of the length list in another order (R203). -/
theorem sortedLengths_perm (lens : List Nat) :
    (sortedLengths lens).Perm ((codedLengths lens).filter fun x => 1 ≤ x.2 ∧ x.2 ≤ 15) := by
  have hcoded : (codedLengths lens).Nodup := by
    refine List.Nodup.of_map Prod.fst ?_
    rw [codedLengths, List.map_fst_zip (by simp)]
    exact List.nodup_range
  have hsorted : (sortedLengths lens).Nodup :=
    (sortedLengths_pairwise lens).imp fun {x y} h (hxy : x = y) => by subst hxy; omega
  refine (List.perm_ext_iff_of_nodup hsorted (hcoded.filter _)).mpr fun ⟨c, b⟩ => ?_
  rw [mem_sortedLengths, List.mem_filter, mem_codedLengths, decide_eq_true_eq]

/-- The code space of the used codes is that of all lengths. -/
theorem codeSpaceOf_sortedLengths {lens : List Nat} (h : ∀ b ∈ lens, b ≤ 15) :
    codeSpaceOf (sortedLengths lens) = (lens.map codeSpace).sum := by
  have hall : ((codedLengths lens).map fun c => codeSpace c.2) = lens.map codeSpace := by
    conv_rhs => rw [← List.map_snd_zip (l₁ := List.range lens.length) (l₂ := lens) (by simp), List.map_map]
    rfl
  have hunused :
      (((codedLengths lens).filter fun x => ¬ (1 ≤ x.2 ∧ x.2 ≤ 15)).map fun c => codeSpace c.2).sum = 0 := by
    refine List.sum_eq_zero ?_
    simp only [List.mem_map, List.mem_filter, decide_eq_true_eq]
    rintro _ ⟨⟨c, b⟩, ⟨hmem, hb⟩, rfl⟩
    have := h b (List.mem_of_getElem? (mem_codedLengths.mp hmem))
    exact if_pos (by omega)
  have hsplit := List.sum_map_filter_add_sum_map_filter_not (fun x : Nat × Nat => 1 ≤ x.2 ∧ x.2 ≤ 15)
    (fun c => codeSpace c.2) (codedLengths lens)
  rw [hunused, Nat.add_zero, hall] at hsplit
  rw [codeSpaceOf, ((sortedLengths_perm lens).map _).sum_eq, hsplit]

/-- Settles O39: the symbols count the code space taken up, so that one overflows when the space does. -/
theorem malformedIffOversubscribed : Obligations.MalformedIffOversubscribed := by
  unfold Obligations.MalformedIffOversubscribed
  intro lens h
  rw [tableOf_malformed_iff_codeSpace, codeSpaceOf_sortedLengths h]
  rfl

/-! ## No code begins another (R216) -/

/-- Of a table that is not malformed at most one entry's code stands at the start of given bits. -/
theorem tableOf_match_unique {lens : List Nat} (hm : (tableOf lens).malformed = false) {bs : List Bool} {x y : Entry}
    (hx : x ∈ (tableOf lens).entries) (hy : y ∈ (tableOf lens).entries)
    (hxm : bs.take x.bits = entryBits x) (hym : bs.take y.bits = entryBits y) : x = y := by
  obtain ⟨i, hi, rfl⟩ := List.getElem_of_mem hx
  obtain ⟨j, hj, rfl⟩ := List.getElem_of_mem hy
  have hno := List.pairwise_iff_getElem.mp (tableOf_no_earlier (bs := bs) hm)
  obtain hij | rfl | hji := Nat.lt_trichotomy i j
  · exact absurd hxm (hno i j hi hj hij hym)
  · rfl
  · exact absurd hym (hno j i hj hi hji hxm)

@[simp] theorem length_entryBits (e : Entry) : (entryBits e).length = e.bits := length_msbBits _ _

/-- Settles O38: the bits of the longer code have both codes at their start. -/
theorem codesAreUniquelyDecodable : Obligations.CodesAreUniquelyDecodable := by
  unfold Obligations.CodesAreUniquelyDecodable
  intro lens hm x hx y hy rest h
  have hxm : (entryBits y).take x.bits = entryBits x := by rw [h, List.take_left' (length_entryBits x)]
  have hym : (entryBits y).take y.bits = entryBits y := List.take_of_length_le (length_entryBits y).le
  have hxy : x = y := tableOf_match_unique hm hx hy hxm hym
  subst hxy
  exact ⟨rfl, List.self_eq_append_right.mp h⟩

end Sys2Proof.Machine
end

section
/-! PROOFS. FIND (R210 to R215): the symbol match as an instruction by itself. -/

namespace Sys2Proof.Machine

open Sys2Proof

/-- Settles O40: the search passes every earlier entry, whose code does not stand next (R216), and takes this one. -/
theorem findReturnsMatchingCode : Obligations.FindReturnsMatchingCode := by
  unfold Obligations.FindReturnsMatchingCode
  exact fun _ _ _ _ _ hs hmode ht hm he hu => exec_find_of_match hs hmode ht hm he hu

/-- FIND in a malformed or an empty table (R212, R213). -/
theorem exec_find_of_malformed_or_empty {id : TableId} {s : State}
    (h : (s.tables.get id).malformed = true ∨ (s.tables.get id).entries = []) :
    exec (.find id) s = .next (errorEntry .symbolNotFound s.bitPos s) := by
  show finishValue s (findNextSymbol id s) = _
  rw [findNextSymbol_of_malformed_or_empty h]; rfl

/-- Settles O41: MALFORMED is tested before any peek. -/
theorem findInMalformedTableRaises : Obligations.FindInMalformedTableRaises := by
  unfold Obligations.FindInMalformedTableRaises
  exact fun _ _ hm => exec_find_of_malformed_or_empty (.inl hm)

/-- Settles O42: a search without a match compares every entry, or stops at the first one longer than the input left. -/
theorem findWithoutMatch : Obligations.FindWithoutMatch := by
  unfold Obligations.FindWithoutMatch
  refine fun id lens s hs hmode ht hm => ⟨fun hempty => ?empty, fun hno => ?none, fun hno hlong => ?short⟩
  case empty => exact exec_find_of_malformed_or_empty (.inr (by rw [ht, hempty]))
  case none =>
    obtain ⟨n, hn, hfind⟩ := findNextSymbol_none hs.1 hmode ht hm hno
    have hexec : exec (.find id) s = .next (errorEntry .symbolNotFound s.bitPos (s.afterRefill n)) := by
      show finishValue s (findNextSymbol id s) = _
      rw [hfind]; rfl
    exact ⟨_, hexec, rfl, rfl, afterRefill_bitPos n s, afterRefill_upcoming hn, rfl⟩
  case short => exact finish_short s (findNextSymbol_short hs.1 hmode ht hm hno hlong)

end Sys2Proof.Machine
end

section
/-! PROOFS. The gzip container (R251 to R275): each header element is one read and what it does with the field, the
trailer two reads behind the pad bits. -/

namespace Sys2Proof.Machine

open Sys2Proof

/-! ## An element that reads a field first -/

/-- An element whose next operation is a read goes on with the field where it is all there (R165). -/
theorem finish_readBits {n : Nat} {s₀ s : State} (hs : s.reader.ok) (h32 : n ≤ 32) (hn : n ≤ s.upcoming.length)
    (f : Nat → State → Res Unit) :
    finish s₀ ((readBits n s).bind f) = finish s₀ (f (s.nextField n) (s.afterRead n)) := by
  rw [readBits_eq hs.1 h32 hn, Res.bind_ok]

/-- Where the field is not all there, the element stops at the field's start (R164, R471, R521). -/
theorem finish_readBits_short {n : Nat} {s₀ s : State} (hs : s.reader.ok) (h32 : n ≤ 32) (hn : s.upcoming.length < n)
    (f : Nat → State → Res Unit) : finish s₀ ((readBits n s).bind f) = shortOf s₀ s :=
  finish_short s (readBits_short hs.1 h32 hn)

/-- A raise behind a field stands at the field's end (R486). -/
theorem finish_raiseHere_afterRead {s₀ s : State} (hs : s.reader.ok) (n : Nat) (k : ErrKind) :
    finish s₀ (raiseHere k (s.afterRead n)) = .next (errorEntry k (s.bitPos + n) (s.afterRead n)) := by
  rw [← afterRead_bitPos hs]; rfl

/-! ## The magic, the method and the flag byte -/

/-- With the right magic, `GZ_MAGIC` ends as its switch of the bit order does (R251, R252). -/
theorem exec_gzMagic_of_magic {s : State} (hs : s.reader.ok) (hn : 16 ≤ s.upcoming.length)
    (hv : s.nextField 16 = 0x1F8B) : exec .gzMagic s =
      finish s ((setMode .lsb (s.afterRead 16)).bind fun _ u => .ok () (u.setPhase .cm)) := by
  show finish s (gzMagic s) = _
  rw [gzMagic, finish_readBits hs (by decide) hn, if_neg (not_not.mpr hv)]

/-- Settles O11: one read of 16 bits, then the switch, which is refused where the read leaves bits buffered. -/
theorem magicSelectsLsbFirst : Obligations.MagicSelectsLsbFirst := by
  unfold Obligations.MagicSelectsLsbFirst
  refine fun s hs => ⟨fun hn hv hc => ?magic, fun hn hv hc => ?buffered, fun hn hv => ?other, fun hn => ?short⟩
  case magic => rw [exec_gzMagic_of_magic hs hn hv, setMode_of_empty hc]; rfl
  case buffered => rw [exec_gzMagic_of_magic hs hn hv, setMode_of_buffered hc]; rfl
  case other =>
    show finish s (gzMagic s) = _
    rw [gzMagic, finish_readBits hs (by decide) hn, if_pos hv, finish_raiseHere_afterRead hs]
  case short => exact finish_readBits_short hs (by decide) hn _

/-- Settles O12: one read of a byte, compared with 8. -/
theorem methodMustBeEight : Obligations.MethodMustBeEight := by
  unfold Obligations.MethodMustBeEight
  refine fun s hs => ⟨fun hn hv => ?eight, fun hn hv => ?other, fun hn => ?short⟩
  case eight =>
    show finish s (gzCm s) = _
    rw [gzCm, finish_readBits hs (by decide) hn, if_neg (not_not.mpr hv)]; rfl
  case other =>
    show finish s (gzCm s) = _
    rw [gzCm, finish_readBits hs (by decide) hn, if_pos hv, finish_raiseHere_afterRead hs]
  case short => exact finish_readBits_short hs (by decide) hn _

/-- Settles O13: one read of a byte, which FLG takes. -/
theorem flagByteIsKept : Obligations.FlagByteIsKept := by
  unfold Obligations.FlagByteIsKept
  exact fun s hs => ⟨fun hn => finish_readBits hs (by decide) hn _, fun hn => finish_readBits_short hs (by decide) hn _⟩

/-! ## The discarded fields -/

/-- A discarded field leaves the state after its read, in the next phase. -/
theorem finish_skipField {n : Nat} {s : State} (hs : s.reader.ok) (h32 : n ≤ 32) (hn : n ≤ s.upcoming.length)
    (p : Phase) : finish s (skipField n p s) = .next ((s.afterRead n).setPhase p) :=
  finish_readBits hs h32 hn _

theorem finish_skipField_short {n : Nat} {s : State} (hs : s.reader.ok) (h32 : n ≤ 32) (hn : s.upcoming.length < n)
    (p : Phase) : finish s (skipField n p s) = shortOf s s :=
  finish_readBits_short hs h32 hn _

/-- Settles O14: the three elements are discarded fields of 32, 8 and 16 bits. -/
theorem headerFieldsAreDiscarded : Obligations.HeaderFieldsAreDiscarded := by
  unfold Obligations.HeaderFieldsAreDiscarded
  exact fun s hs => ⟨
    fun hn => finish_skipField hs (by decide) hn .xfl, fun hn => finish_skipField_short hs (by decide) hn .xfl,
    fun hn => finish_skipField hs (by decide) hn .os, fun hn => finish_skipField_short hs (by decide) hn .os,
    fun hn => finish_skipField hs (by decide) hn .blkhdr, fun hn => finish_skipField_short hs (by decide) hn .blkhdr⟩

/-! ## The optional fields (R255, R263) -/

theorem nextHdrPhase_os (f : BitVec 8) : nextHdrPhase .os f =
    if f.getLsbD 3 then .fname else if f.getLsbD 4 then .fcomment else if f.getLsbD 1 then .fhcrc else .blkhdr := by
  simp [nextHdrPhase, flgFname, flgFcomment, flgFhcrc]

theorem nextHdrPhase_fname (f : BitVec 8) : nextHdrPhase .fname f =
    if f.getLsbD 4 then .fcomment else if f.getLsbD 1 then .fhcrc else .blkhdr := by
  simp [nextHdrPhase, flgFcomment, flgFhcrc]

theorem nextHdrPhase_fcomment (f : BitVec 8) : nextHdrPhase .fcomment f =
    if f.getLsbD 1 then .fhcrc else .blkhdr := by
  simp [nextHdrPhase, flgFhcrc]

/-- The check passes with FEXTRA clear (R259). -/
theorem gzFextra_of_clear {s : State} (h : s.seq.flg.getLsbD 2 = false) : gzFextra s = .ok () s :=
  if_neg (Bool.eq_false_iff.mp h)

/-- The check raises with FEXTRA set (R259). -/
theorem gzFextra_of_set {s : State} (h : s.seq.flg.getLsbD 2 = true) :
    gzFextra s = raiseHere .unsupportedFeature s := if_pos h

/-- With its byte there, `GZ_OS` ends as the FEXTRA check behind it does (R258). -/
theorem exec_gzOs_eq {s : State} (hs : s.reader.ok) (hn : 8 ≤ s.upcoming.length) : exec .gzOs s =
    finish s ((gzFextra (s.afterRead 8)).bind fun _ u => .ok () (u.setPhase (nextHdrPhase .os u.seq.flg))) :=
  finish_readBits hs (by decide) hn _

/-- Settles O15: the check after the OS byte reads the FLG that the element found. -/
theorem osByteChecksExtraFlag : Obligations.OsByteChecksExtraFlag := by
  unfold Obligations.OsByteChecksExtraFlag
  refine fun s hs => ⟨fun hn hf => ?clear, fun hn hf => ?set, fun hn => ?short, fun hf => ?checkClear,
    fun hf => ?checkSet⟩
  case clear =>
    rw [exec_gzOs_eq hs hn, gzFextra_of_clear (s := s.afterRead 8) hf, Res.bind_ok, nextHdrPhase_os]; rfl
  case set =>
    rw [exec_gzOs_eq hs hn, gzFextra_of_set (s := s.afterRead 8) hf]
    exact finish_raiseHere_afterRead hs 8 .unsupportedFeature
  case short => exact finish_readBits_short hs (by decide) hn _
  case checkClear =>
    show finish s (gzFextra s) = _
    rw [gzFextra_of_clear hf]; rfl
  case checkSet =>
    show finish s (gzFextra s) = _
    rw [gzFextra_of_set hf]; rfl

/-- A string byte other than 0 is read and nothing more (R260, R261). -/
theorem finish_stringByte_nonzero {s : State} (hs : s.reader.ok) (hn : 8 ≤ s.upcoming.length) (hv : s.nextField 8 ≠ 0)
    (p : Phase) : finish s (stringByte p s) = .next (s.afterRead 8) := by
  rw [stringByte, finish_readBits hs (by decide) hn, if_neg hv]; rfl

/-- The byte 0 ends the string (R260, R261, R263). -/
theorem finish_stringByte_zero {s : State} (hs : s.reader.ok) (hn : 8 ≤ s.upcoming.length) (hv : s.nextField 8 = 0)
    (p : Phase) : finish s (stringByte p s) = .next ((s.afterRead 8).setPhase (nextHdrPhase p s.seq.flg)) := by
  rw [stringByte, finish_readBits hs (by decide) hn, if_pos hv]; rfl

theorem finish_stringByte_short {s : State} (hs : s.reader.ok) (hn : s.upcoming.length < 8) (p : Phase) :
    finish s (stringByte p s) = shortOf s s :=
  finish_readBits_short hs (by decide) hn _

/-- Settles O16: both elements are a string byte, of the name and of the comment. -/
theorem headerStringsEndAtZero : Obligations.HeaderStringsEndAtZero := by
  unfold Obligations.HeaderStringsEndAtZero
  refine fun s hs => ⟨fun hn hv => ?nonzero, fun hn hv => ?zero, fun hn => ?short⟩
  case nonzero => exact ⟨finish_stringByte_nonzero hs hn hv .fname, finish_stringByte_nonzero hs hn hv .fcomment⟩
  case zero =>
    rw [← nextHdrPhase_fname, ← nextHdrPhase_fcomment]
    exact ⟨finish_stringByte_zero hs hn hv .fname, finish_stringByte_zero hs hn hv .fcomment⟩
  case short => exact ⟨finish_stringByte_short hs hn .fname, finish_stringByte_short hs hn .fcomment⟩

/-! ## The trailer -/

/-- Behind the pad bits, which are always there, `GZ_TRAILER` is its two reads (R270). -/
theorem exec_gzTrailer_eq {s : State} (hs : s.reader.ok) : exec .gzTrailer s =
    finish s ((readBits 32 (s.afterRead (s.reader.cnt % 8))).bind fun crc u =>
      (readBits 32 u).bind fun isize v => .ok () (complete crc isize v)) := by
  show finish s (gzTrailer s) = _
  rw [gzTrailer, alignToByte_eq hs.1, Res.bind_ok]

/-- Behind the first field, it is the read of the second (R270). -/
theorem exec_gzTrailer_of_crc {s : State} (hs : s.reader.ok) (h : s.reader.cnt % 8 + 32 ≤ s.upcoming.length) :
    exec .gzTrailer s = finish s ((readBits 32 (s.afterRead (s.reader.cnt % 8 + 32))).bind fun isize v =>
      .ok () (complete ((s.afterRead (s.reader.cnt % 8)).nextField 32) isize v)) := by
  have hpad := align_le s
  have hcrc : 32 ≤ (s.afterRead (s.reader.cnt % 8)).upcoming.length := by rw [length_afterRead hpad]; omega
  rw [exec_gzTrailer_eq hs, finish_readBits (afterRead_ok hs hpad) (by decide) hcrc, afterRead_afterRead hpad]

/-- Settles O17: the registers are written behind both reads, so a missing field leaves them as they were. -/
theorem trailerIsCapturedUnchecked : Obligations.TrailerIsCapturedUnchecked := by
  unfold Obligations.TrailerIsCapturedUnchecked
  refine fun s hs => ⟨fun h => ?captured, fun h => ?noCrc, fun hcrc h => ?noIsize⟩
  case captured =>
    have hcrc : s.reader.cnt % 8 + 32 ≤ s.upcoming.length := by omega
    have hisize : 32 ≤ (s.afterRead (s.reader.cnt % 8 + 32)).upcoming.length := by rw [length_afterRead hcrc]; omega
    rw [exec_gzTrailer_of_crc hs hcrc, finish_readBits (afterRead_ok hs hcrc) (by decide) hisize,
      afterRead_afterRead hcrc]
    rfl
  case noCrc =>
    have hpad := align_le s
    rw [exec_gzTrailer_eq hs]
    exact finish_readBits_short (afterRead_ok hs hpad) (by decide) (by rw [length_afterRead hpad]; omega) _
  case noIsize =>
    rw [exec_gzTrailer_of_crc hs hcrc]
    exact finish_readBits_short (afterRead_ok hs hcrc) (by decide) (by rw [length_afterRead hcrc]; omega) _

end Sys2Proof.Machine
end

section
/-! PROOFS. The block header and the continuations it selects (R291 to R295). -/

namespace Sys2Proof.Machine

open Sys2Proof

/-! ## Both tables of a fixed block (R293) -/

/-- The event that an operation sends, if the sink is present, written out (R495). -/
theorem sendDiag_eq_withDiag (k : DiagKind) (s : State) :
    sendDiag k s = s.withDiag (s.diag ++ if s.params.diagPresent then [⟨s.bitPos, k⟩] else []) := by
  cases hp : s.params.diagPresent with
  | false => rw [sendDiag_absent hp, if_neg (by decide), List.append_nil]; rfl
  | true => rw [sendDiag_present hp, if_pos rfl]

/-- `s` with both block tables built, the first symbol next: how a fixed block begins. The tables are arguments, so that
no comparison of two such states evaluates the fixed ones. -/
def withBlockTables (ll d : Table) (s : State) : State :=
  ((s.withTables { s.tables with ll := ll, d := d }).withDiag (s.diag ++ if s.params.diagPresent then
    [⟨s.bitPos, .tableBuilt⟩, ⟨s.bitPos, .tableBuilt⟩] else [])).setPhase .symbol

/-- Two builds in a row send their events from one bit position (R209, R495). -/
theorem sendDiag_builds_eq (s : State) (ts ts' : Tables) :
    sendDiag .tableBuilt ((sendDiag .tableBuilt (s.withTables ts)).withTables ts') =
      (s.withTables ts').withDiag (s.diag ++ if s.params.diagPresent then
        [⟨s.bitPos, .tableBuilt⟩, ⟨s.bitPos, .tableBuilt⟩] else []) := by
  rw [sendDiag_eq_withDiag, sendDiag_eq_withDiag]
  show (s.withTables ts').withDiag ((s.diag ++ if s.params.diagPresent then [⟨s.bitPos, .tableBuilt⟩] else []) ++
    if s.params.diagPresent then [⟨s.bitPos, .tableBuilt⟩] else []) = _
  cases s.params.diagPresent <;> simp

/-- BLK_FIXED, run by itself or by the header, completes (R293). -/
theorem finish_blkFixed (s₀ s : State) : finish s₀ (blkFixed s) =
    .next (withBlockTables (tableOf (expandRanges fixedLL)) (tableOf (expandRanges fixedD)) s) := by
  rw [blkFixed_eq, sendDiag_builds_eq]; rfl

theorem exec_blkFixed_eq (s : State) : exec .blkFixed s =
    .next (withBlockTables (tableOf (expandRanges fixedLL)) (tableOf (expandRanges fixedD)) s) :=
  finish_blkFixed s s

/-- Settles O19: three of the four continuations are one write or a raise; the second builds two tables. -/
theorem blockTypesContinue : Obligations.BlockTypesContinue := by
  unfold Obligations.BlockTypesContinue
  refine fun s => ⟨rfl, ⟨_, exec_blkFixed_eq s, ?fixed⟩, rfl, rfl⟩
  have hll := fixedLL_wellFormed
  have hd := fixedD_wellFormed
  generalize tableOf (expandRanges fixedLL) = ll at hll ⊢
  generalize tableOf (expandRanges fixedD) = d at hd ⊢
  exact ⟨rfl, rfl, rfl, rfl, rfl, rfl, rfl, hll, hd, rfl, rfl⟩

/-! ## The header (R291) -/

/-- The continuation that a block type selects (R291). -/
def continueBlock (btype : Nat) (s : State) : Res Unit :=
  match btype with
  | 0 => blkStored s
  | 1 => blkFixed s
  | 2 => blkDynamic s
  | _ => blkReserved s

/-- The header's two registers take their fields before the continuation runs. -/
theorem blkhdr_eq (s : State) : blkhdr s = (readBits 1 (sendDiag .blockStart s)).bind fun f t =>
    (readBits 2 t).bind fun ty u =>
      continueBlock ty (u.withSeq { u.seq with bfinal := f == 1, btype := BitVec.ofNat 2 ty }) := rfl

theorem nextField_afterRead_sendDiag (k : DiagKind) (n m : Nat) (s : State) :
    ((sendDiag k s).afterRead n).nextField m = (s.afterRead n).nextField m := by
  obtain ⟨d, hd⟩ := sendDiag_withDiag k s
  rw [hd]; rfl

/-- The state in which the continuation of BLKHDR runs. -/
def headerRead (s : State) : State :=
  ((sendDiag .blockStart s).afterRead 3).withSeq { s.seq with
    bfinal := s.nextField 1 == 1, btype := BitVec.ofNat 2 ((s.afterRead 1).nextField 2) }

theorem headerRead_bitPos {s : State} (hs : s.reader.ok) : (headerRead s).bitPos = s.bitPos + 3 := by
  show ((sendDiag .blockStart s).afterRead 3).bitPos = _
  rw [afterRead_bitPos (sendDiag_ok hs), sendDiag_bitPos]

/-- With BFINAL there, BLKHDR is the read of BTYPE and what follows it. -/
theorem exec_blkhdr_of_bfinal {s : State} (hs : s.reader.ok) (hn : 1 ≤ s.upcoming.length) : exec .blkhdr s =
    finish s ((readBits 2 ((sendDiag .blockStart s).afterRead 1)).bind fun ty u =>
      continueBlock ty (u.withSeq { u.seq with bfinal := s.nextField 1 == 1, btype := BitVec.ofNat 2 ty })) := by
  show finish s (blkhdr s) = _
  rw [blkhdr_eq, finish_readBits (sendDiag_ok hs) (by decide) (by rwa [sendDiag_upcoming]), sendDiag_nextField]

/-- With its three bits there, BLKHDR ends as the continuation of its type does. -/
theorem exec_blkhdr_of_header {s : State} (hs : s.reader.ok) (hn : 3 ≤ s.upcoming.length) : exec .blkhdr s =
    finish s (continueBlock ((s.afterRead 1).nextField 2) (headerRead s)) := by
  have h1 : 1 ≤ (sendDiag .blockStart s).upcoming.length := by rw [sendDiag_upcoming]; omega
  have h2 : 2 ≤ ((sendDiag .blockStart s).afterRead 1).upcoming.length := by
    rw [length_afterRead h1, sendDiag_upcoming]; omega
  rw [exec_blkhdr_of_bfinal hs (by omega), finish_readBits (afterRead_ok (sendDiag_ok hs) h1) (by decide) h2,
    nextField_afterRead_sendDiag, afterRead_afterRead h1, State.afterRead_seq, sendDiag_seq]
  rfl

/-- Settles O18: two reads behind the event, then the type's continuation. -/
theorem blockHeaderSelectsContinuation : Obligations.BlockHeaderSelectsContinuation := by
  unfold Obligations.BlockHeaderSelectsContinuation
  refine fun s hs => ⟨?header, fun hn => ?noBfinal, fun h1 hn => ?noBtype⟩
  case header =>
    rintro hn t (rfl : t = headerRead s)
    rw [exec_blkhdr_of_header hs hn]
    refine ⟨fun ht => ?stored, fun ht => ?fixed, fun ht => ?dynamic, fun ht => ?reserved⟩
    case stored => rw [ht]; rfl
    case fixed =>
      rw [ht, exec_blkFixed_eq]
      exact ⟨finish_blkFixed s (headerRead s), _, finish_blkFixed s (headerRead s)⟩
    case dynamic => rw [ht]; rfl
    case reserved => rw [ht, ← headerRead_bitPos hs]; rfl
  case noBfinal =>
    exact finish_readBits_short (sendDiag_ok hs) (by decide) (by rw [sendDiag_upcoming]; omega) _
  case noBtype =>
    have h1' : 1 ≤ (sendDiag .blockStart s).upcoming.length := by rwa [sendDiag_upcoming]
    rw [exec_blkhdr_of_bfinal hs h1]
    exact finish_readBits_short (afterRead_ok (sendDiag_ok hs) h1') (by decide)
      (by rw [length_afterRead h1', sendDiag_upcoming]; omega) _

end Sys2Proof.Machine
end

section
/-! PROOFS. Stored blocks (R296 to R298): the header behind the pad bits, and the copied bytes. -/

namespace Sys2Proof.Machine

open Sys2Proof

/-! ## The stored header (R296) -/

theorem nlenOk_iff (c : NlenCheck) (len nlen : Nat) : nlenOk c len nlen = true ↔
    (c = .andZero ∧ len &&& nlen = 0) ∨ (c = .exactComplement ∧ nlen = 0xFFFF - len) := by
  cases c <;> simp [nlenOk]

theorem nlenOk_eq_false_iff (c : NlenCheck) (len nlen : Nat) : nlenOk c len nlen = false ↔
    (c = .andZero ∧ len &&& nlen ≠ 0) ∨ (c = .exactComplement ∧ nlen ≠ 0xFFFF - len) := by
  cases c <;> simp [nlenOk]

/-- What STORED_HDR does behind its two fields: the test, and the first phase of the block's data (R296, R298). -/
def beginStored (len nlen : Nat) (s : State) : Res Unit :=
  if nlenOk s.params.nlenCheck len nlen then
    .ok () (if len = 0 then blockEnd (s.withSeq { s.seq with storedRem := BitVec.ofNat 16 len })
      else (s.withSeq { s.seq with storedRem := BitVec.ofNat 16 len }).setPhase .storedData)
  else raiseHere .lengthMismatch s

theorem storedHdr_eq (s : State) : storedHdr s = (alignToByte s).bind fun _ t =>
    (readBits 16 t).bind fun len u => (readBits 16 u).bind fun nlen v => beginStored len nlen v := rfl

theorem beginStored_of_nonempty {len nlen : Nat} {s : State} (h : nlenOk s.params.nlenCheck len nlen = true)
    (hlen : len ≠ 0) : beginStored len nlen s =
      .ok () ((s.withSeq { s.seq with storedRem := BitVec.ofNat 16 len }).setPhase .storedData) := by
  rw [beginStored, if_pos h, if_neg hlen]

theorem beginStored_of_empty {len nlen : Nat} {s : State} (h : nlenOk s.params.nlenCheck len nlen = true)
    (hlen : len = 0) : beginStored len nlen s =
      .ok () ((sendDiag .blockEnd (s.withSeq { s.seq with storedRem := BitVec.ofNat 16 len })).setPhase
        (if s.seq.bfinal then .trailer else .blkhdr)) := by
  rw [beginStored, if_pos h, if_pos hlen, blockEnd_eq]; rfl

theorem beginStored_of_mismatch {len nlen : Nat} {s : State} (h : nlenOk s.params.nlenCheck len nlen = false) :
    beginStored len nlen s = raiseHere .lengthMismatch s := by
  rw [beginStored, h]; rfl

/-- Behind the pad bits, which are always there, STORED_HDR is its two reads and the test. -/
theorem exec_storedHdr_eq {s : State} (hs : s.reader.ok) : exec .storedHdr s =
    finish s ((readBits 16 (s.afterRead (s.reader.cnt % 8))).bind fun len u =>
      (readBits 16 u).bind fun nlen v => beginStored len nlen v) := by
  show finish s (storedHdr s) = _
  rw [storedHdr_eq, alignToByte_eq hs.1, Res.bind_ok]

/-- With LEN and NLEN there, it ends as the test does. -/
theorem exec_storedHdr_of_fields {s a : State} (hs : s.reader.ok) (ha : a = s.afterRead (s.reader.cnt % 8))
    (hn : 32 ≤ a.upcoming.length) : exec .storedHdr s =
      finish s (beginStored (a.nextField 16) ((a.afterRead 16).nextField 16) (a.afterRead 32)) := by
  have hok : a.reader.ok := ha ▸ afterRead_ok hs (align_le s)
  have h16 : 16 ≤ a.upcoming.length := by omega
  have hn16 : 16 ≤ (a.afterRead 16).upcoming.length := by rw [length_afterRead h16]; omega
  rw [exec_storedHdr_eq hs, ← ha, finish_readBits hok (by decide) h16,
    finish_readBits (afterRead_ok hok h16) (by decide) hn16, afterRead_afterRead h16]

/-- Settles O21: the pad bits, two reads, and the test that NLEN_CHECK selects. -/
theorem storedHeaderChecksLength : Obligations.StoredHeaderChecksLength := by
  unfold Obligations.StoredHeaderChecksLength
  rintro s a _ _ hs ha rfl rfl
  have hok : a.reader.ok := ha ▸ afterRead_ok hs (align_le s)
  have hseq : (a.afterRead 32).seq = s.seq := by rw [ha]; rfl
  have hparams : (a.afterRead 32).params = s.params := by rw [ha]; rfl
  refine ⟨fun hn => ⟨?passes, fun hbad => ?mismatch⟩, fun hn => ?noLen, fun h16 hn => ?noNlen⟩
  case passes =>
    rintro _ rfl hgood
    rw [exec_storedHdr_of_fields hs ha hn]
    rw [← hparams, ← nlenOk_iff] at hgood
    refine ⟨fun hlen => ?_, fun hlen => ?_⟩
    · rw [beginStored_of_nonempty hgood hlen, hseq]; rfl
    · rw [beginStored_of_empty hgood hlen, hseq]; rfl
  case mismatch =>
    rw [← hparams, ← nlenOk_eq_false_iff] at hbad
    rw [exec_storedHdr_of_fields hs ha hn, beginStored_of_mismatch hbad]
    exact finish_raiseHere_afterRead hok 32 .lengthMismatch
  case noLen =>
    rw [exec_storedHdr_eq hs, ← ha]
    exact finish_readBits_short hok (by decide) hn _
  case noNlen =>
    rw [exec_storedHdr_eq hs, ← ha, finish_readBits hok (by decide) h16]
    exact finish_readBits_short (afterRead_ok hok h16) (by decide) (by rw [length_afterRead h16]; omega) _

/-! ## A stored byte (R297) -/

theorem countStored_of_more {s : State} (h : s.seq.storedRem ≠ 1) :
    countStored s = s.withSeq { s.seq with storedRem := s.seq.storedRem - 1 } :=
  if_neg (sub_ne_zero.mpr h)

theorem countStored_of_last {s : State} (h : s.seq.storedRem = 1) : countStored s =
    (sendDiag .blockEnd (s.withSeq { s.seq with storedRem := s.seq.storedRem - 1 })).setPhase
      (if s.seq.bfinal then .trailer else .blkhdr) := by
  rw [countStored, if_pos (sub_eq_zero.mpr h), blockEnd_eq]; rfl

/-- With its byte there, STORED_BYTE appends it, counts it and offers it. -/
theorem exec_storedByte_eq {s : State} (hs : s.reader.ok) (hn : 8 ≤ s.upcoming.length) : exec .storedByte s =
    .next (emit [BitVec.ofNat 8 (s.nextField 8)]
      (countStored (outAppend (BitVec.ofNat 8 (s.nextField 8)) (s.afterRead 8)))) := by
  show finish s (storedByte s) = _
  rw [storedByte_eq, finish_readBits hs (by decide) hn]; rfl

/-- Settles O22: one read of a byte, then the count, which ends the block or not. -/
theorem storedByteIsCopied : Obligations.StoredByteIsCopied := by
  unfold Obligations.StoredByteIsCopied
  refine fun s hs _ => ⟨?byte, fun hn => finish_readBits_short hs (by decide) hn _⟩
  rintro hn _ _ rfl rfl
  rw [exec_storedByte_eq hs hn]
  refine ⟨fun hrem => ?more, fun hrem => ?last⟩
  case more => rw [countStored_of_more (s := outAppend _ (s.afterRead 8)) hrem]; rfl
  case last =>
    rw [countStored_of_last (s := outAppend _ (s.afterRead 8)) hrem, emit, State.setPhase_ports,
      sendDiag_ports]
    rfl

end Sys2Proof.Machine
end

section
/-! PROOFS. The header of a dynamic block (R300 to R303): three counts, the code-length lengths in the slots of the
permutation, and T_CL built from them. -/

namespace Sys2Proof.Machine

open Sys2Proof

/-! ## The slots of CL_LEN (R301, R302) -/

/-- CL_LEN with the first `k` lengths to come in `s` read: each in the slot of its place, and 0 in the other slots. -/
def HoldsLengths (s : State) (k : Nat) (clLen : Vector (BitVec 3) 19) : Prop :=
  (∀ i : Nat, i < k →
    (clLen.toList[clOrder.getD i 0]?).map BitVec.toNat = some ((s.afterRead (3 * i)).nextField 3)) ∧
  (∀ i : Nat, k ≤ i → i < 19 → (clLen.toList[clOrder.getD i 0]?).map BitVec.toNat = some 0)

theorem clOrder_take_nodup (n : Nat) : (clOrder.take n).Nodup := clOrder_nodup.sublist (List.take_sublist _ _)

theorem clOrder_take_lt (n : Nat) : ∀ x ∈ clOrder.take n, x < 19 :=
  fun x hx => clOrder_lt x (List.mem_of_mem_take hx)

theorem length_clOrder_take {n : Nat} (h : n ≤ 19) : (clOrder.take n).length = n := by
  rw [List.length_take]; exact Nat.min_eq_left h

theorem getElem_clOrder_take {n i : Nat} (h : i < (clOrder.take n).length) :
    (clOrder.take n)[i] = clOrder.getD i 0 := by
  have hi : i < clOrder.length := Nat.lt_of_lt_of_le h (List.length_take_le' _ _)
  rw [List.getElem_take, List.getD_eq_getElem _ _ hi]

/-- The permutation names no slot twice, so a slot of a later place is not among the earlier ones. -/
theorem clOrder_getD_notMem_take {k i : Nat} (hk : k ≤ i) (hi : i < 19) : clOrder.getD i 0 ∉ clOrder.take k := by
  have hi' : i < clOrder.length := hi
  rw [List.getD_eq_getElem _ _ hi']
  exact fun hmem => List.disjoint_take_drop clOrder_nodup hk hmem
    (List.drop_eq_getElem_cons hi' ▸ List.mem_cons_self)

/-- Slots untouched since CL_LEN was cleared hold 0. -/
theorem unsent_slot_zero {k : Nat} {clLen : Vector (BitVec 3) 19}
    (h : ∀ j, j ∉ clOrder.take k → clLen.toList[j]? = (Vector.replicate 19 (0 : BitVec 3)).toList[j]?)
    (i : Nat) (hk : k ≤ i) (hi : i < 19) : (clLen.toList[clOrder.getD i 0]?).map BitVec.toNat = some 0 := by
  have hslot : clOrder.getD i 0 < 19 := by
    rw [List.getD_eq_getElem _ _ (show i < clOrder.length from hi)]
    exact clOrder_lt _ (List.getElem_mem _)
  rw [h _ (clOrder_getD_notMem_take hk hi), Vector.toList_replicate, List.getElem?_replicate, if_pos hslot]; rfl

/-! ## The code-length lengths and T_CL (R302, R303) -/

/-- What DYN_HDR does behind its three counts. -/
def dynLengths (s : State) : Res Unit :=
  (codeLengthLengths s).bind fun _ w => .ok () ((w.withSeq { w.seq with lensN := 0 }).setPhase .dynLens)

/-- `s` with these code-length lengths, T_CL built from them, and an empty list of lengths to read next. -/
def withClLens (clLen : Vector (BitVec 3) 19) (s : State) : State :=
  (((s.withSeq { s.seq with clLen := clLen, lensN := 0, phase := .dynLens }).withTables
    { s.tables with cl := tableOf (clLen.toList.map BitVec.toNat) }).withDiag
    (s.diag ++ if s.params.diagPresent then [⟨s.bitPos, .tableBuilt⟩] else []))

/-- With every length there, the slots take them and T_CL is built. -/
theorem dynLengths_eq {n : Nat} {s : State} (hs : s.reader.ok) (hclen : s.seq.hclen.toNat = n) (h19 : n ≤ 19)
    (hl : 3 * n ≤ s.upcoming.length) : ∃ clLen : Vector (BitVec 3) 19, HoldsLengths s n clLen ∧
      dynLengths s = .ok () (withClLens clLen (s.afterRead (3 * n))) := by
  have hlen := length_clOrder_take h19
  obtain ⟨u, hread, hu, hsent, hrest⟩ := readClLens_eq (clOrder.take n)
    (s.withSeq { s.seq with clLen := Vector.replicate 19 0 }) hs (by rw [hlen]; exact hl) (clOrder_take_nodup n)
    (clOrder_take_lt n)
  rw [hlen] at hu
  refine ⟨u.seq.clLen, ⟨fun i hi => ?_, unsent_slot_zero hrest⟩, ?_⟩
  · have hi' : i < (clOrder.take n).length := by rwa [hlen]
    rw [← getElem_clOrder_take hi']
    exact hsent i hi'
  · rw [dynLengths, codeLengthLengths, hclen, hread, Res.bind_ok, buildFromLengths_eq (clLens_ok u.seq), Res.bind_ok]
    generalize u.seq.clLen = clLen at hu ⊢
    rw [sendDiag_eq_withDiag, hu]; rfl

/-- Short of a length, it stops at that length's start, with the slots of the earlier ones filled (R94). -/
theorem dynLengths_short {n : Nat} {s : State} (s₀ : State) (hs : s.reader.ok) (hclen : s.seq.hclen.toNat = n)
    (h19 : n ≤ 19) (hl : s.upcoming.length < 3 * n) :
    ∃ (k : Nat) (clLen : Vector (BitVec 3) 19), k < n ∧ HoldsLengths s k clLen ∧
      3 * k ≤ s.upcoming.length ∧ s.upcoming.length < 3 * k + 3 ∧
      finish s₀ (dynLengths s) = shortOf s₀ ((s.afterRead (3 * k)).withSeq { s.seq with clLen := clLen }) := by
  have hlen := length_clOrder_take h19
  obtain ⟨k, t, hk, hstop, hge, hlt, ht, hsent, hrest⟩ := readClLens_short (clOrder.take n)
    (s.withSeq { s.seq with clLen := Vector.replicate 19 0 }) s₀ hs (by rw [hlen]; exact hl) (clOrder_take_nodup n)
    (clOrder_take_lt n)
  rw [List.take_take, Nat.min_eq_left (by omega)] at hrest
  refine ⟨k, t.seq.clLen, by omega, ⟨fun i hi => ?_, unsent_slot_zero hrest⟩, hge, hlt, ?_⟩
  · have hi' : i < (clOrder.take n).length := by omega
    rw [← getElem_clOrder_take hi']
    exact hsent i hi' hi
  · rw [dynLengths, codeLengthLengths, hclen, Res.bind_assoc, hstop]
    exact congrArg (shortOf s₀) ht

/-! ## Reads behind register writes: the reader does not see them -/

@[simp] theorem State.withSeq_upcoming (s : State) (q : Sequencer) : (s.withSeq q).upcoming = s.upcoming := rfl

@[simp] theorem State.withSeq_nextField (n : Nat) (s : State) (q : Sequencer) :
    (s.withSeq q).nextField n = s.nextField n := rfl

@[simp] theorem State.withSeq_afterRead (n : Nat) (s : State) (q : Sequencer) :
    (s.withSeq q).afterRead n = (s.afterRead n).withSeq q := rfl

section
variable {k n : Nat} {s₀ s : State} (hs : s.reader.ok) (h32 : n ≤ 32)
include hs h32

/-- A field that begins `k` bits behind the element's start, with sequencer registers written on the way. -/
theorem finish_readBits_at (hn : k + n ≤ s.upcoming.length) (q : Sequencer) (f : Nat → State → Res Unit) :
    finish s₀ ((readBits n ((s.afterRead k).withSeq q)).bind f) =
      finish s₀ (f ((s.afterRead k).nextField n) ((s.afterRead (k + n)).withSeq q)) := by
  have hk : k ≤ s.upcoming.length := by omega
  have hrest : n ≤ (s.afterRead k).upcoming.length := by rw [length_afterRead hk]; omega
  rw [← afterRead_afterRead hk]
  exact finish_readBits (s := (s.afterRead k).withSeq q) (afterRead_ok hs hk) h32 hrest f

theorem finish_readBits_at_short (hk : k ≤ s.upcoming.length) (hn : s.upcoming.length < k + n) (q : Sequencer)
    (f : Nat → State → Res Unit) :
    finish s₀ ((readBits n ((s.afterRead k).withSeq q)).bind f) = shortOf s₀ ((s.afterRead k).withSeq q) := by
  have hrest : (s.afterRead k).upcoming.length < n := by rw [length_afterRead hk]; omega
  exact finish_readBits_short (s := (s.afterRead k).withSeq q) (afterRead_ok hs hk) h32 hrest f

end

/-! ## The three counts (R300) -/

/-- The registers where HLIT has been read. -/
def hlitSeq (s : State) : Sequencer := { s.seq with hlit := BitVec.ofNat 9 (s.nextField 5 + 257) }

/-- The registers where HDIST has been read, too. -/
def hdistSeq (s : State) : Sequencer :=
  { hlitSeq s with hdist := BitVec.ofNat 6 ((s.afterRead 5).nextField 5 + 1) }

/-- DYN_HDR behind all three counts. -/
def countsRead (s : State) : State :=
  (s.afterRead 14).withSeq { hdistSeq s with hclen := BitVec.ofNat 5 ((s.afterRead 10).nextField 4 + 4) }

theorem dynHdr_eq (s : State) : dynHdr s = (readBits 5 s).bind fun a t =>
    (readBits 5 (t.withSeq { t.seq with hlit := BitVec.ofNat 9 (a + 257) })).bind fun b u =>
      (readBits 4 (u.withSeq { u.seq with hdist := BitVec.ofNat 6 (b + 1) })).bind fun c v =>
        dynLengths (v.withSeq { v.seq with hclen := BitVec.ofNat 5 (c + 4) }) := rfl

section
variable {s : State} (hs : s.reader.ok)
include hs

theorem exec_dynHdr_of_hlit (hn : 5 ≤ s.upcoming.length) : exec .dynHdr s =
    finish s ((readBits 5 ((s.afterRead 5).withSeq (hlitSeq s))).bind fun b u =>
      (readBits 4 (u.withSeq { u.seq with hdist := BitVec.ofNat 6 (b + 1) })).bind fun c v =>
        dynLengths (v.withSeq { v.seq with hclen := BitVec.ofNat 5 (c + 4) })) := by
  show finish s (dynHdr s) = _
  rw [dynHdr_eq, finish_readBits hs (by decide) hn]; rfl

theorem exec_dynHdr_of_hdist (hn : 10 ≤ s.upcoming.length) : exec .dynHdr s =
    finish s ((readBits 4 ((s.afterRead 10).withSeq (hdistSeq s))).bind fun c v =>
      dynLengths (v.withSeq { v.seq with hclen := BitVec.ofNat 5 (c + 4) })) := by
  rw [exec_dynHdr_of_hlit hs (by omega), finish_readBits_at hs (by decide) hn]; rfl

theorem exec_dynHdr_of_counts (hn : 14 ≤ s.upcoming.length) :
    exec .dynHdr s = finish s (dynLengths (countsRead s)) := by
  rw [exec_dynHdr_of_hdist hs (by omega), finish_readBits_at hs (by decide) hn]; rfl

end

/-- HCLEN holds the 4-bit field plus 4, at most 19 (R44). -/
theorem countsRead_hclen (s : State) : (countsRead s).seq.hclen.toNat = (s.afterRead 10).nextField 4 + 4 := by
  have hlt := nextField_lt 4 (s.afterRead 10)
  rw [countsRead, State.withSeq_seq, BitVec.toNat_ofNat]; omega

theorem countsRead_ok {s : State} (hs : s.reader.ok) (hn : 14 ≤ s.upcoming.length) : (countsRead s).reader.ok := by
  rw [countsRead, State.withSeq_reader]; exact afterRead_ok hs hn

theorem length_upcoming_countsRead {s : State} (hn : 14 ≤ s.upcoming.length) :
    (countsRead s).upcoming.length = s.upcoming.length - 14 := by
  rw [countsRead, State.withSeq_upcoming, length_afterRead hn]

/-- The lengths behind the counts are those from the element's 15th bit on. -/
theorem afterRead_countsRead {s : State} (hn : 14 ≤ s.upcoming.length) (m : Nat) : (countsRead s).afterRead m =
    (s.afterRead (14 + m)).withSeq (countsRead s).seq := by
  rw [countsRead, State.withSeq_seq, State.withSeq_afterRead, afterRead_afterRead hn]

theorem HoldsLengths.of_countsRead {s : State} (hn : 14 ≤ s.upcoming.length) {k : Nat}
    {clLen : Vector (BitVec 3) 19} (h : HoldsLengths (countsRead s) k clLen) :
    (∀ i : Nat, i < k →
      (clLen.toList[clOrder.getD i 0]?).map BitVec.toNat = some ((s.afterRead (14 + 3 * i)).nextField 3)) ∧
    (∀ i : Nat, k ≤ i → i < 19 → (clLen.toList[clOrder.getD i 0]?).map BitVec.toNat = some 0) := by
  refine ⟨fun i hi => ?_, h.2⟩
  rw [h.1 i hi, afterRead_countsRead hn, State.withSeq_nextField]

/-- Settles O23: three reads, then the loop over the slots, which ends in the build of T_CL or at the first length that
is not all there. -/
theorem dynamicHeaderBuildsCodeLengthTable : Obligations.DynamicHeaderBuildsCodeLengthTable := by
  unfold Obligations.DynamicHeaderBuildsCodeLengthTable
  rintro s _ _ n hs rfl rfl hnv
  have hlt := nextField_lt 4 (s.afterRead 10)
  have h19 : n ≤ 19 := by omega
  have hclen : (countsRead s).seq.hclen.toNat = n := (countsRead_hclen s).trans hnv.symm
  have hseq : (countsRead s).seq = { s.seq with
      hlit := BitVec.ofNat 9 (s.nextField 5 + 257), hdist := BitVec.ofNat 6 ((s.afterRead 5).nextField 5 + 1),
      hclen := BitVec.ofNat 5 n } := by rw [hnv]; rfl
  refine ⟨fun hl => ?built, fun hl => ?noHlit, fun h5 hl => ?noHdist, fun h10 hl => ?noHclen,
    fun h14 hl => ?noLength⟩
  case built =>
    have h14 : 14 ≤ s.upcoming.length := by omega
    have hup := length_upcoming_countsRead h14
    obtain ⟨clLen, hholds, heq⟩ := dynLengths_eq (countsRead_ok hs h14) hclen h19 (by omega)
    obtain ⟨hsent, hunsent⟩ := hholds.of_countsRead h14
    have hexec : exec .dynHdr s = .next (withClLens clLen ((countsRead s).afterRead (3 * n))) := by
      rw [exec_dynHdr_of_counts hs h14, heq]; rfl
    rw [afterRead_countsRead h14, hseq] at hexec
    exact ⟨_, hexec, rfl, rfl, hsent, hunsent, rfl, rfl, rfl⟩
  case noHlit => exact finish_readBits_short hs (by decide) hl _
  case noHdist =>
    rw [exec_dynHdr_of_hlit hs h5]
    exact finish_readBits_at_short hs (by decide) h5 hl _ _
  case noHclen =>
    rw [exec_dynHdr_of_hdist hs h10]
    exact finish_readBits_at_short hs (by decide) h10 hl _ _
  case noLength =>
    have hup := length_upcoming_countsRead h14
    obtain ⟨k, clLen, hk, hholds, hge, hshort, hfin⟩ :=
      dynLengths_short s (countsRead_ok hs h14) hclen h19 (by omega)
    obtain ⟨hsent, hunsent⟩ := hholds.of_countsRead h14
    rw [← exec_dynHdr_of_counts hs h14, afterRead_countsRead h14, hseq] at hfin
    refine ⟨k, _, hk, hfin, rfl, ?_, hsent, hunsent, rfl⟩
    show (s.afterRead (14 + 3 * k)).upcoming.length < 3
    rw [length_afterRead (by omega)]; omega

end Sys2Proof.Machine
end

section
/-! PROOFS. The code-length symbols (R304 to R307): each is one append behind its extra bits. -/

namespace Sys2Proof.Machine

open Sys2Proof

/-! ## Runs (R125, R309, R316) -/

/-- An append that does not overrun the list completes (R316). -/
theorem finish_appendLens {v : BitVec 4} {r : Nat} {s₀ s : State} (h1 : s.seq.hlit.toNat ≤ 288)
    (h2 : s.seq.hdist.toNat ≤ 32) (h : s.seq.lensN + r ≤ lensTotal s.seq) :
    finish s₀ (appendLens v r s) = .next (lensAppended v r s) := by
  rw [appendLens_eq h1 h2 h]; rfl

/-- An overrun raises at the end of the run's extra bits (R309). -/
theorem finish_appendLens_over {v : BitVec 4} {r n : Nat} {s₀ s : State} (hs : s.reader.ok)
    (h : lensTotal s.seq < s.seq.lensN + r) : finish s₀ (appendLens v r (s.afterRead n)) =
      .next (errorEntry .invalidCodeLengthSymbol (s.bitPos + n) (s.afterRead n)) := by
  rw [appendLens_over (s := s.afterRead n) h, afterRead_bitPos hs]; rfl

/-- An element that begins with a repeat count goes on with the count where the extra bits are there. -/
theorem finish_repeatCount {base n : Nat} {s₀ s : State} (hs : s.reader.ok) (h32 : n ≤ 32)
    (hn : n ≤ s.upcoming.length) (f : Nat → State → Res Unit) : finish s₀ ((repeatCount base n s).bind f) =
      finish s₀ (f (base + s.nextField n) (s.afterRead n)) := by
  rw [repeatCount, Res.bind_assoc, finish_readBits hs h32 hn]; rfl

theorem finish_repeatCount_short {base n : Nat} {s₀ s : State} (hs : s.reader.ok) (h32 : n ≤ 32)
    (hn : s.upcoming.length < n) (f : Nat → State → Res Unit) :
    finish s₀ ((repeatCount base n s).bind f) = shortOf s₀ s := by
  rw [repeatCount, Res.bind_assoc, finish_readBits_short hs h32 hn]

/-! ## A literal length (R304) -/

/-- Settles O24: CL_LEN_LIT is an append of one length. -/
theorem codeLengthLiteralAppendsOne : Obligations.CodeLengthLiteralAppendsOne := by
  unfold Obligations.CodeLengthLiteralAppendsOne
  refine fun v s h1 h2 => ⟨fun h => finish_appendLens h1 h2 h, fun h => ?full⟩
  show finish s (appendLens v 1 s) = _
  rw [appendLens_over (by omega)]; rfl

/-! ## A run of the previous length (R305) -/

theorem exec_clRepeatPrev_of_none {s : State} (h : s.seq.lensN = 0) :
    exec .clRepeatPrev s = .next (errorEntry .invalidCodeLengthSymbol s.bitPos s) := by
  show finish s (clRepeatPrev s) = _
  rw [clRepeatPrev, if_pos h]; rfl

/-- With a previous length, CL_REPEAT_PREV is its count and an append of that length. -/
theorem exec_clRepeatPrev_of_prev {s : State} (hs : s.reader.ok) (h0 : s.seq.lensN ≠ 0) (hn : 2 ≤ s.upcoming.length)
    {v : BitVec 4} (hv : s.seq.lens[s.seq.lensN - 1]? = some v) :
    exec .clRepeatPrev s = finish s (appendLens v (3 + s.nextField 2) (s.afterRead 2)) := by
  show finish s (clRepeatPrev s) = _
  rw [clRepeatPrev, if_neg h0, finish_repeatCount hs (by decide) hn]
  simp only [State.afterRead_seq, hv]

/-- A list no longer than LENS has its last length in it (R46). -/
theorem exists_previous_length {q : Sequencer} (h320 : q.lensN ≤ 320) :
    ∃ v, q.lens[q.lensN - 1]? = some v :=
  ⟨_, Vector.getElem?_eq_getElem (by omega)⟩

/-- Settles O25: a list no longer than LENS holds its previous length, which an append repeats behind the extra bits. -/
theorem repeatPreviousLength : Obligations.RepeatPreviousLength := by
  unfold Obligations.RepeatPreviousLength
  refine fun s hs h1 h2 => ⟨exec_clRepeatPrev_of_none, fun h0 hn h => ?run, fun h0 h320 hn h => ?overrun,
    fun h0 hn => ?short⟩
  case run =>
    have h320 : s.seq.lensN ≤ 320 := by unfold lensTotal at h; omega
    obtain ⟨v, hv⟩ := exists_previous_length h320
    refine ⟨v, by rw [Vector.getElem?_toList, hv], ?_⟩
    rw [exec_clRepeatPrev_of_prev hs h0 hn hv]
    exact finish_appendLens (s := s.afterRead 2) h1 h2 h
  case overrun =>
    obtain ⟨v, hv⟩ := exists_previous_length h320
    rw [exec_clRepeatPrev_of_prev hs h0 hn hv, finish_appendLens_over hs h]
  case short =>
    show finish s (clRepeatPrev s) = _
    rw [clRepeatPrev, if_neg h0, finish_repeatCount_short hs (by decide) hn]

/-! ## Runs of zero lengths (R306, R307) -/

/-- A run of zero lengths: a count and an append (R306, R307). -/
def zeroRun (base n : Nat) (s : State) : Res Unit := (repeatCount base n s).bind fun r t => appendLens 0 r t

section
variable {base n : Nat} {s : State} (hs : s.reader.ok) (h32 : n ≤ 32)
include hs h32

theorem finish_zeroRun (h1 : s.seq.hlit.toNat ≤ 288) (h2 : s.seq.hdist.toNat ≤ 32) (hn : n ≤ s.upcoming.length)
    (h : s.seq.lensN + (base + s.nextField n) ≤ lensTotal s.seq) :
    finish s (zeroRun base n s) = .next (lensAppended 0 (base + s.nextField n) (s.afterRead n)) := by
  rw [zeroRun, finish_repeatCount hs h32 hn]
  exact finish_appendLens (s := s.afterRead n) h1 h2 h

theorem finish_zeroRun_over (hn : n ≤ s.upcoming.length)
    (h : lensTotal s.seq < s.seq.lensN + (base + s.nextField n)) : finish s (zeroRun base n s) =
      .next (errorEntry .invalidCodeLengthSymbol (s.bitPos + n) (s.afterRead n)) := by
  rw [zeroRun, finish_repeatCount hs h32 hn, finish_appendLens_over hs h]

theorem finish_zeroRun_short (hn : s.upcoming.length < n) : finish s (zeroRun base n s) = shortOf s s :=
  finish_repeatCount_short hs h32 hn _

end

/-- Settles O26: the two symbols are the zero runs with 3 and with 7 extra bits. -/
theorem zeroRunsAppendZeros : Obligations.ZeroRunsAppendZeros := by
  unfold Obligations.ZeroRunsAppendZeros
  intro s hs h1 h2
  have hshort : exec .clZeroShort s = finish s (zeroRun 3 3 s) := rfl
  have hlong : exec .clZeroLong s = finish s (zeroRun 11 7 s) := rfl
  rw [hshort, hlong]
  exact ⟨finish_zeroRun hs (by decide) h1 h2, finish_zeroRun_over hs (by decide), finish_zeroRun_short hs (by decide),
    finish_zeroRun hs (by decide) h1 h2, finish_zeroRun_over hs (by decide), finish_zeroRun_short hs (by decide)⟩

end Sys2Proof.Machine
end

section
/-! PROOFS. The literal/length and distance symbols as instructions (R341 to R343, R373 to R375): a literal, the end of
a block and the illegal symbols are one operation each, a distance symbol is one read, and a length element is its extra
bits, the match in T_D, the distance behind it and the copy, each of the first three with its own ways to fail. -/

namespace Sys2Proof.Machine

open Sys2Proof

/-! ## Symbols without a field -/

/-- Settles O27: LIT is one append and one offer, neither of which can fail. -/
theorem literalAppendsAndOffers : Obligations.LiteralAppendsAndOffers := by
  unfold Obligations.LiteralAppendsAndOffers
  exact fun _ _ => rfl

theorem exec_eob_eq (s : State) :
    exec .eob s = .next ((sendDiag .blockEnd s).setPhase (if s.seq.bfinal then .trailer else .blkhdr)) := by
  rw [← blockEnd_eq]; rfl

/-- Settles O28: EOB is the block end, whose phase BFINAL selects. -/
theorem endOfBlockSelectsPhase : Obligations.EndOfBlockSelectsPhase := by
  unfold Obligations.EndOfBlockSelectsPhase
  intro s
  rw [exec_eob_eq]
  exact ⟨fun h => by rw [if_pos h], fun h => by rw [h]; rfl⟩

theorem exec_illegal_length {c : Nat} {i : Instr} (hc : c = 286 ∨ c = 287) (hi : decode .litLen c = .ok i)
    (s : State) : exec i s = .next (errorEntry .invalidLengthSymbol s.bitPos s) := by
  obtain rfl | rfl := hc <;> (cases hi; rfl)

/-- Settles O31: each of the four symbols is a raise. -/
theorem illegalSymbolsRaise : Obligations.IllegalSymbolsRaise := by
  unfold Obligations.IllegalSymbolsRaise
  exact fun s => ⟨exec_illegal_length (.inl rfl) rfl s, exec_illegal_length (.inr rfl) rfl s,
    exec_illegal_distance (.inl rfl) rfl s, exec_illegal_distance (.inr rfl) rfl s⟩

/-! ## Distance symbols (R375) -/

/-- An operation whose first part is a distance goes on with it where the extra bits are there. -/
theorem finish_distanceOf {d : Nat} {s₀ s : State} (hd : d ≤ 29) (hs : s.reader.ok)
    (hn : distExtra d ≤ s.upcoming.length) (f : Nat → State → Res Unit) : finish s₀ ((distanceOf d s).bind f) =
      finish s₀ (f (distBase d + s.nextField (distExtra d)) (s.afterRead (distExtra d))) := by
  have h13 := (distBase_bounds d hd).2.2
  rw [distanceOf_eq d hd, distanceValue, Res.bind_assoc, finish_readBits hs (by omega) hn]; rfl

theorem finish_distanceOf_short {d : Nat} {s₀ s : State} (hd : d ≤ 29) (hs : s.reader.ok)
    (hn : s.upcoming.length < distExtra d) (f : Nat → State → Res Unit) :
    finish s₀ ((distanceOf d s).bind f) = shortOf s₀ s := by
  have h13 := (distBase_bounds d hd).2.2
  rw [distanceOf_eq d hd, distanceValue, Res.bind_assoc, finish_readBits_short hs (by omega) hn]

theorem finish_distanceOf_illegal {d : Nat} {s₀ s : State} (hd : d = 30 ∨ d = 31) (f : Nat → State → Res Unit) :
    finish s₀ ((distanceOf d s).bind f) = .next (errorEntry .invalidDistanceSymbol s.bitPos s) := by
  obtain rfl | rfl := hd <;> rfl

/-- The ranges of the distance symbols stay within 1 to 32768 (R413). -/
theorem distance_bounds {d : Nat} (hd : d ≤ 29) (s : State) :
    1 ≤ distBase d + s.nextField (distExtra d) ∧ distBase d + s.nextField (distExtra d) ≤ 32768 := by
  obtain ⟨hpos, hmax, -⟩ := distBase_bounds d hd
  have := nextField_lt (distExtra d) s
  omega

/-- Settles O32: a distance symbol is one read, its base added. -/
theorem distanceSymbolsGiveDistance : Obligations.DistanceSymbolsGiveDistance := by
  unfold Obligations.DistanceSymbolsGiveDistance
  refine fun d i s hd hi hs => ⟨fun hn => ⟨_, exec_distance_eq hd hi hs hn, rfl, distance_bounds hd s⟩,
    fun hn => ?short⟩
  rw [exec_distance hd hi, ← distanceOf_eq d hd]
  exact finish_distanceOf_short hd hs hn _

/-! ## What a copy leaves of a dense history (R440, R441) -/

section
variable {dist n : Nat} {s : State} (hd : s.history.dense)
include hd

/-- Appends leave the bytes before them (R440). -/
theorem read_appendAll_of_lt (vs : List Byte) {a : Nat} (ha : a < s.history.outCount) :
    (appendAll vs s).history.hist.read a = s.history.hist.read a := by
  rw [(appendAll_dense hd).read, appendAll_bytes hd, hd.read, List.getElem?_append_left (by rw [hd.length]; exact ha)]

/-- The appended bytes are the history from OUT_COUNT on. -/
theorem drop_appendAll_bytes (vs : List Byte) : (appendAll vs s).history.bytes.drop s.history.outCount = vs := by
  rw [appendAll_bytes hd, ← hd.length, List.drop_left]

variable (h1 : 1 ≤ dist) (h2 : dist ≤ s.history.outCount)
include h1 h2

/-- A copied byte is one of the last `dist` bytes before the copy (R441, corner cases). -/
theorem read_copy_eq_copied {j : Nat} (hj : j < n) :
    (appendAll (copyBytes dist n s.history.bytes) s).history.hist.read (s.history.outCount + j) =
      s.history.copied dist j := by
  have hl := hd.length
  rw [(appendAll_dense hd).read, appendAll_bytes hd, List.getElem?_append_right (by omega), hl, Nat.add_sub_cancel_left,
    getElem?_copyBytes h1 (by omega) hj, hl, History.copied, hd.read]

/-- A copied byte is the one `dist` before it, a byte of the copy itself from the `dist`-th on (R441, R443). -/
theorem read_copy_eq_source {j : Nat} (hj : j < n) :
    (appendAll (copyBytes dist n s.history.bytes) s).history.hist.read (s.history.outCount + j) =
      (appendAll (copyBytes dist n s.history.bytes) s).history.hist.read (s.history.outCount + j - dist) := by
  rw [read_copy_eq_copied hd h1 h2 hj, History.copied]
  by_cases hlt : j < dist
  · rw [Nat.mod_eq_of_lt hlt, read_appendAll_of_lt hd _ (by omega)]
    congr 1; omega
  · rw [show s.history.outCount + j - dist = s.history.outCount + (j - dist) by omega,
      read_copy_eq_copied hd h1 h2 (by omega), History.copied, Nat.mod_eq_sub_mod (by omega)]

end

/-! ## Length elements (R343) -/

/-- The event of a match and a field behind it, in terms of the state before the match. -/
theorem afterRead_sendDiag_afterRead {n : Nat} {s : State} (hs : s.reader.ok) (hn : n ≤ s.upcoming.length)
    (k : DiagKind) (m : Nat) : (sendDiag k (s.afterRead n)).afterRead m = (s.afterRead (n + m)).withDiag
      (s.diag ++ if s.params.diagPresent then [⟨s.bitPos + n, k⟩] else []) := by
  rw [sendDiag_eq_withDiag, afterRead_bitPos hs, ← afterRead_afterRead hn]; rfl

/-- Settles O29: the element runs to its end, where the copy and the offered run are those of the history's own laws. -/
theorem lengthElementCopies : Obligations.LengthElementCopies := by
  unfold Obligations.LengthElementCopies
  intro c i s lens e lenBits distBits rest n dist h1 h2 hi hs hmode hdense ht hmal he hcode hu hl hw hn hdist hout
  rw [ht] at hmal he
  have hu' : s.upcoming = lenBits ++ (entryBits e ++ (distBits ++ rest)) := by
    rw [hu, List.append_assoc, List.append_assoc]
  have hfields : (lenBits ++ entryBits e ++ distBits).length = lenExtra c + e.bits + distExtra e.code := by
    rw [List.length_append, List.length_append, hl, hw, entryBits, length_msbBits]
  have hcodeEnd : lenExtra c + e.bits ≤ s.upcoming.length := by rw [hu, List.length_append, hfields]; omega
  have hpos : 1 ≤ dist := by have := (distBase_bounds e.code hcode).1; omega
  have h32 : lenBits.length ≤ 32 := by have := (lenBase_bounds c h1 h2).1; omega
  have hexec := exec_length c i h1 h2 hi s
  rw [← hl, lengthElement_eq hs hmode hdense ht hmal he hcode hu' h32 hw hdist hout hn rfl, hl, hw,
    afterRead_sendDiag_afterRead hs hcodeEnd, ← Nat.add_assoc s.bitPos, appendAll_eq] at hexec
  -- `x` stands behind all the fields, nothing copied yet
  generalize hx : (s.afterRead _).withDiag _ = x at hexec
  have hhist : x.history = s.history := by rw [← hx]; rfl
  rw [← hhist] at hdense hout hexec ⊢
  refine ⟨_, hexec, by rw [← hx]; rfl, ?ahead, ?count, appendAll_dense hdense, fun a => read_appendAll_of_lt hdense _,
    fun j hj => ⟨read_copy_eq_source hdense hpos hout hj, read_copy_eq_copied hdense hpos hout hj⟩, ?offered,
    by rw [← hx]; rfl, by rw [← hx]; rfl⟩
  case ahead =>
    show x.upcoming = rest
    rw [← hx]
    show (s.afterRead _).upcoming = rest
    rw [← hfields]
    exact afterRead_of_append hu
  case count =>
    show (appendAll _ x).history.outCount = _
    rw [appendAll_outCount, length_copyBytes]
  case offered =>
    simp only [emit_ports, emit_history, State.withHistory_ports, State.withHistory_history]
    rw [drop_appendAll_bytes hdense, ← hx]
    rfl

/-- What a length element does behind its length and a distance symbol: the distance, its check against OUT_COUNT, the
copy and the offer (R343). -/
def lengthTail (n d : Nat) (u : State) : Res Unit :=
  (distanceOf d u).bind fun dist v =>
    if v.history.outCount < dist then raiseHere .distanceTooFar v
    else (copyRun dist n v).bind fun _ w =>
      (histSlice (w.history.outCount - n) n w).bind fun run x => .ok () (emit run x)

theorem lengthElement_eq_match (base extra : Nat) (s : State) : lengthElement base extra s =
    (lengthValue base extra s).bind fun n t => (findNextSymbol .d t).bind (lengthTail n) := rfl

/-- A distance beyond the output raises behind its extra bits, before any byte is copied (R444). -/
theorem finish_lengthTail_far {n d : Nat} {s₀ u : State} (hd : d ≤ 29) (hu : u.reader.ok)
    (hn : distExtra d ≤ u.upcoming.length) (hfar : u.history.outCount < distBase d + u.nextField (distExtra d)) :
    finish s₀ (lengthTail n d u) =
      .next (errorEntry .distanceTooFar (u.bitPos + distExtra d) (u.afterRead (distExtra d))) := by
  rw [lengthTail, finish_distanceOf hd hu hn, State.afterRead_history, if_pos hfar, finish_raiseHere_afterRead hu]

section
variable {c : Nat} {i : Instr} {s : State} (h1 : 257 ≤ c) (h2 : c ≤ 285) (hi : decode .litLen c = .ok i)
  (hs : s.reader.ok)
include h1 h2 hi hs

/-- With its extra bits there, a length element is the match in T_D and what follows it. -/
theorem exec_length_of_lenBits (hn : lenExtra c ≤ s.upcoming.length) : exec i s =
    finish s ((findNextSymbol .d (s.afterRead (lenExtra c))).bind
      (lengthTail (lenBase c + s.nextField (lenExtra c)))) := by
  have h5 := (lenBase_bounds c h1 h2).1
  rw [exec_length c i h1 h2 hi, lengthElement_eq_match, lengthValue, Res.bind_assoc, finish_readBits hs (by omega) hn]
  rfl

theorem exec_length_of_lenBits_short (hn : s.upcoming.length < lenExtra c) : exec i s = shortOf s s := by
  have h5 := (lenBase_bounds c h1 h2).1
  rw [exec_length c i h1 h2 hi, lengthElement_eq_match, lengthValue, Res.bind_assoc,
    finish_readBits_short hs (by omega) hn]

/-- A malformed or an empty T_D ends a length element behind its extra bits (R212, R213). -/
theorem exec_length_of_malformed_or_empty (hn : lenExtra c ≤ s.upcoming.length)
    (h : s.tables.d.malformed = true ∨ s.tables.d.entries = []) : exec i s =
      .next (errorEntry .symbolNotFound (s.bitPos + lenExtra c) (s.afterRead (lenExtra c))) := by
  rw [exec_length_of_lenBits h1 h2 hi hs hn,
    findNextSymbol_of_malformed_or_empty (id := .d) (s := s.afterRead (lenExtra c)) h, afterRead_bitPos hs]
  rfl

/-- With a code of a well-formed T_D behind its extra bits, a length element goes on with that code's symbol. -/
theorem exec_length_of_code {lens : List Nat} {e : Entry} {lenBits rest : List Bool} (hmode : s.reader.mode = .lsb)
    (ht : s.tables.d = tableOf lens) (hm : (tableOf lens).malformed = false) (he : e ∈ (tableOf lens).entries)
    (hu : s.upcoming = lenBits ++ (entryBits e ++ rest)) (hl : lenBits.length = lenExtra c) :
    exec i s = finish s (lengthTail (lenBase c + s.nextField (lenExtra c)) e.code
      (sendDiag .symbolMatch (s.afterRead (lenExtra c + e.bits)))) := by
  have hn : lenExtra c ≤ s.upcoming.length := by rw [hu, List.length_append, hl]; omega
  have hcode : (s.afterRead (lenExtra c)).upcoming = entryBits e ++ rest := by rw [← hl]; exact afterRead_of_append hu
  rw [exec_length_of_lenBits h1 h2 hi hs hn,
    findNextSymbol_match (id := .d) (afterRead_ok hs hn).1 hmode ht hm he hcode, afterRead_afterRead hn]
  rfl

end

/-- Settles O30: each error is that of one of the element's parts, at the position where that part begins or ends. -/
theorem lengthElementErrors : Obligations.LengthElementErrors := by
  unfold Obligations.LengthElementErrors
  refine fun c i s h1 h2 hi hs => ⟨exec_length_of_lenBits_short h1 h2 hi hs,
    fun hn hm => exec_length_of_malformed_or_empty h1 h2 hi hs hn (.inl hm), ?nocode, ?code⟩
  case nocode =>
    intro lens u hmode hn ht hm hu
    have hok : u.reader.ok := hu ▸ afterRead_ok hs hn
    have hmode' : u.reader.mode = .lsb := hu ▸ hmode
    have htable : u.tables.get .d = tableOf lens := hu ▸ ht
    have hpos : u.bitPos = s.bitPos + lenExtra c := hu ▸ afterRead_bitPos hs
    have hexec := exec_length_of_lenBits h1 h2 hi hs hn
    rw [← hu] at hexec
    rw [ht] at hm ⊢
    refine ⟨fun hempty => ?empty, fun hno => ?none, fun hno hlong => ?short⟩
    case empty => exact hu ▸ exec_length_of_malformed_or_empty h1 h2 hi hs hn (.inr (ht ▸ hempty))
    case none =>
      obtain ⟨m, hle, hfind⟩ := findNextSymbol_none hok.1 hmode' htable hm hno
      rw [hfind, hpos] at hexec
      exact ⟨_, hexec, (afterRefill_bitPos m u).trans hpos, afterRefill_upcoming hle, rfl⟩
    case short =>
      rw [hexec]
      exact finish_short u (findNextSymbol_short hok.1 hmode' htable hm hno hlong)
  case code =>
    intro lens e lenBits rest hmode ht hm he hu hl u hudef
    rw [ht] at hm he
    rw [List.append_assoc] at hu
    have hexec := exec_length_of_code h1 h2 hi hs hmode ht hm he hu hl
    rw [← hudef] at hexec
    have hn : lenExtra c + e.bits ≤ s.upcoming.length := by
      rw [hu, List.length_append, List.length_append, hl, entryBits, length_msbBits]; omega
    have hok : u.reader.ok := hudef ▸ sendDiag_ok (afterRead_ok hs hn)
    have hmode' : u.reader.mode = .lsb := by rw [hudef, sendDiag_reader]; exact hmode
    have hhist : u.history = s.history := by rw [hudef, sendDiag_history]; rfl
    have hpos : u.bitPos = s.bitPos + lenExtra c + e.bits := by
      rw [hudef, sendDiag_bitPos, afterRead_bitPos hs, Nat.add_assoc]
    have hup : u.upcoming = rest := by rw [hudef, sendDiag_upcoming, ← hl, afterRead_length_and_code hu]
    rw [hexec, ← hpos, ← hup, ← hhist, ← hmode']
    exact ⟨fun hd => finish_distanceOf_illegal hd _, fun hd hrest => finish_distanceOf_short hd hok hrest _,
      fun hd hrest hfar => finish_lengthTail_far hd hok hrest hfar⟩

end Sys2Proof.Machine
end

section
/-! PROOFS. The expander's two operations as instructions, APPEND (R440) and COPY (R441). What they leave in the history is
said by the laws of an append and of a copy; here stand their answers. -/

namespace Sys2Proof.Machine

open Sys2Proof

/-- Settles O34: the byte is written at OUT_COUNT, and an append, a copy of one byte, keeps every other one. -/
theorem appendWritesAtOutCount : Obligations.AppendWritesAtOutCount := by
  unfold Obligations.AppendWritesAtOutCount
  intro v s
  have happ : CopiesTo 1 s (outAppend v s) := outAppend_copiesTo v s
  exact ⟨outAppend v s, rfl, happ.count, Memory.read_write_same _ _ _, fun a ha => happ.reads a (by omega), happ.only⟩

/-- Within its precondition COPY completes with the bytes it repeats appended (R441). -/
theorem exec_copy_eq {dist n : Nat} {s : State} (hd : s.history.dense) (h1 : 1 ≤ dist)
    (h2 : dist ≤ s.history.outCount) :
    exec (.copy dist n) s = .next (appendAll (copyBytes dist n s.history.bytes) s) :=
  congrArg (finish s) (copyRun_eq hd h1 h2)

/-- Outside its precondition COPY is refused (R441). -/
theorem exec_copy_refused {dist : Nat} {s : State} (h : dist = 0 ∨ s.history.outCount < dist) (n : Nat) :
    exec (.copy dist n) s = .refused (.badCopyDistance dist) :=
  congrArg (finish s) (if_pos h)

/-- Settles O35: the copied bytes are appended, and each is the one `dist` before it, one of the last `dist` bytes. -/
theorem copyRepeatsHistory : Obligations.CopyRepeatsHistory := by
  unfold Obligations.CopyRepeatsHistory
  refine fun dist n s => ⟨fun hd h1 h2 => ⟨_, exec_copy_eq hd h1 h2, ?count, appendAll_dense hd,
    fun a => read_appendAll_of_lt hd _, fun j hj => ?repeats, appendAll_eq _ s⟩, fun h => exec_copy_refused h n⟩
  case count => rw [appendAll_outCount, length_copyBytes]
  case repeats => exact ⟨read_copy_eq_source hd h1 h2 hj, read_copy_eq_copied hd h1 h2 hj⟩

end Sys2Proof.Machine
end

section
/-! PROOFS. The diagnostic sink has no effect (R495, R497): with the sink taken away an operation takes the same
branches and writes the same registers, since an event is written to the events sent alone and nothing reads those. -/

namespace Sys2Proof.Machine

open Sys2Proof

/-! ## Operations with the sink taken away -/

/-- An answer with every state in it silenced. -/
def Res.silent {α : Type} : Res α → Res α
  | .ok a t => .ok a t.silent
  | .raise k q t => .raise k q t.silent
  | .wait t => .wait t.silent
  | .fault f => .fault f
  | .refused r => .refused r

@[simp] theorem State.silent_seq (s : State) : s.silent.seq = s.seq := rfl

section
variable {α β : Type}

/-- Operations in sequence, each the same with the sink taken away. -/
theorem Res.bind_silent {r r' : Res α} {f f' : α → State → Res β} (h : r' = r.silent)
    (hf : ∀ a t, f' a t.silent = (f a t).silent) : r'.bind f' = (r.bind f).silent := by
  subst h
  cases r with
  | ok a t => exact hf a t
  | raise k q t => rfl
  | wait t => rfl
  | fault e => rfl
  | refused e => rfl

/-- A test that does not look at the sink takes the same branch, whether a state, an answer or an outcome is
silenced. -/
theorem ite_silent {silence : α → β} {c : Prop} [Decidable c] {x y : α} {x' y' : β} (hx : x' = silence x)
    (hy : y' = silence y) : (if c then x' else y') = silence (if c then x else y) := by
  rw [apply_ite silence, hx, hy]

theorem Res.ok_silent {t t' : State} (a : α) (h : t' = t.silent) : Res.ok a t' = (Res.ok a t).silent :=
  congrArg (Res.ok a) h

end

section
variable (s : State)

/-! ## Events -/

/-- An event sent is forgotten with the others. -/
theorem silent_sendDiag (k : DiagKind) : (sendDiag k s).silent = s.silent := by
  obtain ⟨d, hd⟩ := sendDiag_withDiag k s
  rw [hd]; rfl

/-- Without a sink nothing is sent (R495), which is the same with the events forgotten. -/
theorem sendDiag_silent (k : DiagKind) : sendDiag k s.silent = (sendDiag k s).silent := by
  rw [silent_sendDiag]
  exact sendDiag_absent rfl

theorem blockEnd_silent : blockEnd s.silent = (blockEnd s).silent := by
  rw [blockEnd_eq, blockEnd_eq, sendDiag_silent]; rfl

/-! ## The reader -/

theorem refillLoop_silent (fuel n p0 : Nat) : refillLoop fuel n p0 s.silent = (refillLoop fuel n p0 s).silent := by
  induction fuel generalizing s with
  | zero => rfl
  | succ fuel ih =>
    refine ite_silent ?_ rfl
    have hb : inByte s.silent = inByte s := rfl
    rw [hb]
    split
    · exact ih (s.withReader _)
    · rfl
    · rfl

theorem readBits_silent (n : Nat) : readBits n s.silent = (readBits n s).silent :=
  ite_silent rfl (Res.bind_silent (refillLoop_silent s n n s.bitPos) fun _ _ => rfl)

theorem peekBits_silent (n : Nat) : peekBits n s.silent = (peekBits n s).silent :=
  ite_silent rfl (Res.bind_silent (refillLoop_silent s n n s.bitPos) fun _ _ => rfl)

theorem alignToByte_silent : alignToByte s.silent = (alignToByte s).silent :=
  Res.bind_silent (readBits_silent s _) fun _ _ => rfl

theorem setMode_silent (m : BitOrder) : setMode m s.silent = (setMode m s).silent :=
  ite_silent rfl rfl

/-! ## Tables and the history -/

theorem buildFromLengths_silent (id : TableId) (lens : List Nat) :
    buildFromLengths id lens s.silent = (buildFromLengths id lens s).silent :=
  ite_silent (Res.ok_silent () (sendDiag_silent (s.withTables _) _)) rfl

theorem buildFromRanges_silent (id : TableId) (pairs : List (Nat × Int)) :
    buildFromRanges id pairs s.silent = (buildFromRanges id pairs s).silent :=
  ite_silent (buildFromLengths_silent s id _) rfl

theorem memRead_silent (a : Nat) : memRead a s.silent = (memRead a s).silent := by
  have hread : s.silent.history.hist.read a = s.history.hist.read a := rfl
  unfold memRead
  rw [hread]
  split
  · rfl
  · rfl

theorem copyLoop_silent (dist n : Nat) : copyLoop dist n s.silent = (copyLoop dist n s).silent := by
  induction n generalizing s with
  | zero => rfl
  | succ n ih => exact Res.bind_silent (memRead_silent s _) fun v t => ih (outAppend v t)

theorem copyRun_silent (dist n : Nat) : copyRun dist n s.silent = (copyRun dist n s).silent :=
  ite_silent rfl (copyLoop_silent s dist n)

theorem histSlice_silent (p n : Nat) : histSlice p n s.silent = (histSlice p n s).silent := by
  induction n generalizing p s with
  | zero => rfl
  | succ n ih =>
    exact Res.bind_silent (memRead_silent s p) fun v t => Res.bind_silent (ih t (p + 1)) fun _ _ => rfl

/-! ## The symbol match (R210) -/

theorem cachedPeek_silent (cache : Option (Nat × Nat)) (n : Nat) :
    cachedPeek cache n s.silent = (cachedPeek cache n s).silent := by
  unfold cachedPeek
  split
  · exact ite_silent rfl (peekBits_silent s n)
  · exact peekBits_silent s n

theorem findLoop_silent (p0 : Nat) (es : List Entry) (cache : Option (Nat × Nat)) :
    findLoop p0 es cache s.silent = (findLoop p0 es cache s).silent := by
  induction es generalizing cache s with
  | nil => rfl
  | cons e es ih =>
    refine Res.bind_silent (cachedPeek_silent s cache e.bits) fun cv t => ite_silent ?_ (ih t _)
    exact Res.bind_silent (readBits_silent t e.bits) fun _ u => Res.ok_silent _ (sendDiag_silent u _)

theorem findNextSymbol_silent (id : TableId) : findNextSymbol id s.silent = (findNextSymbol id s).silent :=
  ite_silent rfl (findLoop_silent s _ _ _)

/-! ## The elements -/

/-- A base plus extra bits: a distance (R375), and in the same words a length (R343) and a repeat count (R305). -/
theorem distanceValue_silent (base extra : Nat) :
    distanceValue base extra s.silent = (distanceValue base extra s).silent :=
  Res.bind_silent (readBits_silent s extra) fun _ _ => rfl

theorem distanceOf_silent (d : Nat) : distanceOf d s.silent = (distanceOf d s).silent := by
  by_cases hd : d ≤ 29
  · rw [distanceOf_eq d hd, distanceOf_eq d hd]
    exact distanceValue_silent s _ _
  by_cases hd' : d ≤ 31
  · obtain rfl | rfl : d = 30 ∨ d = 31 := by omega
    · rfl
    · rfl
  · unfold distanceOf
    split <;> first | omega | rfl

theorem lengthElement_silent (base extra : Nat) :
    lengthElement base extra s.silent = (lengthElement base extra s).silent := by
  refine Res.bind_silent (distanceValue_silent s base extra) fun n t => ?_
  refine Res.bind_silent (findNextSymbol_silent t .d) fun d u => ?_
  refine Res.bind_silent (distanceOf_silent u d) fun dist v => ite_silent rfl ?_
  refine Res.bind_silent (copyRun_silent v dist n) fun _ w => ?_
  exact Res.bind_silent (histSlice_silent w _ n) fun _ _ => rfl

theorem skipField_silent (n : Nat) (p : Phase) : skipField n p s.silent = (skipField n p s).silent :=
  Res.bind_silent (readBits_silent s n) fun _ _ => rfl

theorem stringByte_silent (p : Phase) : stringByte p s.silent = (stringByte p s).silent :=
  Res.bind_silent (readBits_silent s 8) fun _ _ => Res.ok_silent () (ite_silent rfl rfl)

theorem gzMagic_silent : gzMagic s.silent = (gzMagic s).silent :=
  Res.bind_silent (readBits_silent s 16) fun _ t =>
    ite_silent rfl (Res.bind_silent (setMode_silent t .lsb) fun _ _ => rfl)

theorem gzCm_silent : gzCm s.silent = (gzCm s).silent :=
  Res.bind_silent (readBits_silent s 8) fun _ _ => ite_silent rfl rfl

theorem gzFlg_silent : gzFlg s.silent = (gzFlg s).silent :=
  Res.bind_silent (readBits_silent s 8) fun _ _ => rfl

theorem gzFextra_silent : gzFextra s.silent = (gzFextra s).silent := ite_silent rfl rfl

theorem gzOs_silent : gzOs s.silent = (gzOs s).silent :=
  Res.bind_silent (readBits_silent s 8) fun _ t => Res.bind_silent (gzFextra_silent t) fun _ _ => rfl

theorem gzTrailer_silent : gzTrailer s.silent = (gzTrailer s).silent :=
  Res.bind_silent (alignToByte_silent s) fun _ t => Res.bind_silent (readBits_silent t 32) fun _ u =>
    Res.bind_silent (readBits_silent u 32) fun _ _ => rfl

theorem blkFixed_silent : blkFixed s.silent = (blkFixed s).silent :=
  Res.bind_silent (buildFromRanges_silent s .ll fixedLL) fun _ t =>
    Res.bind_silent (buildFromRanges_silent t .d fixedD) fun _ _ => rfl

theorem continueBlock_silent (btype : Nat) : continueBlock btype s.silent = (continueBlock btype s).silent := by
  unfold continueBlock
  split
  · rfl
  · exact blkFixed_silent s
  · rfl
  · rfl

theorem blkhdr_silent : blkhdr s.silent = (blkhdr s).silent := by
  rw [blkhdr_eq, blkhdr_eq, sendDiag_silent]
  refine Res.bind_silent (readBits_silent _ 1) fun f t => Res.bind_silent (readBits_silent t 2) fun ty u => ?_
  exact continueBlock_silent (u.withSeq _) ty

theorem beginStored_silent (len nlen : Nat) : beginStored len nlen s.silent = (beginStored len nlen s).silent :=
  ite_silent (Res.ok_silent () (ite_silent (blockEnd_silent (s.withSeq _)) rfl)) rfl

theorem storedHdr_silent : storedHdr s.silent = (storedHdr s).silent := by
  rw [storedHdr_eq, storedHdr_eq]
  exact Res.bind_silent (alignToByte_silent s) fun _ t => Res.bind_silent (readBits_silent t 16) fun len u =>
    Res.bind_silent (readBits_silent u 16) fun nlen v => beginStored_silent v len nlen

theorem countStored_silent : countStored s.silent = (countStored s).silent :=
  ite_silent (blockEnd_silent (s.withSeq _)) rfl

theorem storedByte_silent : storedByte s.silent = (storedByte s).silent := by
  rw [storedByte_eq, storedByte_eq]
  refine Res.bind_silent (readBits_silent s 8) fun b t => Res.ok_silent () ?_
  exact congrArg (emit _) (countStored_silent (outAppend _ t))

/-- The loop of `CodeLengthLengths` (R302). -/
theorem readClLens_silent (slots : List Nat) : readClLens slots s.silent = (readClLens slots s).silent := by
  induction slots generalizing s with
  | nil => rfl
  | cons slot slots ih => exact Res.bind_silent (readBits_silent s 3) fun _ t => ih (t.withSeq _)

theorem codeLengthLengths_silent : codeLengthLengths s.silent = (codeLengthLengths s).silent :=
  Res.bind_silent (readClLens_silent (s.withSeq _) _) fun _ t => buildFromLengths_silent t .cl _

theorem dynHdr_silent : dynHdr s.silent = (dynHdr s).silent := by
  refine Res.bind_silent (readBits_silent s 5) fun a t => ?_
  refine Res.bind_silent (readBits_silent (t.withSeq _) 5) fun b u => ?_
  refine Res.bind_silent (readBits_silent (u.withSeq _) 4) fun c v => ?_
  exact Res.bind_silent (codeLengthLengths_silent (v.withSeq _)) fun _ _ => rfl

theorem lensComplete_silent : lensComplete s.silent = (lensComplete s).silent :=
  Res.bind_silent (buildFromLengths_silent s .ll _) fun _ t =>
    Res.bind_silent (buildFromLengths_silent t .d _) fun _ _ => rfl

theorem appendLens_silent (v : BitVec 4) (r : Nat) : appendLens v r s.silent = (appendLens v r s).silent :=
  ite_silent rfl (ite_silent rfl (ite_silent (lensComplete_silent (s.withSeq _)) rfl))

theorem clRepeatPrev_silent : clRepeatPrev s.silent = (clRepeatPrev s).silent := by
  refine ite_silent rfl (Res.bind_silent (distanceValue_silent s 3 2) fun r t => ?_)
  dsimp only [State.silent_seq]
  split
  · exact appendLens_silent t _ r
  · rfl

theorem zeroRun_silent (base n : Nat) : zeroRun base n s.silent = (zeroRun base n s).silent :=
  Res.bind_silent (distanceValue_silent s base n) fun r t => appendLens_silent t 0 r

/-! ## Every instruction -/

/-- An operation that is the same with the sink taken away ends its instruction with the same outcome. -/
theorem finish_silent {r r' : Res Unit} (h : r' = r.silent) : finish s.silent r' = silentOutcome (finish s r) := by
  subst h
  cases r with
  | ok a t => rfl
  | raise k q t => rfl
  | wait t => rfl
  | fault f => rfl
  | refused r => rfl

theorem finishValue_silent {r r' : Res Nat} (h : r' = r.silent) :
    finishValue s.silent r' = silentOutcome (finishValue s r) :=
  finish_silent s (Res.bind_silent h fun _ _ => rfl)

/-- Every instruction has the same outcome with the sink taken away. -/
theorem exec_silent (i : Instr) : exec i s.silent = silentOutcome (exec i s) := by
  cases i with
  | gzMagic => exact finish_silent s (gzMagic_silent s)
  | gzCm => exact finish_silent s (gzCm_silent s)
  | gzFlg => exact finish_silent s (gzFlg_silent s)
  | gzMtime | gzXfl | gzFhcrc => exact finish_silent s (skipField_silent s _ _)
  | gzOs => exact finish_silent s (gzOs_silent s)
  | gzFextra => exact finish_silent s (gzFextra_silent s)
  | gzFnameByte | gzFcommentByte => exact finish_silent s (stringByte_silent s _)
  | blkhdr => exact finish_silent s (blkhdr_silent s)
  | blkFixed =>
    -- stated first, so that no unifier evaluates the two fixed tables
    show finish s.silent (blkFixed s.silent) = silentOutcome (finish s (blkFixed s))
    exact finish_silent s (blkFixed_silent s)
  | storedHdr => exact finish_silent s (storedHdr_silent s)
  | storedByte => exact finish_silent s (storedByte_silent s)
  | dynHdr => exact finish_silent s (dynHdr_silent s)
  | clLenLit v => exact finish_silent s (appendLens_silent s v 1)
  | clRepeatPrev => exact finish_silent s (clRepeatPrev_silent s)
  | clZeroShort | clZeroLong => exact finish_silent s (zeroRun_silent s _ _)
  | eob => exact finish_silent s (Res.ok_silent () (blockEnd_silent s))
  | len257 | len258 | len259 | len260 | len261 | len262 | len263 | len264 | len265 | len266 | len267 | len268 | len269
  | len270 | len271 | len272 | len273 | len274 | len275 | len276 | len277 | len278 | len279 | len280 | len281 | len282
  | len283 | len284 | len285 => exact finish_silent s (lengthElement_silent s _ _)
  -- a read of no bits evaluates to its answer, so these four name their operation
  | dist0 => exact finishValue_silent s (r := dist0 s) (distanceValue_silent s _ _)
  | dist1 => exact finishValue_silent s (r := dist1 s) (distanceValue_silent s _ _)
  | dist2 => exact finishValue_silent s (r := dist2 s) (distanceValue_silent s _ _)
  | dist3 => exact finishValue_silent s (r := dist3 s) (distanceValue_silent s _ _)
  | dist4 | dist5 | dist6 | dist7 | dist8 | dist9 | dist10 | dist11 | dist12 | dist13
  | dist14 | dist15 | dist16 | dist17 | dist18 | dist19 | dist20 | dist21 | dist22 | dist23 | dist24 | dist25 | dist26
  | dist27 | dist28 | dist29 => exact finishValue_silent s (distanceValue_silent s _ _)
  | gzTrailer => exact finish_silent s (gzTrailer_silent s)
  | rb n => exact finishValue_silent s (readBits_silent s n)
  | pb n => exact finishValue_silent s (peekBits_silent s n)
  | align => exact finishValue_silent s (alignToByte_silent s)
  | setmode m => exact finish_silent s (setMode_silent s m)
  | buildRanges t pairs => exact finish_silent s (buildFromRanges_silent s t pairs)
  | buildLengths t lens => exact finish_silent s (buildFromLengths_silent s t lens)
  | find t => exact finishValue_silent s (findNextSymbol_silent s t)
  | copy dist n => exact finish_silent s (copyRun_silent s dist n)
  | blkStored | blkDynamic | blkReserved | lit | len286 | len287 | dist30 | dist31 | bitpos | append => rfl

/-! ## One step -/

theorem State.start_silent : s.silent.start = s.start.silent := by
  cases hn : s.suspended with
  | none =>
    have hn' : s.silent.suspended = none := congrArg (Option.map Block.silent) hn
    rw [State.start_of_none hn, State.start_of_none hn']
  | some b =>
    have hn' : s.silent.suspended = some b.silent := congrArg (Option.map Block.silent) hn
    rw [State.start_of_some hn, State.start_of_some hn']
    rfl

theorem fetch_silent : fetch s.silent = (fetch s).silent := by
  unfold fetch
  rw [State.silent_seq]
  split
  · refine Res.bind_silent (findNextSymbol_silent s .cl) fun v t => ?_
    split
    · rfl
    · rfl
  · refine Res.bind_silent (findNextSymbol_silent s .ll) fun v t => ?_
    split
    · rfl
    · rfl
  · split
    · rfl
    · rfl

theorem resumeFrom_silent {o o' : Host.Outcome State Fault Refusal} (h : o' = silentOutcome o) :
    resumeFrom s.silent o' = silentOutcome (resumeFrom s o) := by
  subst h
  cases o with
  | next t =>
    have hsusp : t.silent.suspended.isSome = t.suspended.isSome := Option.isSome_map
    show (if t.silent.suspended.isSome then _ else _) = silentOutcome (if t.suspended.isSome then _ else _)
    rw [hsusp]
    exact ite_silent rfl rfl
  | fault f => rfl
  | refused r => rfl

theorem runElement_silent : runElement s.silent = silentOutcome (runElement s) := by
  unfold runElement
  rw [fetch_silent]
  cases fetch s with
  | ok i t => exact resumeFrom_silent s (exec_silent t i)
  | raise k q t => rfl
  | wait t => rfl
  | fault f => rfl
  | refused r => rfl

theorem acceptChunk_silent : acceptChunk s.silent = (acceptChunk s).silent :=
  ite_silent rfl rfl

theorem blockStep_silent : blockStep s.silent = silentOutcome (blockStep s) := by
  unfold blockStep
  rw [State.start_silent]
  refine ite_silent (congrArg Host.Outcome.next ?_) (ite_silent rfl (runElement_silent _))
  exact ite_silent (acceptChunk_silent _) rfl

end

/-- Settles O58: with no act of the host a step is the block's, and no operation of it reads the sink or the events. -/
theorem diagnosticsHaveNoEffect : Obligations.DiagnosticsHaveNoEffect := by
  unfold Obligations.DiagnosticsHaveNoEffect
  intro s hh
  have hh' : s.silent.host = [] := hh
  rw [step_of_no_act hh, step_of_no_act hh', blockStep_silent]

end Sys2Proof.Machine
end

section
/-! PROOFS. The terminal phases (R272, R488) and the table-view port (R498). -/

namespace Sys2Proof.Machine

open Sys2Proof

/-! ## P_DONE and P_ERROR -/

/-- In a terminal phase, with no chunk pending, a step of the block changes nothing (R488). -/
theorem blockStep_of_terminal {s : State} (hn : s.suspended = none) (hp : s.ports.outPend = false)
    (ht : terminal s.seq.phase = true) : blockStep s = .next s := by
  rw [blockStep, State.start_of_none hn, if_neg (by rw [hp]; decide), if_pos ht]

/-- Settles O45: with no act of the host a step is the block's, which is idle in both terminal phases. -/
theorem terminalPhasesIdle : Obligations.TerminalPhasesIdle := by
  unfold Obligations.TerminalPhasesIdle
  intro s hh hn hp hphase
  have ht : terminal s.seq.phase = true := by
    obtain h | h := hphase <;> (rw [h]; rfl)
  rw [step_of_no_act hh, blockStep_of_terminal hn hp ht]

/-! ## The table-view port -/

theorem readTable_of_two_lt {code : Nat} (h : 2 < code) (s : State) (k : Nat) : readTable s code k = none := by
  have hcode : tableOfCode code = none := by
    rw [← Option.not_isSome_iff_eq_none, tableOfCode_isSome]; omega
  rw [readTable, hcode]; rfl

/-- The stored entry of a table that is not malformed is shown as it is. -/
theorem viewTable_entry_of_some {s : State} {id : TableId} {k : Nat} {e : Entry}
    (hm : (s.tables.get id).malformed = false) (he : (s.tables.get id).entries[k]? = some e) :
    (viewTable s id k).entry = e := by
  unfold viewTable
  simp [he, hm]

/-- Past the last entry the port shows zeros. -/
theorem viewTable_entry_of_size_le {s : State} {id : TableId} {k : Nat} (h : (s.tables.get id).size ≤ k) :
    (viewTable s id k).entry = { code := 0, bits := 0, symbol := 0, rev := 0 } := by
  unfold viewTable
  simp [List.getElem?_eq_none h]

/-- Settles O50: the three ids name their tables, and a view is N, MALFORMED and the entry or zeros. -/
theorem tableViewShowsEntries : Obligations.TableViewShowsEntries := by
  unfold Obligations.TableViewShowsEntries
  exact ⟨fun s k => ⟨rfl, rfl, rfl, fun _ h => readTable_of_two_lt h s k⟩,
    fun _ _ _ => ⟨rfl, rfl, fun _ hm he => viewTable_entry_of_some hm he, viewTable_entry_of_size_le⟩⟩

end Sys2Proof.Machine
end

section
/-! PROOFS. A wait takes no time (R8, R521): an element that waits has written the block only, and the block it began with
is kept beside it, so that with more input the next step starts where the element did. -/

namespace Sys2Proof.Machine

open Sys2Proof

/-! ## A waiting state starts where its element began -/

section
variable {s t : State}

theorem MatchesTo.sameHost (h : MatchesTo s t) : SameHost s t := by
  rw [h.only]; rfl

theorem ReadsTo.sameHost (h : ReadsTo s t) : SameHost s t := h.matches.sameHost

theorem SameHost.trans {u : State} (h : SameHost s t) (h' : SameHost t u) : SameHost s u := by
  rw [h', h]; rfl

/-- An instruction writes the block, and beside it only whether it waits. -/
theorem Leaves.sameHost {i : Instr} (h : Leaves i s t) : SameHost s { t with suspended := s.suspended } := by
  unfold SameHost
  rw [← h.params, ← h.input, ← h.inputEnd, ← h.host, ← h.autoAccept, ← h.accepted]

/-- The wait of an element that has written the block only starts at the element's start. -/
theorem SameHost.start_suspend (h : SameHost s t) (hn : s.suspended = none) : (suspend s t).start = s := by
  rw [State.start_of_some (suspend_suspended s t), suspend, h, ← hn]

theorem findNextSymbol_sameHost (id : TableId) (s : State) :
    (findNextSymbol id s).sat (fun _ t => SameHost s t) (fun _ _ t => SameHost s t) fun t => SameHost s t :=
  Res.sat_mono (findNextSymbol_sat id s) (fun _ _ ⟨hm, _⟩ => hm.sameHost) (fun _ _ _ ⟨_, _, hr, _⟩ => hr.sameHost)
    fun _ ⟨hr, _⟩ => hr.sameHost

/-- Wherever the fetch of an instruction ends, it has written the block only (R126, R316, R340). -/
theorem fetch_sameHost (s : State) :
    (fetch s).sat (fun _ t => SameHost s t) (fun _ _ t => SameHost s t) fun t => SameHost s t := by
  unfold fetch
  split
  · refine Res.sat_bind (findNextSymbol_sameHost .cl s) fun v t ht => ?_
    split
    · exact ht
    · exact ht
  · refine Res.sat_bind (findNextSymbol_sameHost .ll s) fun v t ht => ?_
    split
    · exact ht
    · trivial
  · split
    · exact rfl
    · trivial

/-- An instruction that waits inside the element of `s`, fetched in `u`, leaves the element's start behind it. -/
theorem resumeFrom_start {u : State} {i : Instr} (hn : s.suspended = none) (hu : SameHost s u)
    (h : resumeFrom s (exec i u) = .next t) (ht : t.suspended.isSome = true) : t.start = s := by
  cases hx : exec i u with
  | next v =>
    rw [hx, resumeFrom] at h
    split at h
    next =>
      obtain rfl : suspend s v = t := by injection h
      exact (hu.trans (exec_leaves hx).1.sameHost).start_suspend hn
    next hv =>
      obtain rfl : v = t := by injection h
      exact absurd ht hv
  | fault e => rw [hx] at h; cases h
  | refused e => rw [hx] at h; cases h

/-- An element waits in its fetch or in its instruction; where its fetch raises, nothing waits. -/
theorem runElement_start (hn : s.suspended = none) (h : runElement s = .next t) (ht : t.suspended.isSome = true) :
    t.start = s := by
  have hsame := fetch_sameHost s
  unfold runElement at h
  cases hf : fetch s with
  | ok i u =>
    rw [hf] at h hsame
    exact resumeFrom_start hn hsame h ht
  | raise k q u =>
    rw [hf] at h hsame
    obtain rfl : errorEntry k q u = t := by injection h
    have hu : SameHost s u := hsame
    rw [errorEntry_suspended, hu.suspended, hn] at ht
    cases ht
  | wait u =>
    rw [hf] at h hsame
    obtain rfl : suspend s u = t := by injection h
    exact SameHost.start_suspend hsame hn
  | fault e => rw [hf] at h; cases h
  | refused e => rw [hf] at h; cases h

/-- A step of the block that leaves an element suspended ran that element, for neither a handshake nor a terminal phase
leaves one (R488, R533). -/
theorem blockStep_start (h : blockStep s = .next t) (ht : t.suspended.isSome = true) : t.start = s.start := by
  unfold blockStep at h
  split at h
  next =>
    have hidle : t.suspended = none := by
      injection h with h
      rw [← h]
      split
      · rw [acceptChunk_suspended, s.start_suspended]
      · exact s.start_suspended
    rw [hidle] at ht; cases ht
  next =>
    split at h
    next =>
      obtain rfl : s.start = t := by injection h
      rw [s.start_suspended] at ht; cases ht
    next => exact runElement_start s.start_suspended h ht

/-! ## The next step depends on that start only -/

theorem State.start_withInput (s : State) (bytes : List Byte) (ended : Bool) :
    (s.withInput bytes ended).start = s.start.withInput bytes ended := by
  cases hn : s.suspended with
  | none => rw [State.start_of_none hn, State.start_of_none (s := s.withInput bytes ended) hn]
  | some b => rw [State.start_of_some hn, State.start_of_some (s := s.withInput bytes ended) hn]; rfl

theorem State.start_start (s : State) : s.start.start = s.start := State.start_of_none s.start_suspended

theorem blockStep_of_start (h : s.start = t.start) : blockStep s = blockStep t := by
  unfold blockStep; rw [h]

end

/-- Settles O56: the waiting state starts where its element began, and a step of the block depends on that start only. -/
theorem waitResumesTheElement : Obligations.WaitResumesTheElement := by
  unfold Obligations.WaitResumesTheElement
  intro s t bytes ended hh h ht
  rw [step_of_no_act hh] at h
  have hstart : t.start = s.start := blockStep_start h ht
  have hinput : t.input = s.input := by rw [← t.start_input, hstart, s.start_input]
  have hhost : s.start.host = [] := s.start_host.trans hh
  have hhost' : t.host = [] := by rw [← t.start_host, hstart, hhost]
  refine ⟨hstart, ?_⟩
  rw [step_of_no_act (s := t.withInput _ ended) hhost', step_of_no_act (s := s.start.withInput _ ended) hhost, hinput]
  exact blockStep_of_start (by rw [State.start_withInput, State.start_withInput, State.start_start, hstart])

end Sys2Proof.Machine
end
